-- ==== Sys2Proof/Word.lean ====
section
/-! DEFINITION. The word types of the Lorust L8 and the two conversions between an unbounded value and its
encoding (`sext` and `zext` of Table 4-10, R83). -/
namespace Sys2Proof

/-- One byte of memory. -/
abbrev Byte := BitVec 8
/-- A g register, an s-register, a virtual address register (R47). -/
abbrev Word := BitVec 64
/-- One instruction: three 32-bit words, the lowest address in bits [31:0] (R63). -/
abbrev IWord := BitVec 96

/-- `sext(x, n)`: the integer whose `n`-bit two's complement encoding is the low `n` bits of `x` (R83). -/
def sextN (x n : Nat) : Int :=
  let y := x % 2 ^ n
  if y < 2 ^ (n - 1) then (y : Int) else (y : Int) - (2 ^ n : Nat)

/-- `zext(x, n)`: the low `n` bits of `x` (R83). -/
def zextN (x n : Nat) : Nat := x % 2 ^ n

/-- The `n`-bit two's complement encoding of an unbounded integer: `x mod 2^n`. -/
def encN (x : Int) (n : Nat) : Nat := (x % (2 ^ n : Nat)).toNat

/-- Bits `[hi:lo]` of a natural number (R4). -/
def bitsN (x hi lo : Nat) : Nat := (x >>> lo) % 2 ^ (hi + 1 - lo)

end Sys2Proof
end

