-- ==== Sys2Proof/Syntax.lean ====
section
/-! DEFINITION. The syntax of the machine: one constructor of `Instr` for each row of the table of operations and
events. Core instructions (rows of groups 0x01 to 0x0D) and row instructions (group 0x10) carry their fields as an
`Ops` (R64, R69); events carry what the outside or the free choices of the spec give them. -/
namespace Sys2Proof

/-- The type codes of Table 4-3 (R75). -/
inductive Ty where
  | i8 | u8 | i16 | u16 | i32 | u32 | i64 | u64 | e4m3 | e5m2 | bf16 | fp16 | fp32 | fp64 | i4 | t2
  deriving DecidableEq, Repr

/-- An operand field (Table 4-2, R69). `none` is the all-zero field of an operand the instruction does not use (R73). -/
inductive Operand where
  | none
  | g (n : Fin 32)
  | v (first : Fin 32) (grp : Fin 4) (mark : Bool)
  | k (n : Fin 8)
  | d (first : Fin 16) (grp : Fin 5) (mark : Bool)
  | acc (tile dir : Fin 4) (idx : Fin 256) (ind mark : Bool)
  | i16 (x : BitVec 16)
  | s (n : BitVec 10)
  | i32 (half : BitVec 16)
  deriving DecidableEq, Repr

/-- The fields that every instruction shares (Table 4-1, R64): guard, operands, types, variant, schedule bits. -/
structure Ops where
  guard : Fin 8
  inv : Bool
  d : Operand
  a : Operand
  b : Operand
  td : Ty
  ts : Ty
  var : Fin 16
  hint : Fin 4
  yield : Bool
  deriving DecidableEq, Repr

/-- The cause codes of Table 19-4 (R402), in code order. -/
inductive Cause where
  | none | illOp | illField | illClass | illOverlap | illType | priv | vlRange | accRange | align | pageAbsent | pageRead | pageWrite | pageExec | pageShared | addrRange
  | walkFormat | poison | eccUncorr | planeCheck | regionHandle | regionMode | owner | rowBudget | jointLong | seqFetch | bankParam | accOverflow | fpEnabled | intDivzero | dirZero | dirCode
  | pegBusy | engineFull | landingUnder | watchdog | spawnFull | spawnRecord | liveDead | graphKilled | break_ | service | step | watch | bloomFormat | bloomLength | beamDegraded | beamDown
  | remoteTimeout | hostAbort | hostPoison | peerAbort | faultqFull | imageAccess | sramUncorr | coreParity | seqParity | maskEmpty | resumeState | fwAuth | powerLimit | thermal | selfCheck | scrap
  deriving DecidableEq, Repr

/-- The code of a cause (Table 19-4). -/
def Cause.code : Cause → Nat
  | .none => 0 | .illOp => 1 | .illField => 2 | .illClass => 3
  | .illOverlap => 4 | .illType => 5 | .priv => 6 | .vlRange => 7
  | .accRange => 8 | .align => 9 | .pageAbsent => 10 | .pageRead => 11
  | .pageWrite => 12 | .pageExec => 13 | .pageShared => 14 | .addrRange => 15
  | .walkFormat => 16 | .poison => 17 | .eccUncorr => 18 | .planeCheck => 19
  | .regionHandle => 20 | .regionMode => 21 | .owner => 22 | .rowBudget => 23
  | .jointLong => 24 | .seqFetch => 25 | .bankParam => 26 | .accOverflow => 27
  | .fpEnabled => 28 | .intDivzero => 29 | .dirZero => 30 | .dirCode => 31
  | .pegBusy => 32 | .engineFull => 33 | .landingUnder => 34 | .watchdog => 35
  | .spawnFull => 36 | .spawnRecord => 37 | .liveDead => 38 | .graphKilled => 39
  | .break_ => 40 | .service => 41 | .step => 42 | .watch => 43
  | .bloomFormat => 44 | .bloomLength => 45 | .beamDegraded => 46 | .beamDown => 47
  | .remoteTimeout => 48 | .hostAbort => 49 | .hostPoison => 50 | .peerAbort => 51
  | .faultqFull => 52 | .imageAccess => 53 | .sramUncorr => 54 | .coreParity => 55
  | .seqParity => 56 | .maskEmpty => 57 | .resumeState => 58 | .fwAuth => 59
  | .powerLimit => 60 | .thermal => 61 | .selfCheck => 62 | .scrap => 63

/-- The cause that a six-bit field holds. -/
def Cause.ofCode (n : Nat) : Cause :=
  [.none, .illOp, .illField, .illClass, .illOverlap, .illType, .priv, .vlRange,
   .accRange, .align, .pageAbsent, .pageRead, .pageWrite, .pageExec, .pageShared, .addrRange,
   .walkFormat, .poison, .eccUncorr, .planeCheck, .regionHandle, .regionMode, .owner, .rowBudget,
   .jointLong, .seqFetch, .bankParam, .accOverflow, .fpEnabled, .intDivzero, .dirZero, .dirCode,
   .pegBusy, .engineFull, .landingUnder, .watchdog, .spawnFull, .spawnRecord, .liveDead, .graphKilled,
   .break_, .service, .step, .watch, .bloomFormat, .bloomLength, .beamDegraded, .beamDown,
   .remoteTimeout, .hostAbort, .hostPoison, .peerAbort, .faultqFull, .imageAccess, .sramUncorr, .coreParity,
   .seqParity, .maskEmpty, .resumeState, .fwAuth, .powerLimit, .thermal, .selfCheck, .scrap].getD (n % 64) .none

/-- A physical lane of a module of one direction of a beam (R418). -/
structure LaneRef where
  beam : Nat
  dir : Nat
  module : Nat
  lane : Nat
  deriving DecidableEq, Repr

/-- A module of one direction of a beam (R418). -/
structure ModRef where
  dir : Nat
  module : Nat
  deriving DecidableEq, Repr

/-- What a data flit carries (Table 21-1): its channel (Table 15-3) and its 240 payload bytes. -/
structure FlitData where
  vc : Nat
  payload : List Byte
  deriving DecidableEq, Repr

/-- Who waits for an answer of a home point, the host or a peer (R272, R305): a core, or a copy of an engine. -/
inductive Target where
  | hart (n : Nat)
  | copy (engine seq : Nat)
  deriving DecidableEq, Repr

/-- How the host or a peer answers a device request (R272, R305). -/
inductive Completion where
  | normal | abort | poisoned | peerAbort
  deriving DecidableEq, Repr

/-- One constructor per row of the table of operations and events. -/
inductive Instr where
  -- scalar integer (R128 to R132)
  | add (x : Ops)
  | sub (x : Ops)
  | mul (x : Ops)
  | mulh (x : Ops)
  | mulhu (x : Ops)
  | div (x : Ops)
  | divu (x : Ops)
  | rem (x : Ops)
  | remu (x : Ops)
  | and (x : Ops)
  | or (x : Ops)
  | xor (x : Ops)
  | andn (x : Ops)
  | shl (x : Ops)
  | shr (x : Ops)
  | sra (x : Ops)
  | rol (x : Ops)
  | clz (x : Ops)
  | ctz (x : Ops)
  | popc (x : Ops)
  | min (x : Ops)
  | max (x : Ops)
  | minu (x : Ops)
  | maxu (x : Ops)
  | slt (x : Ops)
  | sltu (x : Ops)
  | seq (x : Ops)
  | sel (x : Ops)
  | mov (x : Ops)
  | li (x : Ops)
  | lih (x : Ops)
  | sext (x : Ops)
  | zext (x : Ops)
  | lea (x : Ops)
  | leaPc (x : Ops)
  -- scalar floating point (R134 to R138)
  | fadd (x : Ops)
  | fsub (x : Ops)
  | fmul (x : Ops)
  | fma (x : Ops)
  | fdiv (x : Ops)
  | fsqrt (x : Ops)
  | fmin (x : Ops)
  | fmax (x : Ops)
  | fcvt (x : Ops)
  | fcmp (x : Ops)
  | fclass (x : Ops)
  -- vector (R149 to R163)
  | vadd (x : Ops)
  | vsub (x : Ops)
  | vmul (x : Ops)
  | vmulh (x : Ops)
  | vfma (x : Ops)
  | vdiv (x : Ops)
  | vsqrt (x : Ops)
  | vmin (x : Ops)
  | vmax (x : Ops)
  | vabs (x : Ops)
  | vand (x : Ops)
  | vor (x : Ops)
  | vxor (x : Ops)
  | vandn (x : Ops)
  | vshl (x : Ops)
  | vshr (x : Ops)
  | vsra (x : Ops)
  | vcmpeq (x : Ops)
  | vcmpne (x : Ops)
  | vcmplt (x : Ops)
  | vcmple (x : Ops)
  | vsel (x : Ops)
  | vmov (x : Ops)
  | vdot (x : Ops)
  | vcvt (x : Ops)
  | vbscl (x : Ops)
  | vbqntScale (x : Ops)
  | vbqntQuant (x : Ops)
  | vredsum (x : Ops)
  | vredmin (x : Ops)
  | vredmax (x : Ops)
  | vscan (x : Ops)
  | vscanmax (x : Ops)
  | vperm (x : Ops)
  | vslideUp (x : Ops)
  | vslideDown (x : Ops)
  | vbcast (x : Ops)
  | vext (x : Ops)
  | vcompress (x : Ops)
  | viota (x : Ops)
  | vhad (x : Ops)
  | vlut (x : Ops)
  | vexp2 (x : Ops)
  | vlog2 (x : Ops)
  | vrcp (x : Ops)
  | vrsq (x : Ops)
  | vrng (x : Ops)
  | setvl (x : Ops)
  | getvlLen (x : Ops)
  | getvlMax (x : Ops)
  -- predicates (R164)
  | kand (x : Ops)
  | kor (x : Ops)
  | kxor (x : Ops)
  | knot (x : Ops)
  | kcnt (x : Ops)
  | kfirst (x : Ops)
  | kwhile (x : Ops)
  -- matrix (R171)
  | mzero (x : Ops)
  | mop (x : Ops)
  | mops (x : Ops)
  | mopk (x : Ops)
  | mld (x : Ops)
  | mst (x : Ops)
  | mldt (x : Ops)
  | mstt (x : Ops)
  | mmovv (x : Ops)
  | mmova (x : Ops)
  | mscl (x : Ops)
  | mcvt (x : Ops)
  | mrel (x : Ops)
  -- directional (R196)
  | dnorm (x : Ops)
  | dexp (x : Ops)
  | ddot (x : Ops)
  | ddotf (x : Ops)
  | dsclVal (x : Ops)
  | dsclLog (x : Ops)
  | dadd (x : Ops)
  | dsub (x : Ops)
  | dprojPar (x : Ops)
  | dprojPerp (x : Ops)
  | dmov (x : Ops)
  | dld (x : Ops)
  | dst (x : Ops)
  | dcmpGe (x : Ops)
  | dcmpGt (x : Ops)
  | dcmpSame (x : Ops)
  | dgetnLog (x : Ops)
  | dgetnLen (x : Ops)
  | dsetn (x : Ops)
  -- memory (R273 to R285)
  | ld (x : Ops)
  | st (x : Ops)
  | lda (x : Ops)
  | stl (x : Ops)
  | ldv (x : Ops)
  | stv (x : Ops)
  | lds (x : Ops)
  | sts (x : Ops)
  | ldg (x : Ops)
  | stg (x : Ops)
  | ldff (x : Ops)
  | amo (x : Ops)
  | cas (x : Ops)
  | vamo (x : Ops)
  | clean (x : Ops)
  | inval (x : Ops)
  | flush (x : Ops)
  | pf (x : Ops)
  | pfh (x : Ops)
  | fence (x : Ops)
  | fenceSc (x : Ops)
  -- engines (R293 to R309)
  | cpyByte (x : Ops)
  | cpyTin (x : Ops)
  | cpyTout (x : Ops)
  | cpyBloom (x : Ops)
  | cpyf (x : Ops)
  | cpyc (x : Ops)
  | give (x : Ops)
  | take (x : Ops)
  | takeNew (x : Ops)
  | waitb (x : Ops)
  -- bank commands (R219)
  | bkadd (x : Ops)
  | bkmul (x : Ops)
  | bkfma (x : Ops)
  | bkdot8 (x : Ops)
  | bklut4 (x : Ops)
  | bksum (x : Ops)
  | bkfill (x : Ops)
  | bkacc (x : Ops)
  | bkclr (x : Ops)
  -- row programs, core side (R241, R242)
  | rpgo (x : Ops)
  | rpmodeCopy (x : Ops)
  | rpmodeCompute (x : Ops)
  -- control and tasks (R323)
  | br (x : Ops)
  | brz (x : Ops)
  | brnz (x : Ops)
  | jmp (x : Ops)
  | jr (x : Ops)
  | call (x : Ops)
  | callReg (x : Ops)
  | ret (x : Ops)
  | spawn (x : Ops)
  | done (x : Ops)
  | endTask (x : Ops)
  | yield (x : Ops)
  | waitc (x : Ops)
  | waita (x : Ops)
  | launch (x : Ops)
  | liveSet (x : Ops)
  | liveDrop (x : Ops)
  | mfs (x : Ops)
  | mts (x : Ops)
  | traps (x : Ops)
  | brk (x : Ops)
  -- system (R374, R400, R413, R432)
  | tlbinvVa (x : Ops)
  | tlbinvAsid (x : Ops)
  | tlbinvAll (x : Ops)
  | revokeRegion (x : Ops)
  | revokeAsid (x : Ops)
  | resume (x : Ops)
  | kill (x : Ops)
  | attest (x : Ops)
  | eret (x : Ops)
  | scrub (x : Ops)
  | beamrateSet (x : Ops)
  | beamrateFloor (x : Ops)
  | beamrateCeil (x : Ops)
  | beamrateOwner (x : Ops)
  | beamretire (x : Ops)
  | beamstatRate (x : Ops)
  | beamstatWidth (x : Ops)
  | beamstatRetired (x : Ops)
  | beamstatCrc (x : Ops)
  | beamstatReplay (x : Ops)
  | beamstatRrate (x : Ops)
  | beamstatModule (x : Ops)
  | beamstatCfg (x : Ops)
  | beamstatEvents (x : Ops)
  -- row instructions (R248)
  | rc (x : Ops)
  | rm3 (x : Ops)
  | rnt (x : Ops)
  | rsl (x : Ops)
  | rsr (x : Ops)
  | rz (x : Ops)
  | ro (x : Ops)
  | rjoint (x : Ops)
  | rloop (x : Ops)
  | rnext (x : Ops)
  | rbaseSet (x : Ops)
  | rbaseAdd (x : Ops)
  | rplaneSet (x : Ops)
  | rplaneAdd (x : Ops)
  | rrd (x : Ops)
  | rwr (x : Ops)
  | rchk (x : Ops)
  | rsetSel (x : Ops)
  | rhalt (x : Ops)
  -- events
  | powerGood
  | phaseRomDone
  | phaseAuthDone (flash : List (BitVec 8))
  | phaseDramDone (fail : Nat)
  | phaseCoresDone (fail spares : Nat)
  | phaseBeamsDone (ok : Bool) (repairs : List LaneRef)
  | phaseSramDone
  | phaseCheckDone (fail : Nat)
  | perstAssert (port : Nat)
  | perstDeassert (port : Nat)
  | devreset (value : Word)
  | portHotReset (port : Nat)
  | fwctlGo (value : Word)
  | doorbell (queue : Nat) (value : Word)
  | controlRegisterWrite (offset : Nat) (value : Word)
  | hostAccess (port addr len : Nat) (data : Option (List Byte))
  | queueResident (post : Nat)
  | queueDormant (post : Nat)
  | dispatchBatch (queue count : Nat)
  | taskBind (post : Nat)
  | preemptStop (hart unit : Nat)
  | imageSaveDone (hart : Nat)
  | faultqHeldWrite (graph : Nat)
  | watchdog (hart unit port kind field : Nat) (addr : Word)
  | bankCmdStart (post : Nat)
  | bankCmdComplete (post seq : Nat)
  | copyStart (engine : Nat)
  | copyLand (engine seq : Nat) (run : Nat × Nat)
  | copyComplete (engine seq : Nat)
  | modeChange (post asid handle : Nat)
  | rowprogStart (post : Nat)
  | waveAdmit (post die : Nat)
  | activationAlert (post sub row : Nat)
  | refresh (post sub : Nat)
  | rowReportStop (hart : Nat)
  | flitSend (beam dir : Nat) (data : Option FlitData)
  | flitReceive (beam dir : Nat) (errors : List Nat)
  | replayTimeout (beam dir : Nat)
  | replayWindowEnd (beam dir : Nat)
  | laneRetire (lane : LaneRef)
  | moduleRetrainDone (beam dir module : Nat)
  | rateChangeDrained (beam : Nat)
  | rateRetrainDone (beam : Nat) (failNew failOld : List ModRef)
  | asyncTrapTake (core unit : Nat)
  | powerLimit (domain : Nat)
  | thermal (die : Nat)
  | postScrap (post : Nat)
  | packageScrap (posts : Nat)
  | accessPerform (host : Option Nat) (index : Nat)
  | l2Eviction (addr : Nat)
  | hostWrite (addr : Nat) (data : List Byte)
  | remoteTimeout (target : Target)
  | hostCompletion (target : Target) (kind : Completion)
  | powerGoodDrop
  | temperatureFall (die : Nat)
  deriving DecidableEq, Repr

end Sys2Proof
end

