-- ==== Sys2Proof/Config.lean ====
section
/-! DEFINITION. What the implementation fixes and the free values: constants without a body, so that nothing can be
proved of a value the spec leaves open. Most are applied to `State.tick`, a plain counter that a step advances when it
uses one (log 7). -/
namespace Sys2Proof.Config

/-- How far CYCLES has moved since the last read of it (R24, log 8). -/
opaque cyclesStep : Nat → Nat
/-- Which free non-zero GRAPHID a launch takes: an index into the free ones (R26, log 9). -/
opaque graphIdPick : Nat → Nat
/-- Which free image base a binding takes: an index into the free ones (R57, log 10). -/
opaque imagePick : Nat → Nat
/-- Which value of a page-table entry a walk uses at a level: 0 memory's, n the n-th remembered (R366, log 11). -/
opaque walkPick : Nat → Nat → Nat → Nat
/-- The milliseconds that BOOTSTAT.ELAPSED counts (R17, log 35). -/
opaque elapsed : Nat → BitVec 32
/-- The device's private identity key, taken as a number from 1 to n − 1 (R386, log 16). -/
opaque identityKey : Nat
/-- The firmware key held in boot ROM: a point of the curve (R387, log 16). -/
opaque firmwareKey : Nat × Nat
/-- The signing nonce of an attestation report (R388, log 16). -/
opaque attestNonce : Nat → Nat
/-- The two rows physically adjacent to a row of a subarray (R256, log 21). -/
opaque neighbours : Nat → Nat → Nat × Nat
/-- Whether CXL memory is attached to the east port (R262, log 22). -/
opaque cxlEast : Bool
/-- Which of the values that it may return a fetch gives for a 32-bit word of an instruction (R66, log 13). -/
opaque fetchPick : Nat → Nat → Nat
/-- Which line leaves an L2 that holds more than its capacity (R9, log 12). -/
opaque l2Victim : Nat → Nat
/-- The place of an element in the order in which the elements of one element group are computed, where it shows (R7,
R39, R146, log 23). -/
opaque elementRank : Nat → Nat → Nat
/-- The value of a register that a task's core lost (R410, log 28). -/
opaque lostValue : Nat → BitVec 4096
/-- A byte of the plane map in a word that cannot be read (R408, log 78). -/
opaque mapByte : Nat → BitVec 8
/-- A byte of bench pages that a buffer has left (R309, log 25). -/
opaque leftByte : Nat → Nat → BitVec 8

end Sys2Proof.Config
end

