-- ==== Sys2Proof/WellFormed.lean ====
section
/-! DEFINITION. Which fields make an instruction: the classes, types, variants and groups that each instruction allows
(the encoding headers of the instruction chapters, R63 to R76), as one description per row. `Instr.wf` is the check on
the fields of an instruction; the decoder makes the same checks in the order of Table 4-7. -/
namespace Sys2Proof

/-- The width in bits of a type (Table 4-3). -/
def Ty.width : Ty → Nat
  | .i8 | .u8 | .e4m3 | .e5m2 => 8
  | .i16 | .u16 | .bf16 | .fp16 => 16
  | .i32 | .u32 | .fp32 => 32
  | .i64 | .u64 | .fp64 => 64
  | .i4 => 4
  | .t2 => 2

/-- The code of a type (Table 4-3). -/
def Ty.code : Ty → Nat
  | .i8 => 0 | .u8 => 1 | .i16 => 2 | .u16 => 3 | .i32 => 4 | .u32 => 5 | .i64 => 6 | .u64 => 7
  | .e4m3 => 8 | .e5m2 => 9 | .bf16 => 10 | .fp16 => 11 | .fp32 => 12 | .fp64 => 13 | .i4 => 14 | .t2 => 15

/-- The type that a code names (Table 4-3). -/
def Ty.ofCode (n : Nat) : Ty :=
  match n % 16 with
  | 0 => .i8 | 1 => .u8 | 2 => .i16 | 3 => .u16 | 4 => .i32 | 5 => .u32 | 6 => .i64 | 7 => .u64
  | 8 => .e4m3 | 9 => .e5m2 | 10 => .bf16 | 11 => .fp16 | 12 => .fp32 | 13 => .fp64 | 14 => .i4 | _ => .t2

/-- I8 to U64, the set INT of the vector chapter. -/
def Ty.isInt (t : Ty) : Bool := t.code < 8
/-- The integer types of R154: INT with I4 and T2. -/
def Ty.isIntX (t : Ty) : Bool := t.code < 8 || 14 ≤ t.code
/-- E4M3 to FP64, the set FP. -/
def Ty.isFp (t : Ty) : Bool := 8 ≤ t.code && t.code < 14
/-- BF16 to FP64, the set FPW. -/
def Ty.isFpw (t : Ty) : Bool := 10 ≤ t.code && t.code < 14
/-- The signed integer types. -/
def Ty.isSigned : Ty → Bool
  | .i8 | .i16 | .i32 | .i64 | .i4 | .t2 => true
  | _ => false

/-- The class number of an operand (Table 4-2); an unused field counts as class 0. -/
def Operand.cls : Operand → Nat
  | .none => 0 | .g _ => 0 | .v .. => 1 | .k _ => 2 | .d .. => 3 | .acc .. => 4 | .i16 _ => 5 | .s _ => 6 | .i32 _ => 7

/-- Whether an operand carries the last-read mark (R56). -/
def Operand.marked : Operand → Bool
  | .v _ _ m => m | .d _ _ m => m | .acc _ _ _ _ m => m | _ => false

/-- The group size code of a v or d group, 0 for any other operand. -/
def Operand.grp : Operand → Nat
  | .v _ n _ => n.val | .d _ n _ => n.val | _ => 0

/-- One row of the opcode map with its encoding header. `cd`, `ca`, `cb` hold bit c for each allowed class, 0 where the
description marks the field "—", and bit 8 where the field may also be all zero. `vars` holds bit n for each variant
value that selects this row. `apart` names the pairs of fields whose groups may not be identical, from group code
`apartMin` up (R148, R198). -/
structure Desc where
  op : Nat
  ctor : Ops → Instr
  cd : Nat := 0
  ca : Nat := 0
  cb : Nat := 0
  tdUsed : Bool := false
  tsUsed : Bool := false
  vars : Nat := 1
  types : Ops → Bool := fun _ => true
  shape : Ops → Nat → Bool := fun _ _ => true
  apart : List (Nat × Nat) := []
  apartMin : Nat := 0
  sys : Bool := true

/-- Whether the instruction accepts an i32 immediate (R72). -/
def Desc.hasI32 (d : Desc) : Bool := d.ca.testBit 7

/-- A field of an instruction by its number: 2 D, 3 A, 4 B (Table 4-1). -/
def Ops.field (x : Ops) (f : Nat) : Operand := if f = 2 then x.d else if f = 3 then x.a else x.b

/-- The allowed classes of a field by its number. -/
def Desc.classes (d : Desc) (f : Nat) : Nat := if f = 2 then d.cd else if f = 3 then d.ca else d.cb

/-- Step 3 of Table 4-7 on one field (R72, R73): the class is allowed, an unused field is empty, class 7 is paired. -/
def Desc.classOk (d : Desc) (x : Ops) (f : Nat) : Bool :=
  let o := x.field f
  let c := d.classes f
  if f = 4 && d.hasI32 && x.a.cls = 7 then o.cls = 7
  else if f = 4 && d.hasI32 && o.cls = 7 then false
  else match o with
    | .none => c = 0 || c.testBit 8
    | o => c.testBit o.cls

/-- Step 4 of Table 4-7 on one operand (R56, R69, R70, R71): aligned group, slice index, last-read mark. -/
def Operand.placed (o : Operand) (f : Nat) : Bool :=
  match o with
  | .v first grp m => first.val % 2 ^ grp.val = 0 && (!m || f ≠ 2)
  | .d first grp m => first.val % 2 ^ grp.val = 0 && (!m || f ≠ 2)
  | .acc _ dir idx ind m =>
      (dir.val ≠ 0 || (idx.val = 0 && !ind)) && (!ind || idx.val < 32) && (!m || (f ≠ 2 && dir.val = 0))
  | _ => true

/-- Whether two groups of one class share a register (R74). -/
def Operand.overlaps (p q : Operand) : Bool :=
  match p, q with
  | .v p n _, .v q l _ => p.val < q.val + 2 ^ l.val && q.val < p.val + 2 ^ n.val
  | .d p n _, .d q l _ => p.val < q.val + 2 ^ l.val && q.val < p.val + 2 ^ n.val
  | _, _ => false

/-- Whether two groups are identical: same first register and same size (R74). -/
def Operand.identical (p q : Operand) : Bool :=
  match p, q with
  | .v p n _, .v q l _ => p.val = q.val && n.val = l.val
  | .d p n _, .d q l _ => p.val = q.val && n.val = l.val
  | _, _ => false

/-- Step 6 of Table 4-7 on one pair of fields (R74): identical or disjoint, and not identical where the description
forbids it. -/
def Desc.pairOk (d : Desc) (x : Ops) (p : Nat × Nat) : Bool :=
  let a := x.field p.1
  let b := x.field p.2
  if a.identical b then !(d.apart.contains p && d.apartMin ≤ a.grp) else !a.overlaps b

/-- The checks of steps 2 to 6 of Table 4-7 on the fields of one row (reserved bits of the word have no place in an
`Ops`). -/
def Desc.okOps (d : Desc) (x : Ops) : Bool :=
  !(x.guard.val = 0 && x.inv) && d.vars.testBit x.var.val &&
  (d.tdUsed || x.td = .i8) && (d.tsUsed || x.ts = .i8) &&
  [2, 3, 4].all (fun f => d.classOk x f) &&
  [2, 3, 4].all (fun f => (x.field f).placed f && d.shape x f) &&
  d.types x && [(2, 3), (2, 4), (3, 4)].all (fun p => d.pairOk x p)

/-- Table 9-2 and R172: the type pairs of MOP and MOPK. -/
def tyMop (x : Ops) : Bool :=
  (x.td = .fp32 && [Ty.e4m3, .e5m2, .bf16, .fp16].contains x.ts) || (x.td = .i32 && [Ty.i8, .u8].contains x.ts)
/-- R157: the type pairs of VREDSUM and VSCAN. -/
def tyRed (x : Ops) : Bool :=
  (x.td = x.ts && (x.td.isFp || [Ty.i32, .u32, .i64, .u64].contains x.td)) ||
  [(Ty.i32, Ty.i8), (.i32, .i16), (.u32, .u8), (.u32, .u16), (.i64, .i32), (.u64, .u32), (.fp32, .bf16), (.fp32, .fp16),
   (.fp32, .e4m3), (.fp32, .e5m2), (.fp64, .fp32)].contains (x.td, x.ts)
/-- Both positions hold one type of a set. -/
def tySame (p : Ty → Bool) (x : Ops) : Bool := x.td = x.ts && p x.td
/-- R141: an i16 stands for a vector operand only with integer types. -/
def noImmFp (t : Ty) (x : Ops) : Bool := x.b.cls ≠ 5 || t.isInt
/-- R279: the operation kinds of an AMO on a floating-point type. -/
def tyAmo (x : Ops) : Bool :=
  [Ty.i32, .u32, .i64, .u64].contains x.td || ([Ty.fp32, .fp64].contains x.td && [0, 4, 5].contains x.var.val)

/-- R197: every d field of one instruction names the same group size. FINFO names the first field, in the order D, A, B, that
disagrees with an earlier one, a choice (log 41). -/
def shapeD (x : Ops) (f : Nat) : Bool :=
  let o := x.field f
  o.cls ≠ 3 || [2, 3, 4].all (fun f' => f' ≥ f || (x.field f').cls ≠ 3 || (x.field f').grp = o.grp)
/-- The direction of an acc field: whole (`w`) or a slice (R71, R171). -/
def accDir (w : Bool) (o : Operand) : Bool :=
  match o with
  | .acc _ dir _ _ _ => if w then dir.val = 0 else dir.val ≠ 0
  | _ => true
/-- A v field of group code `n`; other classes pass. -/
def vGrp (n : Nat) (o : Operand) : Bool := o.cls ≠ 1 || o.grp = n

/-- What a row code of Table 12-3 names; `none` where the code is reserved (R246). -/
inductive RowCode where
  | data (row : Nat)
  | work (n : Nat)
  | const (one : Bool)
  | base (n d : Nat)
  | indexed (n m d : Nat)
  deriving DecidableEq, Repr

/-- Reading a row code (Table 12-3). -/
def rowCode (x : Nat) : Option RowCode :=
  match x >>> 12 with
  | 0 => if bitsN x 11 9 = 0 then some (.data (bitsN x 8 0)) else none
  | 1 => if bitsN x 11 4 ≠ 0 then none
         else if bitsN x 3 0 < 8 then some (.work (bitsN x 3 0))
         else if bitsN x 3 0 = 8 then some (.const false)
         else if bitsN x 3 0 = 9 then some (.const true) else none
  | 2 => if bitsN x 11 11 = 0 && bitsN x 7 6 = 0 then some (.base (bitsN x 10 8) (bitsN x 5 0)) else none
  | 3 => if bitsN x 11 11 = 0 then some (.indexed (bitsN x 10 8) (bitsN x 7 6) (bitsN x 5 0)) else none
  | _ => none

/-- The 16 bits of a class 5 operand, 0 for any other. -/
def Operand.imm : Operand → Nat
  | .i16 x => x.toNat
  | .i32 x => x.toNat
  | _ => 0

/-- R248: a source row is a data row, a work row, c0 or c1. -/
def rowSrc (o : Operand) : Bool := (rowCode o.imm).isSome
/-- R248: a destination row is a data row or a work row. -/
def rowDst (o : Operand) : Bool :=
  match rowCode o.imm with
  | some (.const _) => false
  | some _ => true
  | none => false
/-- R248: a work row. -/
def rowWork (o : Operand) : Bool :=
  match rowCode o.imm with
  | some (.work _) => true
  | _ => false
/-- R248: a data row. -/
def rowData (o : Operand) : Bool := rowDst o && !rowWork o

/-! The rows. -/
def Desc.add : Desc := { op := 0x040, ctor := .add, cd := 0x1, ca := 0x1, cb := 0x21 }
def Desc.sub : Desc := { op := 0x041, ctor := .sub, cd := 0x1, ca := 0x1, cb := 0x21 }
def Desc.mul : Desc := { op := 0x042, ctor := .mul, cd := 0x1, ca := 0x1, cb := 0x21 }
def Desc.mulh : Desc := { op := 0x043, ctor := .mulh, cd := 0x1, ca := 0x1, cb := 0x21 }
def Desc.mulhu : Desc := { op := 0x044, ctor := .mulhu, cd := 0x1, ca := 0x1, cb := 0x21 }
def Desc.div : Desc := { op := 0x045, ctor := .div, cd := 0x1, ca := 0x1, cb := 0x21 }
def Desc.divu : Desc := { op := 0x046, ctor := .divu, cd := 0x1, ca := 0x1, cb := 0x21 }
def Desc.rem : Desc := { op := 0x047, ctor := .rem, cd := 0x1, ca := 0x1, cb := 0x21 }
def Desc.remu : Desc := { op := 0x048, ctor := .remu, cd := 0x1, ca := 0x1, cb := 0x21 }
def Desc.and : Desc := { op := 0x049, ctor := .and, cd := 0x1, ca := 0x1, cb := 0x21 }
def Desc.or : Desc := { op := 0x04A, ctor := .or, cd := 0x1, ca := 0x1, cb := 0x21 }
def Desc.xor : Desc := { op := 0x04B, ctor := .xor, cd := 0x1, ca := 0x1, cb := 0x21 }
def Desc.andn : Desc := { op := 0x04C, ctor := .andn, cd := 0x1, ca := 0x1, cb := 0x21 }
def Desc.shl : Desc := { op := 0x04D, ctor := .shl, cd := 0x1, ca := 0x1, cb := 0x21 }
def Desc.shr : Desc := { op := 0x04E, ctor := .shr, cd := 0x1, ca := 0x1, cb := 0x21 }
def Desc.sra : Desc := { op := 0x04F, ctor := .sra, cd := 0x1, ca := 0x1, cb := 0x21 }
def Desc.rol : Desc := { op := 0x050, ctor := .rol, cd := 0x1, ca := 0x1, cb := 0x21 }
def Desc.clz : Desc := { op := 0x051, ctor := .clz, cd := 0x1, ca := 0x1 }
def Desc.ctz : Desc := { op := 0x052, ctor := .ctz, cd := 0x1, ca := 0x1 }
def Desc.popc : Desc := { op := 0x053, ctor := .popc, cd := 0x1, ca := 0x1 }
def Desc.min : Desc := { op := 0x054, ctor := .min, cd := 0x1, ca := 0x1, cb := 0x21 }
def Desc.max : Desc := { op := 0x055, ctor := .max, cd := 0x1, ca := 0x1, cb := 0x21 }
def Desc.minu : Desc := { op := 0x056, ctor := .minu, cd := 0x1, ca := 0x1, cb := 0x21 }
def Desc.maxu : Desc := { op := 0x057, ctor := .maxu, cd := 0x1, ca := 0x1, cb := 0x21 }
def Desc.slt : Desc := { op := 0x058, ctor := .slt, cd := 0x1, ca := 0x1, cb := 0x21 }
def Desc.sltu : Desc := { op := 0x059, ctor := .sltu, cd := 0x1, ca := 0x1, cb := 0x21 }
def Desc.seq : Desc := { op := 0x05A, ctor := .seq, cd := 0x1, ca := 0x1, cb := 0x21 }
def Desc.sel : Desc := { op := 0x05B, ctor := .sel, cd := 0x1, ca := 0x1, cb := 0x21 }
def Desc.mov : Desc := { op := 0x05C, ctor := .mov, cd := 0x1, ca := 0x1 }
def Desc.li : Desc := { op := 0x05D, ctor := .li, cd := 0x1, ca := 0xA0, cb := 0x180 }
def Desc.lih : Desc := { op := 0x05E, ctor := .lih, cd := 0x1, ca := 0x80, cb := 0x80 }
def Desc.sext : Desc :=
  { op := 0x05F, ctor := .sext, cd := 0x1, ca := 0x1, tsUsed := true,
    types := fun x => [Ty.i8, .i16, .i32].contains x.ts }
def Desc.zext : Desc :=
  { op := 0x060, ctor := .zext, cd := 0x1, ca := 0x1, tsUsed := true,
    types := fun x => [Ty.u8, .u16, .u32].contains x.ts }
def Desc.lea : Desc := { op := 0x061, ctor := .lea, cd := 0x1, ca := 0x1, cb := 0x20 }
def Desc.leaPc : Desc := { op := 0x061, ctor := .leaPc, cd := 0x1, ca := 0x80, cb := 0x80, vars := 0x2 }
def Desc.fadd : Desc :=
  { op := 0x080, ctor := .fadd, cd := 0x1, ca := 0x1, cb := 0x1, tdUsed := true, tsUsed := true, vars := 0x5F5F,
    types := tySame Ty.isFpw }
def Desc.fsub : Desc :=
  { op := 0x081, ctor := .fsub, cd := 0x1, ca := 0x1, cb := 0x1, tdUsed := true, tsUsed := true, vars := 0x5F5F,
    types := tySame Ty.isFpw }
def Desc.fmul : Desc :=
  { op := 0x082, ctor := .fmul, cd := 0x1, ca := 0x1, cb := 0x1, tdUsed := true, tsUsed := true, vars := 0x5F5F,
    types := tySame Ty.isFpw }
def Desc.fma : Desc :=
  { op := 0x083, ctor := .fma, cd := 0x1, ca := 0x1, cb := 0x1, tdUsed := true, tsUsed := true, vars := 0x5F5F,
    types := tySame Ty.isFpw }
def Desc.fdiv : Desc :=
  { op := 0x084, ctor := .fdiv, cd := 0x1, ca := 0x1, cb := 0x1, tdUsed := true, tsUsed := true, vars := 0x5F5F,
    types := tySame Ty.isFpw }
def Desc.fsqrt : Desc :=
  { op := 0x085, ctor := .fsqrt, cd := 0x1, ca := 0x1, tdUsed := true, tsUsed := true, vars := 0x5F5F,
    types := tySame Ty.isFpw }
def Desc.fmin : Desc :=
  { op := 0x086, ctor := .fmin, cd := 0x1, ca := 0x1, cb := 0x1, tdUsed := true, tsUsed := true,
    types := tySame Ty.isFpw }
def Desc.fmax : Desc :=
  { op := 0x087, ctor := .fmax, cd := 0x1, ca := 0x1, cb := 0x1, tdUsed := true, tsUsed := true,
    types := tySame Ty.isFpw }
def Desc.fcvt : Desc :=
  { op := 0x088, ctor := .fcvt, cd := 0x1, ca := 0x1, cb := 0x1, tdUsed := true, tsUsed := true, vars := 0x7F7F,
    types := fun x => let p := fun t : Ty => t.isFp || [Ty.i32, .u32, .i64, .u64].contains t; p x.td && p x.ts && (x.td.isFp || x.ts.isFp) }
def Desc.fcmp : Desc :=
  { op := 0x089, ctor := .fcmp, cd := 0x1, ca := 0x1, cb := 0x1, tsUsed := true, vars := 0x1F,
    types := fun x => x.ts.isFp }
def Desc.fclass : Desc :=
  { op := 0x08A, ctor := .fclass, cd := 0x1, ca := 0x1, tsUsed := true, types := fun x => x.ts.isFp }
def Desc.vadd : Desc :=
  { op := 0x0C0, ctor := .vadd, cd := 0x2, ca := 0x2, cb := 0x23, tdUsed := true, tsUsed := true, vars := 0x5F5F,
    types := fun x => tySame (fun t => t.isInt || t.isFp) x && noImmFp x.td x }
def Desc.vsub : Desc :=
  { op := 0x0C1, ctor := .vsub, cd := 0x2, ca := 0x2, cb := 0x23, tdUsed := true, tsUsed := true, vars := 0x5F5F,
    types := fun x => tySame (fun t => t.isInt || t.isFp) x && noImmFp x.td x }
def Desc.vmul : Desc :=
  { op := 0x0C2, ctor := .vmul, cd := 0x2, ca := 0x2, cb := 0x23, tdUsed := true, tsUsed := true, vars := 0x5F5F,
    types := fun x => tySame (fun t => t.isInt || t.isFp) x && noImmFp x.td x }
def Desc.vmulh : Desc :=
  { op := 0x0C3, ctor := .vmulh, cd := 0x2, ca := 0x2, cb := 0x23, tdUsed := true, tsUsed := true,
    types := tySame Ty.isInt }
def Desc.vfma : Desc :=
  { op := 0x0C4, ctor := .vfma, cd := 0x2, ca := 0x2, cb := 0x3, tdUsed := true, tsUsed := true, vars := 0x5F5F,
    types := tySame Ty.isFp }
def Desc.vdiv : Desc :=
  { op := 0x0C5, ctor := .vdiv, cd := 0x2, ca := 0x2, cb := 0x3, tdUsed := true, tsUsed := true, vars := 0x5F5F,
    types := tySame Ty.isFpw }
def Desc.vsqrt : Desc :=
  { op := 0x0C6, ctor := .vsqrt, cd := 0x2, ca := 0x2, tdUsed := true, tsUsed := true, vars := 0x5F5F,
    types := tySame Ty.isFpw }
def Desc.vmin : Desc :=
  { op := 0x0C7, ctor := .vmin, cd := 0x2, ca := 0x2, cb := 0x23, tdUsed := true, tsUsed := true,
    types := fun x => tySame (fun t => t.isInt || t.isFp) x && noImmFp x.td x }
def Desc.vmax : Desc :=
  { op := 0x0C8, ctor := .vmax, cd := 0x2, ca := 0x2, cb := 0x23, tdUsed := true, tsUsed := true,
    types := fun x => tySame (fun t => t.isInt || t.isFp) x && noImmFp x.td x }
def Desc.vabs : Desc :=
  { op := 0x0C9, ctor := .vabs, cd := 0x2, ca := 0x2, tdUsed := true, tsUsed := true, vars := 0x5F5F,
    types := tySame (fun t => t.isFp || [Ty.i8, .i16, .i32, .i64].contains t) }
def Desc.vand : Desc :=
  { op := 0x0CA, ctor := .vand, cd := 0x2, ca := 0x2, cb := 0x23, tdUsed := true, tsUsed := true,
    types := tySame Ty.isInt }
def Desc.vor : Desc :=
  { op := 0x0CB, ctor := .vor, cd := 0x2, ca := 0x2, cb := 0x23, tdUsed := true, tsUsed := true,
    types := tySame Ty.isInt }
def Desc.vxor : Desc :=
  { op := 0x0CC, ctor := .vxor, cd := 0x2, ca := 0x2, cb := 0x23, tdUsed := true, tsUsed := true,
    types := tySame Ty.isInt }
def Desc.vandn : Desc :=
  { op := 0x0CD, ctor := .vandn, cd := 0x2, ca := 0x2, cb := 0x23, tdUsed := true, tsUsed := true,
    types := tySame Ty.isInt }
def Desc.vshl : Desc :=
  { op := 0x0CE, ctor := .vshl, cd := 0x2, ca := 0x2, cb := 0x23, tdUsed := true, tsUsed := true,
    types := tySame Ty.isInt }
def Desc.vshr : Desc :=
  { op := 0x0CF, ctor := .vshr, cd := 0x2, ca := 0x2, cb := 0x23, tdUsed := true, tsUsed := true,
    types := tySame Ty.isInt }
def Desc.vsra : Desc :=
  { op := 0x0D0, ctor := .vsra, cd := 0x2, ca := 0x2, cb := 0x23, tdUsed := true, tsUsed := true,
    types := tySame Ty.isInt }
def Desc.vcmpeq : Desc :=
  { op := 0x0D1, ctor := .vcmpeq, cd := 0x4, ca := 0x2, cb := 0x23, tsUsed := true,
    types := fun x => (x.ts.isInt || x.ts.isFp) && noImmFp x.ts x, shape := fun x f => f = 2 || vGrp 0 (x.field f) }
def Desc.vcmpne : Desc :=
  { op := 0x0D2, ctor := .vcmpne, cd := 0x4, ca := 0x2, cb := 0x23, tsUsed := true,
    types := fun x => (x.ts.isInt || x.ts.isFp) && noImmFp x.ts x, shape := fun x f => f = 2 || vGrp 0 (x.field f) }
def Desc.vcmplt : Desc :=
  { op := 0x0D3, ctor := .vcmplt, cd := 0x4, ca := 0x2, cb := 0x23, tsUsed := true,
    types := fun x => (x.ts.isInt || x.ts.isFp) && noImmFp x.ts x, shape := fun x f => f = 2 || vGrp 0 (x.field f) }
def Desc.vcmple : Desc :=
  { op := 0x0D4, ctor := .vcmple, cd := 0x4, ca := 0x2, cb := 0x23, tsUsed := true,
    types := fun x => (x.ts.isInt || x.ts.isFp) && noImmFp x.ts x, shape := fun x f => f = 2 || vGrp 0 (x.field f) }
def Desc.vsel : Desc := { op := 0x0D5, ctor := .vsel, cd := 0x2, ca := 0x3, cb := 0x3, tdUsed := true }
def Desc.vmov : Desc := { op := 0x0D6, ctor := .vmov, cd := 0x2, ca := 0xA3, cb := 0x180, tdUsed := true }
def Desc.vdot : Desc :=
  { op := 0x0D7, ctor := .vdot, cd := 0x2, ca := 0x2, cb := 0x3, tdUsed := true, tsUsed := true, vars := 0x5F5F,
    types := fun x => (x.td = .i32 && [Ty.i8, .u8, .i4].contains x.ts) || (x.td = .fp32 && [Ty.bf16, .fp16, .e4m3, .e5m2].contains x.ts) }
def Desc.vcvt : Desc :=
  { op := 0x100, ctor := .vcvt, cd := 0x2, ca := 0x2, cb := 0x1, tdUsed := true, tsUsed := true, vars := 0x7F7F,
    types := fun x => !(x.td = x.ts && x.td.isIntX) }
def Desc.vbscl : Desc :=
  { op := 0x101, ctor := .vbscl, cd := 0x2, ca := 0x2, cb := 0x2, tdUsed := true, tsUsed := true, vars := 0x5F5F,
    types := fun x => [Ty.bf16, .fp16, .fp32].contains x.td && [Ty.e4m3, .e5m2, .i8, .i4].contains x.ts,
    shape := fun x f => f ≠ 4 || vGrp 0 x.b, apart := [(2, 4)] }
def Desc.vbqntScale : Desc :=
  { op := 0x102, ctor := .vbqntScale, cd := 0x2, ca := 0x2, tdUsed := true, tsUsed := true,
    types := fun x => [Ty.e4m3, .e5m2, .i8].contains x.td && [Ty.bf16, .fp16, .fp32].contains x.ts,
    shape := fun x f => f ≠ 2 || vGrp 0 x.d }
def Desc.vbqntQuant : Desc :=
  { op := 0x102, ctor := .vbqntQuant, cd := 0x2, ca := 0x2, cb := 0x2, tdUsed := true, tsUsed := true, vars := 0x2,
    types := fun x => [Ty.e4m3, .e5m2, .i8].contains x.td && [Ty.bf16, .fp16, .fp32].contains x.ts,
    shape := fun x f => f ≠ 4 || vGrp 0 x.b, apart := [(2, 4)] }
def Desc.vredsum : Desc :=
  { op := 0x103, ctor := .vredsum, cd := 0x1, ca := 0x2, tdUsed := true, tsUsed := true, vars := 0x5F5F,
    types := tyRed }
def Desc.vredmin : Desc :=
  { op := 0x104, ctor := .vredmin, cd := 0x1, ca := 0x2, tdUsed := true, tsUsed := true,
    types := tySame (fun t => t.isInt || t.isFp) }
def Desc.vredmax : Desc :=
  { op := 0x105, ctor := .vredmax, cd := 0x1, ca := 0x2, tdUsed := true, tsUsed := true,
    types := tySame (fun t => t.isInt || t.isFp) }
def Desc.vscan : Desc :=
  { op := 0x106, ctor := .vscan, cd := 0x2, ca := 0x2, tdUsed := true, tsUsed := true, vars := 0x5F5F,
    types := tyRed }
def Desc.vscanmax : Desc :=
  { op := 0x107, ctor := .vscanmax, cd := 0x2, ca := 0x2, tdUsed := true, tsUsed := true,
    types := tySame (fun t => t.isInt || t.isFp) }
def Desc.vperm : Desc :=
  { op := 0x108, ctor := .vperm, cd := 0x2, ca := 0x2, cb := 0x2, tdUsed := true, types := fun x => 8 ≤ x.td.width }
def Desc.vslideUp : Desc :=
  { op := 0x109, ctor := .vslideUp, cd := 0x2, ca := 0x2, cb := 0x21, tdUsed := true,
    types := fun x => 8 ≤ x.td.width }
def Desc.vslideDown : Desc :=
  { op := 0x109, ctor := .vslideDown, cd := 0x2, ca := 0x2, cb := 0x21, tdUsed := true, vars := 0x2,
    types := fun x => 8 ≤ x.td.width }
def Desc.vbcast : Desc :=
  { op := 0x10A, ctor := .vbcast, cd := 0x2, ca := 0x2, cb := 0x21, tdUsed := true, types := fun x => 8 ≤ x.td.width }
def Desc.vext : Desc :=
  { op := 0x10B, ctor := .vext, cd := 0x1, ca := 0x2, cb := 0x21, tdUsed := true, types := fun x => 8 ≤ x.td.width }
def Desc.vcompress : Desc :=
  { op := 0x10C, ctor := .vcompress, cd := 0x2, ca := 0x2, tdUsed := true, types := fun x => 8 ≤ x.td.width,
    apart := [(2, 3)] }
def Desc.viota : Desc := { op := 0x10D, ctor := .viota, cd := 0x2, tdUsed := true, types := fun x => x.td.isInt }
def Desc.vhad : Desc :=
  { op := 0x10E, ctor := .vhad, cd := 0x2, ca := 0x2, cb := 0x20, tdUsed := true, tsUsed := true, vars := 0x5F5F,
    types := tySame (fun t => [Ty.i16, .i32, .bf16, .fp16, .fp32].contains t),
    shape := fun x f => f ≠ 4 || (bitsN x.b.imm 3 0 ≤ bitsN x.b.imm 7 4 && bitsN x.b.imm 7 4 ≤ 12 && bitsN x.b.imm 15 8 = 0) }
def Desc.vlut : Desc :=
  { op := 0x10F, ctor := .vlut, cd := 0x2, ca := 0x2, cb := 0x2, tdUsed := true, tsUsed := true,
    types := fun x => [8, 16, 32].contains x.td.width && [Ty.i4, .u8].contains x.ts,
    shape := fun x f => f ≠ 4 || vGrp 0 x.b, apart := [(2, 4)] }
def Desc.vexp2 : Desc :=
  { op := 0x110, ctor := .vexp2, cd := 0x2, ca := 0x2, tdUsed := true, tsUsed := true,
    types := tySame (fun t => [Ty.bf16, .fp16, .fp32].contains t) }
def Desc.vlog2 : Desc :=
  { op := 0x111, ctor := .vlog2, cd := 0x2, ca := 0x2, tdUsed := true, tsUsed := true,
    types := tySame (fun t => [Ty.bf16, .fp16, .fp32].contains t) }
def Desc.vrcp : Desc :=
  { op := 0x112, ctor := .vrcp, cd := 0x2, ca := 0x2, tdUsed := true, tsUsed := true,
    types := tySame (fun t => [Ty.bf16, .fp16, .fp32].contains t) }
def Desc.vrsq : Desc :=
  { op := 0x113, ctor := .vrsq, cd := 0x2, ca := 0x2, tdUsed := true, tsUsed := true,
    types := tySame (fun t => [Ty.bf16, .fp16, .fp32].contains t) }
def Desc.vrng : Desc :=
  { op := 0x114, ctor := .vrng, cd := 0x2, ca := 0x1, cb := 0x1, tdUsed := true, types := fun x => x.td = .u32 }
def Desc.setvl : Desc := { op := 0x115, ctor := .setvl, cd := 0x1, ca := 0x1, tdUsed := true, vars := 0xF }
def Desc.getvlLen : Desc := { op := 0x116, ctor := .getvlLen, cd := 0x1 }
def Desc.getvlMax : Desc := { op := 0x116, ctor := .getvlMax, cd := 0x1, vars := 0x2 }
def Desc.kand : Desc := { op := 0x140, ctor := .kand, cd := 0x4, ca := 0x4, cb := 0x4 }
def Desc.kor : Desc := { op := 0x141, ctor := .kor, cd := 0x4, ca := 0x4, cb := 0x4 }
def Desc.kxor : Desc := { op := 0x142, ctor := .kxor, cd := 0x4, ca := 0x4, cb := 0x4 }
def Desc.knot : Desc := { op := 0x143, ctor := .knot, cd := 0x4, ca := 0x4 }
def Desc.kcnt : Desc :=
  { op := 0x144, ctor := .kcnt, cd := 0x1, ca := 0x4, tdUsed := true, types := fun x => 8 ≤ x.td.width }
def Desc.kfirst : Desc :=
  { op := 0x145, ctor := .kfirst, cd := 0x1, ca := 0x4, tdUsed := true, types := fun x => 8 ≤ x.td.width }
def Desc.kwhile : Desc :=
  { op := 0x146, ctor := .kwhile, cd := 0x4, ca := 0x1, cb := 0x1, tdUsed := true, types := fun x => x.td.isInt }
def Desc.mzero : Desc := { op := 0x180, ctor := .mzero, cd := 0x10, sys := false }
def Desc.mop : Desc :=
  { op := 0x181, ctor := .mop, cd := 0x10, ca := 0x2, cb := 0x2, tdUsed := true, tsUsed := true, vars := 0x5F5F,
    types := tyMop,
    shape := fun x f => accDir true (x.field f) && (f = 2 || !(x.ts.width = 8 || x.ts.width = 16) || vGrp (if x.ts.width = 8 then 0 else 1) (x.field f)),
    sys := false }
def Desc.mops : Desc :=
  { op := 0x182, ctor := .mops, cd := 0x10, ca := 0x2, cb := 0x2, tdUsed := true, tsUsed := true, vars := 0x5F5F,
    types := fun x => x.td = .i32 && x.ts = .t2,
    shape := fun x f => accDir true (x.field f) && (f ≠ 3 || vGrp 0 x.a) && (f ≠ 4 || vGrp 1 x.b), sys := false }
def Desc.mopk : Desc :=
  { op := 0x183, ctor := .mopk, cd := 0x10, ca := 0x1, cb := 0x1, tdUsed := true, tsUsed := true, vars := 0x5F5F,
    types := tyMop, shape := fun x f => accDir true (x.field f), sys := false }
def Desc.mld : Desc :=
  { op := 0x184, ctor := .mld, cd := 0x10, ca := 0x1, cb := 0x20, shape := fun x f => accDir false (x.field f),
    sys := false }
def Desc.mst : Desc :=
  { op := 0x185, ctor := .mst, cd := 0x1, ca := 0x10, cb := 0x20, shape := fun x f => accDir false (x.field f),
    sys := false }
def Desc.mldt : Desc :=
  { op := 0x186, ctor := .mldt, cd := 0x10, ca := 0x1, cb := 0x21, vars := 0x3,
    shape := fun x f => accDir true (x.field f), sys := false }
def Desc.mstt : Desc :=
  { op := 0x187, ctor := .mstt, cd := 0x1, ca := 0x10, cb := 0x21, vars := 0x3,
    shape := fun x f => accDir true (x.field f), sys := false }
def Desc.mmovv : Desc :=
  { op := 0x188, ctor := .mmovv, cd := 0x2, ca := 0x10,
    shape := fun x f => accDir false (x.field f) && vGrp 2 (x.field f), sys := false }
def Desc.mmova : Desc :=
  { op := 0x189, ctor := .mmova, cd := 0x10, ca := 0x2,
    shape := fun x f => accDir false (x.field f) && vGrp 2 (x.field f), sys := false }
def Desc.mscl : Desc :=
  { op := 0x18A, ctor := .mscl, cd := 0x10, ca := 0x3, cb := 0x3, tdUsed := true, tsUsed := true, vars := 0x5F5F,
    types := tySame (fun t => t = .fp32), shape := fun x f => accDir true (x.field f) && vGrp 2 (x.field f),
    sys := false }
def Desc.mcvt : Desc :=
  { op := 0x18B, ctor := .mcvt, cd := 0x10, tdUsed := true, tsUsed := true, vars := 0x5F5F,
    types := fun x => (x.td = .fp32 && x.ts = .i32) || (x.td = .i32 && x.ts = .fp32),
    shape := fun x f => accDir true (x.field f), sys := false }
def Desc.mrel : Desc :=
  { op := 0x18C, ctor := .mrel, cd := 0x10, shape := fun x f => accDir true (x.field f), sys := false }
def Desc.dnorm : Desc :=
  { op := 0x1C0, ctor := .dnorm, cd := 0x8, ca := 0x2, tsUsed := true,
    types := fun x => [Ty.i8, .i16, .e4m3, .e5m2, .bf16, .fp16, .fp32].contains x.ts,
    shape := fun x f => f ≠ 3 || 2 ^ x.a.grp * 8 = 2 ^ x.d.grp * x.ts.width, sys := false }
def Desc.dexp : Desc :=
  { op := 0x1C1, ctor := .dexp, cd := 0x2, ca := 0x8, tdUsed := true, vars := 0x5F5F,
    types := fun x => [Ty.i16, .bf16, .fp16, .fp32].contains x.td,
    shape := fun x f => f ≠ 2 || !([Ty.i16, .bf16, .fp16, .fp32].contains x.td) || 2 ^ x.d.grp * 8 = 2 ^ x.a.grp * x.td.width,
    sys := false }
def Desc.ddot : Desc :=
  { op := 0x1C2, ctor := .ddot, cd := 0x1, ca := 0x8, cb := 0x8, tdUsed := true, vars := 0x5F5F,
    types := fun x => x.td = .fp32, shape := shapeD, sys := false }
def Desc.ddotf : Desc :=
  { op := 0x1C3, ctor := .ddotf, cd := 0x1, ca := 0x8, cb := 0x8, tdUsed := true, vars := 0x5F5F,
    types := fun x => x.td = .fp32, shape := shapeD, sys := false }
def Desc.dsclVal : Desc :=
  { op := 0x1C4, ctor := .dsclVal, cd := 0x8, ca := 0x8, cb := 0x1, shape := shapeD, sys := false }
def Desc.dsclLog : Desc :=
  { op := 0x1C4, ctor := .dsclLog, cd := 0x8, ca := 0x8, cb := 0x1, vars := 0x2, shape := shapeD, sys := false }
def Desc.dadd : Desc :=
  { op := 0x1C5, ctor := .dadd, cd := 0x8, ca := 0x8, cb := 0x8, shape := shapeD, apart := [(2, 3), (2, 4)],
    apartMin := 1, sys := false }
def Desc.dsub : Desc :=
  { op := 0x1C6, ctor := .dsub, cd := 0x8, ca := 0x8, cb := 0x8, shape := shapeD, apart := [(2, 3), (2, 4)],
    apartMin := 1, sys := false }
def Desc.dprojPar : Desc :=
  { op := 0x1C7, ctor := .dprojPar, cd := 0x8, ca := 0x8, cb := 0x8, shape := shapeD, apart := [(2, 3), (2, 4)],
    apartMin := 1, sys := false }
def Desc.dprojPerp : Desc :=
  { op := 0x1C7, ctor := .dprojPerp, cd := 0x8, ca := 0x8, cb := 0x8, vars := 0x2, shape := shapeD,
    apart := [(2, 3), (2, 4)], apartMin := 1, sys := false }
def Desc.dmov : Desc := { op := 0x1C8, ctor := .dmov, cd := 0x8, ca := 0x8, shape := shapeD, sys := false }
def Desc.dld : Desc := { op := 0x1C9, ctor := .dld, cd := 0x8, ca := 0x1, cb := 0x20, sys := false }
def Desc.dst : Desc := { op := 0x1CA, ctor := .dst, cd := 0x1, ca := 0x8, cb := 0x20, sys := false }
def Desc.dcmpGe : Desc :=
  { op := 0x1CB, ctor := .dcmpGe, cd := 0x1, ca := 0x8, cb := 0x8, shape := shapeD, sys := false }
def Desc.dcmpGt : Desc :=
  { op := 0x1CB, ctor := .dcmpGt, cd := 0x1, ca := 0x8, cb := 0x8, vars := 0x2, shape := shapeD, sys := false }
def Desc.dcmpSame : Desc :=
  { op := 0x1CB, ctor := .dcmpSame, cd := 0x1, ca := 0x8, cb := 0x8, vars := 0x4, shape := shapeD, sys := false }
def Desc.dgetnLog : Desc := { op := 0x1CC, ctor := .dgetnLog, cd := 0x1, ca := 0x8, sys := false }
def Desc.dgetnLen : Desc := { op := 0x1CC, ctor := .dgetnLen, cd := 0x1, ca := 0x8, vars := 0x2, sys := false }
def Desc.dsetn : Desc := { op := 0x1CD, ctor := .dsetn, cd := 0x8, ca := 0x1, sys := false }
def Desc.ld : Desc := { op := 0x200, ctor := .ld, cd := 0x1, ca := 0x1, cb := 0x20, vars := 0x7F }
def Desc.st : Desc := { op := 0x201, ctor := .st, cd := 0x1, ca := 0x1, cb := 0x20, vars := 0xF }
def Desc.lda : Desc := { op := 0x202, ctor := .lda, cd := 0x1, ca := 0x1, vars := 0xFFF }
def Desc.stl : Desc := { op := 0x203, ctor := .stl, cd := 0x1, ca := 0x1, vars := 0xFF }
def Desc.ldv : Desc := { op := 0x204, ctor := .ldv, cd := 0x2, ca := 0x1, cb := 0x20, vars := 0x3 }
def Desc.stv : Desc := { op := 0x205, ctor := .stv, cd := 0x1, ca := 0x2, cb := 0x20, vars := 0x3 }
def Desc.lds : Desc := { op := 0x206, ctor := .lds, cd := 0x2, ca := 0x1, cb := 0x1, vars := 0x3 }
def Desc.sts : Desc := { op := 0x207, ctor := .sts, cd := 0x1, ca := 0x2, cb := 0x1, vars := 0x3 }
def Desc.ldg : Desc :=
  { op := 0x208, ctor := .ldg, cd := 0x2, ca := 0x1, cb := 0x2, tsUsed := true,
    types := fun x => [Ty.i32, .u32, .i64, .u64].contains x.ts, apart := [(2, 4)] }
def Desc.stg : Desc :=
  { op := 0x209, ctor := .stg, cd := 0x1, ca := 0x2, cb := 0x2, tsUsed := true,
    types := fun x => [Ty.i32, .u32, .i64, .u64].contains x.ts }
def Desc.ldff : Desc := { op := 0x20A, ctor := .ldff, cd := 0x2, ca := 0x1, cb := 0x20 }
def Desc.amo : Desc :=
  { op := 0x20B, ctor := .amo, cd := 0x1, ca := 0x1, cb := 0x1, tdUsed := true, vars := 0x7F, types := tyAmo }
def Desc.cas : Desc :=
  { op := 0x20C, ctor := .cas, cd := 0x1, ca := 0x1, cb := 0x1, tdUsed := true,
    types := fun x => [Ty.i32, .u32, .i64, .u64].contains x.td }
def Desc.vamo : Desc :=
  { op := 0x20D, ctor := .vamo, cd := 0x2, ca := 0x1, cb := 0x2, tdUsed := true, tsUsed := true, vars := 0x7F,
    types := fun x => tyAmo x && [Ty.i32, .u32, .i64, .u64].contains x.ts, apart := [(2, 4)] }
def Desc.clean : Desc := { op := 0x20E, ctor := .clean, ca := 0x1, cb := 0x1, vars := 0xF }
def Desc.inval : Desc := { op := 0x20F, ctor := .inval, ca := 0x1, cb := 0x1, vars := 0xF }
def Desc.flush : Desc := { op := 0x210, ctor := .flush, ca := 0x1, cb := 0x1, vars := 0xF }
def Desc.pf : Desc := { op := 0x211, ctor := .pf, ca := 0x1, cb := 0x20 }
def Desc.pfh : Desc := { op := 0x212, ctor := .pfh, ca := 0x1, cb := 0x1 }
def Desc.fence : Desc := { op := 0x213, ctor := .fence, vars := 0xF }
def Desc.fenceSc : Desc := { op := 0x214, ctor := .fenceSc, vars := 0xF }
def Desc.cpyByte : Desc := { op := 0x240, ctor := .cpyByte, cd := 0x1, ca := 0x1, cb := 0x1, vars := 0xF }
def Desc.cpyTin : Desc := { op := 0x240, ctor := .cpyTin, cd := 0x1, ca := 0x1, cb := 0x1, vars := 0xF0 }
def Desc.cpyTout : Desc := { op := 0x240, ctor := .cpyTout, cd := 0x1, ca := 0x1, cb := 0x1, vars := 0xF00 }
def Desc.cpyBloom : Desc := { op := 0x240, ctor := .cpyBloom, cd := 0x1, ca := 0x1, cb := 0x1, vars := 0xF000 }
def Desc.cpyf : Desc := { op := 0x241, ctor := .cpyf, cd := 0x1, ca := 0x1, cb := 0x1, vars := 0xF }
def Desc.cpyc : Desc := { op := 0x242, ctor := .cpyc, cd := 0x1, ca := 0x1, vars := 0xF }
def Desc.give : Desc := { op := 0x243, ctor := .give, ca := 0x1 }
def Desc.take : Desc := { op := 0x244, ctor := .take, ca := 0x1 }
def Desc.takeNew : Desc := { op := 0x244, ctor := .takeNew, ca := 0x1, vars := 0x2 }
def Desc.waitb : Desc := { op := 0x245, ctor := .waitb, ca := 0x1, vars := 0xF }
def Desc.bkadd : Desc :=
  { op := 0x280, ctor := .bkadd, cd := 0x1, ca := 0x1, tdUsed := true, tsUsed := true, vars := 0xF,
    types := tySame (fun t => [Ty.bf16, .fp16, .fp32].contains t), sys := false }
def Desc.bkmul : Desc :=
  { op := 0x281, ctor := .bkmul, cd := 0x1, ca := 0x1, tdUsed := true, tsUsed := true, vars := 0xF,
    types := tySame (fun t => [Ty.bf16, .fp16, .fp32].contains t), sys := false }
def Desc.bkfma : Desc :=
  { op := 0x282, ctor := .bkfma, cd := 0x1, ca := 0x1, tdUsed := true, tsUsed := true, vars := 0xF,
    types := tySame (fun t => [Ty.bf16, .fp16, .fp32].contains t), sys := false }
def Desc.bkdot8 : Desc :=
  { op := 0x283, ctor := .bkdot8, cd := 0x1, ca := 0x1, tdUsed := true, tsUsed := true, vars := 0xF,
    types := fun x => [Ty.e4m3, .e5m2].contains x.td && [Ty.e4m3, .e5m2].contains x.ts, sys := false }
def Desc.bklut4 : Desc :=
  { op := 0x284, ctor := .bklut4, cd := 0x1, ca := 0x1, tdUsed := true, tsUsed := true, vars := 0xF,
    types := fun x => x.td = .fp32 && [Ty.bf16, .fp16].contains x.ts, sys := false }
def Desc.bksum : Desc :=
  { op := 0x285, ctor := .bksum, cd := 0x1, ca := 0x1, tdUsed := true, tsUsed := true, vars := 0xF,
    types := tySame (fun t => [Ty.bf16, .fp16, .fp32].contains t), sys := false }
def Desc.bkfill : Desc :=
  { op := 0x286, ctor := .bkfill, cd := 0x1, ca := 0x1, tdUsed := true, vars := 0xF,
    types := fun x => 8 ≤ x.td.width, sys := false }
def Desc.bkacc : Desc := { op := 0x287, ctor := .bkacc, cd := 0x1, ca := 0x1, vars := 0xF, sys := false }
def Desc.bkclr : Desc := { op := 0x288, ctor := .bkclr, cd := 0x1, ca := 0x1, vars := 0xF, sys := false }
def Desc.rpgo : Desc := { op := 0x2C0, ctor := .rpgo, cd := 0x1, ca := 0x1, vars := 0xF, sys := false }
def Desc.rpmodeCopy : Desc := { op := 0x2C1, ctor := .rpmodeCopy, ca := 0x1, sys := false }
def Desc.rpmodeCompute : Desc := { op := 0x2C1, ctor := .rpmodeCompute, ca := 0x1, vars := 0x2, sys := false }
def Desc.br : Desc := { op := 0x300, ctor := .br, ca := 0xA0, cb := 0x180 }
def Desc.brz : Desc := { op := 0x301, ctor := .brz, ca := 0x1, cb := 0x20 }
def Desc.brnz : Desc := { op := 0x302, ctor := .brnz, ca := 0x1, cb := 0x20 }
def Desc.jmp : Desc := { op := 0x303, ctor := .jmp, ca := 0x1, cb := 0x20 }
def Desc.jr : Desc := { op := 0x304, ctor := .jr, ca := 0x1 }
def Desc.call : Desc := { op := 0x305, ctor := .call, cd := 0x1, ca := 0xA0, cb := 0x180 }
def Desc.callReg : Desc := { op := 0x305, ctor := .callReg, cd := 0x1, ca := 0x1, cb := 0x20, vars := 0x2 }
def Desc.ret : Desc := { op := 0x306, ctor := .ret, ca := 0x1 }
def Desc.spawn : Desc := { op := 0x307, ctor := .spawn, cd := 0x1, ca := 0x1, sys := false }
def Desc.done : Desc := { op := 0x308, ctor := .done, sys := false }
def Desc.endTask : Desc := { op := 0x309, ctor := .endTask, sys := false }
def Desc.yield : Desc := { op := 0x30A, ctor := .yield, sys := false }
def Desc.waitc : Desc :=
  { op := 0x30B, ctor := .waitc, ca := 0x21, vars := 0xF,
    shape := fun x f => f ≠ 3 || x.a.cls ≠ 5 || x.a.imm < 32768 }
def Desc.waita : Desc := { op := 0x30C, ctor := .waita, cd := 0x1, ca := 0x1, cb := 0x1, vars := 0xF }
def Desc.launch : Desc := { op := 0x30D, ctor := .launch, cd := 0x1, ca := 0x1, cb := 0x1, sys := false }
def Desc.liveSet : Desc := { op := 0x30E, ctor := .liveSet, ca := 0x1, sys := false }
def Desc.liveDrop : Desc := { op := 0x30E, ctor := .liveDrop, ca := 0x1, vars := 0x2, sys := false }
def Desc.mfs : Desc := { op := 0x30F, ctor := .mfs, cd := 0x1, ca := 0x40 }
def Desc.mts : Desc := { op := 0x310, ctor := .mts, cd := 0x40, ca := 0x1 }
def Desc.traps : Desc := { op := 0x311, ctor := .traps, ca := 0x20, sys := false }
def Desc.brk : Desc := { op := 0x312, ctor := .brk, ca := 0x20 }
def Desc.tlbinvVa : Desc := { op := 0x340, ctor := .tlbinvVa, ca := 0x1, cb := 0x1 }
def Desc.tlbinvAsid : Desc :=
  { op := 0x340, ctor := .tlbinvAsid, ca := 0x1, cb := 0x1, vars := 0x2, shape := fun x f => f ≠ 3 || x.a = .g 0 }
def Desc.tlbinvAll : Desc :=
  { op := 0x340, ctor := .tlbinvAll, ca := 0x1, cb := 0x1, vars := 0x4,
    shape := fun x f => f = 2 || x.field f = .g 0 }
def Desc.revokeRegion : Desc := { op := 0x341, ctor := .revokeRegion, ca := 0x1, cb := 0x1 }
def Desc.revokeAsid : Desc :=
  { op := 0x341, ctor := .revokeAsid, ca := 0x1, cb := 0x1, vars := 0x2, shape := fun x f => f ≠ 3 || x.a = .g 0 }
def Desc.resume : Desc := { op := 0x342, ctor := .resume, cd := 0x1, ca := 0x1 }
def Desc.kill : Desc := { op := 0x343, ctor := .kill, cd := 0x1, ca := 0x1 }
def Desc.attest : Desc := { op := 0x344, ctor := .attest, cd := 0x1, ca := 0x1, cb := 0x1 }
def Desc.eret : Desc := { op := 0x345, ctor := .eret }
def Desc.scrub : Desc := { op := 0x346, ctor := .scrub, cd := 0x1, ca := 0x1, cb := 0x1 }
def Desc.beamrateSet : Desc := { op := 0x347, ctor := .beamrateSet, cd := 0x1, ca := 0x1, cb := 0x1 }
def Desc.beamrateFloor : Desc := { op := 0x347, ctor := .beamrateFloor, cd := 0x1, ca := 0x1, cb := 0x1, vars := 0x2 }
def Desc.beamrateCeil : Desc := { op := 0x347, ctor := .beamrateCeil, cd := 0x1, ca := 0x1, cb := 0x1, vars := 0x4 }
def Desc.beamrateOwner : Desc := { op := 0x347, ctor := .beamrateOwner, cd := 0x1, ca := 0x1, cb := 0x1, vars := 0x8 }
def Desc.beamretire : Desc := { op := 0x348, ctor := .beamretire, cd := 0x1, ca := 0x1, cb := 0x1 }
def Desc.beamstatRate : Desc := { op := 0x349, ctor := .beamstatRate, cd := 0x1, ca := 0x1 }
def Desc.beamstatWidth : Desc := { op := 0x349, ctor := .beamstatWidth, cd := 0x1, ca := 0x1, vars := 0x2 }
def Desc.beamstatRetired : Desc := { op := 0x349, ctor := .beamstatRetired, cd := 0x1, ca := 0x1, vars := 0x4 }
def Desc.beamstatCrc : Desc := { op := 0x349, ctor := .beamstatCrc, cd := 0x1, ca := 0x1, vars := 0x8 }
def Desc.beamstatReplay : Desc := { op := 0x349, ctor := .beamstatReplay, cd := 0x1, ca := 0x1, vars := 0x10 }
def Desc.beamstatRrate : Desc := { op := 0x349, ctor := .beamstatRrate, cd := 0x1, ca := 0x1, vars := 0x20 }
def Desc.beamstatModule : Desc := { op := 0x349, ctor := .beamstatModule, cd := 0x1, ca := 0x1, vars := 0x40 }
def Desc.beamstatCfg : Desc := { op := 0x349, ctor := .beamstatCfg, cd := 0x1, ca := 0x1, vars := 0x80 }
def Desc.beamstatEvents : Desc := { op := 0x349, ctor := .beamstatEvents, cd := 0x1, ca := 0x1, vars := 0x100 }
def Desc.rc : Desc :=
  { op := 0x400, ctor := .rc, cd := 0x20, ca := 0x20,
    shape := fun x f => if f = 2 then rowDst x.d else f ≠ 3 || rowSrc x.a }
def Desc.rm3 : Desc :=
  { op := 0x401, ctor := .rm3, cd := 0x20, ca := 0x20, cb := 0x20,
    shape := fun x f => rowWork (x.field f) && (f ≠ 3 || x.a.imm ≠ x.d.imm) && (f ≠ 4 || (x.b.imm ≠ x.d.imm && x.b.imm ≠ x.a.imm)) }
def Desc.rnt : Desc :=
  { op := 0x402, ctor := .rnt, cd := 0x20, ca := 0x20, vars := 0x3,
    shape := fun x f => if f = 2 then rowDst x.d else f ≠ 3 || rowSrc x.a }
def Desc.rsl : Desc :=
  { op := 0x403, ctor := .rsl, cd := 0x20, ca := 0x20, vars := 0x3,
    shape := fun x f => if f = 2 then rowDst x.d else f ≠ 3 || rowSrc x.a }
def Desc.rsr : Desc :=
  { op := 0x404, ctor := .rsr, cd := 0x20, ca := 0x20, vars := 0x3,
    shape := fun x f => if f = 2 then rowDst x.d else f ≠ 3 || rowSrc x.a }
def Desc.rz : Desc := { op := 0x405, ctor := .rz, cd := 0x20, shape := fun x f => f ≠ 2 || rowDst x.d }
def Desc.ro : Desc := { op := 0x406, ctor := .ro, cd := 0x20, shape := fun x f => f ≠ 2 || rowDst x.d }
def Desc.rjoint : Desc := { op := 0x407, ctor := .rjoint }
def Desc.rloop : Desc :=
  { op := 0x408, ctor := .rloop, cd := 0x20, ca := 0x120,
    shape := fun x f => if f = 2 then 1 ≤ x.d.imm && x.d.imm ≤ 4096 else f ≠ 3 || x.a.imm < 4 }
def Desc.rnext : Desc := { op := 0x409, ctor := .rnext }
def Desc.rbaseSet : Desc :=
  { op := 0x40A, ctor := .rbaseSet, cd := 0x20, ca := 0x20, shape := fun x f => f ≠ 2 || x.d.imm < 8 }
def Desc.rbaseAdd : Desc :=
  { op := 0x40A, ctor := .rbaseAdd, cd := 0x20, ca := 0x20, vars := 0x2, shape := fun x f => f ≠ 2 || x.d.imm < 8 }
def Desc.rplaneSet : Desc :=
  { op := 0x40B, ctor := .rplaneSet, cd := 0x20, ca := 0x20, shape := fun x f => f ≠ 2 || x.d.imm < 4 }
def Desc.rplaneAdd : Desc :=
  { op := 0x40B, ctor := .rplaneAdd, cd := 0x20, ca := 0x20, vars := 0x2, shape := fun x f => f ≠ 2 || x.d.imm < 4 }
def Desc.rrd : Desc :=
  { op := 0x40C, ctor := .rrd, cd := 0x20, ca := 0x20,
    shape := fun x f => if f = 2 then x.d.imm < 4 else f ≠ 3 || rowSrc x.a }
def Desc.rwr : Desc :=
  { op := 0x40D, ctor := .rwr, cd := 0x20, ca := 0x20,
    shape := fun x f => if f = 2 then rowDst x.d else f ≠ 3 || x.a.imm < 4 }
def Desc.rchk : Desc :=
  { op := 0x40E, ctor := .rchk, cd := 0x20, ca := 0x20,
    shape := fun x f => if f = 2 then rowData x.d else f ≠ 3 || rowSrc x.a }
def Desc.rsetSel : Desc := { op := 0x40F, ctor := .rsetSel, ca := 0x80, cb := 0x80 }
def Desc.rhalt : Desc := { op := 0x410, ctor := .rhalt }

/-- Rows 0 to 39 of the table. -/
def descs0 : List Desc := [
  .add, .sub, .mul, .mulh, .mulhu, .div, .divu, .rem, .remu, .and, .or, .xor, .andn, .shl, .shr, .sra, .rol, .clz,
  .ctz, .popc, .min, .max, .minu, .maxu, .slt, .sltu, .seq, .sel, .mov, .li, .lih, .sext, .zext, .lea, .leaPc,
  .fadd, .fsub, .fmul, .fma, .fdiv]
/-- Rows 40 to 79 of the table. -/
def descs1 : List Desc := [
  .fsqrt, .fmin, .fmax, .fcvt, .fcmp, .fclass, .vadd, .vsub, .vmul, .vmulh, .vfma, .vdiv, .vsqrt, .vmin, .vmax,
  .vabs, .vand, .vor, .vxor, .vandn, .vshl, .vshr, .vsra, .vcmpeq, .vcmpne, .vcmplt, .vcmple, .vsel, .vmov, .vdot,
  .vcvt, .vbscl, .vbqntScale, .vbqntQuant, .vredsum, .vredmin, .vredmax, .vscan, .vscanmax, .vperm]
/-- Rows 80 to 119 of the table. -/
def descs2 : List Desc := [
  .vslideUp, .vslideDown, .vbcast, .vext, .vcompress, .viota, .vhad, .vlut, .vexp2, .vlog2, .vrcp, .vrsq, .vrng,
  .setvl, .getvlLen, .getvlMax, .kand, .kor, .kxor, .knot, .kcnt, .kfirst, .kwhile, .mzero, .mop, .mops, .mopk,
  .mld, .mst, .mldt, .mstt, .mmovv, .mmova, .mscl, .mcvt, .mrel, .dnorm, .dexp, .ddot, .ddotf]
/-- Rows 120 to 159 of the table. -/
def descs3 : List Desc := [
  .dsclVal, .dsclLog, .dadd, .dsub, .dprojPar, .dprojPerp, .dmov, .dld, .dst, .dcmpGe, .dcmpGt, .dcmpSame,
  .dgetnLog, .dgetnLen, .dsetn, .ld, .st, .lda, .stl, .ldv, .stv, .lds, .sts, .ldg, .stg, .ldff, .amo, .cas, .vamo,
  .clean, .inval, .flush, .pf, .pfh, .fence, .fenceSc, .cpyByte, .cpyTin, .cpyTout, .cpyBloom]
/-- Rows 160 to 199 of the table. -/
def descs4 : List Desc := [
  .cpyf, .cpyc, .give, .take, .takeNew, .waitb, .bkadd, .bkmul, .bkfma, .bkdot8, .bklut4, .bksum, .bkfill, .bkacc,
  .bkclr, .rpgo, .rpmodeCopy, .rpmodeCompute, .br, .brz, .brnz, .jmp, .jr, .call, .callReg, .ret, .spawn, .done,
  .endTask, .yield, .waitc, .waita, .launch, .liveSet, .liveDrop, .mfs, .mts, .traps, .brk, .tlbinvVa]
/-- Rows 200 to 239 of the table. -/
def descs5 : List Desc := [
  .tlbinvAsid, .tlbinvAll, .revokeRegion, .revokeAsid, .resume, .kill, .attest, .eret, .scrub, .beamrateSet,
  .beamrateFloor, .beamrateCeil, .beamrateOwner, .beamretire, .beamstatRate, .beamstatWidth, .beamstatRetired,
  .beamstatCrc, .beamstatReplay, .beamstatRrate, .beamstatModule, .beamstatCfg, .beamstatEvents, .rc, .rm3, .rnt,
  .rsl, .rsr, .rz, .ro, .rjoint, .rloop, .rnext, .rbaseSet, .rbaseAdd, .rplaneSet, .rplaneAdd, .rrd, .rwr, .rchk]
/-- Rows 240 to 241 of the table. -/
def descs6 : List Desc := [
  .rsetSel, .rhalt]
/-- The encoding header of every instruction that has a word, in the order of the table of operations. -/
def descs : List Desc := descs0 ++ descs1 ++ descs2 ++ descs3 ++ descs4 ++ descs5 ++ descs6

/-- The description and the fields of an instruction; an event has no word. -/
def Instr.parts : Instr → Option (Desc × Ops)
  | .add x => some (.add, x)
  | .sub x => some (.sub, x)
  | .mul x => some (.mul, x)
  | .mulh x => some (.mulh, x)
  | .mulhu x => some (.mulhu, x)
  | .div x => some (.div, x)
  | .divu x => some (.divu, x)
  | .rem x => some (.rem, x)
  | .remu x => some (.remu, x)
  | .and x => some (.and, x)
  | .or x => some (.or, x)
  | .xor x => some (.xor, x)
  | .andn x => some (.andn, x)
  | .shl x => some (.shl, x)
  | .shr x => some (.shr, x)
  | .sra x => some (.sra, x)
  | .rol x => some (.rol, x)
  | .clz x => some (.clz, x)
  | .ctz x => some (.ctz, x)
  | .popc x => some (.popc, x)
  | .min x => some (.min, x)
  | .max x => some (.max, x)
  | .minu x => some (.minu, x)
  | .maxu x => some (.maxu, x)
  | .slt x => some (.slt, x)
  | .sltu x => some (.sltu, x)
  | .seq x => some (.seq, x)
  | .sel x => some (.sel, x)
  | .mov x => some (.mov, x)
  | .li x => some (.li, x)
  | .lih x => some (.lih, x)
  | .sext x => some (.sext, x)
  | .zext x => some (.zext, x)
  | .lea x => some (.lea, x)
  | .leaPc x => some (.leaPc, x)
  | .fadd x => some (.fadd, x)
  | .fsub x => some (.fsub, x)
  | .fmul x => some (.fmul, x)
  | .fma x => some (.fma, x)
  | .fdiv x => some (.fdiv, x)
  | .fsqrt x => some (.fsqrt, x)
  | .fmin x => some (.fmin, x)
  | .fmax x => some (.fmax, x)
  | .fcvt x => some (.fcvt, x)
  | .fcmp x => some (.fcmp, x)
  | .fclass x => some (.fclass, x)
  | .vadd x => some (.vadd, x)
  | .vsub x => some (.vsub, x)
  | .vmul x => some (.vmul, x)
  | .vmulh x => some (.vmulh, x)
  | .vfma x => some (.vfma, x)
  | .vdiv x => some (.vdiv, x)
  | .vsqrt x => some (.vsqrt, x)
  | .vmin x => some (.vmin, x)
  | .vmax x => some (.vmax, x)
  | .vabs x => some (.vabs, x)
  | .vand x => some (.vand, x)
  | .vor x => some (.vor, x)
  | .vxor x => some (.vxor, x)
  | .vandn x => some (.vandn, x)
  | .vshl x => some (.vshl, x)
  | .vshr x => some (.vshr, x)
  | .vsra x => some (.vsra, x)
  | .vcmpeq x => some (.vcmpeq, x)
  | .vcmpne x => some (.vcmpne, x)
  | .vcmplt x => some (.vcmplt, x)
  | .vcmple x => some (.vcmple, x)
  | .vsel x => some (.vsel, x)
  | .vmov x => some (.vmov, x)
  | .vdot x => some (.vdot, x)
  | .vcvt x => some (.vcvt, x)
  | .vbscl x => some (.vbscl, x)
  | .vbqntScale x => some (.vbqntScale, x)
  | .vbqntQuant x => some (.vbqntQuant, x)
  | .vredsum x => some (.vredsum, x)
  | .vredmin x => some (.vredmin, x)
  | .vredmax x => some (.vredmax, x)
  | .vscan x => some (.vscan, x)
  | .vscanmax x => some (.vscanmax, x)
  | .vperm x => some (.vperm, x)
  | .vslideUp x => some (.vslideUp, x)
  | .vslideDown x => some (.vslideDown, x)
  | .vbcast x => some (.vbcast, x)
  | .vext x => some (.vext, x)
  | .vcompress x => some (.vcompress, x)
  | .viota x => some (.viota, x)
  | .vhad x => some (.vhad, x)
  | .vlut x => some (.vlut, x)
  | .vexp2 x => some (.vexp2, x)
  | .vlog2 x => some (.vlog2, x)
  | .vrcp x => some (.vrcp, x)
  | .vrsq x => some (.vrsq, x)
  | .vrng x => some (.vrng, x)
  | .setvl x => some (.setvl, x)
  | .getvlLen x => some (.getvlLen, x)
  | .getvlMax x => some (.getvlMax, x)
  | .kand x => some (.kand, x)
  | .kor x => some (.kor, x)
  | .kxor x => some (.kxor, x)
  | .knot x => some (.knot, x)
  | .kcnt x => some (.kcnt, x)
  | .kfirst x => some (.kfirst, x)
  | .kwhile x => some (.kwhile, x)
  | .mzero x => some (.mzero, x)
  | .mop x => some (.mop, x)
  | .mops x => some (.mops, x)
  | .mopk x => some (.mopk, x)
  | .mld x => some (.mld, x)
  | .mst x => some (.mst, x)
  | .mldt x => some (.mldt, x)
  | .mstt x => some (.mstt, x)
  | .mmovv x => some (.mmovv, x)
  | .mmova x => some (.mmova, x)
  | .mscl x => some (.mscl, x)
  | .mcvt x => some (.mcvt, x)
  | .mrel x => some (.mrel, x)
  | .dnorm x => some (.dnorm, x)
  | .dexp x => some (.dexp, x)
  | .ddot x => some (.ddot, x)
  | .ddotf x => some (.ddotf, x)
  | .dsclVal x => some (.dsclVal, x)
  | .dsclLog x => some (.dsclLog, x)
  | .dadd x => some (.dadd, x)
  | .dsub x => some (.dsub, x)
  | .dprojPar x => some (.dprojPar, x)
  | .dprojPerp x => some (.dprojPerp, x)
  | .dmov x => some (.dmov, x)
  | .dld x => some (.dld, x)
  | .dst x => some (.dst, x)
  | .dcmpGe x => some (.dcmpGe, x)
  | .dcmpGt x => some (.dcmpGt, x)
  | .dcmpSame x => some (.dcmpSame, x)
  | .dgetnLog x => some (.dgetnLog, x)
  | .dgetnLen x => some (.dgetnLen, x)
  | .dsetn x => some (.dsetn, x)
  | .ld x => some (.ld, x)
  | .st x => some (.st, x)
  | .lda x => some (.lda, x)
  | .stl x => some (.stl, x)
  | .ldv x => some (.ldv, x)
  | .stv x => some (.stv, x)
  | .lds x => some (.lds, x)
  | .sts x => some (.sts, x)
  | .ldg x => some (.ldg, x)
  | .stg x => some (.stg, x)
  | .ldff x => some (.ldff, x)
  | .amo x => some (.amo, x)
  | .cas x => some (.cas, x)
  | .vamo x => some (.vamo, x)
  | .clean x => some (.clean, x)
  | .inval x => some (.inval, x)
  | .flush x => some (.flush, x)
  | .pf x => some (.pf, x)
  | .pfh x => some (.pfh, x)
  | .fence x => some (.fence, x)
  | .fenceSc x => some (.fenceSc, x)
  | .cpyByte x => some (.cpyByte, x)
  | .cpyTin x => some (.cpyTin, x)
  | .cpyTout x => some (.cpyTout, x)
  | .cpyBloom x => some (.cpyBloom, x)
  | .cpyf x => some (.cpyf, x)
  | .cpyc x => some (.cpyc, x)
  | .give x => some (.give, x)
  | .take x => some (.take, x)
  | .takeNew x => some (.takeNew, x)
  | .waitb x => some (.waitb, x)
  | .bkadd x => some (.bkadd, x)
  | .bkmul x => some (.bkmul, x)
  | .bkfma x => some (.bkfma, x)
  | .bkdot8 x => some (.bkdot8, x)
  | .bklut4 x => some (.bklut4, x)
  | .bksum x => some (.bksum, x)
  | .bkfill x => some (.bkfill, x)
  | .bkacc x => some (.bkacc, x)
  | .bkclr x => some (.bkclr, x)
  | .rpgo x => some (.rpgo, x)
  | .rpmodeCopy x => some (.rpmodeCopy, x)
  | .rpmodeCompute x => some (.rpmodeCompute, x)
  | .br x => some (.br, x)
  | .brz x => some (.brz, x)
  | .brnz x => some (.brnz, x)
  | .jmp x => some (.jmp, x)
  | .jr x => some (.jr, x)
  | .call x => some (.call, x)
  | .callReg x => some (.callReg, x)
  | .ret x => some (.ret, x)
  | .spawn x => some (.spawn, x)
  | .done x => some (.done, x)
  | .endTask x => some (.endTask, x)
  | .yield x => some (.yield, x)
  | .waitc x => some (.waitc, x)
  | .waita x => some (.waita, x)
  | .launch x => some (.launch, x)
  | .liveSet x => some (.liveSet, x)
  | .liveDrop x => some (.liveDrop, x)
  | .mfs x => some (.mfs, x)
  | .mts x => some (.mts, x)
  | .traps x => some (.traps, x)
  | .brk x => some (.brk, x)
  | .tlbinvVa x => some (.tlbinvVa, x)
  | .tlbinvAsid x => some (.tlbinvAsid, x)
  | .tlbinvAll x => some (.tlbinvAll, x)
  | .revokeRegion x => some (.revokeRegion, x)
  | .revokeAsid x => some (.revokeAsid, x)
  | .resume x => some (.resume, x)
  | .kill x => some (.kill, x)
  | .attest x => some (.attest, x)
  | .eret x => some (.eret, x)
  | .scrub x => some (.scrub, x)
  | .beamrateSet x => some (.beamrateSet, x)
  | .beamrateFloor x => some (.beamrateFloor, x)
  | .beamrateCeil x => some (.beamrateCeil, x)
  | .beamrateOwner x => some (.beamrateOwner, x)
  | .beamretire x => some (.beamretire, x)
  | .beamstatRate x => some (.beamstatRate, x)
  | .beamstatWidth x => some (.beamstatWidth, x)
  | .beamstatRetired x => some (.beamstatRetired, x)
  | .beamstatCrc x => some (.beamstatCrc, x)
  | .beamstatReplay x => some (.beamstatReplay, x)
  | .beamstatRrate x => some (.beamstatRrate, x)
  | .beamstatModule x => some (.beamstatModule, x)
  | .beamstatCfg x => some (.beamstatCfg, x)
  | .beamstatEvents x => some (.beamstatEvents, x)
  | .rc x => some (.rc, x)
  | .rm3 x => some (.rm3, x)
  | .rnt x => some (.rnt, x)
  | .rsl x => some (.rsl, x)
  | .rsr x => some (.rsr, x)
  | .rz x => some (.rz, x)
  | .ro x => some (.ro, x)
  | .rjoint x => some (.rjoint, x)
  | .rloop x => some (.rloop, x)
  | .rnext x => some (.rnext, x)
  | .rbaseSet x => some (.rbaseSet, x)
  | .rbaseAdd x => some (.rbaseAdd, x)
  | .rplaneSet x => some (.rplaneSet, x)
  | .rplaneAdd x => some (.rplaneAdd, x)
  | .rrd x => some (.rrd, x)
  | .rwr x => some (.rwr, x)
  | .rchk x => some (.rchk, x)
  | .rsetSel x => some (.rsetSel, x)
  | .rhalt x => some (.rhalt, x)
  | .powerGood => none
  | .phaseRomDone => none
  | .phaseAuthDone _ => none
  | .phaseDramDone _ => none
  | .phaseCoresDone _ _ => none
  | .phaseBeamsDone _ _ => none
  | .phaseSramDone => none
  | .phaseCheckDone _ => none
  | .perstAssert _ => none
  | .perstDeassert _ => none
  | .devreset _ => none
  | .portHotReset _ => none
  | .fwctlGo _ => none
  | .doorbell _ _ => none
  | .controlRegisterWrite _ _ => none
  | .hostAccess _ _ _ _ => none
  | .queueResident _ => none
  | .queueDormant _ => none
  | .dispatchBatch _ _ => none
  | .taskBind _ => none
  | .preemptStop _ _ => none
  | .imageSaveDone _ => none
  | .faultqHeldWrite _ => none
  | .watchdog _ _ _ _ _ _ => none
  | .bankCmdStart _ => none
  | .bankCmdComplete _ _ => none
  | .copyStart _ => none
  | .copyLand _ _ _ => none
  | .copyComplete _ _ => none
  | .modeChange _ _ _ => none
  | .rowprogStart _ => none
  | .waveAdmit _ _ => none
  | .activationAlert _ _ _ => none
  | .refresh _ _ => none
  | .rowReportStop _ => none
  | .flitSend _ _ _ => none
  | .flitReceive _ _ _ => none
  | .replayTimeout _ _ => none
  | .replayWindowEnd _ _ => none
  | .laneRetire _ => none
  | .moduleRetrainDone _ _ _ => none
  | .rateChangeDrained _ => none
  | .rateRetrainDone _ _ _ => none
  | .asyncTrapTake _ _ => none
  | .powerLimit _ => none
  | .thermal _ => none
  | .postScrap _ => none
  | .packageScrap _ => none
  | .accessPerform _ _ => none
  | .l2Eviction _ => none
  | .hostWrite _ _ => none
  | .remoteTimeout _ => none
  | .hostCompletion _ _ => none
  | .powerGoodDrop => none
  | .temperatureFall _ => none

/-- R81: a word of a row program has GD 0 and SCHED 0. -/
def Ops.rowFields (x : Ops) : Bool := x.guard.val = 0 && !x.inv && x.hint.val = 0 && !x.yield

/-- A well-formed instruction: its fields pass every check of its encoding header, and those of a row instruction (OP
group 0x10) the checks of R81. Events have no fields to check. -/
def Instr.wf (i : Instr) : Bool :=
  match i.parts with
  | some (d, x) => d.okOps x && (d.op >>> 6 ≠ 0x10 || x.rowFields)
  | none => true

/-- A well-formed instruction that has a word. -/
def Instr.hasWord (i : Instr) : Bool := i.parts.isSome

end Sys2Proof
end

