-- ==== Sys2Proof/Decode.lean ====
section
/-! DEFINITION. Reading an instruction word (R63, R64, R79 to R82), total on any 96 bits and rejecting with the cause
and field number of Table 4-7, and after it the encoder, written from the same tables. -/
namespace Sys2Proof

/-- The 20 bits of an operand field: D at bit 16, A at 36, B at 56 (Table 4-1). -/
def rawField (w f : Nat) : Nat := bitsN w (if f = 2 then 35 else if f = 3 then 55 else 75) (if f = 2 then 16 else if f = 3 then 36 else 56)

/-- The operand that a field names when its class is used (Table 4-2). Reserved bits are checked apart, by
`rawReserved`. -/
def readOperand (f : Nat) : Operand :=
  let m := f.testBit 19
  let b := f % 65536
  match bitsN f 18 16 with
  | 0 => .g (Fin.ofNat 32 b)
  | 1 => .v (Fin.ofNat 32 b) (Fin.ofNat 4 (b >>> 5)) m
  | 2 => .k (Fin.ofNat 8 b)
  | 3 => .d (Fin.ofNat 16 b) (Fin.ofNat 5 (bitsN b 6 4)) m
  | 4 => .acc (Fin.ofNat 4 b) (Fin.ofNat 4 (b >>> 2)) (Fin.ofNat 256 (b >>> 4)) (b.testBit 12) m
  | 5 => .i16 (BitVec.ofNat 16 b)
  | 6 => .s (BitVec.ofNat 10 b)
  | _ => .i32 (BitVec.ofNat 16 b)

/-- The reserved bits of a field are zero, its group code is assigned, and its mark stands only on class 1, 3 or 4
(R56, R69, R72): the part of step 4 that the operand itself no longer shows. -/
def rawReserved (f : Nat) : Bool :=
  let b := f % 65536
  match bitsN f 18 16 with
  | 0 => bitsN b 15 5 = 0 && !f.testBit 19
  | 1 => bitsN b 15 7 = 0
  | 2 => bitsN b 15 3 = 0 && !f.testBit 19
  | 3 => bitsN b 15 7 = 0 && bitsN b 6 4 < 5
  | 4 => bitsN b 15 13 = 0
  | 6 => bitsN b 15 10 = 0 && !f.testBit 19
  | _ => !f.testBit 19

/-- The operand of field `f` of word `w` under description `d`: absent where the field is all zero and may be. -/
def Desc.readField (d : Desc) (w f : Nat) : Operand :=
  let raw := rawField w f
  let c := d.classes f
  if raw = 0 && (c = 0 || c.testBit 8) then .none else readOperand raw

/-- The fields of a word under a description. -/
def Desc.readOps (d : Desc) (w : Nat) : Ops where
  guard := Fin.ofNat 8 (bitsN w 14 12)
  inv := w.testBit 15
  d := d.readField w 2
  a := d.readField w 3
  b := d.readField w 4
  td := Ty.ofCode (bitsN w 79 76)
  ts := Ty.ofCode (bitsN w 83 80)
  var := Fin.ofNat 16 (bitsN w 87 84)
  hint := Fin.ofNat 4 (bitsN w 89 88)
  yield := w.testBit 90

/-- The cause of step 3 of Table 4-7 for a field that fails it: ILL_FIELD for a non-zero field that the instruction
does not use (R73), ILL_CLASS otherwise (R72, R73). -/
def Desc.classCause (d : Desc) (x : Ops) (f : Nat) : Cause :=
  let o := x.field f
  let c := d.classes f
  if d.hasI32 && f ≠ 3 && (o.cls = 7 || (f = 4 && x.a.cls = 7)) then .illClass
  else if c = 0 || (d.hasI32 && f = 4 && c.testBit 8) then .illField else .illClass

/-- The first field of a list that fails a check. -/
def firstBad (fs : List Nat) (ok : Nat → Bool) : Option Nat := fs.find? (fun f => !ok f)

/-- Steps 2 to 6 of Table 4-7 for a word of one row, in order; within a step the fields stand in the order GD, D, A,
B, MOD, SCHED. -/
def Desc.check (d : Desc) (w : Nat) : Except (Cause × Nat) Instr :=
  let x := d.readOps w
  if x.guard.val = 0 && x.inv then .error (.illField, 1)
  else if !(d.vars.testBit x.var.val && (d.tdUsed || x.td = .i8) && (d.tsUsed || x.ts = .i8)) then .error (.illField, 5)
  else if bitsN w 95 91 ≠ 0 then .error (.illField, 6)
  else match firstBad [2, 3, 4] (d.classOk x) with
  | some f => .error (d.classCause x f, f)
  | none =>
    match firstBad [2, 3, 4] (fun f => rawReserved (rawField w f) && (x.field f).placed f && d.shape x f) with
    | some f => .error (.illField, f)
    | none =>
      if !d.types x then .error (.illType, 5)
      else match [(2, 3), (2, 4), (3, 4)].find? (fun p => !d.pairOk x p) with
      | some p => .error (.illOverlap, p.2)
      | none => .ok (d.ctor x)

/-- The row of a word: the description with its OP that its variant selects, or the first with its OP where no
variant does (its check then fails at MOD). -/
def rowOf (w : Nat) : Option Desc :=
  let op := bitsN w 11 0
  match descs.find? (fun d => d.op = op && d.vars.testBit (bitsN w 87 84)) with
  | some d => some d
  | none => descs.find? (fun d => d.op = op)

/-- The group of an OP (R78). -/
def opGroup (op : Nat) : Nat := op >>> 6

/-- Decoding a word on a core (R79 steps 1 to 6); `onSys` says that a system core executes it. Steps 7 and 8, which
need the register state, are made when the instruction executes. -/
def decode (onSys : Bool) (w : IWord) : Except (Cause × Nat) Instr :=
  match rowOf w.toNat with
  | none => .error (.illOp, 0)
  | some d => if opGroup d.op = 0x10 || (onSys && !d.sys) then .error (.illOp, 0) else d.check w.toNat

/-- Decoding a word of a row program (R81, R246) in the order of R81: OP in group 0x10, GD 0, SCHED 0, then steps 2 to 5;
the answer on failure is the number of the first failing field. -/
def decodeRow (w : IWord) : Except Nat Instr :=
  match rowOf w.toNat with
  | none => .error 0
  | some d =>
    if opGroup d.op ≠ 0x10 then .error 0
    else if bitsN w.toNat 15 12 ≠ 0 then .error 1
    else if bitsN w.toNat 95 88 ≠ 0 then .error 6
    else match d.check w.toNat with
    | .error (_, f) => .error f
    | .ok i => .ok i

/-- The 20 bits of an operand (Table 4-2). -/
def Operand.bits : Operand → Nat
  | .none => 0
  | .g n => n.val
  | .v p n m => (if m then 0x80000 else 0) + 0x10000 + n.val * 32 + p.val
  | .k n => 0x20000 + n.val
  | .d p n m => (if m then 0x80000 else 0) + 0x30000 + n.val * 16 + p.val
  | .acc t dir idx ind m =>
      (if m then 0x80000 else 0) + 0x40000 + (if ind then 4096 else 0) + idx.val * 16 + dir.val * 4 + t.val
  | .i16 x => 0x50000 + x.toNat
  | .s n => 0x60000 + n.toNat
  | .i32 x => 0x70000 + x.toNat

/-- The word of an OP with its fields (Table 4-1). -/
def packWord (op : Nat) (x : Ops) : Nat :=
  op + 2 ^ 12 * (x.guard.val + (if x.inv then 8 else 0)) + 2 ^ 16 * x.d.bits + 2 ^ 36 * x.a.bits + 2 ^ 56 * x.b.bits +
  2 ^ 76 * x.td.code + 2 ^ 80 * x.ts.code + 2 ^ 84 * x.var.val + 2 ^ 88 * (x.hint.val + (if x.yield then 4 else 0))

/-- The word of an instruction; an event has none. -/
def encode (i : Instr) : Option IWord := i.parts.map (fun p => BitVec.ofNat 96 (packWord p.1.op p.2))

/-- A 96-bit word from the twelve bytes at consecutive addresses, lowest first (R4, R63). -/
def wordOfBytes (bs : List Byte) : IWord := BitVec.ofNat 96 (bs.foldr (fun b n => b.toNat + 256 * n) 0)

/-- The `n` bytes of a number, lowest first (R4). -/
def bytesOf (n x : Nat) : List Byte := (List.range n).map (fun i => BitVec.ofNat 8 (x >>> (8 * i)))

/-- The number that bytes hold, lowest first (R4). -/
def natOfBytes (bs : List Byte) : Nat := bs.foldr (fun b n => b.toNat + 256 * n) 0

/-- The instruction that the decoder reads from the bits of a table row: a word of group 0x10 as the sequencer reads
it, any other as a core reads it. The word is stored as its twelve bytes and read back (R63). -/
def decodeTableWord (_nbits w : Nat) : Option Instr :=
  let word := wordOfBytes (bytesOf 12 w)
  if opGroup (bitsN word.toNat 11 0) = 0x10 then (decodeRow word).toOption else (decode false word).toOption

end Sys2Proof
end

