-- ==== Sys2Proof/Machine/Crypto.lean ====
section
/-! DEFINITION. The digests and signatures of the device (R18, R386 to R388): SHA-512 of FIPS 180-4, ECDSA over the curve
P-521 of FIPS 186, the DEVPUB bytes, the check of a firmware image. The spec names the algorithms; their definitions are
those standards' (log 16). -/
namespace Sys2Proof.Machine
open Sys2Proof

/-! SHA-512. -/

/-- The first eighty primes, from which the constants of SHA-512 come. -/
def shaPrimes : List Nat := (List.range 410).filter (fun n => 2 ≤ n && (List.range n).all (fun d => d < 2 || n % d ≠ 0))
/-- The greatest number below 2^68 whose power `k` is at most `x`. -/
def rootOf (k x : Nat) : Nat := (List.range 68).foldl (fun r i => if (r + 2 ^ (67 - i)) ^ k ≤ x then r + 2 ^ (67 - i) else r) 0
/-- The round constants: 64 bits of the fractions of the cube roots of the primes. -/
def shaK : List (BitVec 64) := shaPrimes.map (fun p => BitVec.ofNat 64 (rootOf 3 (p * 2 ^ 192)))
/-- The first hash value: 64 bits of the fractions of the square roots of the first eight primes. -/
def shaInit : List (BitVec 64) := (shaPrimes.take 8).map (fun p => BitVec.ofNat 64 (rootOf 2 (p * 2 ^ 128)))

/-- A number from bytes, highest first. -/
def natBE (bs : List Byte) : Nat := natOfBytes bs.reverse
/-- The bytes of a number, highest first. -/
def bytesBE (n x : Nat) : List Byte := (bytesOf n x).reverse

/-- The eighty words of a block, the last first. -/
def shaWords (block : List Byte) : List (BitVec 64) :=
  (List.range 64).foldl (fun w _ =>
    let x := w.getD 14 0
    let y := w.getD 1 0
    let s0 := x.rotateRight 1 ^^^ x.rotateRight 8 ^^^ x >>> 7
    let s1 := y.rotateRight 19 ^^^ y.rotateRight 61 ^^^ y >>> 6
    (s1 + w.getD 6 0 + s0 + w.getD 15 0) :: w)
    ((List.range 16).map (fun i => BitVec.ofNat 64 (natBE ((block.drop (8 * i)).take 8)))).reverse

/-- One round on the eight working words. -/
def shaRound (v : List (BitVec 64)) (kw : BitVec 64) : List (BitVec 64) :=
  let a := v.getD 0 0
  let e := v.getD 4 0
  let t1 := v.getD 7 0 + (e.rotateRight 14 ^^^ e.rotateRight 18 ^^^ e.rotateRight 41) + (e &&& v.getD 5 0 ^^^ ~~~e &&& v.getD 6 0) + kw
  let t2 := (a.rotateRight 28 ^^^ a.rotateRight 34 ^^^ a.rotateRight 39) +
    (a &&& v.getD 1 0 ^^^ a &&& v.getD 2 0 ^^^ v.getD 1 0 &&& v.getD 2 0)
  [t1 + t2, a, v.getD 1 0, v.getD 2 0, v.getD 3 0 + t1, e, v.getD 5 0, v.getD 6 0]

/-- One block of 128 bytes. -/
def shaBlock (h : List (BitVec 64)) (block : List Byte) : List (BitVec 64) :=
  let v := ((shaK.zip (shaWords block).reverse).map (fun p => p.1 + p.2)).foldl shaRound h
  (h.zip v).map (fun p => p.1 + p.2)

/-- A message padded to whole blocks. -/
def shaPad (m : List Byte) : List Byte :=
  m ++ 0x80#8 :: List.replicate ((239 - m.length % 128) % 128) 0 ++ bytesBE 16 (8 * m.length)

/-- The SHA-512 digest of a message, 64 bytes. -/
def sha512 (m : List Byte) : List Byte :=
  let p := shaPad m
  ((List.range (p.length / 128)).foldl (fun h i => shaBlock h ((p.drop (128 * i)).take 128)) shaInit).flatMap (fun w => bytesBE 8 w.toNat)

/-! The curve P-521: y² = x³ − 3x + b over the numbers modulo 2^521 − 1. -/

/-- The prime of the field. -/
def curveP : Nat := 2 ^ 521 - 1
/-- The order of the generator. -/
def curveN : Nat :=
  0x01FFFFFFFFFFFFFFFFFFFFFFFFFFFFFFFFFFFFFFFFFFFFFFFFFFFFFFFFFFFFFFFFFA51868783BF2F966B7FCC0148F709A5D03BB5C9B8899C47AEBB6FB71E91386409
/-- The generator. -/
def curveG : Nat × Nat :=
  (0x00C6858E06B70404E9CD9E3ECB662395B4429C648139053FB521F828AF606B4D3DBAA14B5E77EFE75928FE1DC127A2FFA8DE3348B3C1856A429BF97E7E31C2E5BD66,
   0x011839296A789A3BC0045C8A5FB42C7D1BD998F54449579B446817AFBD17273E662C97EE72995EF42640C550B9013FAD0761353C7086A272C24088BE94769FD16650)

/-- A power modulo `m`, for an exponent below 2^521. -/
def powMod (b e m : Nat) : Nat :=
  (List.range 521).foldl (fun r i => if e.testBit (520 - i) then r * r % m * b % m else r * r % m) 1
/-- The inverse modulo a prime. -/
def invMod (x m : Nat) : Nat := powMod (x % m) (m - 2) m

/-- The sum of two points; `none` is the point at infinity. -/
def pointAdd : Option (Nat × Nat) → Option (Nat × Nat) → Option (Nat × Nat)
  | none, q => q
  | p, none => p
  | some (x1, y1), some (x2, y2) =>
    if x1 = x2 && (y1 + y2) % curveP = 0 then none
    else
      let l := if x1 = x2 then (3 * x1 * x1 + (curveP - 3)) * invMod (2 * y1) curveP % curveP
        else (y2 + (curveP - y1)) * invMod (x2 + (curveP - x1)) curveP % curveP
      let x := (l * l + 2 * curveP - x1 - x2) % curveP
      some (x, (l * (x1 + curveP - x) + curveP - y1) % curveP)

/-- A multiple of a point, by a number below 2^521. -/
def pointMul (k : Nat) (p : Option (Nat × Nat)) : Option (Nat × Nat) :=
  (List.range 521).foldl (fun r i => if k.testBit (520 - i) then pointAdd (pointAdd r r) p else pointAdd r r) none

/-- The number that ECDSA takes from a SHA-512 digest: all its 512 bits. -/
def digestNat (m : List Byte) : Nat := natBE (sha512 m)

/-- Whether r and s sign a message under a public key. -/
def ecdsaVerify (key : Nat × Nat) (m : List Byte) (r s : Nat) : Bool :=
  if r = 0 || s = 0 || curveN ≤ r || curveN ≤ s then false
  else
    let w := invMod s curveN
    match pointAdd (pointMul (digestNat m * w % curveN) (some curveG)) (pointMul (r * w % curveN) (some key)) with
    | some (x, _) => x % curveN = r
    | none => false

/-- The signature of a message with a private key and a nonce. -/
def ecdsaSign (key nonce : Nat) (m : List Byte) : Nat × Nat :=
  let r := match pointMul nonce (some curveG) with | some (x, _) => x % curveN | none => 0
  (r, invMod nonce curveN * (digestNat m + r * key) % curveN)

/-! Keys and images. -/

/-- A number from 1 to n − 1. -/
def keyScalar (x : Nat) : Nat := x % (curveN - 1) + 1
/-- The device's private key (R386). -/
def identityKey : Nat := keyScalar Config.identityKey
/-- The 133 bytes of DEVPUB (R386). -/
def devPub : List Byte :=
  match pointMul identityKey (some curveG) with
  | some (x, y) => 4 :: bytesBE 66 x ++ bytesBE 66 y
  | none => []

/-- The body of a firmware image: all but its signature (R387). -/
def imageBody (image : List Byte) : List Byte := image.take (image.length - 132)
/-- Whether phase 2 accepts an image (R387). -/
def imageOk (image : List Byte) : Bool :=
  let sig := image.drop (image.length - 132)
  133 ≤ image.length && ecdsaVerify Config.firmwareKey (imageBody image) (natBE (sig.take 66)) (natBE (sig.drop 66))

end Sys2Proof.Machine
end

