-- ==== Sys2Proof/Machine/Table.lean ====
section
/-! DEFINITION. Sparse tables: a list of keys and values, keys strictly rising, no value equal to the default that an
unlisted key reads as. Memory and every register file are held in this one canonical form, so that equal contents are
equal data. -/
namespace Sys2Proof.Machine

/-- A sparse table (the default stands in the operation). -/
abbrev Table (β : Type) := List (Nat × β)

/-- The value of a key; `d` where the key is not listed. -/
def Table.get {β : Type} (d : β) : Table β → Nat → β
  | [], _ => d
  | (a, x) :: t, k => if a = k then x else Table.get d t k

/-- Removing a key. -/
def Table.erase {β : Type} (t : Table β) (k : Nat) : Table β := t.filter (fun p => p.1 ≠ k)

/-- Writing a value that is not the default. -/
def Table.insert {β : Type} : Table β → Nat → β → Table β
  | [], k, v => [(k, v)]
  | (a, x) :: t, k, v =>
    if a = k then (k, v) :: t else if k < a then (k, v) :: (a, x) :: t else (a, x) :: Table.insert t k v

/-- Writing a value; the default removes the entry. -/
def Table.set {β : Type} [DecidableEq β] (d : β) (t : Table β) (k : Nat) (v : β) : Table β :=
  if v = d then Table.erase t k else Table.insert t k v

/-- Every key is above `lo`, keys rise, and no value is the default. -/
def Table.wfFrom {β : Type} [DecidableEq β] (d : β) : Nat → Table β → Bool
  | _, [] => true
  | lo, (a, x) :: t => lo ≤ a && x ≠ d && Table.wfFrom d (a + 1) t

/-- The canonical form of a table. -/
def Table.wf {β : Type} [DecidableEq β] (d : β) (t : Table β) : Bool := Table.wfFrom d 0 t

/-- The canonical table of the keys `base, base + 1, …` with the values of a list. -/
def Table.ofList {β : Type} [DecidableEq β] (d : β) (base : Nat) : List β → Table β
  | [] => []
  | x :: xs => let t := Table.ofList d (base + 1) xs; if x = d then t else (base, x) :: t

/-- The entries with keys from `lo` up to and not including `hi`, unchanged. -/
def Table.slice {β : Type} (t : Table β) (lo hi : Nat) : Table β := t.filter (fun p => lo ≤ p.1 && p.1 < hi)

/-- The table with the entries from `lo` up to `hi` replaced by those of `u`, whose keys lie there. -/
def Table.splice {β : Type} (t : Table β) (lo hi : Nat) (u : Table β) : Table β :=
  t.filter (fun p => p.1 < lo) ++ u ++ t.filter (fun p => hi ≤ p.1)

/-- The values of the `n` keys from `base`, of a table whose keys are at least `base`. -/
def Table.dense {β : Type} (d : β) : (n base : Nat) → Table β → List β
  | 0, _, _ => []
  | n + 1, base, [] => d :: Table.dense d n (base + 1) []
  | n + 1, base, (a, x) :: t =>
    if a = base then x :: Table.dense d n (base + 1) t else d :: Table.dense d n (base + 1) ((a, x) :: t)

end Sys2Proof.Machine
end

