-- ==== Sys2Proof/Machine/State.lean ====
section
/-! DEFINITION. The state of the package as plain data: every core, the tasks and graphs of the dispatchers, memory with
its caches, the engines, the sequencers, the beams and the device registers, and the schedule that says which agent
moves next. -/
namespace Sys2Proof.Machine
open Sys2Proof

/-- The reasons the machine stops with a fault. -/
inductive Fault where
  /-- Raised by `step` when the agent whose turn it is has nothing to do and the agenda is empty: no agent of the
  package moves until the outside acts. Safe: the spec gives no further step. -/
  | quiescent
  deriving DecidableEq, Repr

/-- The reasons the machine refuses an instruction. -/
inductive Refusal where
  /-- Raised by `exec` for an instruction without a meaning yet. Safe: nothing is claimed of it. -/
  | notModelled (mnemonic : String)
  deriving DecidableEq, Repr

/-- An agent that runs instructions: a core (vector core c of post p is hart 32p+c, system core n is hart 256+n, R8, R10,
R14), or a running row program of a post's sequencer (R259). -/
inductive Agent where
  | hart (n : Nat)
  | seq (post prog : Nat)
  deriving DecidableEq, Repr

/-- An error that arises in a memory, a cache or a core's own storage (R403, R408 to R411): stored bits of a DRAM sector or
an SRAM word turn over, which its check bits can or cannot correct; a held sector becomes uncorrectable; a line of a core
or the state of a row program fails parity; bits of a row turn over. -/
inductive Upset where
  | unit (addr bits : Nat) (uncorr : Bool)
  | held (addr : Nat)
  | core (hart : Nat) (faddr : Word)
  | prog (post pid : Nat)
  | row (post sub row bits : Nat)
  deriving DecidableEq, Repr

/-- One entry of the schedule (log 1): an agent takes a step; an event of the table happens; an error arises; a bank engine
of a post works on the destination sector of element `i` of a started command (R218, R233), or reads a source byte of the element
ahead of that (R320); a copy engine reads `count` source bytes of a started copy ahead of their landing (R320); a core's fetch unit
reads a 32-bit word early (R66); the translation units walk an address (R366); a sequencer writes byte `i` of the OUTVA of a program
that has reached its end (R320). -/
inductive Turn where
  | agent (a : Agent)
  | event (i : Instr)
  | upset (u : Upset)
  | bank (post seq i : Nat)
  | peek (post seq i va : Nat)
  | gather (engine seq first count : Nat)
  | prefetch (hart pa : Nat)
  | walk (asid place va : Nat)
  | out (post prog i : Nat)
  deriving DecidableEq, Repr

/-- A wait of Table 17-7 with what a WATCHDOG stop reports for it (Table 17-8, R357). -/
structure Wait where
  port : Nat
  kind : Nat
  field : Nat
  faddr : Word
  deriving DecidableEq, Repr

/-- Why an image is being saved (Table 3-9): a stop; a stop of the restore for a lost image, which leaves the image as it
was (R393); a line that could not be filled, which writes the stop registers alone (R408); pre-emption; YIELD. -/
inductive SaveWhy where
  | stop
  | refused
  | unfilled
  | preempt
  | yield
  deriving DecidableEq, Repr

/-- The states of Table 2-6 (R40). -/
inductive TaskStatus where
  | waiting | ready | running | stopped
  deriving DecidableEq, Repr

/-- A pending report of a row program (R258). -/
structure Report where
  cause : Cause
  faddr : Word
  field : Nat
  deriving DecidableEq, Repr

/-- A task of a graph (R29, R30, R36, R38, R290), with the TILES, POSTS and NEAR of its record as published (R33). BLOCKED
shows in its core's mode; a retired task is not listed. `fetched` keeps the words that the fetch unit of its last core held (R66). -/
structure Task where
  graph : Nat
  id : Nat
  slot : Nat
  status : TaskStatus
  post : Nat
  started : Bool
  image : Option Nat
  tiles : Nat
  posts : Nat
  near : Bool
  lastCore : Nat
  copies : Nat
  banks : Nat
  rows : Nat
  reports : List Report
  fetched : List (Nat × BitVec 32)
  deriving DecidableEq, Repr

/-- A task graph (Table 2-1, R26, R346). -/
structure Graph where
  queue : Nat
  asid : Nat
  prio : Nat
  posts : Nat
  cores : List Nat
  pool : Nat
  poolLog : Nat
  faultq : Nat
  fqlen : Nat
  quota : Nat
  wdog : Nat
  entry : Nat
  number : Nat
  nextId : Nat
  underflow : Bool
  killed : Bool
  deriving DecidableEq, Repr

/-- An entry of a dispatcher's lists (R349): post, level, queue and task, in order of place. -/
structure Ready where
  post : Nat
  level : Nat
  queue : Nat
  task : Nat
  deriving DecidableEq, Repr

/-- A queue in the rotation of a level on a post, with its count of issues (R350). -/
structure Rot where
  post : Nat
  level : Nat
  queue : Nat
  issued : Nat
  deriving DecidableEq, Repr

/-- A fault-queue entry that the dispatcher holds (R373): of a stop of task `task`, or advice of PFH; its place among the stops and the
advice; whether FAULTQ_FULL has been raised for its graph. -/
structure HeldEntry where
  graph : Nat
  task : Nat
  seq : Nat
  advice : Bool
  told : Bool
  data : List Byte
  deriving DecidableEq, Repr

/-- A bench buffer (R308, R309): the core whose bench holds it, its pages, its tag, its graph, its holder. -/
structure Buffer where
  hart : Nat
  first : Nat
  npg : Nat
  tag : Nat
  graph : Nat
  holder : Option Nat
  deriving DecidableEq, Repr

/-- A sector held by a home L2 (R266): its bytes as written, whether dirty, whether poisoned (R406), whether its own check found
it uncorrectable (R409), and the bits that differ where a read without correction filled it (R364, R403). -/
structure Sector where
  data : BitVec 256
  dirty : Bool
  poison : Bool
  bad : Bool
  flip : Nat
  deriving DecidableEq, Repr

/-- The error state of a DRAM sector or an SRAM or bench word (R403 to R408): poisoned, uncorrectable, and which stored
bits differ from those written. -/
structure ErrMark where
  poison : Bool
  uncorr : Bool
  flip : Nat
  deriving DecidableEq, Repr

/-- The agent that an error-log entry names (Table 20-2): kind, system core, ASID, graph, task. -/
structure LogAgent where
  kind : Nat
  core : Nat := 0
  asid : Nat := 0
  graph : Nat := 0
  task : Nat := 0
  deriving DecidableEq, Repr

/-- A store issued and not yet performed (R310, R314), with the task or system core that made it, and whether an ordering
point of core scope (R315) and a FENCE (R66) came after it. -/
structure Pending where
  hart : Nat
  addr : Nat
  data : List Byte
  hint : Nat
  pclass : Nat
  who : LogAgent
  fenced : Bool
  synced : Bool
  deriving DecidableEq, Repr

/-- A write to host memory on its way (R318): where it has been performed, the task or system core that made it, and those
that have read it. -/
structure HostWr where
  addr : Nat
  data : List Byte
  owner : Option LogAgent
  atWest : Bool
  atHost : Bool
  atEast : Bool
  readers : List LogAgent
  deriving DecidableEq, Repr

/-- A page-table entry remembered by the translation units (R366); level 4 stands for level 0 reached with G64. -/
structure Walked where
  asid : Nat
  level : Nat
  index : Nat
  value : Word
  deriving DecidableEq, Repr

/-- A run of physical bytes of a translated range, with the protection class of its leaf. -/
structure Piece where
  addr : Nat
  len : Nat
  pclass : Nat
  deriving DecidableEq, Repr

/-- A bank-command parameter block (Table 11-2, R220). -/
structure BankParam where
  count : Nat
  rm : Nat
  bcast : Bool
  l : Nat
  npage : Nat
  x : Nat
  y : Nat
  z : Nat
  opv : Nat
  stride : Nat
  scalar : Nat
  deriving DecidableEq, Repr

/-- A bank command in a post's queue (R218, R223): the listed pieces stand as (virtual base, physical base, class); `ran` are
the destination sectors done so far, `early` the source bytes read ahead of their elements, by virtual address, with the causes met
(R320), `seen` and `met` the flags and the cause (index, rank) met there, `result` the cause and
the flags once all is done (R231); `stale` that a TLBINV or REVOKE waits for it (R234). -/
structure BankCmd where
  seq : Nat
  op : Nat
  td : Ty
  ts : Ty
  par : BankParam
  entries : List Word
  pieces : List (Nat × Nat × Nat)
  opv : List Byte
  task : Option Nat
  graph : Nat
  asid : Nat
  peg : Nat
  started : Bool
  stale : Bool
  early : List (Nat × Byte × List Cause)
  ran : List Nat
  seen : BitVec 8
  met : Option (Nat × Nat × Cause)
  result : Option (Cause × BitVec 8)
  deriving DecidableEq, Repr

/-- The virtual side of a copy's block (Table 14-5), kept for a later translation (R297). -/
structure CopyParam where
  src : Nat
  dst : Nat
  len : Nat
  outlen : Nat
  handle : Nat
  row : Nat
  w : Nat
  lane : Nat
  esize : Nat
  sign : Bool
  psplit : Bool
  chunk : Nat
  fpva : Nat
  bar : Nat
  deriving DecidableEq, Repr

/-- A copy in an engine's queue (R286 to R306): kind 0 byte, 1 tin, 2 tout, 3 bloom, 4 CPYF, 5 CPYC; `region` the post of
its region; `total` the bytes (elements for tin, output bytes for bloom) to deal with and `left` the runs of them,
first and last + 1, not yet dealt with; `early` the source bytes read ahead, by offset, with whether they are poisoned, those of the
second range of CPYC from LEN on (R320); `landed` the bytes counted; `owed` the bytes written to host memory that its barrier does not
count yet, with the lowest of them (R300, R318); `cause` the first cause by offset and rank (R305); `low`
the lowest differing byte or failing element; `got` the source bytes of CPYF read so far; `buf` the decoded output of bloom;
`tainted` that its source held poison, `spoiled` the destination units with a byte not written or
written poisoned; `stale` that a TLBINV or REVOKE waits
for it (R297); `fail` a failure of its next transfer. -/
structure Copy where
  seq : Nat
  kind : Nat
  par : CopyParam
  src : List Piece
  dst : List Piece
  fp : List Piece
  bar : Option Nat
  region : Nat
  issuer : Nat
  task : Option Nat
  graph : Nat
  asid : Nat
  peg : Nat
  started : Bool
  stale : Bool
  total : Nat
  left : List (Nat × Nat)
  early : List (Nat × Option Byte × Bool)
  landed : Nat
  owed : Nat × Nat
  cause : Option (Nat × Nat × Cause)
  low : Option Nat
  got : Table Byte
  buf : List Byte
  tainted : Bool
  spoiled : List Nat
  fail : Option Cause
  deriving DecidableEq, Repr

/-- An item of a region's list (R240): a row program, a request for a mode (true compute), a copy (engine and number). -/
inductive Item where
  | prog (pid : Nat)
  | mode (compute : Bool) (graph : Nat)
  | copy (engine seq : Nat)
  deriving DecidableEq, Repr

/-- What a sequencer keeps for a region handle (R240, R381): its subarrays (12,288 die + 192 bank + subarray), the modes
(true compute), the list, and whether the handle's list was checked since the last REVOKE that covers it. -/
structure Region where
  asid : Nat
  handle : Nat
  post : Nat
  subs : List Nat
  now : Bool
  tail : Bool
  items : List Item
  checked : Bool
  deriving DecidableEq, Repr

/-- An open loop of a row program (R249): first word of the body, iterations left, plane index named. -/
structure Loop where
  start : Nat
  left : Nat
  px : Option Nat
  deriving DecidableEq, Repr

/-- A row program that a sequencer has accepted (R242 to R260). `throttled` is the owner's throttle, `begun` that its
start was made, `running` that it holds one of the sixteen places; `wrote` lists the bytes of OUTVA already written. -/
structure RowProg where
  pid : Nat
  seq : Nat
  words : List IWord
  prog : Nat
  inva : Nat
  outva : Nat
  out : List Piece
  asid : Nat
  handle : Nat
  task : Option Nat
  graph : Nat
  prio : Nat
  peg : Nat
  slots : Table (BitVec 8192)
  pb : List Nat
  px : List Nat
  sel : Nat
  loops : List Loop
  ops : Nat
  idx : Nat
  mark : Bool
  throttled : Bool
  alerts : List (Nat × Nat)
  begun : Bool
  running : Bool
  recheck : Bool
  parity : Bool
  wrote : List Nat
  deriving DecidableEq, Repr

/-- What a waiting instruction has done before its wait (R41, R355): nothing that it would not do again; the translation of
the word that it watches; the launch entry that it has read (R327); the command that it has prepared, with its queue, its
scope, the address of its block and the subarrays of its region (R223, R243, R287); `stale` that a TLBINV or REVOKE has covered it
since (R366, R376). -/
inductive Prepared where
  | again
  | word (pa pclass : Nat)
  | launch (entry : List Byte)
  | bank (post : Nat) (c : BankCmd)
  | copy (engine scope ga : Nat) (subs : List Nat) (c : Copy)
  | mode (post : Nat) (subs : List Nat)
  | prog (post ga : Nat) (subs : List Nat) (p : RowProg)
  | stale (work : Prepared)
  deriving DecidableEq, Repr

/-- The instruction at which a core is BLOCKED: it is not fetched again while it waits (R41, R355). -/
structure Held where
  instr : Instr
  work : Prepared
  deriving DecidableEq, Repr

/-- What a core is doing (R40, R60, R399): no task, executing, BLOCKED on a wait, saving an image, halted. -/
inductive Mode where
  | idle
  | running
  | blocked (w : Wait)
  | saving (why : SaveWhy)
  | halted
  deriving DecidableEq, Repr

/-- A stop chosen to fall inside the next long instruction, at unit `unit` (R39, R353, R356, R398, log 14): a WATCHDOG
with what it reports, or pre-emption or an asynchronous trap. -/
structure Cut where
  unit : Nat
  dog : Option Wait
  deriving DecidableEq, Repr

/-- One core: its registers (R47, R50, R394), the task bound to it, and what it is doing. `held` is the instruction of a
wait; `watchKept` what a long instruction had watched when a trap interrupted it (R396); `unfilled` the image offsets of lines that no fill can read and that the task has not named yet (R59, R408); `fetched`
the words that the fetch unit holds (R66); `stopSeq` the place of its stop among all stops (R373). -/
structure Hart where
  pc : Word
  g : Table Word
  v : Table (BitVec 2048)
  k : Table (BitVec 256)
  d : Table (BitVec 4096)
  m : Table (BitVec 32)
  acc : Table (BitVec 32)
  vl : Word
  estart : Word
  fflags : Word
  fmode : Word
  livemask : Word
  pegmask : Word
  cause : Word
  faddr : Word
  finfo : Word
  epc : Word
  tvec : Word
  tstat : Word
  tpend : Word
  tmask : Word
  tscr0 : Word
  tscr1 : Word
  waddr : Word
  pendAddr : Table Word
  stepArmed : Bool
  watchHit : Option (Nat × Nat)
  watchKept : Option (Nat × Nat)
  task : Option Nat
  mode : Mode
  victim : Bool
  cut : Option Cut
  copies : Nat
  boundSeq : Nat
  response : Option Cause
  parity : Option Word
  held : Option Held
  unfilled : List Nat
  fetched : List (Nat × BitVec 32)
  stopSeq : Nat
  deriving DecidableEq, Repr

/-- A core with no task: every register zero, k0 as the accessors give it, m registers the zero-vector code (R47, R49).
The table of m registers has that code as its default. -/
def Hart.blank : Hart where
  pc := 0
  g := []
  v := []
  k := []
  d := []
  m := []
  acc := []
  vl := 0
  estart := 0
  fflags := 0
  fmode := 0
  livemask := 0
  pegmask := 0
  cause := 0
  faddr := 0
  finfo := 0
  epc := 0
  tvec := 0
  tstat := 0
  tpend := 0
  tmask := 0
  tscr0 := 0
  tscr1 := 0
  waddr := 0
  pendAddr := []
  stepArmed := false
  watchHit := none
  watchKept := none
  task := none
  mode := .idle
  victim := false
  cut := none
  copies := 0
  boundSeq := 0
  response := none
  parity := none
  held := none
  unfilled := []
  fetched := []
  stopSeq := 0

/-- A module of one direction of a beam (R418, R427): lanes retired, spares in use or unusable, removed, retraining, and
the bit errors seen, each with the count of the module's flits at the time. -/
structure Module where
  retired : List Nat
  repair : List (Nat × Nat)
  removed : Bool
  training : Bool
  flits : Nat
  errors : List (Nat × Nat)
  deriving DecidableEq, Repr

/-- A flit (Table 21-1): its 2048 bits with the CRC, the module that carries it, and whether it was on a lane as that was retired
(R427). -/
structure Flit where
  bits : BitVec 2048
  module : Nat
  spoilt : Bool
  deriving DecidableEq, Repr

/-- A data flit in a replay buffer: its number, what it carries, how often it has been replayed (R422, R431). -/
structure Sent where
  seq : Nat
  data : FlitData
  tries : Nat
  deriving DecidableEq, Repr

/-- One direction of a beam (R419 to R429): the sender's waiting data, replay buffer and numbers still to be replayed; the
flits on the wire; the receiver's expected number, its outstanding NAK and the ACK that it has to send; the counters; the
modules, a module not listed being fresh; the module that the round-robin has reached; the flits of other classes since
the last of the latency class (R322); what it has accepted and passed on, in order (R422). -/
structure Direction where
  nextSeq : Nat
  waiting : List FlitData
  buffer : List Sent
  resend : List Nat
  wire : List Flit
  expect : Nat
  nakOut : Bool
  ack : Option (Bool × Nat)
  crc : Nat
  replays : Nat
  window : Nat
  windowReplays : Nat
  rrate : Nat
  modules : Table Module
  place : Nat
  sinceLatency : Nat
  lanesRetired : Nat
  removedCount : Nat
  passed : List FlitData
  deriving DecidableEq, Repr

/-- A rate change in progress (R426): the new code, whether forced, whether the modules are retraining, who asked. -/
structure RateChange where
  code : Nat
  forced : Bool
  training : Bool
  asker : Option Nat
  deriving DecidableEq, Repr

/-- A beam (R11, R425 to R438): `stepDue` counts the forced steps that wait for the change in progress (R429, R432), `results` what
finished changes answer to the cores that asked (R434). -/
structure Beam where
  rate : Nat
  floor : Nat
  ceil : Nat
  owner : Nat
  events : Nat
  lost : Bool
  change : Option RateChange
  stepDue : Nat
  results : List (Nat × Nat)
  dirs : List Direction
  deriving DecidableEq, Repr

/-- What the device last returned to the host through a port (R368, R370). -/
inductive HostReply where
  | none | done | data (bytes : List Byte) | abort
  deriving DecidableEq, Repr

/-- The package. `rung` lists, as queue, first entry and count, the entries of a queue that doorbells counted while it was
a device queue (R342); `marked` lists the bytes of windows 0xA to 0xC that copies have sent marked as poisoned (R407); `fwImage` is the
firmware image that was given through FWCTL or that runs (R387). -/
structure State where
  agenda : List Turn
  turn : Agent
  harts : Table Hart
  tasks : Table (Option Task)
  graphs : Table (Option Graph)
  ready : List Ready
  rotation : List Rot
  pend : List Nat
  recent : List Nat
  rung : List (Nat × Nat × Nat)
  held : List HeldEntry
  buffers : List Buffer
  nextUid : Nat
  mem : Table Byte
  l2 : Table (Option Sector)
  stores : List Pending
  hostWrites : List HostWr
  err : Table ErrMark
  marked : Table Bool
  walked : List Walked
  rows : Table (BitVec 8192)
  acts : Table Nat
  due : List (Nat × Nat)
  waves : Table Nat
  banks : Table (List BankCmd)
  copies : Table (List Copy)
  accepts : Table Nat
  regions : List Region
  progs : Table (List RowProg)
  beams : Table (Option Beam)
  l6 : Bool
  phase : Nat
  bootCause : Cause
  failPosts : Nat
  elapsed : BitVec 32
  hostlim : Word
  cxllim : Word
  spancfg : Word
  fwaddr : Word
  fwlen : Word
  fwImage : Option (List Byte)
  perst : Nat
  power : Bool
  scrapped : Nat
  throttledDies : Nat
  spares : Nat
  cycles : Table Word
  scCount : Nat
  tick : Nat
  hostReply : HostReply
  deriving DecidableEq, Repr

/-- A fresh direction: nothing sent, 128 modules in service (R418, R436). -/
def Direction.fresh : Direction where
  nextSeq := 0
  waiting := []
  buffer := []
  resend := []
  wire := []
  expect := 0
  nakOut := false
  ack := none
  crc := 0
  replays := 0
  window := 0
  windowReplays := 0
  rrate := 0
  modules := []
  place := 0
  sinceLatency := 0
  lanesRetired := 0
  removedCount := 0
  passed := []

/-- The system core that owns a beam at reset (Table 1-3, R11). -/
def beamOwner (b : Nat) : Nat := if [2, 5, 8, 9, 12, 13].contains b then 4 else 0

/-- A beam at reset: 32 GT/s, FLOOR 120, CEIL 64 (R12, R437). -/
def Beam.fresh (b : Nat) : Beam where
  rate := 0
  floor := 120
  ceil := 64
  owner := beamOwner b
  events := 0
  lost := false
  change := none
  stepDue := 0
  results := []
  dirs := [.fresh, .fresh]

/-- The machine in reset: an L8 in phase 0, no work, every register at its reset value (R17, R18, R370, log 2). -/
def State.reset : State where
  agenda := []
  turn := .hart 256
  harts := []
  tasks := []
  graphs := []
  ready := []
  rotation := []
  pend := []
  recent := []
  rung := []
  held := []
  buffers := []
  nextUid := 0
  mem := []
  l2 := []
  stores := []
  hostWrites := []
  err := []
  marked := []
  walked := []
  rows := []
  acts := []
  due := []
  waves := []
  banks := []
  copies := []
  accepts := []
  regions := []
  progs := []
  beams := []
  l6 := false
  phase := 0
  bootCause := .none
  failPosts := 0
  elapsed := 0
  hostlim := 0
  cxllim := 0
  spancfg := 0
  fwaddr := 0
  fwlen := 0
  fwImage := none
  perst := 0
  power := false
  scrapped := 0
  throttledDies := 0
  spares := 0
  cycles := []
  scCount := 0
  tick := 0
  hostReply := .none

end Sys2Proof.Machine
end

