-- ==== Sys2Proof/Machine/Flags.lean ====
section
/-! DEFINITION. The exception flags of an instruction (Table 3-5, R53, R119) and the enables of FMODE (Table 3-6, R54). -/
namespace Sys2Proof.Machine
open Sys2Proof

/-- Flags in the bit positions of FFLAGS (Table 3-5). -/
abbrev Flags := BitVec 8

/-- Inexact. -/
def fNX : Flags := 0x01
/-- Underflow. -/
def fUF : Flags := 0x02
/-- Overflow. -/
def fOF : Flags := 0x04
/-- Division by zero. -/
def fDZ : Flags := 0x08
/-- Invalid. -/
def fNV : Flags := 0x10
/-- Integer or fixed-point saturation. -/
def fSAT : Flags := 0x20
/-- Exact-accumulator overflow. -/
def fACCOV : Flags := 0x40
/-- Directional operation on a zero vector. -/
def fDZERO : Flags := 0x80

/-- The rounding modes of Table 4-4 after the dynamic mode is resolved (R76, R113). -/
inductive RM where
  | rne | rtz | rdn | rup | rna | stoch
  deriving DecidableEq, Repr

/-- The rounding mode of a code. No instruction gives codes 6 and 7 (R54, R76); in FMODE of an image that a system core has edited they
round to nearest even, a choice (log 86). -/
def RM.ofCode (n : Nat) : RM :=
  match n with
  | 1 => .rtz | 2 => .rdn | 3 => .rup | 4 => .rna | 5 => .stoch | _ => .rne

/-- FMODE.RM (Table 3-6). -/
def Hart.fmodeRm (h : Hart) : Nat := (h.fmode.extractLsb' 0 3).toNat
/-- FMODE.SAT8 (Table 3-6, R115). -/
def Hart.sat8 (h : Hart) : Bool := h.fmode.getLsbD 3
/-- FMODE.DIREN (Table 3-6, R199). -/
def Hart.diren (h : Hart) : Bool := h.fmode.getLsbD 10
/-- FMODE.DEADEN (Table 3-6, R55). -/
def Hart.deaden (h : Hart) : Bool := h.fmode.getLsbD 11
/-- FMODE.DIVEN (Table 3-6, R129). -/
def Hart.diven (h : Hart) : Bool := h.fmode.getLsbD 12

/-- `mode(var)` of an instruction that names a counter (R83): FMODE.RM where the variant selects 6. -/
def Hart.modeC (h : Hart) (x : Ops) : RM :=
  let r := x.var.val % 8
  RM.ofCode (if r = 6 then h.fmodeRm else r)

/-- `mode(var)` of an instruction without a counter: a stochastic FMODE.RM rounds RNE (R118). -/
def Hart.modeN (h : Hart) (x : Ops) : RM :=
  match h.modeC x with
  | .stoch => .rne
  | r => r

/-- The SAT bit of a RND variant, v[11] (Table 4-4). -/
def satBit (x : Ops) : Bool := 8 ≤ x.var.val

/-- Whether a set of pending flags holds one that FMODE.FPEN enables (R54). -/
def Hart.fpTraps (h : Hart) (f : Flags) : Bool :=
  h.fmode.extractLsb' 4 5 != 0 && (h.fmode.extractLsb' 4 5 &&& f.extractLsb' 0 5) != 0

/-- ORing flags into FFLAGS (R53). -/
def Hart.addFlags (h : Hart) (f : Flags) : Hart := { h with fflags := h.fflags ||| f.setWidth 64 }

end Sys2Proof.Machine
end

