-- ==== Sys2Proof/Machine/Operands.lean ====
section
/-! DEFINITION. Registers and operand forms: the hard-wired registers (R48), groups and elements (R70), slices (R71),
immediates (R72), guards (R67, R68), liveness (R55, R56) and pegs (R61). -/
namespace Sys2Proof.Machine
open Sys2Proof

/-- Reading a g register: g0 is zero (R48). -/
def Hart.gr (h : Hart) (n : Nat) : Word := if n = 0 then 0 else Table.get 0 h.g n
/-- Writing a g register: a write to g0 is discarded (R48). -/
def Hart.setG (h : Hart) (n : Nat) (x : Word) : Hart := if n = 0 then h else { h with g := Table.set 0 h.g n x }
/-- Reading a v register; a dead one holds nothing and reads zero (R55). -/
def Hart.vr (h : Hart) (n : Nat) : BitVec 2048 := Table.get 0 h.v n
/-- Reading a k register: k0 is all ones (R48). -/
def Hart.kr (h : Hart) (n : Nat) : BitVec 256 := if n = 0 then BitVec.allOnes 256 else Table.get 0 h.k n
/-- Writing a k register: a write to k0 is discarded (R48). -/
def Hart.setK (h : Hart) (n : Nat) (x : BitVec 256) : Hart := if n = 0 then h else { h with k := Table.set 0 h.k n x }
/-- Reading the components of a d register (R47). -/
def Hart.dr (h : Hart) (n : Nat) : BitVec 4096 := Table.get 0 h.d n
/-- The zero-vector code of the log norm (R111). -/
def normZero : BitVec 32 := 0x80000000
/-- The NaN code, which is also the member code (R111, R190). -/
def normNaN : BitVec 32 := 0x80000001
/-- The saturated norm (R111). -/
def normSat : BitVec 32 := 0x7FFFFFFF
/-- Reading an m register (R47). -/
def Hart.mr (h : Hart) (n : Nat) : BitVec 32 := Table.get normZero h.m n
/-- The key of cell (i, j) of tile t. -/
def cellKey (t i j : Nat) : Nat := t * 65536 + i * 256 + j
/-- Reading a cell of a tile (R166). -/
def Hart.cell (h : Hart) (t i j : Nat) : BitVec 32 := Table.get 0 h.acc (cellKey t i j)

/-- Setting a bit of LIVEMASK (R55). -/
def Hart.live (h : Hart) (bit : Nat) : Hart := { h with livemask := h.livemask ||| BitVec.ofNat 64 (2 ^ bit) }
/-- Whether a bit of LIVEMASK is set: v at 0, d at 32, tiles at 48 (Table 3-7). -/
def Hart.isLive (h : Hart) (bit : Nat) : Bool := h.livemask.getLsbD bit
/-- Making a register dead: its bit clears and its contents are given up (R55). -/
def Hart.kill (h : Hart) (bit : Nat) : Hart :=
  let h := { h with livemask := h.livemask &&& ~~~(BitVec.ofNat 64 (2 ^ bit)) }
  if bit < 32 then { h with v := Table.erase h.v bit }
  else if bit < 48 then { h with d := Table.erase h.d (bit - 32), m := Table.erase h.m (bit - 32) }
  else { h with acc := Table.splice h.acc ((bit - 48) * 65536) ((bit - 47) * 65536) [] }

/-- Writing a v register whole: it becomes live (R55). -/
def Hart.setV (h : Hart) (n : Nat) (x : BitVec 2048) : Hart := Hart.live { h with v := Table.set 0 h.v n x } n
/-- Writing the components of a d register: it becomes live (R55). -/
def Hart.setD (h : Hart) (n : Nat) (x : BitVec 4096) : Hart := Hart.live { h with d := Table.set 0 h.d n x } (32 + n)
/-- Writing an m register (R47); its liveness is that of its d partner (R55). -/
def Hart.setM (h : Hart) (n : Nat) (x : BitVec 32) : Hart := { h with m := Table.set normZero h.m n x }
/-- Writing a cell of a tile (R166, R170). -/
def Hart.setCell (h : Hart) (t i j : Nat) (x : BitVec 32) : Hart :=
  Hart.live { h with acc := Table.set 0 h.acc (cellKey t i j) x } (48 + t)
/-- Replacing rows `lo` to `hi - 1` of a tile by computed cells (R166, R170). -/
def Hart.setRows (h : Hart) (t lo hi : Nat) (f : Nat → Nat → BitVec 32) : Hart :=
  let cells := (List.range (hi - lo)).flatMap (fun i => (List.range 256).map (fun j => f (lo + i) j))
  let base := cellKey t lo 0
  Hart.live { h with acc := Table.splice h.acc base (cellKey t hi 0) (Table.ofList 0 base cells) } (48 + t)

/-- The number of a g operand; 0, the register that reads as zero, for an operand of another class. -/
def gNum : Operand → Nat
  | .g n => n.val
  | _ => 0
/-- The number of a k operand. -/
def kNum : Operand → Nat
  | .k n => n.val
  | _ => 0
/-- The number of an s-register operand. -/
def sNum : Operand → Nat
  | .s n => n.toNat
  | _ => 0
/-- The first register of a v or d group. -/
def firstReg : Operand → Nat
  | .v n _ _ => n.val
  | .d n _ _ => n.val
  | _ => 0
/-- The number of registers of a v or d group (Table 4-2). -/
def grpSize (o : Operand) : Nat := 2 ^ o.grp
/-- The tile that an acc operand names. -/
def accTile : Operand → Nat
  | .acc t _ _ _ _ => t.val
  | _ => 0
/-- The direction code of an acc operand. -/
def accDirOf : Operand → Nat
  | .acc _ dir _ _ _ => dir.val
  | _ => 0
/-- The i32 immediate that A and B form together (R72). -/
def imm32 (x : Ops) : Nat := x.a.imm + 65536 * x.b.imm
/-- The 64-bit pattern of a scalar operand: a g register, or an i16 sign-extended (R72, R127). -/
def Hart.src (h : Hart) (o : Operand) : Word :=
  match o with
  | .g n => h.gr n.val
  | .i16 x => x.signExtend 64
  | _ => 0

/-- The registers of a v, d or whole-tile operand as bits of LIVEMASK. -/
def liveBits (o : Operand) : List Nat :=
  match o with
  | .v n g _ => (List.range (2 ^ g.val)).map (fun i => n.val + i)
  | .d n g _ => (List.range (2 ^ g.val)).map (fun i => 32 + n.val + i)
  | .acc t _ _ _ _ => [48 + t.val]
  | _ => []

/-- A field whose operand has a dead register, in the order given (R55, R145). A system core, which runs no task, raises no LIVE_DEAD
(Table 19-4): a dead register reads as zero there. -/
def Hart.deadField (h : Hart) (x : Ops) (fs : List Nat) : Option Nat :=
  if h.deaden && h.task.isSome then fs.find? (fun f => (liveBits (x.field f)).any (fun b => !h.isLive b)) else none

/-- Releasing the marked sources at retirement, but for registers that the instruction writes (R56). -/
def Hart.release (h : Hart) (x : Ops) : Hart :=
  let written := liveBits x.d
  [x.a, x.b].foldl (fun h o => if o.marked then ((liveBits o).filter (fun b => !written.contains b)).foldl Hart.kill h else h) h

/-- The whole guard: bit 0 of the predicate, inverted or not (R67). -/
def Hart.guardOn (h : Hart) (x : Ops) : Bool := (h.kr x.guard.val).getLsbD 0 != x.inv
/-- The OPs of the instructions whose description says that they are element-guarded (R67, R143): the elementwise,
comparing, converting, reducing, scanning and permuting vector instructions (VEXT, VHAD, SETVL and GETVL are not), and the
vector memory accesses. -/
def elementOps : List Nat :=
  [Desc.vadd, .vsub, .vmul, .vmulh, .vfma, .vdiv, .vsqrt, .vmin, .vmax, .vabs, .vand, .vor, .vxor, .vandn, .vshl, .vshr, .vsra,
   .vcmpeq, .vcmpne, .vcmplt, .vcmple, .vsel, .vmov, .vdot, .vcvt, .vbscl, .vbqntScale, .vbqntQuant, .vredsum, .vredmin, .vredmax,
   .vscan, .vscanmax, .vperm, .vslideUp, .vslideDown, .vbcast, .vcompress, .viota, .vlut, .vexp2, .vlog2, .vrcp, .vrsq, .vrng,
   .ldv, .stv, .lds, .sts, .ldg, .stg, .ldff, .vamo].map Desc.op
/-- `pred(k, i, w)`: the guard of element `i` of width `w`, by the byte lane of its bit 0 (R68). -/
def Hart.pred (h : Hart) (x : Ops) (i w : Nat) : Bool := (h.kr x.guard.val).getLsbD (i * w % 2048 / 8) != x.inv

/-- Element `i` of width `w` of the v group from register `first` (R70). -/
def Hart.elem (h : Hart) (first i w : Nat) : Nat :=
  ((h.vr (first + i * w / 2048)).toNat >>> (i * w % 2048)) % 2 ^ w

/-- Replacing `w` bits at bit `at_` of a number. -/
def patchBits (x at_ w v : Nat) : Nat :=
  x - ((x >>> at_) % 2 ^ w) * 2 ^ at_ + (v % 2 ^ w) * 2 ^ at_

/-- Writing element `i` of width `w` of the v group from register `first` (R70). -/
def Hart.setElem (h : Hart) (first i w v : Nat) : Hart :=
  let r := first + i * w / 2048
  { h with v := Table.set 0 h.v r (BitVec.ofNat 2048 (patchBits (h.vr r).toNat (i * w % 2048) w v)) }

/-- Making every register of a destination group live (R144). -/
def Hart.liveAll (h : Hart) (o : Operand) : Hart := (liveBits o).foldl Hart.live h

/-- Component `j` of the direction of a d group (R70, R190). -/
def Hart.comp (h : Hart) (first j : Nat) : Int :=
  sextN ((h.dr (first + j / 256)).toNat >>> (16 * (j % 256))) 16

/-- VL.LEN (Table 3-3). -/
def Hart.vlen (h : Hart) : Nat := (h.vl.extractLsb' 0 14).toNat
/-- VL.TYPE (Table 3-3). -/
def Hart.vtype (h : Hart) : Ty := Ty.ofCode (h.vl.extractLsb' 16 4).toNat
/-- The largest length for a VL value: 2,048 × G / w (R51). -/
def vlmaxOf (vl : Word) : Nat :=
  2048 * 2 ^ (vl.extractLsb' 20 2).toNat / (Ty.ofCode (vl.extractLsb' 16 4).toNat).width

/-- The capacity of an operand at element width `w`; none for operands without elements (R140). -/
def capOf (o : Operand) (w : Nat) : Option Nat :=
  match o with
  | .v _ g _ => some (2048 * 2 ^ g.val / w)
  | .k _ => some (2048 / w)
  | _ => none

/-- The g registers that a field names: the operand itself or an indirect slice index (R71). -/
def gNamed (o : Operand) : Option Nat :=
  match o with
  | .g n => some n.val
  | .acc _ _ idx true _ => some (idx.val % 32)
  | _ => none

/-- Whether a g register is pegged (R61); g0 never is. -/
def Hart.pegged (h : Hart) (n : Nat) : Bool := n ≠ 0 && h.pegmask.getLsbD n
/-- The first field, in the order D, A, B, that names a pegged register, with that register (R61). -/
def Hart.pegField (h : Hart) (x : Ops) : Option (Nat × Nat) :=
  [2, 3, 4].findSome? (fun f => match gNamed (x.field f) with
    | some n => if h.pegged n then some (f, n) else none
    | none => none)

/-- The slice index of an acc operand: its index field, or the register's value (R71). -/
def Hart.sliceIdx (h : Hart) (o : Operand) : Nat :=
  match o with
  | .acc _ _ idx true _ => (h.gr (idx.val % 32)).toNat
  | .acc _ _ idx false _ => idx.val
  | _ => 0

/-- ACC_RANGE for an indirect slice index above 255 in field `f` (R71, R169). -/
def Hart.sliceBad (h : Hart) (o : Operand) : Bool := 255 < h.sliceIdx o

/-- The cell that position `n` of a slice names: row, column, or wrapped diagonal `j` (R71). -/
def sliceCell (dir j n : Nat) : Nat × Nat :=
  if dir = 1 then (j, n) else if dir = 2 then (n, j) else (n, (n + j) % 256)

end Sys2Proof.Machine
end

