-- ==== Sys2Proof/Machine/Mem.lean ====
section
/-! DEFINITION. Memory below translation: windows and offsets (R262 to R266), the home points with the L2, error marks
and poison (R403 to R409), host memory in its three places (R318), routes (R13), and the performing of one store. -/
namespace Sys2Proof.Machine
open Sys2Proof

/-- A core of the package (harts that equal a blank one are not listed). -/
def State.hart (s : State) (n : Nat) : Hart := Table.get .blank s.harts n
/-- Replacing a core. -/
def State.setHart (s : State) (n : Nat) (h : Hart) : State := { s with harts := Table.set .blank s.harts n h }
/-- Whether a hart is a system core (R14). -/
def isSys (n : Nat) : Bool := 256 ≤ n
/-- Where a hart stands: its post, or 8 and 9 for the west and east I/O die; the POSTID it reads (R8, R14). -/
def postId (n : Nat) : Nat := if n < 256 then n / 32 else if n < 260 then 8 else 9
/-- The side of host memory a place uses: false west, true east (R8, R318). -/
def sideOf (place : Nat) : Bool := if place < 8 then 2 ≤ place % 4 else place = 9

/-- The firmware image that runs (R387). -/
def State.firmware (s : State) : List Byte := s.fwImage.getD []
/-- CAPS.POSTS (Table 1-4). -/
def State.posts (s : State) : Nat := if s.l6 then 0xBB else 0xFF
/-- Whether a core exists and its post is in service (R10, R14, R16, R415). -/
def State.coreUp (s : State) (n : Nat) : Bool :=
  if isSys n then n < 264 else s.posts.testBit (n / 32) && !s.scrapped.testBit (n / 32)

/-- CAPS (Table 1-4, R15). -/
def State.caps (s : State) : Word :=
  BitVec.ofNat 64 (s.posts + (if s.l6 then 0x4400 else 0) + 32 * 2 ^ 16 + 16 * 2 ^ 24 + 2 ^ 32 + (if s.l6 then 6 else 8) * 2 ^ 40)
/-- BOOTSTAT (Table 1-5, R17). -/
def State.bootstat (s : State) : Word :=
  BitVec.ofNat 64 (s.phase % 16 + s.bootCause.code * 16 + (s.failPosts % 256) * 1024 + s.elapsed.toNat * 2 ^ 32)

/-- The window of a physical address (R262). -/
def window (pa : Nat) : Nat := pa >>> 48
/-- The offset of a physical address within its window. -/
def winOff (pa : Nat) : Nat := pa % 2 ^ 48
/-- The post that holds an address of windows 0x0 to 0x9 (Table 13-1). -/
def homePost (pa : Nat) : Nat := if window pa < 8 then window pa else bitsN pa 47 44
/-- The SRAM-tier address of an offset of a post. -/
def sramAddr (post off : Nat) : Nat := 8 * 2 ^ 48 + post * 2 ^ 44 + off

/-- The registers of the control window that exist (Table 18-7). -/
def ctrlValid (off : Nat) : Bool :=
  (0x10 ≤ off && off < 0x20) || (0x40 ≤ off && off < 0x58) || (0x100 ≤ off && off < 0x120) ||
  (0x200 ≤ off && off < 0x288) || (0x10000 ≤ off && off < 0x30000)

/-- Whether an offset is valid (Table 13-2, R16, R263, R369). -/
def State.validAddr (s : State) (pa : Nat) : Bool :=
  let w := window pa
  let off := winOff pa
  if w < 8 then s.posts.testBit w && off ≤ 0x17FFFFFFFF
  else if w = 8 then bitsN pa 47 44 < 8 && s.posts.testBit (bitsN pa 47 44) && off % 2 ^ 44 ≤ 0x2FFFFFFF
  else if w = 9 then bitsN pa 47 44 < 8 && s.posts.testBit (bitsN pa 47 44) && bitsN pa 43 38 < 32 && off % 2 ^ 38 ≤ 0xFFFFF
  else if w = 10 then off < bitsN s.hostlim.toNat 47 12 * 4096
  else if w = 11 then off < bitsN s.cxllim.toNat 47 12 * 4096
  else if w = 12 then bitsN pa 47 36 < bitsN s.spancfg.toNat 24 12
  else if w = 14 then ctrlValid off
  else false

/-- A byte of memory as last performed at its only or base place; a byte never written reads 0 (R18, log 4). -/
def State.memByte (s : State) (pa : Nat) : Byte := Table.get 0 s.mem pa
/-- Setting a byte of memory. -/
def State.putByte (s : State) (pa : Nat) (x : Byte) : State := { s with mem := Table.set 0 s.mem pa x }
/-- `n` bytes of memory as a number, lowest address first (R4). -/
def State.memNat (s : State) (pa n : Nat) : Nat := natOfBytes ((List.range n).map (fun i => s.memByte (pa + i)))
/-- Setting consecutive bytes of memory. -/
def State.putBytes (s : State) (pa : Nat) (bs : List Byte) : State :=
  (bs.zipIdx).foldl (fun s p => s.putByte (pa + p.2) p.1) s
/-- Setting `n` bytes of memory from a number, lowest address first (R4). -/
def State.putNat (s : State) (pa n x : Nat) : State := s.putBytes pa (bytesOf n x)

/-- The number of a subarray of a post within the plane map: 12,288 die + 192 bank + subarray (R264, R382). -/
def subarrayOf (pa : Nat) : Nat :=
  12288 * bitsN pa 13 10 + 192 * bitsN pa 19 14 + bitsN pa 47 20 / 512
/-- Whether an address lies in the image area of a post (R57). -/
def inImageArea (pa : Nat) : Bool :=
  window pa = 8 && 0x20000000 ≤ pa % 2 ^ 44 && pa % 2 ^ 44 ≤ 0x2EFFFFFF
/-- The length of an image (R57). -/
def imageLen (tiles : Nat) : Nat := 0x10000 + 0x40000 * tiles
/-- A task by its uid. -/
def State.task (s : State) (u : Nat) : Option Task := Table.get none s.tasks u
/-- Replacing a task. -/
def State.setTask (s : State) (u : Nat) (t : Option Task) : State := { s with tasks := Table.set none s.tasks u t }
/-- A graph by its GRAPHID. -/
def State.graph (s : State) (g : Nat) : Option Graph := Table.get none s.graphs g
/-- Replacing a graph. -/
def State.setGraph (s : State) (g : Nat) (x : Option Graph) : State := { s with graphs := Table.set none s.graphs g x }
/-- The task bound to a hart. -/
def State.taskOf (s : State) (n : Nat) : Option (Nat × Task) :=
  match (s.hart n).task with
  | some u => (s.task u).map (fun t => (u, t))
  | none => none
/-- The graph of the task bound to a hart. -/
def State.graphOf (s : State) (n : Nat) : Option (Nat × Graph) :=
  match s.taskOf n with
  | some (_, t) => (s.graph t.graph).map (fun g => (t.graph, g))
  | none => none
/-- The ASID under which a hart's task acts; 0 where it has no task. -/
def State.asidOf (s : State) (n : Nat) : Nat := match s.graphOf n with | some (_, g) => g.asid | none => 0

/-- The listed tasks with their uids. -/
def State.taskList (s : State) : List (Nat × Task) := s.tasks.filterMap (fun p => p.2.map (fun t => (p.1, t)))
/-- The task whose image holds a byte (R57). -/
def State.imageAt (s : State) (pa : Nat) : Option (Nat × Task) :=
  s.taskList.find? (fun p => match p.2.image with
    | some b => b ≤ pa && pa < b + imageLen p.2.tiles
    | none => false)

/-- The beams between two posts, or a post (0 to 7) and an I/O die (8 west, 9 east), by the fixed route (R13). -/
def route (a b : Nat) : List Nat :=
  let along (y x x' : Nat) : List Nat :=
    (List.range 3).filter (fun i => min x x' ≤ i && i < max x x') |>.map (fun i => 3 * y + i)
  if a = b then []
  else if a < 8 && b < 8 then
    along (a / 4) (a % 4) (b % 4) ++ (if a / 4 = b / 4 then [] else [6 + b % 4])
  else if a < 8 then along (a / 4) (a % 4) (if b = 8 then 0 else 3) ++ [(if b = 8 then 10 else 12) + a / 4]
  else if b < 8 then [(if a = 8 then 10 else 12) + b / 4] ++ along (b / 4) (if a = 8 then 0 else 3) (b % 4)
  else [10, 0, 1, 2, 12]

/-- A beam of the package. -/
def State.beam (s : State) (b : Nat) : Beam := (Table.get none s.beams b).getD (.fresh b)
/-- Replacing a beam. -/
def State.setBeam (s : State) (b : Nat) (x : Beam) : State :=
  { s with beams := Table.set none s.beams b (if x = .fresh b then none else some x) }

/-- Where an address is reached by a requester at `place`: a post or an I/O die (Table 13-1). -/
def homePlace (place pa : Nat) : Nat :=
  let w := window pa
  if w ≤ 9 then homePost pa
  else if w = 11 then (if Config.cxlEast then 9 else 8)
  else if sideOf place then 9 else 8

/-- Why a request from `place` cannot reach an address: a scrapped post does not answer (R415), a lost beam lies on the
route (R431). -/
def State.unreachable (s : State) (place pa : Nat) : Option Cause :=
  if window pa ≤ 9 && s.scrapped.testBit (homePost pa) then some .remoteTimeout
  else if s.beams.any (fun p => match p.2 with | some b => b.lost | none => false) &&
      (route place (homePlace place pa)).any (fun b => (s.beam b).lost) then some .beamDown
  else none

/-- The base and size of the unit that carries check bits: a 32-byte DRAM sector, an 8-byte SRAM or bench word (R403,
R408). -/
def unitBase (pa : Nat) : Nat := if window pa < 8 then pa / 32 * 32 else pa / 8 * 8
/-- The size of that unit. -/
def unitSize (pa : Nat) : Nat := if window pa < 8 then 32 else 8
/-- No error. -/
def ErrMark.clean : ErrMark := ⟨false, false, 0⟩
/-- The error mark of the unit of an address. -/
def State.errAt (s : State) (pa : Nat) : ErrMark := Table.get .clean s.err (unitBase pa)
/-- Setting an error mark. -/
def State.setErr (s : State) (pa : Nat) (e : ErrMark) : State := { s with err := Table.set .clean s.err (unitBase pa) e }
/-- Whether a plane map marks a subarray of a post (R382); free where its word cannot be read (R408, log 78). -/
def State.planeBit (s : State) (post sub : Nat) : Bool :=
  let a := sramAddr post (0x2FA00000 + sub / 8)
  (if (s.errAt a).poison || (s.errAt a).uncorr then Config.mapByte a else s.memByte a).getLsbD (sub % 8)
/-- Whether a DRAM address lies in a subarray that the plane map marks (R264, R382). -/
def State.inPlane (s : State) (pa : Nat) : Bool := window pa < 8 && s.planeBit (window pa) (subarrayOf pa)

/-- The sectors at the same place on the other fifteen dies (R403). -/
def parityGroup (pa : Nat) : List Nat :=
  (List.range 16).filterMap (fun d => if d = bitsN pa 13 10 then none else some (unitBase pa - bitsN pa 13 10 * 1024 + d * 1024))
/-- Whether cross-die parity rebuilds an uncorrectable sector (R403). -/
def State.rebuilds (s : State) (pa : Nat) : Bool := (parityGroup pa).all (fun q => !(s.errAt q).uncorr)

/-- Whether an address may be held in sectors: DRAM in its home L2, CXL memory in its line cache (Table 13-1, R318). -/
def cached (pa : Nat) : Bool := window pa < 8 || window pa = 11
/-- A sector of the home L2 (R266) or of the line cache of CXL memory. -/
def State.sector (s : State) (pa : Nat) : Option Sector := if cached pa then Table.get none s.l2 (pa / 32) else none
/-- Replacing a sector of a cache. -/
def State.setSector (s : State) (pa : Nat) (x : Option Sector) : State := { s with l2 := Table.set none s.l2 (pa / 32) x }
/-- The 32 bytes of a sector as written in DRAM. -/
def State.dramSector (s : State) (pa : Nat) : Nat := s.memNat (pa / 32 * 32) 32
/-- A byte as DRAM stores it, its errors included (R403, R404). -/
def State.rawByte (s : State) (pa : Nat) : Byte :=
  s.memByte pa ^^^ BitVec.ofNat 8 ((s.errAt pa).flip >>> (8 * (pa - unitBase pa)))

/-! The protection class of a page (R364). -/

/-- An entry of the ASID table (Table 18-2). -/
def asidEntry (asid : Nat) : Nat := sramAddr 0 0x2F000000 + 64 * asid

/-- One level of a walk (Table 18-3): its number, the shift of its index, the number of its entries. -/
def walkLevels (g64 : Bool) : Nat → Nat × Nat
  | 3 => (39, 8192)
  | 2 => (30, 512)
  | 1 => (21, 512)
  | _ => if g64 then (16, 32) else (12, 512)

/-- Whether a valid entry keeps the rules of R364 at its level. -/
def pteOk (level : Nat) (size : Nat) (e : Nat) : Bool :=
  bitsN e 11 9 = 0 &&
  (if e.testBit 1 then level ≠ 0 && bitsN e 7 2 = 0 && (level = 1 || !e.testBit 8)
   else level ≠ 3 && !e.testBit 8 && bitsN e 7 6 ≠ 3 && bitsN e 51 0 / 4096 * 4096 % 2 ^ size = 0)

/-- `n` bytes as last written, held in a cache or not. -/
def State.writtenNat (s : State) (pa n : Nat) : Nat :=
  natOfBytes ((List.range n).map (fun i => match s.sector (pa + i) with
    | some x => BitVec.ofNat 8 (x.data.toNat >>> (8 * ((pa + i) % 32)))
    | none => s.memByte (pa + i)))
/-- The entries of a page table that are not zero, of those at which bytes are listed or cached. -/
def State.tableEntries (s : State) (table n : Nat) : List Nat :=
  let at_ := (Table.slice s.mem table (table + 8 * n)).map (fun p => p.1 / 8 * 8) ++
    (Table.slice s.l2 (table / 32) ((table + 8 * n) / 32)).flatMap (fun p => (List.range 4).map (fun k => 32 * p.1 + 8 * k))
  (at_.eraseDups.map (fun a => s.writtenNat a 8)).filter (fun e => e.testBit 0)
/-- The protection classes of the leaves under a page table that map an address. -/
def State.leafClasses (s : State) (pa : Nat) : (fuel level table : Nat) → (g64 : Bool) → List Nat
  | 0, _, _, _ => []
  | fuel + 1, level, table, g64 =>
    let (shift, n) := walkLevels g64 level
    (s.tableEntries table n).flatMap (fun e =>
      let next := bitsN e 51 0 / 4096 * 4096
      if !pteOk level shift e then []
      else if e.testBit 1 then State.leafClasses s pa fuel (level - 1) next (e.testBit 8)
      else if pa / 2 ^ shift * 2 ^ shift = next then [bitsN e 7 6] else [])
/-- Whether some leaf, of a valid ASID or remembered by the translation units, maps an address with a class other than 2. -/
def State.otherClass (s : State) (pa : Nat) : Bool :=
  let base := sramAddr 0 0x2F000000
  let asids := ((Table.slice s.mem base (base + 0x400000)).filter (fun p => p.1 % 64 = 0 && p.2.getLsbD 0)).map (fun p => p.1)
  let kept := s.walked.filterMap (fun w =>
    let shift := (walkLevels (w.level = 4) (w.level % 4)).1
    let e := w.value.toNat
    if !e.testBit 1 && pa / 2 ^ shift * 2 ^ shift = bitsN e 51 0 / 4096 * 4096 then some (bitsN e 7 6) else none)
  (asids.flatMap (fun e => s.leafClasses pa 4 3 (bitsN (s.memNat e 8) 51 16 * 65536) false) ++ kept).any (fun c => c ≠ 2)
/-- Whether a read under class 2 returns the stored bits, the errors undetected (R403): not where another leaf of the page has another
class (R364). -/
def State.asStored (s : State) (pa pclass : Nat) : Bool := pclass = 2 && !s.otherClass pa

/-- Writing a sector back whole, poisoned where the sector is (R266, R406); bits that differ from those written stay marked
(R364). -/
def State.writeBack (s : State) (pa : Nat) (x : Sector) : State :=
  let s := s.putNat (pa / 32 * 32) 32 x.data.toNat
  if window pa < 8 then s.setErr pa ⟨x.poison || x.bad, false, x.flip⟩ else s

/-- The log's name of a hart (Table 20-2). -/
def State.logHart (s : State) (n : Nat) : LogAgent :=
  if isSys n then ⟨3, n - 256, 0, 0, 0⟩
  else match s.taskOf n, s.graphOf n with
    | some (_, t), some (g, gr) => ⟨0, 0, gr.asid, g, t.id⟩
    | _, _ => ⟨0, 0, 0, 0, 0⟩

/-- Reading CYCLES of a post or an I/O die (R24): it has moved on by a free amount (log 8), and never wraps. -/
def State.readCycles (s : State) (place : Nat) : State × Word :=
  let v := BitVec.ofNat 64 (min (2 ^ 64 - 1) ((Table.get 0 s.cycles place).toNat + Config.cyclesStep s.tick))
  ({ s with cycles := Table.set 0 s.cycles place v, tick := s.tick + 1 }, v)

/-- Writing an aligned 8-byte word of the SRAM tier whole: its errors are gone (R406, R408). -/
def State.putWord (s : State) (pa x : Nat) : State := (s.putNat pa 8 x).setErr pa .clean

/-- Changing an aligned 8-byte word of the SRAM tier in place, as a write of part of it: an uncorrectable one is stored poisoned and
logged, a poisoned one stays so (R405, R406, R408). -/
def State.changeWord (s : State) (pa : Nat) (f : Nat → Nat) (log : State → State) : State :=
  let e := s.errAt pa
  let old := if e.uncorr then s.memNat pa 8 ^^^ e.flip else s.memNat pa 8
  ((if e.uncorr then log s else s).putNat pa 8 (f old)).setErr pa ⟨e.poison || e.uncorr, false, 0⟩

/-- Appending to the error log of the post that holds an address (R412). A count that cannot be read takes no atomic, and nothing is
logged (R406, log 76). -/
def State.logError (s : State) (pa kind : Nat) (a : LogAgent) : State :=
  let p := homePost pa
  let base := sramAddr p 0x2FD00000
  let wr := s.memNat base 8
  let e := base + 64 + 32 * (wr % 4096)
  let (s, cyc) := s.readCycles p
  if (s.errAt base).poison || (s.errAt base).uncorr then s
  else
    let s := s.putWord e (unitBase pa + kind * 2 ^ 52)
    let s := s.putWord (e + 8) (a.asid + a.graph * 2 ^ 32)
    let s := s.putWord (e + 16) (a.task + a.kind * 2 ^ 32 + a.core * 2 ^ 36)
    let s := s.putWord (e + 24) cyc.toNat
    s.putWord base ((wr + 1) % 2 ^ 64)

/-- A dirty sector that an access finds uncorrectable is written back poisoned and logged (R409). -/
def State.loseSector (s : State) (pa : Nat) (who : LogAgent) : State :=
  match (if window pa ≤ 9 then s.sector pa else none) with
  | some x => if x.bad && x.dirty then ((s.writeBack pa x).setSector pa none).logError pa 4 { who with kind := 5 } else s
  | none => s

/-- Reading the unit of an address at its home point (R403 to R409): the correction, rebuild or drop it brings about, and
the cause where it cannot be read. -/
def State.readUnit (s : State) (pa pclass : Nat) (who : LogAgent) : State × Option Cause :=
  let dram (s : State) : State × Option Cause :=
    let e := s.errAt pa
    if e = .clean then (s, none)
    else if e.poison then (s, some .poison)
    else if window pa < 8 then
      if s.asStored pa pclass then (s, none)
      else if !e.uncorr then (s.setErr pa .clean, none)
      else if pclass = 0 && s.rebuilds pa then (s.setErr pa .clean, none)
      else (s.logError pa 0 who, some .eccUncorr)
    else if e.uncorr then (s.logError pa 2 who, some .sramUncorr)
    else (s.setErr pa .clean, none)
  if 9 < window pa then (s, none)
  else match s.sector pa with
    | some x =>
      if x.bad && x.dirty then (s.loseSector pa who, some .poison)
      else if x.bad then dram (s.setSector pa none)
      else if x.poison then (s, some .poison) else (s, none)
    | none => dram s

/-- Whether reading a unit can change or report anything: it has a mark, or a cache holds it with one. -/
def State.flawed (s : State) (pa : Nat) : Bool :=
  s.errAt pa ≠ .clean || (match s.sector pa with | some x => x.bad | none => false)

/-- A sector leaves its cache, a dirty one by way of its memory (R235, R409). -/
def State.evict (s : State) (pa : Nat) : State :=
  match s.sector pa with
  | none => s
  | some x =>
    if x.bad then (s.readUnit pa 0 ⟨5, 0, 0, 0, 0⟩).1.setSector pa none
    else (if x.dirty then s.writeBack pa x else s).setSector pa none
/-- The 128-byte lines of which a post's L2 holds a sector (R9). -/
def State.l2Lines (s : State) (post : Nat) : List Nat :=
  ((s.l2.filter (fun p => window (32 * p.1) = post)).map (fun p => p.1 / 4)).foldr (fun l ls => if ls.head? = some l then ls else l :: ls) []
/-- The lines of an L2 of 48 MiB (R9). -/
def l2Capacity : Nat := 393216
/-- A post whose L2 holds more lines than its capacity (R9). -/
def State.overfull (s : State) : Option Nat := (List.range 8).find? (fun p => l2Capacity < (s.l2Lines p).length)
/-- One line leaves a post's L2: its choice is free (R9, log 12). -/
def State.evictLine (s : State) (post : Nat) : State :=
  let ls := s.l2Lines post
  let l := ls.getD (Config.l2Victim s.tick % ls.length) 0
  (List.range 4).foldl (fun s k => s.evict (128 * l + 32 * k)) { s with tick := s.tick + 1 }

/-- A byte of host memory as a place sees it (R318): the last write performed there, or the base. -/
def State.hostByte (s : State) (at_ : HostWr → Bool) (pa : Nat) : Byte :=
  match (s.hostWrites.filter (fun w => at_ w && w.addr ≤ pa && pa < w.addr + w.data.length)).getLast? with
  | some w => w.data.getD (pa - w.addr) 0
  | none => s.memByte pa
/-- Whether a write has been performed at a side. -/
def HostWr.at (east : Bool) (w : HostWr) : Bool := if east then w.atEast else w.atWest

/-- BOOTSTAT, CAPS and the other control registers as 8 bytes (Table 18-7). -/
def State.ctrlReg (s : State) (off : Nat) : Word :=
  if off = 0x10 then s.caps
  else if off = 0x18 then s.bootstat
  else if off = 0x40 then s.hostlim
  else if off = 0x48 then s.cxllim
  else if off = 0x50 then s.spancfg
  else if off = 0x100 then s.fwaddr
  else if off = 0x108 then s.fwlen
  else if 0x200 ≤ off && off < 0x288 then BitVec.ofNat 64 (natOfBytes ((devPub.drop (off - 0x200)).take 8))
  else if 0x20000 ≤ off && off < 0x30000 && s.phase = 8 then
    BitVec.ofNat 64 (s.memNat (sramAddr 0 (0x2FF00000 + 128 * ((off - 0x20000) / 8) + 0x18)) 8)
  else 0

/-- The bits of an aligned 8-byte word that a byte of it holds. -/
def byteOfMask (mask i : Nat) : Byte := BitVec.ofNat 8 (mask >>> (8 * i))
/-- The bits of a queue record that are not reserved, word by word (Table 17-1). -/
def queueMask : Nat → Nat
  | 1 => 0xFFFFFFFF07FF1F7F
  | 2 => 0xFFFFFFFF
  | 4 => 0xF
  | 5 => 0
  | k => if k < 10 then 2 ^ 64 - 1 else 0
/-- The bits of an ASID-table entry that are not reserved, word by word (Table 18-2). -/
def asidMask : Nat → Nat
  | 0 => 0x000FFFFFFFFF000F
  | 1 => 2 ^ 64 - 1
  | 2 => 0xFFFF
  | 3 => 0xFFFFFFFF
  | _ => 0
/-- The bits of a region-table entry that are not reserved, word by word (Table 18-12). -/
def regionMask : Nat → Nat
  | 0 => 0x7FFFF0003
  | 1 => 2 ^ 64 - 1
  | 2 => 0x1FFF
  | _ => 0
/-- The region tables of the valid ASIDs that have entries: their addresses and counts (R362, R380). -/
def State.regionTables (s : State) : List (Nat × Nat) :=
  let base := sramAddr 0 0x2F000000
  ((Table.slice s.mem base (base + 0x400000)).filter (fun p => (p.1 % 64 = 0x10 || p.1 % 64 = 0x11))).filterMap (fun p =>
    let e := p.1 / 64 * 64
    if (s.memByte e).getLsbD 0 then some (s.memNat (e + 8) 8, s.memNat (e + 0x10) 2) else none)
/-- The bits of a byte of the queue table, of the ASID table or of a region table that a read returns; reserved ones read zero
(R3, R340, R362, R380). -/
def State.readMask (s : State) (pa : Nat) : Byte :=
  if window pa ≠ 8 then 0xFF
  else
    let o := pa - sramAddr 0 0x2F000000
    if sramAddr 0 0x2F000000 ≤ pa && o < 0x400000 then byteOfMask (asidMask (o % 64 / 8)) (pa % 8)
    else if sramAddr 0 0x2FF00000 ≤ pa && o < 0x1000000 then byteOfMask (queueMask (o % 128 / 8)) (pa % 8)
    else if s.regionTables.any (fun t => t.1 % 64 = 0 && t.1 ≤ pa && pa < t.1 + 64 * t.2) then byteOfMask (regionMask (pa % 64 / 8)) (pa % 8)
    else 0xFF

/-- The bits of a word of an image's header that a register has (Tables 3-2 to 3-7); the words after EPC are reserved. -/
def headerMask (tiles : Nat) : Nat → Nat
  | 0 => 2 ^ 64 - 1
  | 1 => 2 ^ 32 - 1
  | 2 => 2 ^ 32 - 2
  | 3 => 2 ^ (48 + tiles) - 1
  | 4 => 0xFF
  | 5 => 0x1FFF
  | 6 => 0x3F3FFF
  | 7 => 0x7F
  | 8 => 2 ^ 52 - 1
  | 9 => 0xFFFF
  | 10 => 2 ^ 64 - 1
  | _ => 0
/-- The bits of a byte of an image that a read returns: reserved ones and the slot of g0 read zero (R3, Table 3-8). -/
def imageMask (tiles off : Nat) : Byte :=
  if off < 0x100 then byteOfMask (headerMask tiles (off / 8)) (off % 8)
  else if off < 0x108 || (0x340 ≤ off && off < 0x400) || (0xC00 ≤ off && off < 0x2000) || (0x6000 ≤ off && off < 0x10000) then 0
  else 0xFF

/-- A byte as a requester at `place` reads it at its home point or its own cache (Table 13-1). -/
def State.homeByte (s : State) (place pa pclass : Nat) : Byte :=
  let w := window pa
  if cached pa then
    match s.sector pa with
    | some x => BitVec.ofNat 8 ((if x.flip ≠ 0 && s.asStored pa pclass then x.data.toNat ^^^ x.flip else x.data.toNat) >>> (8 * (pa % 32)))
    | none => if (s.errAt pa).flip ≠ 0 && s.asStored pa pclass then s.rawByte pa else s.memByte pa
  else if w = 10 then s.hostByte (HostWr.at (sideOf place)) pa
  else if w = 14 then BitVec.ofNat 8 ((s.ctrlReg (winOff pa / 8 * 8)).toNat >>> (8 * (pa % 8)))
  else s.memByte pa &&& s.readMask pa

/-- A byte as a system core reads it: the image area reads as images do, 0 outside every image (R3, R58). -/
def State.sysByte (s : State) (n pa : Nat) : Byte :=
  if inImageArea pa then
    match s.imageAt pa with
    | some (_, t) => s.memByte pa &&& imageMask t.tiles (pa - t.image.getD 0)
    | none => 0
  else s.homeByte (postId n) pa 0

/-- The fields of the queue table that the device keeps (RO of Table 17-1): offsets 0x10 to 0x27 of a record. -/
def queueRO (pa : Nat) : Bool :=
  let o := pa - sramAddr 0 0x2FF00000
  sramAddr 0 0x2FF00000 ≤ pa && o < 0x100000 && 0x10 ≤ o % 128 && o % 128 < 0x28
/-- The bytes that only a system core writes: the queue table and the ASID table (R340, R362). -/
def tableRS (pa : Nat) : Bool :=
  (sramAddr 0 0x2FF00000 ≤ pa && pa < sramAddr 0 0x30000000) || (sramAddr 0 0x2F000000 ≤ pa && pa < sramAddr 0 0x2F400000)

/-- The error log of a post, which the device alone writes (R412). -/
def logRO (pa : Nat) : Bool :=
  let o := pa % 2 ^ 44
  window pa = 8 && 0x2FD00000 ≤ o && o < 0x2FD20040
/-- Whether a store of a hart (`none` for the host) changes a byte (R58, R291, R340, R362, R412): the peg records of an image
are not for a system core to write. -/
def State.storeLands (s : State) (who : Option Nat) (pa : Nat) : Bool :=
  let sysCore := match who with | some n => isSys n | none => false
  !queueRO pa && !logRO pa && (!tableRS pa || sysCore) &&
  (!inImageArea pa || (sysCore && (match s.imageAt pa with
    | some (_, t) => let o := pa - t.image.getD 0; t.status = .stopped && !(0x400 ≤ o && o < 0xC00)
    | none => false)))

/-- Bytes `data` at `addr`, one unit, merged over a unit's old bytes `old` from `base`. -/
def mergeUnit (old base addr : Nat) (data : List Byte) : Nat :=
  (data.zipIdx).foldl (fun x p => patchBits x (8 * (addr + p.2 - base)) 8 p.1.toNat) old

/-- The differing bits of a unit that a write of `len` bytes leaves. -/
def flipLeft (flip base addr len : Nat) : Nat := mergeUnit flip base addr (List.replicate len 0)

/-- Performing a write of one unit of windows 0x0 to 0x9 at its home point (R266, R405, R406, R408): `hint` 3 writes
through to DRAM where the sector is not held. Under class 2 the rest of a sector keeps the bits that differ from those
written (R364). -/
def State.writeUnit (s : State) (addr : Nat) (data : List Byte) (hint pclass : Nat) (poison : Bool) (who : LogAgent) : State :=
  let base := unitBase addr
  let size := unitSize addr
  let whole := data.length = size
  let s := if whole then s else s.loseSector addr who
  let e := s.errAt addr
  let raw := e ≠ .clean && s.asStored addr pclass
  let lost := !whole && e.uncorr && !(window addr < 8 && ((pclass = 0 && s.rebuilds addr) || raw))
  if window addr < 8 then
    -- a clean sector that failed its check is dropped and filled again (R409)
    match (match s.sector addr with | some x => if x.bad && !x.dirty then none else some x | none => none) with
    | some x =>
      s.setSector addr (some { x with data := BitVec.ofNat 256 (mergeUnit x.data.toNat base addr data), dirty := true, poison := poison || (x.poison && !whole), bad := false, flip := flipLeft x.flip base addr data.length })
    | none =>
      let old := if lost then s.dramSector addr ^^^ e.flip else s.dramSector addr
      let flip := if raw then flipLeft e.flip base addr data.length else 0
      let x : Sector := ⟨BitVec.ofNat 256 (mergeUnit old base addr data), true, poison || (!whole && (e.poison || lost)), false, flip⟩
      let s := if lost then s.logError addr 1 who else if !whole && !raw then s.setErr addr ⟨e.poison, false, 0⟩ else s
      if hint = 3 then s.writeBack addr x else s.setSector addr (some x)
  else
    let old := if lost then s.memNat base 8 ^^^ e.flip else s.memNat base 8
    let s := if lost then s.logError addr 3 who else s
    (s.putNat base 8 (mergeUnit old base addr data)).setErr addr ⟨poison || (!whole && (e.poison || lost)), false, 0⟩

/-- Whether two byte ranges share a byte. -/
def rangesMeet (a la b lb : Nat) : Bool := a < b + lb && b < a + la

/-- Dropping the writes to host memory that have been performed at all three places into the base, in order (R318). -/
def State.foldHost (s : State) : State :=
  let rec go (ws : List HostWr) (s : State) (acc : List HostWr) : State :=
    match ws with
    | [] => { s with hostWrites := acc.reverse }
    | w :: ws =>
      if w.atWest && w.atHost && w.atEast && !acc.any (fun v => rangesMeet v.addr v.data.length w.addr w.data.length) then
        go ws (s.putBytes w.addr w.data) acc
      else go ws s (w :: acc)
  go s.hostWrites s []

/-- The places at which a write has been performed, of 0 west, 1 host, 2 east. -/
def HostWr.places (w : HostWr) : List Nat :=
  (if w.atWest then [0] else []) ++ (if w.atHost then [1] else []) ++ (if w.atEast then [2] else [])
/-- Performing a write at a place, after the places that come before it (R318): a package agent's write goes from its own side
to the host and then to the other side, a host write from the host to each side. -/
def HostWr.perform (w : HostWr) (place : Nat) : HostWr :=
  if place = 0 then (if w.atEast then { w with atWest := true, atHost := true } else { w with atWest := true, atHost := w.atHost || w.owner.isNone })
  else if place = 1 then { w with atHost := true }
  else if w.atWest then { w with atEast := true, atHost := true } else { w with atEast := true, atHost := w.atHost || w.owner.isNone }

/-- Performing writes to host memory at the places that `want` gives (R318): at each place the writes of one byte are
performed in their order, so an earlier write of the bytes is performed first wherever a later one is. -/
def hostPerform (want : HostWr → List Nat) : List HostWr → List HostWr × List (Nat × Nat × Nat)
  | [] => ([], [])
  | w :: ws =>
    let (r, need) := hostPerform want ws
    let due := need.filterMap (fun q => if rangesMeet q.1 q.2.1 w.addr w.data.length then some q.2.2 else none)
    let v := (want w ++ due).foldl HostWr.perform w
    (v :: r, v.places.map (fun p => (w.addr, w.data.length, p)) ++ need)
/-- Performing writes to host memory at the places that `want` gives. -/
def State.hostAt (s : State) (want : HostWr → List Nat) : State :=
  State.foldHost { s with hostWrites := (hostPerform want s.hostWrites).1 }

/-- Performing the writes to host memory that `p` selects at all three places (R318). -/
def State.forceHost (s : State) (p : HostWr → Bool) : State := s.hostAt (fun w => if p w then [0, 1, 2] else [])

/-- A new write to host memory, performed first at one place, in the order of its bytes' writes there (R318). -/
def State.addHost (s : State) (w : HostWr) : State := State.hostAt { s with hostWrites := s.hostWrites ++ [w] } (fun _ => [])

/-- Writing bytes of one unit of windows 0x0 to 0x9 for a hart (`none` for the host), those that it may not change left as they
are (R58, R291, R340, R412). A write to the word at 0x08 of a queue record clears CFGERR (R344). -/
def State.agentWrite (s : State) (who : Option Nat) (addr : Nat) (data : List Byte) (hint pclass : Nat) (poison : Bool) (a : LogAgent) : State :=
  let lands := (List.range data.length).map (fun i => s.storeLands who (addr + i))
  if !lands.contains true then s
  else
    let s := s.writeUnit addr ((data.zip lands).zipIdx.map (fun b => if b.1.2 then b.1.1 else s.memByte (addr + b.2))) hint pclass poison a
    let o := addr - sramAddr 0 0x2FF00000
    if sramAddr 0 0x2FF00000 ≤ addr && o < 0x100000 && o % 128 / 8 = 1 then
      let f := sramAddr 0 0x2FF00000 + o / 128 * 128 + 0x20
      s.putByte f (s.memByte f &&& 0xF7)
    else s

/-- Performing one store at its home point (R310), bytes that no store may change left out (R58, R340). A write to host
memory is performed at the writer's side (R318). -/
def State.performStore (s : State) (p : Pending) : State :=
  let w := window p.addr
  if w = 10 then
    let east := sideOf (postId p.hart)
    s.addHost ⟨p.addr, p.data, some p.who, !east, false, east, []⟩
  else if w < 8 then s.writeUnit p.addr p.data p.hint p.pclass false p.who
  else if w = 8 || w = 9 then s.agentWrite (some p.hart) p.addr p.data p.hint p.pclass false p.who
  else if w = 11 then
    let old := match s.sector p.addr with | some x => x.data.toNat | none => s.dramSector p.addr
    let x : Sector := ⟨BitVec.ofNat 256 (mergeUnit old (p.addr / 32 * 32) p.addr p.data), true, false, false, 0⟩
    s.setSector p.addr (some x)
  else s.putBytes p.addr p.data

/-- The stores of a hart to be performed where `p` selects some, and those that go on waiting: a selected store takes with it every
earlier one of its task that meets its bytes (R312). -/
def dueStores (n : Nat) (p : Pending → Bool) : List Pending → List Pending × List Pending
  | [] => ([], [])
  | x :: xs =>
    let r := dueStores n p xs
    if x.hart = n && (p x || r.1.any (fun y => y.who = x.who && rangesMeet x.addr x.data.length y.addr y.data.length)) then (x :: r.1, r.2)
    else (r.1, x :: r.2)
/-- Performing the stores of a hart that `p` selects, in program order (R312). -/
def State.drain (s : State) (n : Nat) (p : Pending → Bool) : State :=
  let r := dueStores n p s.stores
  r.1.foldl State.performStore { s with stores := r.2 }
/-- Performing every store of a hart. -/
def State.drainAll (s : State) (n : Nat) : State := s.drain n (fun _ => true)

/-- An ordering point of core scope has come after the stores of a hart (R315): they are not performed, but no later task of its
core misses them. -/
def State.fenceCore (s : State) (n : Nat) : State :=
  { s with stores := s.stores.map (fun x => if x.hart = n then { x with fenced := true } else x) }

/-- A FENCE of a hart makes its fetches see every write that is visible to it (R66): its own stores that wait, and the home
points; what its fetch unit holds is dropped. -/
def State.syncFetch (s : State) (n : Nat) : State :=
  State.setHart { s with stores := s.stores.map (fun x => if x.hart = n then { x with synced := true } else x) } n
    { s.hart n with fetched := [] }

/-- The bits of a byte that a read returns once a store to it has been performed (R3, R58). -/
def State.keptMask (s : State) (pa : Nat) : Byte :=
  match (if inImageArea pa then s.imageAt pa else none) with
  | some (_, t) => imageMask t.tiles (pa - t.image.getD 0)
  | none => s.readMask pa

/-- A byte as a hart reads it: the latest store of its task not yet performed, or the home point's (R310, R311). A store that the byte
will not take is not seen, nor are reserved bits (R3, R58, R340). -/
def State.seenByte (s : State) (n pa pclass : Nat) : Byte :=
  match (s.stores.filter (fun x => x.hart = n && x.who = s.logHart n && x.addr ≤ pa && pa < x.addr + x.data.length && s.storeLands (some n) pa)).getLast? with
  | some x => x.data.getD (pa - x.addr) 0 &&& s.keptMask pa
  | none => if isSys n then s.sysByte n pa else s.homeByte (postId n) pa pclass

/-- A byte as a hart fetches it from memory (R66): its task's stores that a FENCE has passed are seen, any other store of it not
yet performed only where `fresh` says so. -/
def State.fetchedByte (s : State) (n pa pclass : Nat) (fresh : Bool) : Byte :=
  State.seenByte { s with stores := s.stores.filter (fun x => x.synced || fresh) } n pa pclass
/-- What a fetch of the 32-bit word at `pa` may return (R66): memory without and with the task's own stores that wait, and each
value that the fetch unit holds. -/
def State.fetchChoices (s : State) (n pa pclass : Nat) : List (BitVec 32) :=
  let word := fun fresh => BitVec.ofNat 32 (natOfBytes ((List.range 4).map (fun i => s.fetchedByte n (pa + i) pclass fresh)))
  [word false, word true] ++ ((s.hart n).fetched.filterMap (fun w => if w.1 = pa then some w.2 else none))
/-- The fetch unit of a core reads the aligned 32-bit word at an address and keeps it (R66), unless its unit cannot be read, which is
dealt with as any read of it (R404, R406). -/
def State.prefetch (s : State) (n pa : Nat) : State :=
  if pa % 4 ≠ 0 then s
  else match s.readUnit pa 0 (s.logHart n) with
  | (s, some _) => s
  | (s, none) => s.setHart n { s.hart n with fetched := (s.fetchChoices n pa 0).map (fun w => (pa, w)) ++ (s.hart n).fetched }

/-- Whether a write to host memory holds a byte. -/
def HostWr.covers (w : HostWr) (pa : Nat) : Bool := w.addr ≤ pa && pa < w.addr + w.data.length
/-- Noting `me` with the writes that a read at a side returns: of each byte, the last write performed there (R318). -/
def noteReads (me : LogAgent) (east : Bool) (pa len : Nat) : List HostWr → List HostWr
  | [] => []
  | w :: ws =>
    let read := w.at east && (List.range len).any (fun i => w.covers (pa + i) && !ws.any (fun v => v.at east && v.covers (pa + i)))
    (if read then { w with readers := me :: w.readers } else w) :: noteReads me east pa len ws
/-- Noting the writes to host memory, still on their way, that a task or system core has read (R318). -/
def State.noteHost (s : State) (n pa len : Nat) : State :=
  if window pa = 10 && !s.hostWrites.isEmpty then
    { s with hostWrites := noteReads (s.logHart n) (sideOf (postId n)) pa len s.hostWrites }
  else s

/-- Filling a sector of the L2 for a read that may allocate (R266, R77): hint 3 does not; the line cache of CXL memory knows no
hint. Under class 2 the bits that DRAM stores
wrong stay so for reads of that class (R364, R403). -/
def State.fillSector (s : State) (pa hint pclass : Nat) : State :=
  if cached pa && (hint ≠ 3 || window pa = 11) && (s.sector pa).isNone then
    let flip := if window pa < 8 && (s.errAt pa).flip ≠ 0 && s.asStored pa pclass then (s.errAt pa).flip else 0
    s.setSector pa (some ⟨BitVec.ofNat 256 (s.dramSector pa), false, false, false, flip⟩)
  else s

/-- Splitting bytes at an address into the parts in which an access performs them (R270, log 6): words of the SRAM tier and the
bench, halves of a DRAM sector, so that no part alone clears the poison of a sector (R406), lines elsewhere. -/
def splitUnits (addr : Nat) (data : List Byte) : List (Nat × List Byte) :=
  let rec go (fuel addr : Nat) (data : List Byte) : List (Nat × List Byte) :=
    match fuel, data with
    | 0, _ => []
    | _, [] => []
    | fuel + 1, data =>
      let size := if window addr < 8 then 16 else if window addr ≤ 9 then 8 else 32
      let n := size - addr % size
      (addr, data.take n) :: go fuel (addr + n) (data.drop n)
  go data.length addr data

end Sys2Proof.Machine
end

