-- ==== Sys2Proof/Machine/Translate.lean ====
section
/-! DEFINITION. Address spaces: the ASID table (R362), page walks with what the translation units remember (R363 to R366),
the checks of Table 18-5, and which windows a requester reaches (R58, R262, R308, R367). -/
namespace Sys2Proof.Machine
open Sys2Proof

/-- The kinds of access of Table 18-5; `maint` is an INVAL or FLUSH. -/
inductive Acc where
  | read | write | exec | atomic | maint
  deriving DecidableEq, Repr

/-- The access kind that FINFO reports (R50). -/
def Acc.code : Acc → Nat
  | .read => 0 | .write => 1 | .exec => 2 | .atomic => 3 | .maint => 1

/-- The level as `walked` names it. -/
def walkLevel (g64 : Bool) (level : Nat) : Nat := if g64 && level = 0 then 4 else level

/-- The values that a walk may use for an entry: memory's, and those that the translation units remember (R366, log 11). -/
def State.pteChoices (s : State) (asid level index pa place : Nat) : List Nat :=
  let now := natOfBytes ((List.range 8).map (fun i => s.homeByte place (pa + i) 0))
  now :: s.walked.filterMap (fun w =>
    if w.asid = asid && w.level = level && w.index = index && w.value.toNat ≠ now then some w.value.toNat else none)

/-- The choice among values: none is needed where there is one. -/
def chosen (l : List Nat) (k : Nat) : Nat := match l with
  | [x] => x
  | _ => l.getD (k % l.length) 0

/-- What a walk finds: the entries that it used, the addresses that it read, whether one of them had several values to choose from,
and the leaf with the size of its page in bits, or the cause. -/
structure Walk where
  path : List Walked
  read : List Nat
  free : Bool
  leaf : Except Cause (Nat × Nat)

/-- A walk (R363 to R365, steps 3 to 5), with what it has found so far. -/
def State.walk (s : State) (asid va place : Nat) : (fuel level table : Nat) → (g64 : Bool) → Walk → Walk
  | 0, _, _, _, w => { w with leaf := .error .walkFormat }
  | fuel + 1, level, table, g64, w =>
    let (shift, n) := walkLevels g64 level
    let pa := table + 8 * (va >>> shift % n)
    if 8 < window pa || !s.validAddr pa || s.inPlane pa then { w with leaf := .error .walkFormat }
    else if let some c := s.unreachable place pa then { w with leaf := .error c }
    else if (s.readUnit pa 0 ⟨0, 0, asid, 0, 0⟩).2.isSome then { w with read := w.read ++ [pa], leaf := .error .poison }
    else
      let es := s.pteChoices asid (walkLevel g64 level) (va >>> shift) pa place
      let e := chosen es (Config.walkPick s.tick level (va >>> shift))
      let w := { w with read := w.read ++ [pa], free := w.free || 1 < es.length }
      if !e.testBit 0 then { w with leaf := .error .pageAbsent }
      else if !pteOk level shift e then { w with leaf := .error .walkFormat }
      else
        let w := { w with path := ⟨asid, walkLevel g64 level, va >>> shift, BitVec.ofNat 64 e⟩ :: w.path }
        let next := bitsN e 51 0 / 4096 * 4096
        if e.testBit 1 then State.walk s asid va place fuel (level - 1) next (e.testBit 8) w
        else { w with leaf := .ok (e, shift) }

/-- A translated byte: its physical address and the protection class of its leaf. -/
structure Xlat where
  pa : Nat
  pclass : Nat
  deriving DecidableEq, Repr

/-- The walk for a virtual address under an ASID, from its table entry (R365 steps 1 and 2). The entry is read as a table
sector is: a poisoned one gives POISON (R408). -/
def State.walkVa (s : State) (asid va place : Nat) : Walk :=
  let at_ := asidEntry asid
  let e := s.memNat at_ 8
  if 2 ^ 52 ≤ va then ⟨[], [], false, .error .addrRange⟩
  else if let some c := s.unreachable place at_ then ⟨[], [], false, .error c⟩
  else if (s.readUnit at_ 0 ⟨0, 0, asid, 0, 0⟩).2.isSome then ⟨[], [at_], false, .error .poison⟩
  else if !e.testBit 0 then ⟨[], [at_], false, .error .walkFormat⟩
  else s.walk asid va place 4 3 (bitsN e 51 16 * 65536) false ⟨[], [at_], false, .error .walkFormat⟩

/-- The checks of Table 18-5 for one byte of an access under an ASID. -/
def State.xlate (s : State) (asid place : Nat) (kind : Acc) (va : Nat) : Except Cause Xlat :=
  match (s.walkVa asid va place).leaf with
  | .error c => .error c
  | .ok (e, size) =>
    let entry := s.memNat (asidEntry asid) 8
    let pa := bitsN e 51 0 / 4096 * 4096 + va % 2 ^ size
    let w := window pa
    if w ≥ 13 || (w = 10 && !entry.testBit 1) || (w = 11 && !entry.testBit 2) || (w = 12 && !entry.testBit 3) ||
        !s.validAddr pa || s.inPlane pa then .error .addrRange
    else if (kind = .read || kind = .atomic) && !e.testBit 2 then .error .pageRead
    else if (kind = .write || kind = .atomic || kind = .maint) && !e.testBit 3 then .error .pageWrite
    else if kind = .exec && !e.testBit 4 then .error .pageExec
    else if (kind = .write || kind = .atomic || kind = .maint) && e.testBit 5 then .error .pageShared
    else .ok ⟨pa, bitsN e 7 6⟩

/-- The bench page of an address of window 0x9 and the hart whose bench it is (R262, R308). -/
def benchOf (pa : Nat) : Nat × Nat := (32 * bitsN pa 47 44 + bitsN pa 43 38, bitsN pa 37 0 / 4096)

/-- Whether a task or its copy reaches a bench page from a core: the cause where it does not (R308). -/
def State.benchCheck (s : State) (hart : Nat) (task : Option Nat) (pa : Nat) : Option Cause :=
  let (h, page) := benchOf pa
  if h ≠ hart then some .addrRange
  else match s.buffers.find? (fun b => b.hart = h && b.first ≤ page && page ≤ b.first + b.npg) with
    | some b => if b.holder.isSome && b.holder = task then none else some .owner
    | none => none

/-- One byte of an access by a hart's instruction: translation and permission, window and offset (R262, R271 step 5, R367). -/
def State.xlateOn (s : State) (n : Nat) (kind : Acc) (va : Nat) : Except Cause Xlat :=
  if isSys n then
    let w := window va
    if 2 ^ 52 ≤ va || w = 12 || w = 13 || w = 15 || !s.validAddr va || s.inPlane va then .error .addrRange else .ok ⟨va, 0⟩
  else s.xlate (s.asidOf n) (postId n) kind va
/-- The same, then IMAGE_ACCESS and OWNER (R58, R308). -/
def State.reach (s : State) (n : Nat) (kind : Acc) (va : Nat) : Except Cause Xlat :=
  match s.xlateOn n kind va with
  | .error c => .error c
  | .ok x =>
    if isSys n then .ok x
    else if window x.pa = 12 then .error .addrRange
    else if inImageArea x.pa then .error .imageAccess
    else if window x.pa = 9 then
      match s.benchCheck n (s.hart n).task x.pa with
      | some c => .error c
      | none => .ok x
    else .ok x

/-- Translating the bytes `va` to `va + len - 1` by a rule for one byte, at most 1,024 bytes at a time (every check is the
same for the bytes of such a run); the cause and the lowest failing address where one fails. -/
def mapPieces (f : Nat → Except Cause Xlat) (step : Nat) : (fuel va len : Nat) → Except (Cause × Nat) (List Piece)
  | 0, _, _ => .ok []
  | fuel + 1, va, len =>
    if len = 0 then .ok []
    else
      let n := min len (step - va % step)
      match f va with
      | .error c => .error (c, va)
      | .ok x =>
        match mapPieces f step fuel (va + n) (len - n) with
        | .error e => .error e
        | .ok ps => .ok (⟨x.pa, n, x.pclass⟩ :: ps)

/-- The pieces of a range under a rule for one byte. -/
def mapRange (f : Nat → Except Cause Xlat) (va len : Nat) : Except (Cause × Nat) (List Piece) :=
  if window va = 14 then mapPieces f 8 (len / 8 + 2) va len else mapPieces f 1024 (len / 1024 + 2) va len

/-- Whether two remembered entries are one, field by field. -/
def Walked.same (x w : Walked) : Bool := x.asid = w.asid && x.level = w.level && x.index = w.index && x.value = w.value
/-- Adding to the entries remembered, each once. -/
def addWalked (old new : List Walked) : List Walked := new.foldl (fun l w => if l.any w.same then l else w :: l) old

/-- The walks of the pages of a range, up to one that fails: what they read is corrected or logged (R404, R412), the entries that they
used are remembered (R366), and where one of them had a choice the next walk chooses again. -/
def State.remember (s : State) (asid place va len : Nat) (who : LogAgent) : State :=
  let pages := (List.range ((va % 4096 + len + 4095) / 4096)).map (fun i => va / 4096 * 4096 + 4096 * i)
  let ws := pages.map (fun p => s.walkVa asid p place)
  let ws := ws.take (ws.findIdx (fun w => match w.leaf with | .error _ => true | .ok _ => false) + 1)
  let s := ((ws.flatMap (fun w => w.read)).filter s.flawed).foldl (fun s pa => (s.readUnit pa 0 who).1) s
  { s with
    walked := addWalked s.walked (ws.flatMap (fun w => w.path))
    tick := if ws.any (fun w => w.free) then s.tick + 1 else s.tick }
/-- The walks that an access of a hart makes; a system core makes none (R367). -/
def State.noteWalks (s : State) (n va len : Nat) : State :=
  if isSys n then s else s.remember (s.asidOf n) (postId n) va len (s.logHart n)

end Sys2Proof.Machine
end

