-- ==== Sys2Proof/Machine/Ops.lean ====
section
/-! DEFINITION. The shared operations of execution: taking a stop (R389 to R391), the trap path of a system core (R397 to
R400), retirement (R53, R56, R63, R392), the order in which an instruction is checked and begun (R61, R67, R79), and
one access to memory (R271, R272, R310 to R315). -/
namespace Sys2Proof.Machine
open Sys2Proof

/-- A stop of an instruction (R390): its cause, FADDR, the parts of FINFO, and the unit boundary it falls at. -/
structure Stop where
  cause : Cause
  faddr : Word := 0
  kind : Nat := 0
  port : Nat := 0
  field : Nat := 0
  unit : Nat := 0
  deriving DecidableEq, Repr

/-- A stop for which no rule gives FINFO, which is 0 then (R390): the cause and FADDR. -/
def plainStop (c : Cause) (faddr : Word) : Stop := ⟨c, faddr, 0, 0, 0, 0⟩
/-- The same for a failed access: FADDR is the failing address. -/
def failStop (e : Cause × Nat) : Stop := plainStop e.1 (BitVec.ofNat 64 e.2)

/-- FINFO of a stop (R50). -/
def finfoOf (kind port field : Nat) : Word := BitVec.ofNat 64 (kind + port * 16 + field * 256)
/-- CAUSE of a stop: the code and ELEM (R50, R390). -/
def causeOf (c : Cause) (elem : Bool) : Word := BitVec.ofNat 64 (c.code + if elem then 64 else 0)

/-- FADDR: an address of 52 bits, zero-extended (Table 3-2, log 62). -/
def faddrOf (w : Word) : Word := w &&& 0xFFFFFFFFFFFFF

/-- The core that receives the causes without an owner: system core 0, or 4 while 0 is halted (R398). -/
def State.chiefCore (s : State) : Nat := if (s.hart 256).mode = .halted then 4 else 0

/-- Making an asynchronous cause pending on a system core, merged into one already pending (R398). -/
def State.raiseAsync (s : State) (core : Nat) (c : Cause) (faddr : Word) : State :=
  let h := s.hart (256 + core)
  let old := Table.get 0 h.pendAddr c.code
  let addr := if !h.tpend.getLsbD c.code then faddr
    else if c = .selfCheck || c = .scrap then old ||| faddr else old
  s.setHart (256 + core) { h with tpend := h.tpend ||| BitVec.ofNat 64 (2 ^ c.code), pendAddr := Table.set 0 h.pendAddr c.code addr }

/-- What the wait of an instruction has prepared, where it is at its wait (R41). -/
def Hart.work (h : Hart) : Prepared := match h.held with | some w => w.work | none => .again

/-- Whether stale work goes on waiting, by a test of what it was (R41, log 72). -/
def Prepared.waits (full : Prepared → Bool) : Prepared → Bool
  | .stale w => full w
  | _ => false

/-- Entering the handler of a system core (R397): the stop registers are saved, TSTAT.SESTART takes ESTART.UNIT, ESTART
clears, TSTAT.IN is set, the pc goes to TVEC. A touch of the watched word by an instruction that goes on later is kept for its
retirement (R396). -/
def Hart.enterTrap (h : Hart) (cause faddr finfo epc : Word) : Hart :=
  { h with cause := cause, faddr := faddr, finfo := finfo, epc := epc,
           tstat := BitVec.ofNat 64 (bitsN h.estart.toNat 31 0 * 2 ^ 32 + h.tstat.toNat % 2 ^ 32 / 2 * 2 + 1),
           estart := 0, pc := h.tvec, mode := .running, held := none, cut := none, stepArmed := false, watchHit := none,
           watchKept := if h.estart = 0 then none else h.watchHit }

/-- Writing whole words over a range of memory, their errors gone (R406, R408). -/
def State.putRange (s : State) (pa : Nat) (bs : List Byte) : State :=
  let top := pa + bs.length
  { s with mem := Table.splice s.mem pa top (Table.ofList 0 pa bs), err := Table.splice s.err pa top [] }
/-- `n` bytes of memory from `pa`. -/
def State.memRange (s : State) (pa n : Nat) : List Byte := Table.dense 0 n pa (Table.slice s.mem pa (pa + n))

/-- A double trap (R399): the record is written where post 0 can be reached, the core halts, SELF_CHECK is raised. -/
def State.doubleTrap (s : State) (n : Nat) (cause faddr finfo epc : Word) : State :=
  let h := s.hart n
  let base := sramAddr 0 (0x2FC00000 + 64 * (n - 256))
  let rec_ := [cause, faddr, finfo, epc, h.cause, h.epc, h.tstat, 0].flatMap (fun w : Word => bytesOf 8 w.toNat)
  let s := if (s.unreachable (postId n) base).isSome then s else s.putRange base rec_
  let s := s.setHart n { s.hart n with mode := .halted, held := none, cut := none }
  s.raiseAsync s.chiefCore .selfCheck (BitVec.ofNat 64 (2 ^ (n - 256)))

/-- A synchronous trap of a system core (R397, R399). -/
def State.syncTrap (s : State) (n : Nat) (cause faddr finfo epc : Word) : State :=
  let h := s.hart n
  if h.tstat.getLsbD 0 then s.doubleTrap n cause faddr finfo epc
  else s.setHart n (h.enterTrap cause faddr finfo epc)

/-- The place of the next stop or advice entry among those that have not yet been written (R373). -/
def State.nextStop (s : State) : Nat :=
  (s.harts.map (fun p => p.2.stopSeq) ++ s.held.map (fun e => e.seq)).foldl max 0 + 1

/-- Taking a stop at the current instruction (R390, R391, R397). A task sets its stop registers and begins the writing
back of its image; a system core takes the trap. Nothing else changes. A restarted instruction that stops before any
further unit keeps its ESTART (R83); ELEM says that the boundary is above 0; RESUME_STATE names no boundary (R390, log 24). -/
def State.stopHart (s : State) (n : Nat) (e : Stop) : State :=
  let h := s.hart n
  let h := { h with estart := if e.cause = .resumeState then 0 else if e.unit = 0 then h.estart else BitVec.ofNat 64 e.unit, held := none, cut := none }
  let cause := causeOf e.cause (h.estart ≠ 0)
  let finfo := finfoOf e.kind e.port e.field
  if isSys n then State.syncTrap (s.setHart n h) n cause (faddrOf e.faddr) finfo h.pc
  else s.setHart n { h with cause := cause, faddr := faddrOf e.faddr, finfo := finfo, epc := h.pc, mode := .saving .stop, victim := false, stopSeq := s.nextStop }

/-- A stop before the instruction is begun (R79): it falls at no boundary (R80, R390). -/
def State.refuse (s : State) (n : Nat) (e : Stop) : State :=
  if (s.hart n).estart = 0 then s.stopHart n e else State.stopHart (s.setHart n { s.hart n with estart := 0 }) n e

/-- The asynchronous cause that a system core may take: pending, unmasked, the highest code, IN clear (R398). -/
def Hart.asyncReady (h : Hart) : Option Nat :=
  if h.tstat.getLsbD 0 then none
  else [63, 62, 61, 60, 52, 47, 46].find? (fun c => h.tpend.getLsbD c && h.tmask.getLsbD c)

/-- Taking a pending asynchronous cause at a boundary (R398): ESTART holds the unit the instruction stopped at. -/
def State.takeAsync (s : State) (n : Nat) : State :=
  let h := s.hart n
  match h.asyncReady with
  | none => s
  | some c =>
    let addr := Table.get 0 h.pendAddr c
    let cause := causeOf (.ofCode c) (h.estart ≠ 0)
    let h := { h with tpend := h.tpend &&& ~~~(BitVec.ofNat 64 (2 ^ c)), pendAddr := Table.erase h.pendAddr c }
    s.setHart n (h.enterTrap cause addr 0 h.pc)

/-- Beginning the save of a task's image (R60, R391). -/
def State.beginSave (s : State) (n : Nat) (why : SaveWhy) : State :=
  s.setHart n { s.hart n with mode := .saving why, victim := false, held := none, cut := none }

/-- Stopping a task for the oldest pending report of a row program, at the instruction not yet executed (R258). -/
def State.reportStop (s : State) (n : Nat) : State :=
  match s.taskOf n with
  | some (u, t) =>
    match t.reports with
    | r :: rs =>
      let s := State.stopHart (s.setTask u (some { t with reports := rs })) n ⟨r.cause, r.faddr, 5, 0, r.field, 0⟩
      s.setHart n { s.hart n with cause := causeOf r.cause false }
    | [] => s
  | none => s

/-- Whether a report waits for the task of a hart (R258). -/
def State.hasReport (s : State) (n : Nat) : Bool :=
  match s.taskOf n with | some (_, t) => !t.reports.isEmpty | none => false

/-- The boundary after a retirement (R392, R396, R401): the retiring stops of a system core, then a task's reports,
yield-after, pre-emption; a task whose core has met a parity error goes on to the stop for it (R402). -/
def State.boundary (s : State) (n : Nat) (yieldAfter step : Bool) : State :=
  let h := s.hart n
  if isSys n then
    match h.watchHit with
    | some (kind, addr) => State.syncTrap (s.setHart n { h with watchHit := none, stepArmed := false }) n (causeOf .watch false) (BitVec.ofNat 64 addr) (finfoOf kind 0 0) h.pc
    | none => if step then State.syncTrap (s.setHart n { h with stepArmed := false }) n (causeOf .step false) 0 0 h.pc else s
  else if h.parity.isSome then s
  else if s.hasReport n then s.reportStop n
  else if yieldAfter then s.beginSave n .yield
  else if h.victim then s.beginSave n .preempt
  else s

/-- Retirement (R53, R56, R63, R77): flags ORed in, marked sources released, ESTART at 0, the pc at `pc`. -/
def State.retire (s : State) (n : Nat) (x : Ops) (flags : Flags) (pc : Word) : State :=
  let h := s.hart n
  let h := { (h.addFlags flags).release x with estart := 0, pc := pc, mode := .running, held := none, cut := none }
  State.boundary (s.setHart n h) n x.yield h.stepArmed

/-- What a meaning gives for its instruction: it retires with flags; it transfers control; it stops; a long instruction
stops at a boundary for a chosen cut; the hart waits, with what it has prepared; or the state is already that after the
instruction. -/
inductive Done where
  | retire (s : State) (flags : Flags)
  | jump (s : State) (t : Word)
  | stop (s : State) (e : Stop)
  | cut (s : State) (unit : Nat)
  | wait (s : State) (w : Wait) (work : Prepared := .again)
  | final (s : State)

/-- Ending a step of a hart with what its instruction `i` of fields `x` gave. A core that waits holds the instruction (R41). -/
def State.conclude (i : Instr) (n : Nat) (x : Ops) : Done → State
  | .retire s f => s.retire n x f ((s.hart n).pc + 12)
  | .jump s t => s.retire n x 0 t
  | .stop s e => s.stopHart n e
  | .cut s b =>
    let h := s.hart n
    match h.cut with
    | some ⟨_, some w⟩ => s.stopHart n ⟨.watchdog, w.faddr, w.kind, w.port, w.field, b⟩
    | _ =>
      let s := s.setHart n { h with estart := BitVec.ofNat 64 b, cut := none }
      if isSys n then s.takeAsync n else s.beginSave n .preempt
  | .wait s w work =>
    let h := s.hart n
    if h.victim && !isSys n then s.beginSave n .preempt
    else s.setHart n { h with mode := .blocked w, held := some ⟨i, work⟩ }
  | .final s => s

/-- The tiles that a hart's task may name (R48). -/
def State.tilesOf (s : State) (n : Nat) : Nat := match s.taskOf n with | some (_, t) => t.tiles | none => 0

/-- Step 8 of Table 4-7: the first field that names a tile at or above TILES (R48). -/
def State.badTile (s : State) (n : Nat) (x : Ops) : Option Nat :=
  [2, 3, 4].find? (fun f => (x.field f).cls = 4 && s.tilesOf n ≤ accTile (x.field f))

/-- Whether a restarted instruction is not one that ESTART fits (R52, R393). -/
def Hart.badRestart (h : Hart) (long : Option (Hart → Nat)) : Bool :=
  h.estart ≠ 0 && (match long with | some units => units h ≤ h.estart.toNat | none => true)

/-- The fields of an instruction that its guard makes inactive, as its retirement takes them (R67): D is not written and does not become
live, not even by VHAD (R144, log 40); YIELD counts but on DONE and END (R77). -/
def inactiveOps (x : Ops) (i : Instr) : Ops :=
  { x with d := .none, yield := x.yield && (match i with | .done _ => false | .endTask _ => false | _ => true) }

/-- Beginning an instruction on the hart whose turn it is, in the order of R52, R79, R61 and R67: restart state, kind of core,
privilege, tiles, pegs, whole guard; then its meaning. `long` gives the unit count of a long instruction,
`whole` says that the guard governs the whole instruction. A sequencer executes no core instruction (R81): `step` stops
its program at the fetch, so nothing happens here. -/
def runCore (d : Desc) (x : Ops) (s : State) (whole : Bool) (long : Option (Hart → Nat)) (body : Nat → Hart → Done) :
    Host.Outcome State Fault Refusal :=
  match s.turn with
  | .seq _ _ => .next s
  | .hart n =>
    let h := s.hart n
    if h.badRestart long then .next (s.stopHart n ⟨.resumeState, 0, 0, 0, 0, 0⟩)
    else if isSys n && !d.sys then .next (s.refuse n ⟨.illOp, 0, 0, 0, 0, 0⟩)
    else if opGroup d.op = 0x0D && !isSys n then .next (s.refuse n ⟨.priv, 0, 0, 0, 0, 0⟩)
    else match s.badTile n x with
    | some f => .next (s.refuse n ⟨.accRange, 0, 0, 0, f, 0⟩)
    | none => match h.pegField x with
      | some (f, r) => .next (State.conclude (d.ctor x) n x (.wait s ⟨8, 0, f, BitVec.ofNat 64 r⟩))
      | none =>
        if whole && !h.guardOn x then .next (State.conclude (d.ctor x) n (inactiveOps x (d.ctor x)) (.retire s 0))
        else .next (State.conclude (d.ctor x) n x (body n h))

/-- What a meaning on registers alone gives: the new registers and flags, or a stop; `stop` carries the registers with
the units completed before it. -/
inductive RegDone where
  | ok (h : Hart) (flags : Flags)
  | stop (h : Hart) (e : Stop)
  | cut (h : Hart) (unit : Nat)

/-- A stop under FP_ENABLED before anything is written, or retirement with flags (R54, R139). -/
def Hart.fpDone (h h' : Hart) (f : Flags) : RegDone :=
  if h.fpTraps f then .stop h ⟨.fpEnabled, f.setWidth 64, 0, 0, 0, 0⟩ else .ok h' f

/-- What a meaning on registers alone gives, as that of hart `n` of a state. -/
def RegDone.on (s : State) (n : Nat) : RegDone → Done
  | .ok h f => .retire (s.setHart n h) f
  | .stop h e => .stop (s.setHart n h) e
  | .cut h b => .cut (s.setHart n h) b

/-- Beginning an instruction that acts on registers alone. -/
def runReg (d : Desc) (x : Ops) (s : State) (whole : Bool) (long : Option (Hart → Nat)) (body : Hart → RegDone) :
    Host.Outcome State Fault Refusal :=
  runCore d x s whole long (fun n h => (body h).on s n)

/-! One access to memory. -/

/-- The byte of the watched word that a system core's access touches, when the kind is watched (R396). -/
def Hart.watches (h : Hart) (kind : Acc) (pa len : Nat) : Option (Nat × Nat) :=
  let wa := bitsN h.waddr.toNat 51 3 * 8
  let on := ((kind = .read || kind = .atomic) && h.waddr.getLsbD 0) || ((kind = .write || kind = .atomic) && h.waddr.getLsbD 1)
  if on && rangesMeet wa 8 pa len then some (kind.code, max wa pa) else none

/-- Noting a touch of the watched word; the lowest byte that an instruction touches stands (R396). -/
def State.watch (s : State) (n : Nat) (kind : Acc) (pa len : Nat) : State :=
  let h := s.hart n
  if isSys n && h.waddr ≠ 0 then
    match h.watches kind pa len with
    | some w =>
      if (match h.watchHit with | some v => decide (v.2 ≤ w.2) | none => false) then s else s.setHart n { h with watchHit := some w }
    | none => s
  else s

/-- The answer of the outside to an access of a hart, if one stands for its window (R272): HOST_ABORT and HOST_POISON come
from the host or a CXL device, REMOTE_TIMEOUT from a home point. -/
def State.takeResponse (s : State) (n pa : Nat) : State × Option Cause :=
  let h := s.hart n
  match h.response with
  | none => (s, none)
  | some c =>
    if c = .remoteTimeout || window pa = 10 || window pa = 11 then (s.setHart n { h with response := none }, some c)
    else (s, none)

/-- Whether the unit of an address cannot be read as it stands (R403 to R409). -/
def State.badUnit (s : State) (pa : Nat) : Bool :=
  let e := s.errAt pa
  e.poison || e.uncorr || (match s.sector pa with | some x => x.bad || x.poison | none => false)

/-- Before a hart reads a unit that cannot be read as it stands, its own stores to it are performed: one that writes it whole makes it
good (R272, R312, R406). -/
def State.settle (s : State) (n pa : Nat) : State :=
  if s.badUnit pa then s.drain n (fun w => rangesMeet w.addr w.data.length (unitBase pa) (unitSize pa)) else s

/-- Step 6 of R271 on one piece: the home point answers, the units are readable. -/
def State.readPiece (s : State) (n : Nat) (p : Piece) : State × Option (Cause × Nat) :=
  match s.unreachable (postId n) p.addr with
  | some c => (s, some (c, p.addr))
  | none =>
    match s.takeResponse n p.addr with
    | (s, some c) => (s, some (c, p.addr))
    | (s, none) =>
      let units := (List.range p.len).filter (fun i => i = 0 || (p.addr + i) % unitSize p.addr = 0)
      units.foldl (fun (r : State × Option (Cause × Nat)) i => match r.2 with
        | some _ => r
        | none => match (r.1.settle n (p.addr + i)).readUnit (p.addr + i) p.pclass (s.logHart n) with
          | (s, some c) => (s, some (c, p.addr + i))
          | (s, none) => (s, none)) (s, none)

/-- Making sure that the pieces of a range can be read, in ascending order; a failure gives the cause and the virtual
address of the failing byte. -/
def State.readPieces (s : State) (n va : Nat) : List Piece → State × Option (Cause × Nat)
  | [] => (s, none)
  | p :: ps => match s.readPiece n p with
    | (s, some (c, pa)) => (s, some (c, va + (pa - p.addr)))
    | (s, none) => State.readPieces s n (va + p.len) ps

/-- `mem_read` (R83, R271, R310, R311): `len` bytes at `va` as one access of a hart, or the cause and the lowest failing
address. -/
def State.load (s : State) (n va len : Nat) (kind : Acc) (hint : Nat) : State × Except (Cause × Nat) (List Byte) :=
  match mapRange (s.reach n kind) va len with
  | .error e => (s.noteWalks n va len, .error e)
  | .ok ps =>
    match (s.noteWalks n va len).readPieces n va ps with
    | (s, some e) => (s, .error e)
    | (s, none) =>
      let bytes := ps.flatMap (fun p => (List.range p.len).map (fun i => s.seenByte n (p.addr + i) p.pclass))
      let s := ps.foldl (fun s p =>
        let s := (s.noteHost n p.addr p.len).watch n kind p.addr p.len
        (splitUnits p.addr (List.replicate p.len 0)).foldl (fun s u => s.fillSector u.1 hint p.pclass) s) s
      (s, .ok bytes)

/-- A read of an instruction that is no load: WATCH does not concern it (R396). -/
def State.loadBlock (s : State) (n va len hint : Nat) : State × Except (Cause × Nat) (List Byte) :=
  let (t, r) := s.load n va len .read hint
  (t.setHart n { t.hart n with watchHit := (s.hart n).watchHit }, r)

/-- The home point of every piece answers a write (R272). -/
def State.writeAnswers (s : State) (n va : Nat) : List Piece → State × Option (Cause × Nat)
  | [] => (s, none)
  | p :: ps => match s.unreachable (postId n) p.addr with
    | some c => (s, some (c, va))
    | none => match s.takeResponse n p.addr with
      | (s, some c) => (s, some (c, va))
      | (s, none) => State.writeAnswers s n (va + p.len) ps

/-- A failed access as a stop (R271): FADDR the failing byte, the access kind, the field of the base register. -/
def accessStop (e : Cause × Nat) (kind : Acc) (field unit : Nat) : Stop :=
  ⟨e.1, BitVec.ofNat 64 e.2, kind.code, 0, field, unit⟩

/-- A release of a hart's earlier accesses (R315): its stores are performed. At sys scope the writes to host memory of its task, on
whichever core it made them, and those that the task has read, are also performed at the host and both sides (R318). Core scope orders nothing that another
agent sees (R316), but a fetch and a later task on the core do (R66). -/
def State.release (s : State) (n scope : Nat) : State :=
  if scope = 0 then s.fenceCore n
  else
    let me := s.logHart n
    let s := s.drainAll n
    if scope = 3 then s.forceHost (fun w => w.owner = some me || w.readers.contains me) else s

/-- Whether a graph is being killed (R42). -/
def State.isKilled (s : State) (g : Nat) : Bool := match s.graph g with | some x => x.killed | none => false

/-- Whether a core holds the pinned lines of its task: a restore that stops does not take them (R62, R393, R408). -/
def Hart.holdsPinned (h : Hart) : Bool := match h.mode with | .saving .refused => false | .saving .unfilled => false | _ => true

/-- Delivering a completion status to a peg of a task (R62): to the core while it holds the pinned lines, otherwise to the
image. A task that has retired or whose graph has been killed gets nothing (R42). -/
def State.deliver (s : State) (u peg : Nat) (status : Word) : State :=
  if peg = 0 then s
  else match s.task u with
    | none => s
    | some t =>
      if s.isKilled t.graph then s
      else match s.harts.find? (fun p => p.2.task = some u && p.2.holdsPinned) with
      | some (n, _) =>
        let h := s.hart n
        s.setHart n { h.setG peg status with pegmask := h.pegmask &&& ~~~(BitVec.ofNat 64 (2 ^ peg)) }
      | none => match t.image with
        | some b =>
          let s := s.putRange (b + 0x100 + 8 * peg) (bytesOf 8 status.toNat)
          s.changeWord (b + 0x10) (fun w => w &&& (2 ^ 64 - 1 - 2 ^ peg)) (fun s => s.logError (b + 0x10) 3 ⟨5, 0, 0, 0, 0⟩)
        | none => s

/-- A completion status (Table 14-2, R288). -/
def statusWord (c : Cause) (flags : Flags) (cls word detail : Nat) : Word :=
  BitVec.ofNat 64 (c.code + flags.toNat * 2 ^ 6 + cls * 2 ^ 14 + word * 2 ^ 16 + detail * 2 ^ 32)

/-- The peg record of a command (Table 14-3, R291). -/
structure PegRec where
  cls : Nat
  op : Nat
  engine : Nat
  seq : Nat
  param : Word
  deriving DecidableEq, Repr

/-- Naming a peg at the issue of a command (R61, R289): its bit is set, and a task's peg record is written in its image
(R291). -/
def State.setPeg (s : State) (n peg : Nat) (r : PegRec) : State :=
  if peg = 0 then s
  else
    let h := s.hart n
    let s := s.setHart n { h with pegmask := h.pegmask ||| BitVec.ofNat 64 (2 ^ peg) }
    match s.taskOf n with
    | some (_, { image := some b, .. }) =>
      s.putRange (b + 0x400 + 64 * peg) (bytesOf 64 (r.cls + r.op * 2 ^ 8 + r.engine * 2 ^ 16 + r.seq * 2 ^ 64 + r.param.toNat * 2 ^ 128))
    | _ => s

/-- The next number of a queue (R291): queues 0 to 9 are the copy engines of the posts and I/O dies, 16 to 23 the
bank-command queues, 32 to 39 the sequencer queues. -/
def State.takeSeq (s : State) (q : Nat) : State × Nat :=
  let k := Table.get 0 s.accepts q
  ({ s with accepts := Table.set 0 s.accepts q (k + 1) }, k)

/-- A report of a row program to its task, unless it has retired or its graph has been killed (R258). -/
def State.report (s : State) (u : Option Nat) (r : Report) : State :=
  match u with
  | none => s
  | some u => match s.task u with
    | none => s
    | some t =>
      match s.graph t.graph with
      | some g => if g.killed then s else s.setTask u (some { t with reports := t.reports ++ [r] })
      | none => s

/-- Changing a task's outstanding count of a class (R290). -/
def State.addCount (s : State) (u cls : Nat) (up : Bool) : State :=
  match s.task u with
  | none => s
  | some t =>
    let f := fun k => if up then k + 1 else k - 1
    s.setTask u (some (if cls = 0 then { t with copies := f t.copies } else if cls = 1 then { t with banks := f t.banks } else { t with rows := f t.rows }))

end Sys2Proof.Machine
end

