-- ==== Sys2Proof/Machine/Window.lean ====
section
/-! DEFINITION. Writes to the control window (R369), the queue record's atomic operation (R342, R344), and one checked
store of an agent (R271, R272, R310). -/
namespace Sys2Proof.Machine
open Sys2Proof

/-! The queue table. -/

/-- The record of a queue (R340). -/
def queueRec (q : Nat) : Nat := sramAddr 0 (0x2FF00000 + 128 * q)
/-- A word of a queue record. -/
def State.qword (s : State) (q off : Nat) : Nat := s.memNat (queueRec q + off) 8
/-- LOGSIZE (Table 17-1). -/
def State.qLogSize (s : State) (q : Nat) : Nat := s.qword q 8 % 32
/-- HOME (Table 17-1). -/
def State.qHome (s : State) (q : Nat) : Nat := bitsN (s.qword q 8) 26 24
/-- TAIL (Table 17-1). -/
def State.qTail (s : State) (q : Nat) : Nat := s.qword q 0x10 % 2 ^ 32
/-- HEAD (Table 17-1). -/
def State.qHead (s : State) (q : Nat) : Nat := s.qword q 0x18 % 2 ^ 32
/-- DONE (Table 17-1). -/
def State.qDone (s : State) (q : Nat) : Nat := s.qword q 0x18 / 2 ^ 32
/-- A bit of the word at 0x20: 0 RES, 1 PEND, 2 TAILERR, 3 CFGERR (Table 17-1). -/
def State.qBit (s : State) (q bit : Nat) : Bool := (s.qword q 0x20).testBit bit
/-- Setting a bit of the word at 0x20. -/
def State.setQBit (s : State) (q bit : Nat) (b : Bool) : State :=
  s.putNat (queueRec q + 0x20) 8 (patchBits (s.qword q 0x20) bit 1 (if b then 1 else 0))

/-- Whether HOME names a post that the package has and that is not scrapped (R344). -/
def State.homeOk (s : State) (q : Nat) : Bool := s.posts.testBit (s.qHome q) && !s.scrapped.testBit (s.qHome q)

/-- What a doorbell or an append did (R342). -/
inductive TailDone where
  | stale | full | accepted
  deriving DecidableEq, Repr

/-- R342: applying a new TAIL `t`, with the check of HOME that the bank makes (R344). -/
def State.applyTail (s : State) (q t : Nat) : State × TailDone :=
  let s := if s.homeOk q then s else s.setQBit q 3 true
  if 2 ^ 31 ≤ (t + 2 ^ 32 - s.qTail q) % 2 ^ 32 then (s, .stale)
  else if 2 ^ s.qLogSize q < (t + 2 ^ 32 - s.qDone q) % 2 ^ 32 then (s.setQBit q 2 true, .full)
  else
    let s := s.putNat (queueRec q + 0x10) 8 t
    if s.qBit q 0 then (s, .accepted)
    else ({ s.setQBit q 1 true with pend := if s.qBit q 1 then s.pend else s.pend ++ [q] }, .accepted)

/-- A write of a doorbell register (R341): ignored outside READY. What it counts on a device queue is noted (R342). -/
def State.ringDoorbell (s : State) (q t : Nat) : State :=
  let t := t % 2 ^ 32
  if s.phase ≠ 8 then s
  else match s.applyTail q t with
    | (u, .accepted) =>
      if (s.qword q 8).testBit 5 && s.qTail q ≠ t then
        { u with rung := u.rung ++ [(q, s.qTail q, (t + 2 ^ 32 - s.qTail q) % 2 ^ 32)] }
      else u
    | (u, _) => u

/-- A write of a control register that has no behaviour of its own (R369): reserved bits read zero; read-only registers
ignore it. -/
def State.setCtrl (s : State) (off : Nat) (v : Word) : State :=
  if off = 0x40 then { s with hostlim := v &&& 0x0000FFFFFFFFF000 }
  else if off = 0x48 then { s with cxllim := v &&& 0x0000FFFFFFFFF000 }
  else if off = 0x50 then { s with spancfg := v &&& 0x1FFFFFF }
  else if off = 0x100 then { s with fwaddr := v }
  else if off = 0x108 then { s with fwlen := v &&& 0x7FFFFFF }
  else s

/-- A store of a system core to the control window (R369): merged into the register's 8 bytes. FWCTL and DEVRESET take
host writes only (R370, R387); a doorbell takes a write that covers its TAIL (R341). -/
def State.ctrlStore (s : State) (pa : Nat) (data : List Byte) : State :=
  let off := winOff pa / 8 * 8
  let v := mergeUnit (s.ctrlReg off).toNat off (winOff pa) data
  if 0x10000 ≤ off && off < 0x20000 then
    if winOff pa = off && 4 ≤ data.length then s.ringDoorbell ((off - 0x10000) / 8) v else s
  else s.setCtrl off (BitVec.ofNat 64 v)

/-! Stores of a hart. -/

/-- The steps of R271 before a store's bytes go out: translation and permission of every byte, and the answer of every
home point. -/
def State.storePieces (s : State) (n va len : Nat) : State × Except (Cause × Nat) (List Piece) :=
  match mapRange (s.reach n .write) va len with
  | .error e => (s.noteWalks n va len, .error e)
  | .ok ps =>
    match (s.noteWalks n va len).writeAnswers n va ps with
    | (s, some e) => (s, .error e)
    | (s, none) => (s, .ok ps)

/-- The pending writes of bytes already translated: one for each unit (R270, log 6). -/
def State.pendingOf (s : State) (n hint : Nat) : List Piece → List Byte → List Pending
  | [], _ => []
  | p :: ps, data =>
    (splitUnits p.addr (data.take p.len)).map (fun u => ⟨n, u.1, u.2, hint, p.pclass, s.logHart n, false, false⟩) ++
      State.pendingOf s n hint ps (data.drop p.len)

/-- Issuing writes: a register of the control window takes its value at once, any other write waits to be performed
(R310, R369). -/
def State.issue (s : State) (ws : List Pending) : State :=
  ws.foldl (fun s w =>
    let s := s.watch w.hart .write w.addr w.data.length
    if window w.addr = 14 then s.ctrlStore w.addr w.data else { s with stores := s.stores ++ [w] }) s

/-- `mem_write` (R83): one store of a hart, or the cause and the lowest failing address. -/
def State.store (s : State) (n va : Nat) (data : List Byte) (hint : Nat) : State × Option (Cause × Nat) :=
  match s.storePieces n va data.length with
  | (s, .error e) => (s, some e)
  | (s, .ok ps) => (s.issue (s.pendingOf n hint ps data), none)

/-- The bytes that the writes of a list leave in a DRAM sector: the last write of each byte. -/
def sectorBytes (ws : List Pending) (base : Nat) : List (Option Byte) :=
  (List.range 32).map (fun i => ((ws.filter (fun w => w.addr ≤ base + i && base + i < w.addr + w.data.length)).getLast?).map
    (fun w => w.data.getD (base + i - w.addr) 0))

/-- Merging the writes of one vector or matrix store: a DRAM sector whose 32 bytes they all write becomes one write
(R406). -/
def mergeWrites (all : List Pending) : List Pending → List Pending
  | [] => []
  | w :: ws =>
    let base := w.addr / 32 * 32
    let bytes := if window w.addr < 8 then sectorBytes (all.filter (fun v => v.addr / 32 = w.addr / 32)) base else []
    if window w.addr < 8 && bytes.all Option.isSome then
      if ws.any (fun v => v.addr / 32 = w.addr / 32) then mergeWrites all ws
      else { w with addr := base, data := bytes.map (fun b => b.getD 0) } :: mergeWrites all ws
    else w :: mergeWrites all ws

/-- Issuing the writes of the elements of one instruction (R313, R406). -/
def State.issueElems (s : State) (ws : List Pending) : State := s.issue (mergeWrites ws ws)

end Sys2Proof.Machine
end

