-- ==== Sys2Proof/Machine/Tasks.lean ====
section
/-! DEFINITION. Tasks and their images: saving and restoring (R57 to R60), offering and binding (R349 to R354), bench
buffers that move with a task (R309), fault-queue entries (R371 to R373), retirement, and the completion of a graph (R43,
R347, R439). -/
namespace Sys2Proof.Machine
open Sys2Proof

/-! Writes of the device itself. -/

/-- A write of the device to windows 0x0 to 0xA, performed everywhere (R373, R439); a scrapped post takes none (R415), and no byte that
is not for it to write changes (R58, R340, R412). -/
def State.devWrite (s : State) (pa : Nat) (bs : List Byte) (who : LogAgent) : State :=
  if window pa = 10 then
    (s.forceHost (fun w => rangesMeet w.addr w.data.length pa bs.length)).putBytes pa bs
  else if s.scrapped.testBit (homePost pa) then s
  else (splitUnits pa bs).foldl (fun s u => s.agentWrite none u.1 u.2 0 0 false who) s

/-- Bytes as a device agent at `place` reads them, or the first cause (R403 to R409, R415). -/
def State.devRead (s : State) (place pa n : Nat) (who : LogAgent) : State × Except Cause (List Byte) :=
  match s.unreachable place pa with
  | some c => (s, .error c)
  | none =>
    let units := (List.range n).filter (fun i => i = 0 || (pa + i) % unitSize pa = 0)
    let (s, e) := units.foldl (fun (r : State × Option Cause) i => match r.2 with
      | some _ => r
      | none => r.1.readUnit (pa + i) 0 who) (s, none)
    match e with
    | some c => (s, .error c)
    | none => (s, .ok ((List.range n).map (fun i => s.homeByte place (pa + i) 0)))

/-! Images (Table 3-8). -/

/-- The bytes of the pinned lines at offsets 0x0 to 0x57 and 0x100 to 0x33F (Table 3-8). -/
def Hart.header (h : Hart) : List Byte :=
  [h.pc, h.estart, h.pegmask, h.livemask, h.fflags, h.fmode, h.vl, h.cause, h.faddr, h.finfo, h.epc].flatMap
    (fun w => bytesOf 8 w.toNat)
/-- The bytes of a tile (Table 3-8). -/
def Hart.tileBytes (h : Hart) (t : Nat) : List Byte :=
  (Table.dense 0 65536 (t * 65536) (Table.slice h.acc (t * 65536) ((t + 1) * 65536))).flatMap (fun c => bytesOf 4 c.toNat)

/-- The lines of an image that a core has not filled stay as they stand in memory (R59). -/
def State.keepLines (old new : State) (b : Nat) (offs : List Nat) : State :=
  ((offs.map (fun o => b + o / 256 * 256)).eraseDups).foldl (fun s a => { s with
    mem := Table.splice s.mem a (a + 256) (Table.slice old.mem a (a + 256))
    err := Table.splice s.err a (a + 256) (Table.slice old.err a (a + 256)) }) new

/-- A new image before anything is written to it (R47): its bytes read 0, and none is in error. -/
def State.clearImage (s : State) (b tiles : Nat) : State :=
  let top := b + imageLen tiles
  { s with mem := Table.splice s.mem b top [], err := Table.splice s.err b top [] }

/-- Writing an image back: the pinned lines and every live line that the core holds (R59, R60). -/
def State.saveImage (s : State) (h : Hart) (b tiles : Nat) : State :=
  let old := s
  let s := s.putRange b h.header
  let s := s.putRange (b + 0x100) ((List.range 32).flatMap (fun i => bytesOf 8 (h.gr i).toNat))
  let s := s.putRange (b + 0x200) ((List.range 8).flatMap (fun i => bytesOf 32 (h.kr i).toNat))
  let s := s.putRange (b + 0x300) ((List.range 16).flatMap (fun i => bytesOf 4 (h.mr i).toNat))
  let s := (List.range 32).foldl (fun s i => if h.isLive i then s.putRange (b + 0x2000 + 256 * i) (bytesOf 256 (h.vr i).toNat) else s) s
  let s := (List.range 16).foldl (fun s i => if h.isLive (32 + i) then s.putRange (b + 0x4000 + 512 * i) (bytesOf 512 (h.dr i).toNat) else s) s
  let s := (List.range tiles).foldl (fun s t => if h.isLive (48 + t) then s.putRange (b + 0x10000 + 0x40000 * t) (h.tileBytes t) else s) s
  State.keepLines old s b h.unfilled

/-- An 8-byte word of an image. -/
def State.imageWord (s : State) (b off : Nat) : Word := BitVec.ofNat 64 (natOfBytes (s.memRange (b + off) 8))
/-- LIVEMASK with the bits of tiles at or above TILES cleared (Table 3-7). -/
def liveOf (tiles : Nat) (x : Word) : Word := BitVec.ofNat 64 (x.toNat % 2 ^ (48 + tiles))

/-- The registers that an image holds (R57, R60): reserved bits read zero (R3); a dead register holds nothing. -/
def State.loadImage (s : State) (b tiles : Nat) : Hart :=
  let w := fun off => s.imageWord b off &&& BitVec.ofNat 64 (if off < 0x100 then headerMask tiles (off / 8) else 2 ^ 64 - 1)
  let live := liveOf tiles (w 0x18)
  let num := fun off n => natOfBytes (s.memRange (b + off) n)
  { Hart.blank with
    pc := w 0, estart := w 8, pegmask := w 0x10,
    livemask := live, fflags := w 0x20, fmode := w 0x28, vl := w 0x30, cause := w 0x38, faddr := w 0x40,
    finfo := w 0x48, epc := w 0x50
    g := Table.ofList 0 1 ((List.range 31).map (fun i => w (0x108 + 8 * i)))
    k := Table.ofList 0 1 ((List.range 7).map (fun i => BitVec.ofNat 256 (num (0x220 + 32 * i) 32)))
    m := Table.ofList normZero 0 ((List.range 16).map (fun i =>
      if live.getLsbD (32 + i) then BitVec.ofNat 32 (num (0x300 + 4 * i) 4) else normZero))
    v := Table.ofList 0 0 ((List.range 32).map (fun i =>
      if live.getLsbD i then BitVec.ofNat 2048 (num (0x2000 + 256 * i) 256) else 0))
    d := Table.ofList 0 0 ((List.range 16).map (fun i =>
      if live.getLsbD (32 + i) then BitVec.ofNat 4096 (num (0x4000 + 512 * i) 512) else 0))
    acc := Table.ofList 0 0 ((List.range tiles).flatMap (fun t =>
      if live.getLsbD (48 + t) then
        let bytes := s.memRange (b + 0x10000 + 0x40000 * t) 0x40000
        (List.range 65536).map (fun i => BitVec.ofNat 32 (natOfBytes ((bytes.drop (4 * i)).take 4)))
      else List.replicate 65536 0)) }

/-- The LIVEMASK bit of the register whose line lies at an image offset (Table 3-8). -/
def lineBit (off : Nat) : Option Nat :=
  if 0x2000 ≤ off && off < 0x4000 then some ((off - 0x2000) / 256)
  else if 0x4000 ≤ off && off < 0x6000 then some (32 + (off - 0x4000) / 512)
  else if 0x10000 ≤ off then some (48 + (off - 0x10000) / 0x40000)
  else none
/-- The image offsets of the words that cannot be read, where `used` (R408). -/
def State.badWords (s : State) (b tiles : Nat) (used : Nat → Bool) : List Nat :=
  (s.err.filter (fun e => b ≤ e.1 && e.1 < b + imageLen tiles && (e.2.poison || e.2.uncorr) && used (e.1 - b))).map (fun e => e.1 - b)
/-- The lowest offset of such a word among the pinned lines. -/
def State.badLine (s : State) (b tiles : Nat) : Option Nat := (s.badWords b tiles (fun off => off < 0x400)).head?
/-- The words of live lines that no fill can read; a fill is made when the task names the line (R59). -/
def State.unfilledAt (s : State) (b tiles : Nat) (live : Word) : List Nat :=
  s.badWords b tiles (fun off => match lineBit off with | some k => live.getLsbD k | none => false)

/-- The free image bases of a post for an image of `len` bytes (R36, R57). -/
def State.freeBases (s : State) (post len : Nat) : List Nat :=
  ((List.range 3840).map (fun i => sramAddr post (0x20000000 + 0x10000 * i))).filter (fun b =>
    b % 2 ^ 44 + len ≤ 0x2F000000 &&
    s.taskList.all (fun p => match p.2.image with
      | some c => !rangesMeet c (imageLen p.2.tiles) b len
      | none => true))

/-! Bench buffers (R308, R309). -/

/-- The first byte of a page of a hart's bench. -/
def benchAddr (hart page : Nat) : Nat := 9 * 2 ^ 48 + hart / 32 * 2 ^ 44 + hart % 32 * 2 ^ 38 + page * 4096
/-- Whether two runs of pages share one. -/
def pagesMeet (a an b bn : Nat) : Bool := a ≤ b + bn && b ≤ a + an
/-- Whether a buffer may lie on a hart's bench: its pages there lie in no other buffer (R309). -/
def State.pagesFree (s : State) (hart : Nat) (b : Buffer) : Bool :=
  s.buffers.all (fun c => c = b || c.hart ≠ hart || !pagesMeet b.first b.npg c.first c.npg)
/-- Moving the pages of a buffer to another bench, with their errors (R309); what the old pages read is open (log 25). -/
def State.moveBuffer (s : State) (b : Buffer) (hart : Nat) (holder : Option Nat) : State :=
  let put := fun s => { s with buffers := s.buffers.map (fun c => if c = b then { b with hart := hart, holder := holder } else c) }
  if b.hart = hart then put s
  else
    let n := 4096 * (b.npg + 1)
    let old := benchAddr b.hart b.first
    let new := benchAddr hart b.first
    let marks := (Table.slice s.err old (old + n)).map (fun e => (e.1 - old + new, e.2))
    let tick := s.tick
    let s := s.putRange new (s.memRange old n)
    let s := { s with err := Table.splice s.err new (new + n) marks, tick := tick + 1 }
    put (s.putRange old ((List.range n).map (Config.leftByte tick)))
/-- A bench handle with no reserved bit set, within the bench (R308). -/
def handleOk (x : Nat) : Bool := x < 2 ^ 32 && bitsN x 15 8 + bitsN x 7 0 ≤ 255
/-- The buffer that a handle names in a graph: its TAG, FIRST and NPG (R308). -/
def State.bufferOf (s : State) (g handle : Nat) : Option Buffer :=
  s.buffers.find? (fun b => b.graph = g && b.tag = bitsN handle 31 16 && b.first = bitsN handle 15 8 && b.npg = bitsN handle 7 0)

/-! The dispatchers' lists. -/

/-- The posts that a record allows (R30, R349, R415). -/
def State.allowedPosts (s : State) (g : Graph) (t : Task) : Nat :=
  g.posts &&& (if t.posts = 0 then 0xFF else t.posts) &&& s.posts &&& (0xFF ^^^ s.scrapped &&& 0xFF)
/-- READY records of a post at a level (R349). -/
def State.readyCount (s : State) (post level : Nat) : Nat := (s.ready.filter (fun r => r.post = post && r.level = level)).length

/-- Putting a task into its list, at the head or the tail (R349); a queue first met takes the tail of the rotation. -/
def State.enqueue (s : State) (u post level queue : Nat) (atHead : Bool) : State :=
  let r : Ready := ⟨post, level, queue, u⟩
  let rot := if s.rotation.any (fun x => x.post = post && x.level = level && x.queue = queue) then s.rotation
    else s.rotation ++ [⟨post, level, queue, 0⟩]
  { s with ready := if atHead then r :: s.ready else s.ready ++ [r], rotation := rot }

/-- Counting one issue of a queue (R350): the binding that brings the count to the quota of its graph, or finds it there, ends the
queue's turn (R352, log 67). -/
def State.countIssue (s : State) (post level queue quota : Nat) : State :=
  let is := fun (x : Rot) => x.post = post && x.level = level && x.queue = queue
  match s.rotation.find? is with
  | none => s
  | some x =>
    if quota ≤ x.issued + 1 then { s with rotation := s.rotation.filter (fun y => !is y) ++ [{ x with issued := 0 }] }
    else { s with rotation := s.rotation.map (fun y => if is y then { y with issued := y.issued + 1 } else y) }

/-- Whether a vector core is free to be bound (R36, R415). -/
def State.coreFree (s : State) (n : Nat) : Bool :=
  let h := s.hart n
  h.mode = .idle && h.task.isNone && s.posts.testBit (n / 32) && !s.scrapped.testBit (n / 32)
/-- The harts of a post that a graph's masks allow (R36). -/
def Graph.harts (g : Graph) (post : Nat) : List Nat :=
  ((List.range 32).filter (fun c => (g.cores.getD post 0).testBit c)).map (fun c => 32 * post + c)
/-- The priority of the task on a hart. -/
def State.levelOn (s : State) (n : Nat) : Nat := match s.graphOf n with | some (_, g) => g.prio | none => 0

/-- Choosing a victim for a READY record that finds no free core (R353, R354): the least urgent task on its cores, the
latest bound of those; none while an allowed core is being freed. -/
def State.chooseVictim (s : State) (post : Nat) (g : Graph) : State :=
  let hs := g.harts post
  let freeing := fun n => match (s.hart n).mode with | .saving _ => true | _ => (s.hart n).victim
  if hs.any s.coreFree || hs.any freeing then s
  else
    let cands := hs.filter (fun n => g.prio < s.levelOn n && (s.hart n).task.isSome)
    let better := fun n m => s.levelOn m < s.levelOn n || (s.levelOn m = s.levelOn n && (s.hart m).boundSeq < (s.hart n).boundSeq)
    match cands with
    | [] => s
    | c :: cs =>
      let v := cs.foldl (fun best n => if better n best then n else best) c
      s.setHart v { s.hart v with victim := true }

/-- Choosing victims for the READY records of a post that find no free core, the most urgent first (R353, R354). -/
def State.chooseVictims (s : State) (post : Nat) : State :=
  let levels := (s.ready.filter (fun r => r.post = post)).map (fun r => (r.level, (s.task r.task).bind (fun t => s.graph t.graph)))
  (List.range 32).foldl (fun s k => levels.foldl (fun s p => match p with
    | (l, some g) => if l = k then s.chooseVictim post g else s
    | (_, none) => s) s) s

/-- Offering a READY task to one dispatcher (R349): a bound one to its post, a NEAR one to the post that readied it,
another to the allowed post with the fewest READY records. -/
def State.offer (s : State) (u : Nat) (source : Option Nat) (atHead : Bool) : State :=
  match s.task u with
  | none => s
  | some t => match s.graph t.graph with
    | none => s
    | some g =>
      let ok := s.allowedPosts g t
      let fewest := (List.range 8).foldl (fun (best : Option Nat) p =>
        if !ok.testBit p then best
        else match best with
          | none => some p
          | some b => if s.readyCount p g.prio < s.readyCount b g.prio then some p else best) none
      let post := if t.image.isSome then t.post
        else match source with
          | some p => if t.near && ok.testBit p then p else fewest.getD t.post
          | none => fewest.getD t.post
      let s := s.setTask u (some { t with status := .ready, post := post })
      (s.enqueue u post g.prio g.queue atHead).chooseVictims post

/-! Records (R29 to R35). -/

/-- The address of a slot of a graph's pool. -/
def Graph.slotAddr (g : Graph) (slot : Nat) : Nat := g.pool + 64 * slot
/-- The lowest free slot of a pool (R326). -/
def State.freeSlot (s : State) (gid : Nat) (g : Graph) : Option Nat :=
  (List.range (2 ^ g.poolLog)).find? (fun i => s.taskList.all (fun p => p.2.graph ≠ gid || p.2.slot ≠ i))
/-- Whether a record breaks R32 for a graph. -/
def badRecord (posts : Nat) (rec_ : List Byte) : Bool :=
  let f := fun off n => natOfBytes ((rec_.drop off).take n)
  let aff := f 20 4
  f 0 8 % 4 ≠ 0 || 4 < bitsN aff 11 9 || bitsN aff 31 12 ≠ 0 ||
    (if aff % 256 = 0 then posts else posts &&& (aff % 256)) = 0 || f 24 8 % 8 ≠ 0

/-- Publishing a record whole into a slot (R28, R326, R349): READY at once where WAIT is 0. -/
def State.publish (s : State) (gid slot id : Nat) (rec_ : List Byte) (source : Option Nat) : State :=
  match s.graph gid with
  | none => s
  | some g =>
    let aff := natOfBytes ((rec_.drop 20).take 4)
    let u := s.nextUid
    let t : Task := {
      graph := gid, id := id, slot := slot, status := .waiting, post := (source.getD 0), started := false, image := none,
      tiles := bitsN aff 11 9, posts := aff % 256, near := aff.testBit 8, lastCore := 32, copies := 0, banks := 0,
      rows := 0, reports := [], fetched := [] }
    let s := (if (s.unreachable t.post g.pool).isSome then s else s.putRange (g.slotAddr slot) rec_).setTask u (some t)
    let s := { s with nextUid := u + 1 }
    if natOfBytes ((rec_.drop 16).take 4) = 0 then s.offer u source false else s

/-- One decrement of a successor's WAIT (R34, R35, R330). An atomic that meets an unreadable word writes nothing (R406, R408). -/
def State.decrement (s : State) (gid slotAddr post : Nat) : State :=
  match s.graph gid with
  | none => s
  | some g =>
    let under := s.setGraph gid (some { g with underflow := true })
    match s.taskList.find? (fun p => p.2.graph = gid && g.slotAddr p.2.slot = slotAddr) with
    | none => under
    | some (u, t) =>
      let w := s.memNat (slotAddr + 16) 4
      match s.readUnit (slotAddr + 16) 0 ⟨0, 0, g.asid, gid, t.id⟩ with
      | (s, some _) => s
      | (s, none) =>
        if w = 0 then s.setGraph gid (some { g with underflow := true })
        else
          let s := s.putNat (slotAddr + 16) 4 (w - 1)
          if w = 1 && t.status = .waiting then s.offer u (some post) false else s

/-! Completion (R43, R347, R348, R439). -/

/-- Whether a graph still has work: a task that is not WAITING, or a command its tasks issued (R43, R439). -/
def State.graphBusy (s : State) (gid : Nat) : Bool :=
  s.taskList.any (fun p => p.2.graph = gid && p.2.status ≠ .waiting) ||
  s.banks.any (fun q => q.2.any (fun c => c.graph = gid && c.task.isSome)) ||
  s.copies.any (fun q => q.2.any (fun c => c.graph = gid && c.task.isSome)) ||
  s.progs.any (fun q => q.2.any (fun c => c.graph = gid))

/-- Performing every write still on its way at every place (R439). -/
def State.performAll (s : State) : State :=
  (s.stores.foldl State.performStore { s with stores := [] }).forceHost (fun _ => true)

/-- Writing DONE and HEAD of a queue back (R348): DONE stops at the oldest entry whose graph still runs. -/
def State.advanceDone (s : State) (q : Nat) : State :=
  let head := s.qHead q
  let done := s.qDone q
  let open_ := fun n => s.graphs.any (fun p => match p.2 with
    | some g => g.queue = q && g.number = n % 2 ^ 32
    | none => false)
  let n := (head + 2 ^ 32 - done) % 2 ^ 32
  let k := ((List.range n).find? (fun i => open_ (done + i))).getD n
  s.putNat (queueRec q + 0x18) 8 (head + (done + k) % 2 ^ 32 * 2 ^ 32)

/-- COMPLETION (Table 17-5). -/
def completionWord (c : Cause) (underflow : Bool) (abandoned gid : Nat) : Nat :=
  c.code + (if underflow then 64 else 0) + 128 + abandoned % 2 ^ 16 * 2 ^ 16 + gid * 2 ^ 32

/-- Testing a graph for completion (R43): its WAITING records are freed and counted, the COMPLETION word is written after
every write of its tasks, DONE advances. -/
def State.tryComplete (s : State) (gid : Nat) : State :=
  match s.graph gid with
  | none => s
  | some g =>
    if s.graphBusy gid then s
    else
      let waiting := s.taskList.filter (fun p => p.2.graph = gid)
      let s := waiting.foldl (fun s p => s.setTask p.1 none) s
      let s := { s with buffers := s.buffers.filter (fun b => b.graph ≠ gid), held := s.held.filter (fun e => e.graph ≠ gid) }
      let s := (s.performAll).setGraph gid none
      let c := if g.killed then Cause.graphKilled else .none
      let s := s.devWrite (g.entry + 0x30) (bytesOf 8 (completionWord c g.underflow waiting.length gid)) ⟨5, 0, 0, 0, 0⟩
      s.advanceDone g.queue

/-- The hart that a task holds. -/
def State.hartOf (s : State) (u : Nat) : Option Nat := (s.harts.find? (fun p => p.2.task = some u)).map (fun p => p.1)
/-- A core that its task has left: nothing of the task stays in it (R385); what its fetch unit holds does, until a FENCE (R66). -/
def Hart.freed (h : Hart) : Hart := { Hart.blank with fetched := h.fetched }
/-- Freeing a core. -/
def State.freeHart (s : State) (n : Nat) : State := s.setHart n (s.hart n).freed

/-- Ending a task (R42, R328): its image is dropped, its slot and its buffers are freed, its core is freed. A dropped image reads 0 to
a system core (R58). -/
def State.dropTask (s : State) (u : Nat) : State :=
  let s := match s.hartOf u with | some n => s.freeHart n | none => s
  { s.setTask u none with
    ready := s.ready.filter (fun r => r.task ≠ u), held := s.held.filter (fun e => e.task ≠ u || e.advice),
    buffers := s.buffers.filter (fun b => b.holder ≠ some u) }
/-- Retiring a task: it ends, and its graph is tested. -/
def State.retireTask (s : State) (u : Nat) : State :=
  match s.task u with
  | none => s
  | some t => (s.dropTask u).tryComplete t.graph

/-! Fault queues (R371 to R373). -/

/-- Word 0x08 of a fault-queue entry (Table 18-9). -/
def faultWord (cause finfo post : Nat) : Nat :=
  cause % 64 + (if cause.testBit 6 then 64 else 0) + finfo % 16 * 2 ^ 8 + bitsN finfo 7 4 * 2 ^ 12 + bitsN finfo 15 8 * 2 ^ 16 + post * 2 ^ 24
/-- The 32 bytes of a fault-queue entry (Table 18-9). -/
def faultEntry (gid : Nat) (t : Task) (word faddr : Nat) : List Byte :=
  bytesOf 8 (t.id + gid * 2 ^ 32) ++ bytesOf 8 word ++ bytesOf 8 faddr ++ bytesOf 8 (t.image.getD 0)

/-- Whether the fault queue of a graph is full (R373). A header whose WR or RD cannot be read takes no entry, as a full one (R406,
R408, log 78). -/
def State.faultFull (s : State) (g : Graph) : Bool :=
  s.badUnit g.faultq || s.badUnit (g.faultq + 8) ||
  (s.memNat g.faultq 4 + 2 ^ 32 - s.memNat (g.faultq + 8) 4) % 2 ^ 32 = g.fqlen
/-- The dispatcher reads the header of a fault queue: what cannot be read is logged (R404, R408, R412). -/
def State.readFaultq (s : State) (g : Graph) : State :=
  [0, 8, 0x10].foldl (fun s o => (s.readUnit (g.faultq + o) 0 ⟨0, 0, g.asid, 0, 0⟩).1) s
/-- The system core that FAULTQ_FULL goes to: SVC of the header, a free one where it cannot be read (R371, R408, log 78). -/
def State.svcCore (s : State) (g : Graph) : Nat :=
  (if s.badUnit (g.faultq + 0x10) then (Config.lostValue s.tick).toNat else s.memNat (g.faultq + 0x10) 1) % 8
/-- Writing an entry and raising WR (R373). -/
def State.writeFault (s : State) (g : Graph) (data : List Byte) : State :=
  let wr := s.memNat g.faultq 4
  let s := s.devWrite (g.faultq + 32 + 32 * (wr % g.fqlen)) data ⟨5, 0, 0, 0, 0⟩
  s.devWrite g.faultq (bytesOf 4 (wr + 1)) ⟨5, 0, 0, 0, 0⟩

/-- Whether a task of a graph that stopped before place `seq` has not yet been written back (R373). -/
def State.earlierStop (s : State) (gid seq : Nat) : Bool :=
  s.harts.any (fun p => (match p.2.mode with
    | .saving .stop => true | .saving .refused => true | .saving .unfilled => true | _ => false) && p.2.stopSeq < seq &&
    (match p.2.task.bind s.task with | some t => t.graph = gid | none => false))

/-- Dealing with the first entry of a graph that the dispatcher holds, unless an earlier stop has still to come (R373): it is
written where the queue has room; else advice is dropped, and the first stop entry so held raises FAULTQ_FULL. -/
def State.writeHeld (s : State) (gid : Nat) : State :=
  match s.graph gid, s.held.find? (fun e => e.graph = gid) with
  | some g, some e =>
    if s.earlierStop gid e.seq then s
    else if !s.faultFull g then State.writeFault { s.readFaultq g with held := s.held.erase e } g e.data
    else if e.advice then { s.readFaultq g with held := s.held.erase e }
    else if e.told then s
    else
      let svc := s.svcCore g
      State.raiseAsync { s.readFaultq g with held := s.held.map (fun d => if d.graph = gid then { d with told := true } else d) }
        svc .faultqFull (BitVec.ofNat 64 g.faultq)
  | _, _ => s

/-- A new entry of a graph (R373): it takes its place among those held, and what can be written is. -/
def State.addEntry (s : State) (e : HeldEntry) : State :=
  let e := { e with told := s.held.any (fun d => d.graph = e.graph && d.told) }
  let s := { s with held := s.held.filter (fun (d : HeldEntry) => d.seq < e.seq) ++ e :: s.held.filter (fun (d : HeldEntry) => !(d.seq < e.seq)) }
  s.held.foldl (fun s _ => s.writeHeld e.graph) s

/-- The end of a save or of a fault writeback (R60, R349, R391): the image, the entry, the core. -/
def State.saveDone (s : State) (n : Nat) : State :=
  let h := s.hart n
  match h.mode, s.taskOf n with
  | .saving why, some (u, t) =>
    if s.isKilled t.graph then s.retireTask u
    else
      let s := s.drainAll n
      let t := { t with fetched := h.fetched }
      let s := s.setTask u (some t)
      let b := t.image.getD 0
      let full := fun (s : State) => s.saveImage h b t.tiles
      let gid := t.graph
      let g? := s.graph gid
      let stopped := fun (s : State) (word faddr : Nat) => match g? with
        | some _ => State.addEntry ((s.setTask u (some { t with status := .stopped })).freeHart n)
            ⟨gid, u, h.stopSeq, false, false, faultEntry gid t word faddr⟩
        | none => s
      let word := faultWord h.cause.toNat h.finfo.toNat t.post
      match why with
      | .stop => stopped (full s) word h.faddr.toNat
      | .refused => stopped s (faultWord Cause.resumeState.code 0 t.post) 0
      | .unfilled =>
        stopped (s.putRange (b + 0x38) ([h.cause, h.faddr, h.finfo, h.epc].flatMap (fun w => bytesOf 8 w.toNat))) word h.faddr.toNat
      | .preempt => State.offer ((full s).freeHart n) u none true
      | .yield => match g? with
        | some g => (State.offer ((full s).freeHart n) u none false).countIssue t.post g.prio g.queue g.quota
        | none => s
  | _, _ => s

/-! Binding (R36, R37, R350, R351). -/

/-- The record fields of a task as they stand in its slot (R33); one that cannot be read or reached is free (R408, R431, log 78). -/
def State.slotField (s : State) (g : Graph) (t : Task) (off : Nat) : Nat :=
  if s.badUnit (g.slotAddr t.slot + off) || (s.unreachable t.post (g.slotAddr t.slot)).isSome then (Config.lostValue s.tick).toNat / 2 ^ (8 * off) % 2 ^ 64 else s.memNat (g.slotAddr t.slot + off) 8
/-- The dispatcher reads the fields of the slot that Table 2-4 names: a correction is made, what cannot be read is logged (R404, R408,
R412). -/
def State.readSlot (s : State) (gid : Nat) (g : Graph) (t : Task) : State :=
  [0, 8, 32, 40, 48, 56].foldl (fun s off => (s.readUnit (g.slotAddr t.slot + off) 0 ⟨0, 0, g.asid, gid, t.id⟩).1) s

/-- Whether a task may be bound to a free core (R36, R309): its masks, room for a new image, its inherited buffer given,
and room for its buffers on the core's bench. -/
def State.canBind (s : State) (u gid : Nat) (g : Graph) (t : Task) (n : Nat) : Bool :=
  s.coreFree n && (g.harts (n / 32)).contains n &&
  (if t.image.isSome then (s.buffers.filter (fun b => b.holder = some u)).all (s.pagesFree n)
   else (s.allowedPosts g t).testBit (n / 32) && !(s.freeBases (n / 32) (imageLen t.tiles)).isEmpty &&
     (let bench := s.slotField g t 32
      bench = 0 || (match s.bufferOf gid bench with
        | some b => b.holder.isNone && s.pagesFree n b
        | none => false)))

/-- The number of the next binding. -/
def State.nextBind (s : State) : Nat := s.harts.foldl (fun m p => max m (p.2.boundSeq + 1)) 0

/-- The registers of a task that starts (R37). -/
def State.startRegs (s : State) (g : Graph) (t : Task) : Hart :=
  let f := fun off => BitVec.ofNat 64 (s.slotField g t off)
  { Hart.blank with pc := f 0, g := Table.ofList 0 1 [f 8, f 40, f 48, f 56, BitVec.ofNat 64 (g.slotAddr t.slot)] }

/-- Binding a task to a core: a new image with the registers of R37 and R47, or the restore of its image with the checks of R393
and R408; a live line that cannot be read stops the task when it names it (R59). A task that moves keeps the words that its fetch unit held,
one that starts finds those of the core (R66). What an earlier task of the core ordered at core scope is performed first (R44, R315). -/
def State.bind (s : State) (u gid : Nat) (g : Graph) (t : Task) (n : Nat) : State :=
  let post := n / 32
  let s := s.drain n (fun w => w.fenced)
  let s := { s with ready := s.ready.filter (fun r => r.task ≠ u) }
  let put := fun (s : State) (h : Hart) (t : Task) =>
    let t := { t with status := .running, post := post, started := true, lastCore := n % 32 }
    (s.setTask u (some t)).setHart n { h with task := some u, boundSeq := s.nextBind, mode := if h.mode = .idle then .running else h.mode }
  match t.image with
  | none =>
    let bases := s.freeBases post (imageLen t.tiles)
    let b := bases.getD (Config.imagePick s.tick % bases.length) 0
    let h := s.startRegs g t
    let bench := s.slotField g t 32
    let s := State.readSlot { s with tick := s.tick + 1 } gid g t
    let s := match s.bufferOf gid bench with
      | some b => if bench = 0 then s else s.moveBuffer b n (some u)
      | none => s
    put ((s.clearImage b t.tiles).saveImage h b t.tiles) { h with fetched := (s.hart n).fetched } { t with image := some b }
  | some b =>
    let s := (s.buffers.filter (fun b => b.holder = some u)).foldl (fun s b => s.moveBuffer b n (some u)) s
    let h := { s.loadImage b t.tiles with fetched := t.fetched }
    let code := h.cause.toNat % 64
    if code = Cause.coreParity.code || (code = Cause.sramUncorr.code && bitsN h.finfo.toNat 7 4 = 15) then
      put s { h with mode := .saving .refused, stopSeq := s.nextStop } t
    else match s.badLine b t.tiles with
    | some off =>
      let s := (s.readUnit (b + off) 0 ⟨0, 0, g.asid, gid, t.id⟩).1
      put s { h with
        mode := .saving .unfilled, cause := causeOf .sramUncorr (h.estart ≠ 0), faddr := BitVec.ofNat 64 off,
        finfo := finfoOf 0 15 0, epc := h.pc, stopSeq := s.nextStop } t
    | none => put s { h with unfilled := s.unfilledAt b t.tiles h.livemask } t

/-- The core of a post that a task is bound to: the one it last ran on, else the lowest (R350). -/
def State.coreFor (s : State) (u post : Nat) : Option (Nat × Nat × Graph × Task) :=
  match s.task u with
  | none => none
  | some t => match s.graph t.graph with
    | none => none
    | some g =>
      let ok := (g.harts post).filter (s.canBind u t.graph g t)
      let n := if t.lastCore < 32 && ok.contains (32 * post + t.lastCore) then some (32 * post + t.lastCore) else ok.head?
      n.map (fun n => (n, t.graph, g, t))

/-- The first task of R350 on a post: levels in order, queues in the rotation, the first of a list that can be bound. -/
def State.nextOwn (s : State) (post : Nat) : Option Nat :=
  (List.range 32).findSome? (fun lvl => (s.rotation.filter (fun x => x.post = post && x.level = lvl)).findSome? (fun x =>
    (s.ready.find? (fun r => r.post = post && r.level = lvl && r.queue = x.queue && (s.coreFor r.task post).isSome)).map (fun r => r.task)))

/-- The distance between two posts (R351). -/
def postDistance (a b : Nat) : Nat := (max (a % 4) (b % 4) - min (a % 4) (b % 4)) + (max (a / 4) (b / 4) - min (a / 4) (b / 4))
/-- The other posts in the order of R351. -/
def postsFrom (post : Nat) : List Nat :=
  (List.range 5).flatMap (fun d => (List.range 8).filter (fun p => p ≠ post && postDistance post p = d))
/-- A record that has never started, taken from another post's lists (R351). -/
def State.nextStolen (s : State) (post : Nat) : Option Nat :=
  (List.range 32).findSome? (fun lvl => (postsFrom post).findSome? (fun p =>
    (s.rotation.filter (fun x => x.post = p && x.level = lvl)).findSome? (fun x =>
      (s.ready.find? (fun r => r.post = p && r.level = lvl && r.queue = x.queue &&
        (match s.task r.task with | some t => !t.started | none => false) && (s.coreFor r.task post).isSome)).map (fun r => r.task))))

/-- One binding of a dispatcher (R350, R351); nothing where none is possible. -/
def State.bindNext (s : State) (post : Nat) : State :=
  match s.nextOwn post with
  | some u => match s.coreFor u post with
    | some (n, gid, g, t) => State.countIssue (s.bind u gid g t n) post g.prio g.queue g.quota
    | none => s
  | none => match s.nextStolen post with
    | some u => match s.coreFor u post with
      | some (n, gid, g, t) => s.bind u gid g t n
      | none => s
    | none => s

end Sys2Proof.Machine
end

