-- ==== Sys2Proof/Machine/Control.lean ====
section
/-! DEFINITION. Control flow and tasks (R323 to R338): transfers, SPAWN, DONE, END, YIELD, the waits, LAUNCH, liveness,
the s-registers (R50 to R55, R360, R394) and service calls. -/
namespace Sys2Proof.Machine
open Sys2Proof

/-! Transfers of control. -/

/-- The offset of BR and CALL `.rel`: an i32, or an i16 (Table 16-2). -/
def relOffset (x : Ops) : Int := if x.a.cls = 7 then sextN (imm32 x) 32 else sextN x.a.imm 16
/-- A target `off` instructions from the pc (Table 16-2). -/
def Hart.ahead (h : Hart) (off : Int) : Word := h.pc + BitVec.ofInt 64 (12 * off)

/-- A transfer to `t` where it is taken, with or without a link (R325). -/
def runTransfer (d : Desc) (x : Ops) (s : State) (link : Bool) (taken : Hart → Bool) (t : Hart → Word) :
    Host.Outcome State Fault Refusal :=
  runCore d x s true none (fun n h =>
    let dest := t h
    if !taken h then .retire s 0
    else if dest.toNat % 4 ≠ 0 then .stop s ⟨.align, dest, 0, 0, 0, 0⟩
    else if 2 ^ 52 ≤ dest.toNat then .stop s ⟨.addrRange, dest, 0, 0, 0, 0⟩
    else .jump (if link then s.setHart n (h.setG (gNum x.d) (h.pc + 12)) else s) dest)

def execBr (x : Ops) (s : State) := runTransfer .br x s false (fun _ => true) (fun h => h.ahead (relOffset x))
def execBrz (x : Ops) (s : State) :=
  runTransfer .brz x s false (fun h => h.gr (gNum x.a) = 0) (fun h => h.ahead (sextN x.b.imm 16))
def execBrnz (x : Ops) (s : State) :=
  runTransfer .brnz x s false (fun h => h.gr (gNum x.a) ≠ 0) (fun h => h.ahead (sextN x.b.imm 16))
def execJmp (x : Ops) (s : State) :=
  runTransfer .jmp x s false (fun _ => true) (fun h => h.gr (gNum x.a) + h.src x.b)
def execJr (x : Ops) (s : State) :=
  runTransfer .jr x s false (fun _ => true) (fun h => h.ahead (h.gr (gNum x.a)).toInt)
def execCall (x : Ops) (s : State) := runTransfer .call x s true (fun _ => true) (fun h => h.ahead (relOffset x))
def execCallReg (x : Ops) (s : State) :=
  runTransfer .callReg x s true (fun _ => true) (fun h => h.gr (gNum x.a) + h.src x.b)
def execRet (x : Ops) (s : State) := runTransfer .ret x s false (fun _ => true) (fun h => h.gr (gNum x.a))

/-! Creating and ending tasks. -/

/-- Whether SPAWN refuses a record (R32, R326 step 4). -/
def spawnBad (g : Graph) (rec_ : List Byte) : Bool :=
  let f := fun off => natOfBytes ((rec_.drop off).take 8)
  badRecord g.posts rec_ || !(f 32 = 0 || handleOk (f 32)) ||
    !(f 24 = 0 || (window (f 24) = 8 && homePost (f 24) = homePost g.pool))

/-- SPAWN (R326). A pool that cannot be reached stops it as a record that cannot be read does (R272, log 66). -/
def execSpawn (x : Ops) (s : State) :=
  runCore .spawn x s true none (fun n h =>
    let ga := (h.gr (gNum x.a)).toNat
    if ga % 64 ≠ 0 then .stop s (accessStop (.align, ga) .read 3 0)
    else match s.load n ga 64 .read x.hint.val with
    | (s, .error e) => .stop s (accessStop e .read 3 0)
    | (s, .ok rec_) =>
      match s.graphOf n with
      | none => .retire s 0
      | some (gid, g) =>
        if spawnBad g rec_ then .stop s (accessStop (.spawnRecord, ga) .read 3 0)
        else match s.freeSlot gid g with
        | none => .stop s (accessStop (.spawnFull, ga) .read 3 0)
        | some slot => match s.unreachable (postId n) (g.slotAddr slot) with
          | some c => .stop s (accessStop (c, ga) .read 3 0)
          | none =>
          let s := State.release s n 2
          let s := s.setGraph gid (some { g with nextId := if g.nextId = 2 ^ 32 - 1 then 1 else g.nextId + 1 })
          let s := s.publish gid slot g.nextId rec_ (some (postId n))
          .retire (s.setHart n ((s.hart n).setG (gNum x.d) (BitVec.ofNat 64 (g.slotAddr slot)))) 0)

/-- The number of a core's commands still outstanding: of class 0, 1 or 2, or of all for 3 (R290, R332). -/
def State.outstanding (s : State) (n cls : Nat) : Nat :=
  match s.taskOf n with
  | some (_, t) =>
    match cls with
    | 0 => t.copies | 1 => t.banks | 2 => t.rows | _ => t.copies + t.banks + t.rows
  | none => match cls with | 1 => 0 | 2 => 0 | _ => (s.hart n).copies

/-- One 8-byte word as a core reads it at a translated place, or the cause. -/
def State.pieceWord (s : State) (n pa pclass : Nat) : State × Except Cause Nat :=
  match s.readPiece n ⟨pa, 8, pclass⟩ with
  | (s, some (c, _)) => (s, .error c)
  | (s, none) => (s.noteHost n pa 8, .ok (natOfBytes ((List.range 8).map (fun i => s.seenByte n (pa + i) pclass))))
/-- One 8-byte word as the core that ends a task reads it, or the cause: the image area is not the task's to read (R58), and the word
must exist (R263). -/
def State.listWord (s : State) (n pa : Nat) : State × Except Cause Nat :=
  if !s.validAddr pa then (s, .error .addrRange)
  else if inImageArea pa then (s, .error .imageAccess)
  else s.pieceWord n pa 0

/-- The entries of a successor list from `pa`, each checked (R329): the cause and the address of the offending word
where one fails. -/
def State.listEntries (n : Nat) (g : Graph) : (k pa : Nat) → State → State × Except (Cause × Nat) (List Nat)
  | 0, _, s => (s, .ok [])
  | k + 1, pa, s =>
    match s.listWord n pa with
    | (s, .error c) => (s, .error (c, pa))
    | (s, .ok e) =>
      if e % 64 ≠ 0 || e < g.pool || g.pool + 64 * 2 ^ g.poolLog ≤ e then (s, .error (.spawnRecord, pa))
      else match State.listEntries n g k (pa + 8) s with
        | (s, .error e) => (s, .error e)
        | (s, .ok es) => (s, .ok (e :: es))

/-- The successor list that DONE applies (R329). -/
def State.successors (s : State) (n : Nat) (g : Graph) (succ : Nat) : State × Except (Cause × Nat) (List Nat) :=
  if succ = 0 then (s, .ok [])
  else match s.listWord n succ with
    | (s, .error c) => (s, .error (c, succ))
    | (s, .ok k) => if 255 < k then (s, .error (.spawnRecord, succ)) else State.listEntries n g k (succ + 8) s

/-- DONE and END (R328): PEG_BUSY, the wait for the counts, the successors and the release of DONE, retirement. -/
def runEnd (d : Desc) (x : Ops) (s : State) (done : Bool) : Host.Outcome State Fault Refusal :=
  runCore d x s true none (fun n h =>
    let c := s.outstanding n 3
    if h.pegmask ≠ 0 then .stop s ⟨.pegBusy, h.pegmask, 0, 0, 0, 0⟩
    else if c ≠ 0 then .wait s ⟨9, 0, 0, BitVec.ofNat 64 c⟩
    else match s.taskOf n, s.graphOf n with
    | some (u, t), some (gid, g) =>
      if !done then .final (s.retireTask u)
      else
        let slot := g.slotAddr t.slot + 24
        match s.listWord n slot with
        | (s, .error c) => .stop s ⟨c, BitVec.ofNat 64 slot, 0, 0, 0, 0⟩
        | (s, .ok succ) => match s.successors n g succ with
          | (s, .error (c, pa)) => .stop s ⟨c, BitVec.ofNat 64 pa, 0, 0, 0, 0⟩
          | (s, .ok es) =>
            let s := State.release s n 2
            .final ((es.foldl (fun s e => s.decrement gid e (postId n)) s).retireTask u)
    | _, _ => .retire s 0)
def execDone (x : Ops) (s : State) := runEnd .done x s true
def execEndTask (x : Ops) (s : State) := runEnd .endTask x s false

/-- YIELD (R331). -/
def execYield (x : Ops) (s : State) :=
  runCore .yield x s true none (fun n h => .final (s.retire n { x with yield := true } 0 (h.pc + 12)))

/-! Waiting. -/

/-- WAITC (R332). -/
def execWaitc (x : Ops) (s : State) :=
  runCore .waitc x s true none (fun n h =>
    let c := s.outstanding n x.var.val
    if (h.src x.a).toNat < c then .wait s ⟨9, 0, 3, BitVec.ofNat 64 c⟩ else .retire s 0)

/-- A wait on an 8-byte word (R301, R333): `bad` gives the windows refused, `go` the registers once the wait ends. A core that waits
reads the word again where it lies, at each of its steps, or translates it again where its translation was invalidated (R366, log 72); a
read or translation that fails then does not end the wait (R41, log 68). -/
def runWaitWord (d : Desc) (x : Ops) (s : State) (bad : Nat → Bool) (port : Nat) (go : Hart → Nat → Option Hart) :
    Host.Outcome State Fault Refusal :=
  runCore d x s true none (fun n h =>
    let ga := (h.gr (gNum x.a)).toNat
    let wait := fun (s : State) w => Done.wait s ⟨port, 0, 3, BitVec.ofNat 64 ga⟩ w
    let fail := fun (s : State) (e : Cause × Nat) => match h.work with
      | .stale w => wait s (.stale w)
      | _ => .stop s (failStop e)
    let test := fun (s : State) pa c v => match go (s.hart n) v with
      | none => wait s (.word pa c)
      | some g => .retire (s.setHart n g) 0
    match h.work with
    | .word pa c => match s.pieceWord n pa c with
      | (s, .error _) => wait s (.word pa c)
      | (s, .ok v) => test s pa c v
    | _ =>
      if ga % 8 ≠ 0 then fail s (.align, ga)
      else match s.xlateOn n .read ga with
      | .error c => fail (s.noteWalks n ga 8) (c, ga)
      | .ok p =>
        if bad (window p.pa) then fail (s.noteWalks n ga 8) (.addrRange, ga)
        else match s.loadBlock n ga 8 x.hint.val with
        | (s, .error e) => fail s e
        | (s, .ok bs) => test s p.pa p.pclass (natOfBytes bs))

/-- WAITA (R333). -/
def execWaita (x : Ops) (s : State) :=
  runWaitWord .waita x s (fun w => w = 9 || 11 ≤ w) 11 (fun h v =>
    if BitVec.ofNat 64 v = h.gr (gNum x.b) then none else some (h.setG (gNum x.d) (BitVec.ofNat 64 v)))

/-- Whether LAUNCH may append to a queue: it exists, is a device queue, and belongs to the task's ASID (R27, R327). -/
def State.launchable (s : State) (n q : Nat) : Bool :=
  q < 8192 && (s.qword q 8).testBit 5 && bitsN (s.qword q 8) 63 48 = s.asidOf n

/-- Steps 5 to 7 of R327: the wait for room, the release, the append. -/
def State.launch (s : State) (n q : Nat) (x : Ops) (entry : List Byte) : Done :=
  let size := 2 ^ s.qLogSize q
  let tail := s.qTail q
  if size ≤ (tail + 2 ^ 32 - s.qDone q) % 2 ^ 32 then .wait s ⟨14, 0, 3, BitVec.ofNat 64 q⟩ (.launch entry)
  else
    let s := State.release s n 2
    let slot := s.qword q 0 + 64 * (tail % size)
    let s := if window slot ≤ 10 && s.validAddr slot then s.devWrite slot entry (s.logHart n) else s
    let s := (s.applyTail q ((tail + 1) % 2 ^ 32)).1
    .retire (s.setHart n ((s.hart n).setG (gNum x.d) (BitVec.ofNat 64 tail))) 0

/-- LAUNCH (R327): one that waits has read its entry. -/
def execLaunch (x : Ops) (s : State) :=
  runCore .launch x s true none (fun n h =>
    let q := (h.gr (gNum x.a)).toNat
    let gb := (h.gr (gNum x.b)).toNat
    match h.work with
    | .launch entry => s.launch n q x entry
    | _ =>
      if !s.launchable n q then .stop s (plainStop .priv (BitVec.ofNat 64 q))
      else if gb % 64 ≠ 0 then .stop s (failStop (.align, gb))
      else match s.load n gb 64 .read x.hint.val with
      | (s, .error e) => .stop s (failStop e)
      | (s, .ok entry) => s.launch n q x entry)

/-! Liveness and s-registers. -/

/-- The new LIVEMASK of R334: registers whose bit falls are dropped, those whose bit rises hold zeros. -/
def Hart.setLive (h : Hart) (tiles : Nat) (new : Word) : Hart :=
  let new := liveOf tiles new
  let h := (List.range 52).foldl (fun h b => if h.isLive b != new.getLsbD b then h.kill b else h) h
  { h with livemask := new }

/-- LIVE, and MTS to LIVEMASK (R334, R336). A system core, which has no d registers, keeps bits [47:32] as written (log 63). -/
def liveTo (s : State) (n : Nat) (h : Hart) (new : Word) : Done :=
  if 2 ^ 52 ≤ new.toNat then .stop s ⟨.illField, 0, 0, 0, 3, 0⟩
  else .retire (s.setHart n (h.setLive (s.tilesOf n) new)) 0
def execLiveSet (x : Ops) (s : State) := runCore .liveSet x s true none (fun n h => liveTo s n h (h.gr (gNum x.a)))
def execLiveDrop (x : Ops) (s : State) :=
  runCore .liveDrop x s true none (fun n h => liveTo s n h (h.livemask &&& ~~~(h.gr (gNum x.a))))

/-- The access of an s-register (Tables 3-2, 18-1 and 19-1): RW, RO or RS; none for a number not assigned. -/
inductive SAccess where
  | rw | ro | rs
  deriving DecidableEq, Repr

/-- The access that the tables give a number. -/
def sAccess (num : Nat) : Option SAccess :=
  if [0x000, 0x003, 0x004, 0x005, 0x210, 0x211, 0x213, 0x214, 0x215, 0x216].contains num then some .rw
  else if [0x001, 0x006, 0x010, 0x011, 0x012, 0x013, 0x014, 0x015, 0x016, 0x017, 0x200, 0x201, 0x202, 0x212].contains num then some .ro
  else if [0x002, 0x020, 0x021, 0x022, 0x023].contains num then some .rs
  else none

/-- The checks of R50, step 7 of Table 4-7: a task naming a system-mode number raises PRIV. -/
def sregCheck (sys write : Bool) (num : Nat) : Option Cause :=
  if !sys && 0x200 ≤ num then some .priv
  else match sAccess num with
    | none => some .illField
    | some .ro => if write then some .illField else none
    | some .rs => if write && !sys then some .priv else none
    | some .rw => none

/-- Reading an s-register other than CYCLES (R335, R360, R394). A system core has no task, graph or queue and reads
these as 0 (R49). -/
def State.sreg (s : State) (n num : Nat) : Word :=
  let h := s.hart n
  match num with
  | 0x000 => h.vl
  | 0x001 => BitVec.ofNat 64 (vlmaxOf h.vl)
  | 0x002 => h.estart
  | 0x003 => h.fflags
  | 0x004 => h.fmode
  | 0x005 => h.livemask
  | 0x006 => h.pegmask
  | 0x010 => match s.taskOf n with | some (_, t) => BitVec.ofNat 64 t.id | none => 0
  | 0x011 => match s.graphOf n with | some (g, _) => BitVec.ofNat 64 g | none => 0
  | 0x012 => match s.graphOf n with | some (_, g) => BitVec.ofNat 64 g.queue | none => 0
  | 0x013 => BitVec.ofNat 64 (postId n)
  | 0x014 => BitVec.ofNat 64 (if isSys n then n - 256 else n % 32)
  | 0x015 => BitVec.ofNat 64 (s.asidOf n)
  | 0x016 => s.caps
  | 0x020 => h.cause
  | 0x021 => h.faddr
  | 0x022 => h.finfo
  | 0x023 => h.epc
  | 0x200 => BitVec.ofNat 64 (sramAddr 0 0x2F000000)
  | 0x201 => BitVec.ofNat 64 (sramAddr 0 0x2FF00000)
  | 0x202 => 0x2FA00000
  | 0x210 => h.tvec
  | 0x211 => h.tstat
  | 0x212 => h.tpend
  | 0x213 => h.tmask
  | 0x214 => h.tscr0
  | 0x215 => h.tscr1
  | 0x216 => h.waddr
  | _ => 0

/-- Beginning MFS or MTS: the checks of R50, which depend on the word and the kind of core alone, come first. -/
def runSreg (d : Desc) (x : Ops) (s : State) (write : Bool) (o : Operand) (field : Nat) (body : Nat → Hart → Done) :
    Host.Outcome State Fault Refusal :=
  match s.turn with
  | .seq _ _ => .next s
  | .hart n =>
    match sregCheck (isSys n) write (sNum o) with
    | some c => .next (s.stopHart n (if (s.hart n).estart = 0 then ⟨c, 0, 0, 0, field, 0⟩ else ⟨.resumeState, 0, 0, 0, 0, 0⟩))
    | none => runCore d x s true none body

/-- MFS (R335). -/
def execMfs (x : Ops) (s : State) :=
  runSreg .mfs x s false x.a 3 (fun n h =>
    if sNum x.a = 0x017 then
      let (s, v) := s.readCycles (postId n)
      .retire (s.setHart n (h.setG (gNum x.d) v)) 0
    else .retire (s.setHart n (h.setG (gNum x.d) (s.sreg n (sNum x.a)))) 0)

/-- The asynchronous causes that TPEND and TMASK hold (Table 19-1). -/
def asyncBits : Word := 0xF010C00000000000

/-- MTS (R336, R394) of a register other than LIVEMASK and ESTART: the new registers, or the cause that leaves them
unchanged. Reserved bits of CAUSE and FINFO read zero (R3). -/
def Hart.mts (h : Hart) (num : Nat) (v : Word) : Except Cause Hart :=
  let x := v.toNat
  match num with
  | 0x000 =>
    if x % 2 ^ 22 ≠ x || bitsN x 15 14 ≠ 0 then .error .illField
    else if vlmaxOf v < bitsN x 13 0 then .error .vlRange else .ok { h with vl := v }
  | 0x003 => if 2 ^ 8 ≤ x then .error .illField else .ok { h with fflags := v }
  | 0x004 => if 2 ^ 13 ≤ x || 6 ≤ x % 8 then .error .illField else .ok { h with fmode := v }
  | 0x020 => .ok { h with cause := v &&& 0x7F }
  | 0x021 => .ok { h with faddr := faddrOf v }
  | 0x022 => .ok { h with finfo := v &&& 0xFFFF }
  | 0x023 => .ok { h with epc := v }
  | 0x210 => if x % 4 ≠ 0 || 2 ^ 52 ≤ x then .error .illField else .ok { h with tvec := v }
  | 0x211 => if bitsN x 31 2 ≠ 0 then .error .illField else .ok { h with tstat := v }
  | 0x213 => .ok { h with tmask := v &&& asyncBits }
  | 0x214 => .ok { h with tscr0 := v }
  | 0x215 => .ok { h with tscr1 := v }
  | 0x216 => if x.testBit 2 || 2 ^ 52 ≤ x then .error .illField else .ok { h with waddr := v }
  | _ => .ok h

/-- MTS (R336): a written ESTART is not cleared at retirement. -/
def execMts (x : Ops) (s : State) :=
  runSreg .mts x s true x.d 2 (fun n h =>
    let v := h.gr (gNum x.a)
    if sNum x.d = 0x005 then liveTo s n h v
    else if sNum x.d = 0x002 then
      if 2 ^ 32 ≤ v.toNat then .stop s ⟨.illField, 0, 0, 0, 0, 0⟩
      else
        let g := { h.release x with estart := v, pc := h.pc + 12, mode := .running, held := none, cut := none }
        .final (State.boundary (s.setHart n g) n x.yield h.stepArmed)
    else match h.mts (sNum x.d) v with
      | .error c => .stop s ⟨c, 0, 0, 0, 0, 0⟩
      | .ok g => .retire (s.setHart n g) 0)

/-! Service calls and breakpoints. -/

/-- TRAPS (R337): it retires; the stop names it, and the image's pc is the next instruction. -/
def execTraps (x : Ops) (s : State) :=
  runCore .traps x s true none (fun n h =>
    let s := s.stopHart n ⟨.service, BitVec.ofNat 64 (x.a.imm % 2 ^ 16), 0, 0, 0, 0⟩
    .final (s.setHart n { s.hart n with pc := h.pc + 12, estart := 0 }))

/-- BRK (R338). -/
def execBrk (x : Ops) (s : State) :=
  runCore .brk x s true none (fun _ _ => .stop s ⟨.break_, BitVec.ofNat 64 (x.a.imm % 2 ^ 16), 0, 0, 0, 0⟩)

end Sys2Proof.Machine
end

