-- ==== Sys2Proof/Machine/Regions.lean ====
section
/-! DEFINITION. Plane regions: the rows of a subarray (R237, R238), region handles and the subarray list (R380, R381), and
the list and modes that a sequencer keeps for a region (R240). -/
namespace Sys2Proof.Machine
open Sys2Proof

/-- The key of a row: post, subarray of the post, row (0 to 511 data, 512 to 519 work, 520 and 521 dual-contact). -/
def rowKey (post sub row : Nat) : Nat := (post * 196608 + sub) * 524 + row
/-- A row; c0 (522) reads 0 and c1 (523) reads 1 in every column (Table 12-1). -/
def State.row (s : State) (post sub row : Nat) : BitVec 8192 :=
  if row = 522 then 0 else if row = 523 then BitVec.allOnes 8192 else Table.get 0 s.rows (rowKey post sub row)
/-- Writing a row. -/
def State.setRow (s : State) (post sub row : Nat) (x : BitVec 8192) : State :=
  { s with rows := Table.set 0 s.rows (rowKey post sub row) x }

/-- The region-table entry of a handle (R380). -/
def State.regionEntry (s : State) (asid handle : Nat) : Nat := s.memNat (asidEntry asid + 8) 8 + 64 * (handle % 65536)

/-- The subarray that a list entry names, where its fields are in range (R380, R381). -/
def listSub (e : Nat) : Option Nat :=
  if 2 ^ 18 ≤ e then none
  else if 191 < bitsN e 17 10 then none
  else some (12288 * (e % 16) + 192 * bitsN e 9 4 + bitsN e 17 10)

/-- Whether a list of subarrays of a post meets R381: none twice, at most 384 on a die, each marked. -/
def State.listOk (s : State) (post : Nat) (subs : List Nat) : Bool :=
  subs.eraseDups.length = subs.length &&
  (List.range 16).all (fun d => (subs.filter (fun x => x / 12288 = d)).length ≤ 384) &&
  subs.all (s.planeBit post)

/-- Reading `n` bytes of a table from `place`, up to a word that cannot be read, with the cause (R272, R408, R412, R415). -/
def State.readTable (s : State) (place pa n : Nat) : State × Option Cause :=
  match s.unreachable place pa with
  | some c => (s, some c)
  | none => (List.range ((pa % 8 + n + 7) / 8)).foldl (fun (r : State × Option Cause) i => match r.2 with
    | some _ => r
    | none => r.1.readUnit (pa / 8 * 8 + 8 * i) 0 ⟨5, 0, 0, 0, 0⟩) (s, none)

/-- Reading the bits of some subarrays in a post's plane map (R381, R408). -/
def State.readPlaneMap (s : State) (place post : Nat) (subs : List Nat) : State × Option Cause :=
  ((subs.map (fun b => b / 64)).eraseDups).foldl (fun (r : State × Option Cause) w => match r.2 with
    | some _ => r
    | none => r.1.readTable place (sramAddr post (0x2FA00000 + 8 * w)) 8) (s, none)

/-- A handle as the tables hold it, read from `place` (R381): its post and its subarrays, where it is valid; else REGION_HANDLE, or why a
table cannot be read (R272, R408). -/
def State.readRegion (s : State) (place asid handle : Nat) : State × Except Cause (Nat × List Nat) :=
  let a := asidEntry asid
  match s.readTable place (a + 8) 16 with
  | (s, some c) => (s, .error c)
  | (s, none) =>
    let e := s.regionEntry asid handle
    if s.memNat (a + 16) 8 % 2 ^ 16 ≤ handle % 65536 then (s, .error .regionHandle)
    else match s.readTable place e 24 with
    | (s, some c) => (s, .error c)
    | (s, none) =>
      let w := s.memNat e 8
      let post := bitsN w 34 32
      let list := s.memNat (e + 8) 8
      let n := s.memNat (e + 16) 8 % 2 ^ 13
      if w.testBit 0 && bitsN w 31 16 = handle / 65536 && s.posts.testBit post && list % 64 = 0 && window list = 8 &&
          homePost list = post && 1 ≤ n && n ≤ 6144 then
        match s.readTable place list (4 * n) with
        | (s, some c) => (s, .error c)
        | (s, none) => match (List.range n).mapM (fun i => listSub (s.memNat (list + 4 * i) 4)) with
          | some subs => match s.readPlaneMap place post subs with
            | (s, some c) => (s, .error c)
            | (s, none) => (s, if s.listOk post subs then .ok (post, subs) else .error .regionHandle)
          | none => (s, .error .regionHandle)
      else (s, .error .regionHandle)

/-- What a sequencer keeps for a handle. -/
def State.region (s : State) (asid handle : Nat) : Option Region :=
  s.regions.find? (fun r => r.asid = asid && r.handle = handle)
/-- Replacing it. -/
def State.setRegion (s : State) (r : Region) : State :=
  let is := fun (q : Region) => q.asid = r.asid && q.handle = r.handle
  if s.regions.any is then { s with regions := s.regions.map (fun q => if is q then r else q) }
  else { s with regions := s.regions ++ [r] }

/-- A valid handle (R381): as checked since the last REVOKE that covers it, or as the tables hold it now. -/
def State.validRegion (s : State) (place asid handle : Nat) : State × Except Cause (Nat × List Nat) :=
  match s.region asid handle with
  | some r =>
    if r.checked then (s, match s.unreachable place (sramAddr r.post 0) with | some c => .error c | none => .ok (r.post, r.subs))
    else s.readRegion place asid handle
  | none => s.readRegion place asid handle

/-- Zeroing the data and work rows of a fresh region, and clearing FRESH (R381). -/
def State.freshen (s : State) (asid handle post : Nat) (subs : List Nat) : State :=
  let e := s.regionEntry asid handle
  if (s.memByte e).getLsbD 1 then
    let mine := fun (k : Nat) => subs.any (fun b => rowKey post b 0 ≤ k && k < rowKey post b 520)
    { s.putByte e (s.memByte e &&& 0xFD) with rows := s.rows.filter (fun p => !mine p.1) }
  else s

/-- Admitting an item of a valid handle (R240, R381): the first one makes the region's record. -/
def State.admitRegion (s : State) (asid handle post : Nat) (subs : List Nat) (item : Option Item) (tail : Option Bool) : State :=
  let (s, r) := match s.region asid handle with
    | some r => if r.checked then (s, r) else (s.freshen asid handle post subs, { r with post := post, subs := subs, checked := true })
    | none => (s.freshen asid handle post subs, ⟨asid, handle, post, subs, false, false, [], true⟩)
  s.setRegion { r with
    tail := tail.getD r.tail, items := match item with | some i => r.items ++ [i] | none => r.items,
    now := match item, tail with | none, some m => if r.items.isEmpty then m else r.now | _, _ => r.now }

/-- Reading a handle's list again after a REVOKE that covers it, before an item of it starts or goes on (R376, R381). -/
def State.rereadRegion (s : State) (asid handle : Nat) : State :=
  match s.region asid handle with
  | none => s
  | some r =>
    if r.checked then s
    else match s.readRegion r.post asid handle with
    | (s, .error _) => s
    | (s, .ok (post, subs)) => if post = r.post then s.setRegion { r with subs := subs } else s

/-- Mode at tail: true compute; a region without a record is in copy mode (R240). -/
def State.tailMode (s : State) (asid handle : Nat) : Bool := match s.region asid handle with | some r => r.tail | none => false

/-- Taking an item off a region's list. -/
def State.dropItem (s : State) (p : Region → Bool) (i : Item) : State :=
  { s with regions := s.regions.map (fun r => if p r then { r with items := r.items.filter (fun j => j ≠ i) } else r) }

end Sys2Proof.Machine
end

