-- ==== Sys2Proof/Machine/Engines.lean ====
section
/-! DEFINITION. Copies, landing barriers, bloom and bench buffers (R286 to R309): the issue of a copy, its start, the
landing of its bytes, its completion. -/
namespace Sys2Proof.Machine
open Sys2Proof

/-! The parameter block (Tables 14-5 and 14-6). -/

/-- A field of a block read as bytes. -/
def fieldAt (bs : List Byte) (off n : Nat) : Nat := natOfBytes ((bs.drop off).take n)

/-- The copy's block as a structure; `fpva` and the barrier's address `bar` stand beside it. -/
def copyParam (bs : List Byte) (bar : Nat) : CopyParam where
  src := fieldAt bs 0 8
  dst := fieldAt bs 8 8
  len := fieldAt bs 0x10 4
  outlen := fieldAt bs 0x14 4
  handle := fieldAt bs 0x18 4
  row := fieldAt bs 0x1C 2 % 512
  w := fieldAt bs 0x1C 2 / 512
  lane := fieldAt bs 0x20 4
  esize := fieldAt bs 0x24 1 % 4
  sign := (fieldAt bs 0x24 1).testBit 2
  psplit := (fieldAt bs 0x24 1).testBit 3
  chunk := bitsN (fieldAt bs 0x24 2) 8 4
  fpva := fieldAt bs 0x28 8
  bar := bar

/-- Whether two ranges of virtual addresses are disjoint; an empty one is disjoint from all. -/
def apartVa (a la b lb : Nat) : Bool := la = 0 || lb = 0 || !rangesMeet a la b lb
/-- The bytes of the fingerprint array, which CPYF alone has (R294, R303). -/
def CopyParam.fpLen (p : CopyParam) (kind : Nat) : Nat :=
  if kind ≠ 4 || p.len = 0 then 0 else if p.chunk = 0 then 8 else 8 * (p.len / 2 ^ p.chunk)
/-- The length of a copy's source range (kinds: 0 byte, 1 tin, 2 tout, 3 bloom, 4 CPYF, 5 CPYC). -/
def CopyParam.srcLen (p : CopyParam) (kind : Nat) : Nat := if kind = 2 then 0 else p.len
/-- The length of its destination range; a copy of LEN = 0 touches no memory (R296). -/
def CopyParam.dstLen (p : CopyParam) (kind : Nat) : Nat :=
  if kind = 1 || (kind = 4 && p.dst = 0) then 0 else if kind = 3 then (if p.len = 0 then 0 else p.outlen) else p.len

/-- Tables 14-5 and 14-6, other than the lane bound: reserved and unused fields are 0, values are in range. -/
def copyBlockOk (bs : List Byte) (p : CopyParam) (kind : Nat) (named : Bool) : Bool :=
  let tr := kind = 1 || kind = 2
  let e := 2 ^ p.esize
  fieldAt bs 0x1E 2 = 0 && fieldAt bs 0x24 4 / 2 ^ 9 = 0 && fieldAt bs 0x30 8 = 0 && fieldAt bs 0x38 8 = 0 &&
  p.len ≤ 2 ^ 26 && (kind ≠ 2 || p.src = 0) && (kind ≠ 1 || p.dst = 0) &&
  (if kind = 3 then 1 ≤ p.outlen && p.outlen ≤ 2 ^ 21 && (!p.psplit || p.outlen % 2 = 0) else p.outlen = 0 && !p.psplit) &&
  (if tr then p.len % e = 0 && 1 ≤ p.w && p.w ≤ 64 && p.w ≤ 8 * e && p.row + p.w ≤ 511
   else p.handle = 0 && p.row = 0 && p.w = 0 && p.lane = 0 && p.esize = 0) &&
  (kind = 2 || !p.sign) &&
  (if kind = 4 then (p.chunk = 0 || (12 ≤ p.chunk && p.chunk ≤ 22 && p.len % 2 ^ p.chunk = 0)) && p.fpva % 8 = 0
   else p.chunk = 0 && p.fpva = 0) &&
  (kind = 5 || tr || apartVa p.src (p.srcLen kind) p.dst (p.dstLen kind)) &&
  apartVa p.fpva (p.fpLen kind) p.src (p.srcLen kind) && apartVa p.fpva (p.fpLen kind) p.dst (p.dstLen kind) &&
  !(named && (kind = 1 || (kind = 4 && p.dst = 0)))

/-! Translation of a copy (R296, R297). -/

/-- One byte of a copy's range for its issuer: a task's leaves, or a system core's physical addresses (R296, R367). -/
def State.copyXlate (s : State) (hart asid : Nat) (kind : Acc) (va : Nat) : Except Cause Xlat :=
  if isSys hart then
    if 2 ^ 52 ≤ va || 13 ≤ window va || !s.validAddr va || s.inPlane va then .error .addrRange else .ok ⟨va, 0⟩
  else s.xlate asid (postId hart) kind va

/-- The virtual address of the first byte of some pieces that fails a test. -/
def firstByte (va : Nat) (bad : Nat → Bool) : List Piece → Option Nat
  | [] => none
  | p :: ps =>
    match (List.range p.len).find? (fun i => bad (p.addr + i)) with
    | some i => some (va + i)
    | none => firstByte (va + p.len) bad ps

/-- The translated ranges of a copy: source, destination, fingerprints, barrier. -/
structure CopyRanges where
  src : List Piece
  dst : List Piece
  fp : List Piece
  bar : Option Nat
  deriving DecidableEq, Repr

/-- A translation as a failure with its address. -/
def State.copyRange (s : State) (hart asid : Nat) (kind : Acc) (va len : Nat) : Except (Cause × Nat) (List Piece) :=
  mapRange (s.copyXlate hart asid kind) va len

/-- The check of one range's bytes in images and on benches (R58, R308): the cause and the first failing address. -/
def State.copyBench (s : State) (hart : Nat) (task : Option Nat) (va : Nat) (ps : List Piece) : Option (Cause × Nat) :=
  if isSys hart then none
  else
    let cause := fun pa => if inImageArea pa then some Cause.imageAccess else if window pa = 9 then s.benchCheck hart task pa else none
    match firstByte va (fun pa => (cause pa).isSome) ps with
    | none => none
    | some a =>
      let pa := (ps.foldl (fun (r : Nat × Option Nat) p => match r.2 with
        | some x => (r.1, some x)
        | none => if a < r.1 + p.len then (r.1, some (p.addr + (a - r.1))) else (r.1 + p.len, none)) (va, none)).2.getD 0
      (cause pa).map (fun c => (c, a))

/-- The translations of a copy in the order of R296, with the windows of Table 14-7, the barrier's place (R295) and the
bench: the ranges, or the cause and FADDR; `ga` is the block's address. -/
def State.copyRanges (s : State) (hart asid : Nat) (task : Option Nat) (kind : Nat) (p : CopyParam) (ga : Nat) (named : Bool) :
    Except (Cause × Nat) CopyRanges :=
  match s.copyRange hart asid .read p.src (p.srcLen kind) with
  | .error e => .error e
  | .ok src => match s.copyRange hart asid .write p.dst (p.dstLen kind) with
  | .error e => .error e
  | .ok dst => match s.copyRange hart asid .write p.fpva (p.fpLen kind) with
  | .error e => .error e
  | .ok fp => match (if named then s.copyXlate hart asid .write p.bar else .ok ⟨0, 0⟩) with
  | .error c => .error (c, p.bar)
  | .ok bar =>
    let tr := kind = 1 || kind = 2
    let outside (top : Nat) := fun pa => top < window pa
    let wins := (firstByte p.src (outside (if tr then 9 else 12)) src).or
      (firstByte p.dst (outside (if tr || kind = 3 then 9 else 12)) dst)
    let peer := dst.any (fun q => window q.addr = 12 && bitsN q.addr 47 36 = bitsN bar.pa 47 36)
    match wins with
    | some a => .error (.addrRange, a)
    | none =>
      if named && !(window bar.pa = 8 || (window bar.pa = 12 && peer)) then .error (.addrRange, p.bar)
      else if named && (dst ++ fp).any (fun q => kind ≠ 5 && rangesMeet q.addr q.len bar.pa 8) then .error (.bankParam, ga)
      else match ((s.copyBench hart task p.src src).or (s.copyBench hart task p.dst dst)).or
          ((s.copyBench hart task p.fpva fp).or (if named && inImageArea bar.pa && !isSys hart then some (.imageAccess, p.bar) else none)) with
      | some e => .error e
      | none => .ok ⟨src, dst, fp, if named then some bar.pa else none⟩

/-- The walks that the translations of a copy make (R366, R404). -/
def State.copyWalks (s : State) (asid place : Nat) (who : LogAgent) (kind : Nat) (p : CopyParam) : State :=
  ([(p.src, p.srcLen kind), (p.dst, p.dstLen kind), (p.fpva, p.fpLen kind)].filter (fun r => r.2 ≠ 0)).foldl
    (fun s r => s.remember asid place r.1 r.2 who) s

/-! Issue (R286, R287, R296, R298). -/

/-- Whether a run of pieces touches host memory, CXL memory or a peer. -/
def leavesPackage (ps : List Piece) : Bool := ps.any (fun p => 10 ≤ window p.addr)
/-- The engine that runs a copy (Table 14-1): a post's copy unit, or 8 and 9 for the I/O dies. -/
def copyEngine (hart kind region : Nat) (r : CopyRanges) : Nat :=
  if isSys hart then postId hart
  else if kind = 3 || leavesPackage r.src || leavesPackage r.dst then (if sideOf (postId hart) then 9 else 8)
  else if kind = 1 || kind = 2 then region
  else postId hart
/-- The entries of an engine's queue (Table 14-1). -/
def engineSize (e : Nat) : Nat := if e < 8 then 256 else 512

/-- The effective scope of a copy (R298). -/
def copyScope (hart kind region scope : Nat) (r : CopyRanges) : Nat :=
  let ends := r.src ++ r.dst
  if isSys hart || leavesPackage ends || (match r.bar with | some b => 10 ≤ window b | none => false) then 3
  else if ends.any (fun p => homePost p.addr ≠ postId hart) || ((kind = 1 || kind = 2) && region ≠ postId hart) then max scope 2
  else max scope 1

/-- The copies of an engine's queue. -/
def State.copiesAt (s : State) (e : Nat) : List Copy := Table.get [] s.copies e
/-- Replacing the queue of an engine. -/
def State.setCopies (s : State) (e : Nat) (q : List Copy) : State := { s with copies := Table.set [] s.copies e q }
/-- Replacing one copy of an engine's queue. -/
def State.setCopy (s : State) (e : Nat) (c : Copy) : State :=
  s.setCopies e ((s.copiesAt e).map (fun d => if d.seq = c.seq then c else d))

/-- Counting a command of a class up or down for its task, or a copy for its system core (R290, R332). -/
def State.countCommand (s : State) (task : Option Nat) (hart cls : Nat) (up : Bool) : State :=
  match task with
  | some u => s.addCount u cls up
  | none => let h := s.hart hart; s.setHart hart { h with copies := if up then h.copies + 1 else h.copies - 1 }

/-- Delivering a status to a task's peg, or to a system core's (R62). -/
def State.deliverTo (s : State) (task : Option Nat) (hart peg : Nat) (status : Word) : State :=
  match task with
  | some u => s.deliver u peg status
  | none =>
    if peg = 0 || !isSys hart then s
    else
      let h := s.hart hart
      s.setHart hart { h.setG peg status with pegmask := h.pegmask &&& ~~~(BitVec.ofNat 64 (2 ^ peg)) }

/-- A stop of an engine command (R296): kind 4, field 3. -/
def engineStop (e : Cause × Nat) : Stop := ⟨e.1, BitVec.ofNat 64 e.2, 4, 0, 3, 0⟩

/-- Accepting a copy: the release, the peg, the count and the queue entry (R296). -/
def State.issueCopy (s : State) (n op e scope ga : Nat) (subs : List Nat) (c : Copy) : State :=
  let s := State.release s n scope
  let (s, seq) := s.takeSeq e
  let s := s.setPeg n c.peg ⟨0, op, e, seq, BitVec.ofNat 64 ga⟩
  let s := s.countCommand c.task n 0 true
  let s := s.setCopies e (s.copiesAt e ++ [{ c with seq := seq }])
  if c.kind = 1 || c.kind = 2 then s.admitRegion c.asid c.par.handle c.region subs (some (.copy e seq)) none else s

/-- A copy that an instruction has prepared (R296): nothing of it is done. -/
def State.newCopy (s : State) (n kind region peg : Nat) (p : CopyParam) (r : CopyRanges) : Copy :=
  let total := if kind = 1 then p.len / 2 ^ p.esize else if kind = 3 then p.dstLen 3 else p.len
  { seq := 0, kind := kind, par := p, src := r.src, dst := r.dst, fp := r.fp, bar := r.bar, region := region, issuer := n,
    task := (s.hart n).task, graph := match s.graphOf n with | some (g, _) => g | none => 0, asid := s.asidOf n, peg := peg,
    started := false, stale := false, total := total, left := if total = 0 then [] else [(0, total)],
    early := [], landed := 0, owed := (0, 0), cause := none, low := none, got := [], buf := [], tainted := false, spoiled := [], fail := none }

/-- The last steps of R296 for a prepared copy: the wait for a queue entry, the region's mode, the issue. A post that has become out of
reach refuses it (R415, log 66). -/
def State.tryCopy (s : State) (n op e scope ga : Nat) (subs : List Nat) (c : Copy) : Done :=
  if engineSize e ≤ (s.copiesAt e).length then
    if isSys n then .stop s (engineStop (.engineFull, 0)) else .wait s ⟨12, 0, 3, BitVec.ofNat 64 ga⟩ (.copy e scope ga subs c)
  else if let some f := s.unreachable (postId n) (if e < 8 then e * 2 ^ 48 else 10 * 2 ^ 48) then .stop s (engineStop (f, ga))
  else if (c.kind = 1 || c.kind = 2) && s.tailMode c.asid c.par.handle then .stop s (engineStop (.regionMode, ga))
  else .retire (s.issueCopy n op e scope ga subs c) 0

/-- A copy instruction (R296). One that waits for a queue entry has done the steps before (R287); where what it prepared is stale, it
begins again once the queue has room (log 72). -/
def runCopy (d : Desc) (x : Ops) (s : State) (kind scope : Nat) : Host.Outcome State Fault Refusal :=
  runCore d x s true none (fun n h =>
    match h.work with
    | .copy e sc ga subs c => s.tryCopy n (d.op % 64) e sc ga subs c
    | work =>
      let ga := (h.gr (gNum x.a)).toNat
      let named := gNum x.b ≠ 0
      let gb := (h.gr (gNum x.b)).toNat
      let tr := kind = 1 || kind = 2
      if work.waits (fun w => match w with | .copy e _ _ _ _ => engineSize e ≤ (s.copiesAt e).length | _ => false) then
        .wait s ⟨12, 0, 3, BitVec.ofNat 64 ga⟩ work
      else if ga % 64 ≠ 0 then .stop s (engineStop (.align, ga))
      else match s.loadBlock n ga 64 x.hint.val with
      | (s, .error e) => .stop s (engineStop e)
      | (s, .ok bs) =>
        let p := copyParam bs gb
        if !copyBlockOk bs p kind named then .stop s (engineStop (.bankParam, ga))
        else if named && gb % 8 ≠ 0 then .stop s (engineStop (.align, gb))
        else
          let found := s.copyRanges n (s.asidOf n) h.task kind p ga named
          let s := if isSys n then s else s.copyWalks (s.asidOf n) (postId n) (s.logHart n) kind p
          match found with
          | .error e => .stop s (engineStop e)
          | .ok r =>
            match (if tr then (if isSys n then (s, .error .regionHandle) else s.validRegion (postId n) (s.asidOf n) p.handle) else (s, .ok (0, []))) with
            | (s, .error c) => .stop s (engineStop (c, ga))
            | (s, .ok (post, subs)) =>
              if tr && 8192 * subs.length < p.lane + p.len / 2 ^ p.esize then .stop s (engineStop (.bankParam, ga))
              else s.tryCopy n (d.op % 64) (copyEngine n kind post r) (copyScope n kind post scope r) ga subs
                (s.newCopy n kind post (gNum x.d) p r))

def execCpyByte (x : Ops) (s : State) := runCopy .cpyByte x s 0 (x.var.val % 4)
def execCpyTin (x : Ops) (s : State) := runCopy .cpyTin x s 1 (x.var.val % 4)
def execCpyTout (x : Ops) (s : State) := runCopy .cpyTout x s 2 (x.var.val % 4)
def execCpyBloom (x : Ops) (s : State) := runCopy .cpyBloom x s 3 (x.var.val % 4)
def execCpyf (x : Ops) (s : State) := runCopy .cpyf x s 4 x.var.val
def execCpyc (x : Ops) (s : State) := runCopy .cpyc x s 5 x.var.val

/-! Bytes of a running copy. -/

/-- The physical address and protection class of a byte of a range, by its offset. -/
def byteAt : List Piece → Nat → Nat × Nat
  | [], _ => (0, 0)
  | p :: ps, i => if i < p.len then (p.addr + i, p.pclass) else byteAt ps (i - p.len)

/-- The agent that the error log names for a copy (Table 20-2). -/
def State.copyAgent (s : State) (c : Copy) : LogAgent :=
  ⟨2, 0, c.asid, c.graph, match c.task.bind s.task with | some t => t.id | none => 0⟩

/-- Keeping the cause of lowest offset, then of lowest rank (R305). -/
def Copy.note (c : Copy) (off rank : Nat) (x : Cause) : Copy :=
  match c.cause with
  | some (o, r, _) => if off < o || (off = o && rank < r) then { c with cause := some (off, rank, x) } else c
  | none => { c with cause := some (off, rank, x) }

/-- Whether a failure that the host, a CXL device or a peer reports can befall an access (R272, R305). -/
def failApplies (c : Cause) (pa : Nat) : Bool :=
  match c with
  | .hostAbort => window pa = 10 || window pa = 11
  | .hostPoison => window pa = 10 || window pa = 11
  | .peerAbort => window pa = 12
  | _ => true

/-- What a copy reads at one offset: the byte, `none` where it is not delivered, and whether what depends on it is poisoned. -/
structure CopyByte where
  val : Option Byte
  poison : Bool
  deriving DecidableEq, Repr

/-- Why a transfer of a copy at an address fails: the outside answers so, the place cannot be reached, or the plane map has taken
the subarray since the issue (R264, R272, R305). -/
def State.copyFail (s : State) (place : Nat) (c : Copy) (pa : Nat) : Option Cause :=
  match (match c.fail with | some f => if failApplies f pa then some f else none | none => none) with
  | some f => some f
  | none => match s.unreachable place pa with
    | some f => some f
    | none => if s.inPlane pa then some .addrRange else none

/-- A byte as a copy reads it at its home point; a system core's copy reads images as its core does (R58, R299). -/
def State.copySees (s : State) (place : Nat) (c : Copy) (pa pclass : Nat) : Byte :=
  if isSys c.issuer then s.sysByte c.issuer pa else s.homeByte place pa pclass

/-- Reading byte `off` of a range at its home point from `place` (R299, R305): the state of its sector is found at the
sector's first byte and stands for the bytes after it. What the host completes with poisoned data is not delivered, and what
depends on it is poisoned (R305, R407, log 37). A byte read ahead, `key` before the range, is not read again (R299). -/
def State.copyByte (s : State) (place key : Nat) (ps : List Piece) (who : LogAgent) (first : Bool) (off : Nat) (c : Copy)
    (last : Option (Nat × Cause)) : State × Copy × Option (Nat × Cause) × CopyByte :=
  match c.early.find? (fun e => e.1 = key + off) with
  | some (_, v, poison) => (s, c, last, ⟨v, poison⟩)
  | none =>
  let (pa, pc) := byteAt ps off
  match s.copyFail place c pa with
  | some f => (s, c.note off 0 f, last, ⟨none, f = .hostPoison⟩)
  | none =>
    let known := match last with | some (b, _) => b = unitBase pa | none => false
    let (s, last) := if known || !(first || pa % unitSize pa = 0) then (s, last)
      else match s.readUnit pa pc who with
        | (s, some f) => (s, some (unitBase pa, f))
        | (s, none) => (s, none)
    match last with
    | some (b, f) =>
      if b = unitBase pa then
        let c := { c.note (off - min off (pa - b)) 0 f with tainted := true }
        (s, c, last, ⟨some (if (s.sector pa).isSome then s.homeByte place pa pc else s.rawByte pa), true⟩)
      else (s, c, none, ⟨some (s.copySees place c pa pc), false⟩)
    | none => (s, c, none, ⟨some (s.copySees place c pa pc), false⟩)

/-- Reading `n` bytes of a range from offset `lo`. -/
def State.copyRead (s : State) (place key : Nat) (ps : List Piece) (who : LogAgent) (lo n : Nat) (c : Copy) : State × Copy × List CopyByte :=
  let r := (List.range n).foldl (fun (r : State × Copy × Option (Nat × Cause) × List CopyByte) i =>
    let (s, c, last, bs) := r
    let (s, c, last, b) := s.copyByte place key ps who (i = 0) (lo + i) c last
    (s, c, last, b :: bs)) (s, c, none, [])
  (r.1, r.2.1, r.2.2.2.reverse)

/-- Noting that bytes leave the package, marked as poisoned or not (R407). -/
def State.markSent (s : State) (pa n : Nat) (poison : Bool) : State :=
  { s with marked := Table.splice s.marked pa (pa + n) (if poison then (List.range n).map (fun i => (pa + i, true)) else []) }
/-- Writing bytes of a copy at one place, all in one unit (R299, R406, R407): what leaves the package is sent, marked where it is
poisoned; a write to host memory is performed at the issuer's side first (R318); bytes that
the issuer may not change stay (R340, R362). Whether HINT governs these writes is open; they allocate as usual, a choice (R77,
log 64). -/
def State.copyWrite (s : State) (issuer pa pclass : Nat) (data : List Byte) (poison : Bool) (who : LogAgent) : State :=
  let w := window pa
  let east := sideOf (postId issuer)
  if w = 10 then (s.addHost ⟨pa, data, some who, !east, false, east, []⟩).markSent pa data.length poison
  else if w = 11 then
    match s.sector pa with
    | some x => State.markSent (s.setSector pa (some { x with data := BitVec.ofNat 256 (mergeUnit x.data.toNat (pa / 32 * 32) pa data), dirty := true })) pa data.length poison
    | none => (s.putBytes pa data).markSent pa data.length poison
  else if w = 12 then (s.putBytes pa data).markSent pa data.length poison
  else s.agentWrite (some issuer) pa data 0 pclass poison who

/-- The size of the unit in which a copy lands bytes at an address. -/
def landUnit (pa : Nat) : Nat := if window pa ≤ 9 then unitSize pa else 32

/-- Marking the unit of an address as poisoned or as good again, its bytes as they are (R406, R407). -/
def State.setPoison (s : State) (pa : Nat) (b : Bool) : State :=
  if 9 < window pa then s
  else match s.sector pa with
    | some x => s.setSector pa (some { x with poison := b })
    | none => s.setErr pa { s.errAt pa with poison := b }

/-- A destination byte of a copy that is not written: its unit is not written whole; it becomes poisoned where what would have been
written is (R305, R407). -/
def State.copyMiss (s : State) (c : Copy) (pa : Nat) (poison : Bool) : State × Copy :=
  (if poison then s.setPoison pa true else s, { c with spoiled := pa / landUnit pa * landUnit pa :: c.spoiled })

/-- Writing the bytes of a range from offset `lo`; bytes not delivered, or whose place does not answer, are left out. The answer
counts the bytes landed, with the lowest of their offsets. -/
def State.copyStore (s : State) (place : Nat) (c : Copy) (who : LogAgent) (lo : Nat) (bs : List CopyByte) :
    State × Copy × Nat × Option Nat :=
  let step (r : State × Copy × Nat × Option Nat) (p : CopyByte × Nat) : State × Copy × Nat × Option Nat :=
    let (s, c, k, low) := r
    let off := lo + p.2
    let (pa, pc) := byteAt c.dst off
    match p.1.val with
    | none => let (s, c) := s.copyMiss c pa p.1.poison; (s, c, k, low)
    | some v =>
      match s.copyFail place c pa with
      | some f => let (s, c) := s.copyMiss c pa false; (s, c.note off 0 f, k, low)
      | none =>
        -- the bytes of the unit that this piece writes are written with its first byte
        let (pb, _) := byteAt c.dst (off - 1)
        let head := p.2 = 0 || pb + 1 ≠ pa || pa % landUnit pa = 0 || (bs.getD (p.2 - 1) ⟨none, false⟩).val.isNone
        let run := ((bs.drop p.2).take (landUnit pa - pa % landUnit pa)).zipIdx.takeWhile (fun q =>
          q.1.val.isSome && (byteAt c.dst (off + q.2)).1 = pa + q.2)
        let s := if head then
            s.copyWrite c.issuer pa pc (run.map (fun q => q.1.val.getD v)) (run.any (fun q => q.1.poison)) who
          else s
        let c := if p.1.poison then { c with spoiled := pa / landUnit pa * landUnit pa :: c.spoiled } else c
        (s, c, k + 1, some (low.getD off))
  bs.zipIdx.foldl step (s, c, 0, none)

/-- Whether part of a copy's work between two offsets is still to be done. -/
def Copy.todo (c : Copy) (lo hi : Nat) : Bool := c.left.any (fun r => r.1 < hi && lo < r.2)

/-- The unit of byte `off` of a range, where the copy has written all of it, well: `finished` says that nothing between two offsets
of the range is still to be done (R406). -/
def Copy.wrote (c : Copy) (ps : List Piece) (finished : Nat → Nat → Bool) (off : Nat) : Option Nat :=
  let (pa, _) := byteAt ps off
  let size := landUnit pa
  let k := pa % size
  if k ≤ off && (List.range size).all (fun i => (byteAt ps (off - k + i)).1 = pa - k + i) && finished (off - k) (off - k + size) &&
      !c.spoiled.contains (pa - k) then some (pa - k) else none

/-- The units that a copy has now written whole lose their poison (R406): those of the bytes of a range from `lo`, `n` of them. -/
def State.copyCleans (s : State) (c : Copy) (ps : List Piece) (finished : Nat → Nat → Bool) (lo n : Nat) : State :=
  (((List.range n).filterMap (fun i => c.wrote ps finished (lo + i))).eraseDups).foldl (fun s pa => s.setPoison pa false) s

/-- One decrement of a landing barrier by `n` bytes (R300): the copy notes an underflow at the lowest byte counted. A peer
decrements a barrier in its own window (R307). A decrement that cannot reach its barrier, or meets a word that cannot be read, is not
made, and its bytes are not counted (R300, R305, R406, log 69). -/
def State.landed (s : State) (place : Nat) (c : Copy) (n low : Nat) : State × Copy :=
  match c.bar with
  | none => (s, { c with landed := c.landed + n })
  | some b =>
    if n = 0 then (s, c)
    else match s.copyFail place c b with
    | some f => (s, c.note low 0 f)
    | none => match s.readUnit b 0 (s.copyAgent c) with
      | (s, some f) => (s, c.note low 0 f)
      | (s, none) =>
        let c := { c with landed := c.landed + n }
        let v := natOfBytes ((List.range 8).map (fun i => s.homeByte 0 (b + i) 0))
        let s := s.copyWrite c.issuer b 0 (bytesOf 8 (v - n)) false (s.copyAgent c)
        (s, if v < n then c.note low 2 .landingUnder else c)

/-- Making the decrement for what a copy has written to host memory, now performed at both sides and at the host (R300, R318). -/
def State.landOwed (s : State) (place : Nat) (c : Copy) : State × Copy :=
  if c.owed.1 = 0 then (s, c)
  else
    let who := s.copyAgent c
    State.landed (s.forceHost (fun w => w.owner = some who)) place { c with owed := (0, 0) } c.owed.1 c.owed.2
/-- What a copy has just written counts as landed (R300): at once, but for a copy to host memory with a barrier, which counts it later. -/
def State.landing (s : State) (place : Nat) (c : Copy) (n low : Nat) : State × Copy :=
  if c.bar.isSome && c.dst.any (fun p => window p.addr = 10) then
    (s, if n = 0 then c else { c with owed := (c.owed.1 + n, if c.owed.1 = 0 then low else min low c.owed.2) })
  else s.landed place c n low

/-! CRC-64 of ECMA-182 (R303). -/

/-- One byte, from bit 7 down. -/
def crcByte (crc : Nat) (b : Byte) : Nat :=
  (List.range 8).foldl (fun r i =>
    let top := r.testBit 63 != b.getLsbD (7 - i)
    let r := r * 2 % 2 ^ 64
    if top then r ^^^ 0x42F0E1EBA9EA3693 else r) crc

/-- The bytes of a chunk of CPYF (R303). -/
def CopyParam.chunkSize (p : CopyParam) : Nat := if p.chunk = 0 then p.len else 2 ^ p.chunk

/-- Writing the fingerprint of a chunk whose bytes have all been dealt with (R303). A failure is placed at the fingerprint's own
offset in the array (R305, log 70). -/
def State.fingerprint (s : State) (place : Nat) (c : Copy) (who : LogAgent) (j : Nat) : State × Copy :=
  let size := c.par.chunkSize
  if c.todo (j * size) ((j + 1) * size) then (s, c)
  else
    let (pa, pc) := byteAt c.fp (8 * j)
    match s.copyFail place c pa with
    | some f => let (s, c) := s.copyMiss c pa false; (s, c.note (8 * j) 0 f)
    | none =>
      let crc := (List.range size).foldl (fun r i => crcByte r (Table.get 0 c.got (j * size + i))) 0
      let s := s.copyWrite c.issuer pa pc (bytesOf 8 crc) false who
      (s.copyCleans c c.fp (fun lo hi => !c.todo (lo / 8 * size) (hi / 8 * size)) (8 * j) 1, c)

/-- Taking bytes of the source from offset `lo` into the fingerprints. -/
def State.fingerprints (s : State) (place : Nat) (c : Copy) (lo : Nat) (bs : List CopyByte) (who : LogAgent) : State × Copy :=
  let size := c.par.chunkSize
  let c := { c with got := bs.zipIdx.foldl (fun g p => Table.set 0 g (lo + p.2) (p.1.val.getD 0)) c.got }
  let first := lo / size
  (List.range ((lo + bs.length - 1) / size + 1 - first)).foldl (fun r i => State.fingerprint r.1 place r.2 who (first + i)) (s, c)

/-! Bloom (R306). -/

/-- Extending a length by bytes while they are 255. -/
def bloomExtend : List Byte → Nat → Option (Nat × List Byte)
  | [], _ => none
  | b :: bs, n => if b = 255 then bloomExtend bs (n + 255) else some (n + b.toNat, bs)
/-- A length of which the token gives four bits. -/
def bloomLength (n : Nat) (bs : List Byte) : Option (Nat × List Byte) := if n = 15 then bloomExtend bs 15 else some (n, bs)
/-- Appending byte |P| − off of P to P, `m` times; P is held reversed. -/
def bloomMatch (off : Nat) : Nat → List Byte → List Byte
  | 0, rev => rev
  | m + 1, rev => bloomMatch off m (rev.getD (off - 1) 0 :: rev)

/-- The procedure of R306 over the bytes left, with P reversed and its length. -/
def bloomLoop (outlen : Nat) : (fuel : Nat) → List Byte → List Byte → Nat → Except Cause (List Byte)
  | 0, _, _, _ => .error .bloomFormat
  | _, [], _, _ => .error .bloomFormat
  | fuel + 1, t :: ts, rev, len =>
    match bloomLength (t.toNat / 16) ts with
    | none => .error .bloomFormat
    | some (n, ts) =>
      if ts.length < n then .error .bloomFormat
      else
        let rev := (ts.take n).reverse ++ rev
        let len := len + n
        match ts.drop n with
        | [] => if len = outlen then .ok rev.reverse else .error .bloomLength
        | o :: p :: ts =>
          let off := o.toNat + 256 * p.toNat
          if off = 0 || len < off then .error .bloomFormat
          else match (if t.toNat % 16 = 15 then bloomExtend ts 19 else some (t.toNat % 16 + 4, ts)) with
            | none => .error .bloomFormat
            | some (m, ts) =>
              if outlen < len + m then .error .bloomLength
              else bloomLoop outlen fuel ts (bloomMatch off m rev) (len + m)
        | [_] => .error .bloomFormat

/-- The output of bloom (R306): P, or its two planes joined. -/
def bloomOutput (outlen : Nat) (psplit : Bool) (bs : List Byte) : Except Cause (List Byte) :=
  match bloomLoop outlen (bs.length + 1) bs [] 0 with
  | .error c => .error c
  | .ok p =>
    if psplit then .ok ((List.range (outlen / 2)).flatMap (fun i => [p.getD (outlen / 2 + i) 0, p.getD i 0])) else .ok p

/-- Decoding the source of a bloom copy, once: a failure leaves nothing to land (R306). A source byte that is not delivered
leaves nothing to land either (log 26); the destination is then poisoned where the host's poisoned data is why (R407, log 37). -/
def State.bloomDecode (s : State) (place : Nat) (c : Copy) (who : LogAgent) : State × Copy :=
  let (s, c, bs) := s.copyRead place 0 c.src who 0 c.par.len c
  if bs.any (fun b => b.val.isNone) then
    (if bs.any (fun b => b.val.isNone && b.poison) then
        (List.range c.total).foldl (fun s i => s.setPoison (byteAt c.dst i).1 true) s
      else s, { c with total := 0, left := [], fail := none })
  else match bloomOutput c.par.outlen c.par.psplit (bs.map (fun b => b.val.getD 0)) with
    | .ok out => (s, { c with buf := out })
    | .error f => (s, { c.note 0 0 f with total := 0, left := [] })

/-! Landing: each step deals with a run of what is left; `lo` is its first offset, `n` its length. -/

/-- Taking a run out of what is left: from `first`, at most `count`. -/
def Copy.take (c : Copy) (first count : Nat) : Option (Nat × Nat × Copy) :=
  match c.left.find? (fun r => r.1 ≤ first && first < r.2) with
  | none => none
  | some (a, b) =>
    let top := min b (first + count)
    if count = 0 then none
    else some (first, top - first, { c with
      left := c.left.flatMap (fun r => if r = (a, b) then [(a, first), (top, b)].filter (fun r => r.1 < r.2) else [r]) })

/-- Landing of `.byte`, bloom and CPYF. -/
def State.landBytes (s : State) (place : Nat) (c : Copy) (lo n : Nat) (who : LogAgent) : State × Copy :=
  let (s, c, bs) := if c.kind = 3 then
      (s, c, ((c.buf.drop lo).take n).map (fun b => ⟨some b, c.tainted⟩))
    else s.copyRead place 0 c.src who lo n c
  let (s, c) := if c.kind = 4 then s.fingerprints place c lo bs who else (s, c)
  if c.dst.isEmpty then (s, c)
  else
    let (s, c, k, low) := s.copyStore place c who lo bs
    State.landing (s.copyCleans c c.dst (fun a b => !c.todo a b) lo n) place c k (low.getD lo)

/-- The comparing of CPYC (R304). -/
def State.landCompare (s : State) (place : Nat) (c : Copy) (lo n : Nat) (who : LogAgent) : State × Copy :=
  let (s, c, as) := s.copyRead place 0 c.src who lo n c
  let (s, c, bs) := s.copyRead place c.par.len c.dst who lo n c
  let diff := (List.range n).find? (fun i =>
    let a := (as.getD i ⟨none, false⟩).val
    let b := (bs.getD i ⟨none, false⟩).val
    a.isNone || b.isNone || a ≠ b)
  (s, match diff with
    | some i => { c with low := some (min (lo + i) (c.low.getD (lo + i))) }
    | none => c)

/-- Setting one column of a row. -/
def State.setLane (s : State) (post sub row col : Nat) (b : Bool) : State :=
  s.setRow post sub row (BitVec.ofNat 8192 (patchBits (s.row post sub row).toNat col 1 (if b then 1 else 0)))
/-- The parity of the low `n` bits of a number. -/
def parityOf (x : Nat) : Nat → Bool
  | 0 => false
  | n + 1 => x.testBit n != parityOf x n

/-- One element of `.tin` (R302). -/
def State.tinElement (s : State) (place : Nat) (subs : List Nat) (c : Copy) (who : LogAgent) (i : Nat) : State × Copy :=
  let p := c.par
  let e := 2 ^ p.esize
  let (s, c, bs) := s.copyRead place 0 c.src who (i * e) e c
  if bs.any (fun b => b.val.isNone) then (s, c)
  else
    let x := natOfBytes (bs.map (fun b => b.val.getD 0))
    let lane := p.lane + i
    let sub := subs.getD (lane / 8192) 0
    let s := (List.range p.w).foldl (fun s k => s.setLane c.region sub (p.row + k) (lane % 8192) (x.testBit k)) s
    let chk := parityOf x p.w != bs.any (fun b => b.poison)
    (s.setLane c.region sub (p.row + p.w) (lane % 8192) chk, { c with landed := c.landed + e })

/-- The element of a lane for `.tout`, with whether its check plane agrees (R302). -/
def State.toutElement (s : State) (subs : List Nat) (c : Copy) (i : Nat) : List Byte × Bool :=
  let p := c.par
  let lane := p.lane + i
  let sub := subs.getD (lane / 8192) 0
  let bit := fun r => (s.row c.region sub r).getLsbD (lane % 8192)
  let x := (List.range p.w).foldl (fun x k => x + if bit (p.row + k) then 2 ^ k else 0) 0
  let v := if p.sign then encN (sextN x p.w) 64 else x
  (bytesOf (2 ^ p.esize) v, parityOf x p.w = bit (p.row + p.w))

/-- Landing of `.tout`, `n` bytes from `lo`, of the elements that hold them. -/
def State.landTout (s : State) (place : Nat) (subs : List Nat) (c : Copy) (lo n : Nat) (who : LogAgent) : State × Copy :=
  let e := 2 ^ c.par.esize
  let els := (List.range ((lo + n + e - 1) / e - lo / e)).map (fun i => s.toutElement subs c (lo / e + i))
  let bs := ((els.flatMap (fun p => p.1.map (fun b => (⟨some b, !p.2⟩ : CopyByte)))).drop (lo % e)).take n
  let (s, c, k, low) := s.copyStore place c who lo bs
  let s := s.copyCleans c c.dst (fun a b => !c.todo a b) lo n
  let bad := (els.zipIdx.find? (fun p => !p.1.2)).map (fun p => lo / e + p.2)
  let c := match bad with
    | some i => { c.note (i * e) 1 .planeCheck with low := some (min i (c.low.getD i)) }
    | none => c
  s.landing place c k (low.getD lo)

/-- A copy engine reads source bytes of a started copy ahead of their landing (R320): those not read yet, of what is still to be dealt
with; the second range of CPYC follows the first, at LEN. A bloom copy reads them before it decodes them. -/
def State.gather (s : State) (e seq first count : Nat) : State :=
  match (s.copiesAt e).find? (fun c => c.seq = seq && c.started) with
  | none => s
  | some c =>
    let len := c.par.srcLen c.kind
    let open_ := fun (o : Nat) =>
      if c.kind = 3 then c.buf.isEmpty && !c.left.isEmpty
      else if c.kind = 1 then c.todo (o / 2 ^ c.par.esize) (o / 2 ^ c.par.esize + 1)
      else c.todo (o % len) (o % len + 1)
    let offs := ((List.range count).map (fun i => first + i)).filter (fun o =>
      o < (if c.kind = 5 then 2 * len else len) && open_ o && !c.early.any (fun r => r.1 = o))
    let who := s.copyAgent c
    let (s, c) := offs.foldl (fun (r : State × Copy) o =>
      let (s, c, _, b) := if o < len then r.1.copyByte e 0 c.src who true o r.2 none else r.1.copyByte e len c.dst who true (o - len) r.2 none
      (s, { c with early := (o, b.val, b.poison) :: c.early })) (s, c)
    s.setCopy e (if offs.isEmpty then c else { c with fail := none })

/-- COPY_LAND: a started copy counts what it owes its barrier, and deals with a run of what is left of it, in bytes (elements for
`.tin`). -/
def State.land (s : State) (e seq first count : Nat) : State :=
  match (s.copiesAt e).find? (fun c => c.seq = seq && c.started) with
  | none => s
  | some c =>
    let who := s.copyAgent c
    let (s, c) := s.landOwed e c
    let (s, c) := if c.kind = 3 && c.buf.isEmpty && c.total ≠ 0 && count ≠ 0 then s.bloomDecode e c who else (s, c)
    match c.take first count with
    | none => s.setCopy e c
    | some (lo, n, c) =>
      let subs := match s.region c.asid c.par.handle with | some r => r.subs | none => []
      let (s, c) :=
        if c.kind = 1 then (List.range n).foldl (fun (r : State × Copy) i => r.1.tinElement e subs r.2 who (lo + i)) (s, c)
        else if c.kind = 2 then s.landTout e subs c lo n who
        else if c.kind = 5 then s.landCompare e c lo n who
        else s.landBytes e c lo n who
      s.setCopy e { c with fail := none }

/-- DETAIL of a copy's status (Table 14-2). -/
def Copy.detail (c : Copy) : Nat :=
  if c.kind = 5 then c.low.getD 0xFFFFFFFF
  else match c.cause with
    | some (_, _, .planeCheck) => c.low.getD 0
    | _ => c.landed % 2 ^ 32

/-- Ending a copy with a status: its list place, its queue entry, its peg and its count (R62, R290). -/
def State.endCopy (s : State) (e : Nat) (c : Copy) (cause : Cause) (detail : Nat) : State :=
  let s := s.setCopies e ((s.copiesAt e).filter (fun d => d.seq ≠ c.seq))
  let s := s.dropItem (fun _ => c.kind = 1 || c.kind = 2) (.copy e c.seq)
  let s := s.deliverTo c.task c.issuer c.peg (statusWord cause 0 0 0 detail)
  State.tryComplete (s.countCommand c.task c.issuer 0 false) c.graph

/-- Whether a copy may start (R240, R287): no earlier copy of its task waits at the engine, and a copy of a region stands
at the front of its list in copy mode. -/
def State.copyReady (s : State) (e : Nat) (c : Copy) : Bool :=
  !c.started &&
  (s.copiesAt e).all (fun d => d.started || c.seq ≤ d.seq || d.task ≠ c.task || (c.task.isNone && d.issuer ≠ c.issuer)) &&
  (c.kind = 0 || 3 ≤ c.kind || (match s.region c.asid c.par.handle with
    | some r => !r.now && r.items.head? = some (.copy e c.seq)
    | none => false))

/-- COPY_START: the first copy of an engine's queue that may start starts. A region's list that a REVOKE has had read again
must still hold its lanes (R296, R376). -/
def execCopyStart (engine : Nat) (s : State) : Host.Outcome State Fault Refusal :=
  match (s.copiesAt engine).find? (s.copyReady engine) with
  | some c =>
    let tr := c.kind = 1 || c.kind = 2
    let s := if tr then s.rereadRegion c.asid c.par.handle else s
    let subs := match s.region c.asid c.par.handle with | some r => r.subs | none => []
    if tr && 8192 * subs.length < c.par.lane + c.par.len / 2 ^ c.par.esize then .next (s.endCopy engine c .bankParam 0)
    else .next (s.setCopy engine { c with started := true })
  | none => .next s
/-- COPY_LAND (R299, R300): of the run that starts at offset `run.1` and has `run.2` bytes, what is still left of the copy. -/
def execCopyLand (engine seq : Nat) (run : Nat × Nat) (s : State) : Host.Outcome State Fault Refusal := .next (s.land engine seq run.1 run.2)
/-- COPY_COMPLETE (R288, R298): a started copy that has dealt with every byte; its writes are performed everywhere, and counted, before
its status. -/
def execCopyComplete (engine seq : Nat) (s : State) : Host.Outcome State Fault Refusal :=
  match (s.copiesAt engine).find? (fun c => c.seq = seq && c.started && c.left.isEmpty) with
  | some c =>
    let (s, c) := s.landOwed engine c
    let who := s.copyAgent c
    .next (State.endCopy (s.forceHost (fun w => w.owner = some who)) engine c (match c.cause with | some (_, _, f) => f | none => .none) c.detail)
  | none => .next s

/-! Waiting for a barrier, and bench buffers. -/

/-- WAITB (R301). -/
def execWaitb (x : Ops) (s : State) := runWaitWord .waitb x s (fun w => w ≠ 8) 10 (fun h v => if v = 0 then some h else none)

/-- Beginning GIVE or TAKE (R309): the handle check, and the refusal on a system core. -/
def runBuffer (d : Desc) (x : Ops) (s : State) (body : Nat → Nat → Nat → Nat → Done) : Host.Outcome State Fault Refusal :=
  runCore d x s true none (fun n h =>
    let gh := (h.gr (gNum x.a)).toNat
    match s.taskOf n with
    | none => .stop s ⟨.owner, 0, 0, 0, 0, 0⟩
    | some (u, t) => if !handleOk gh then .stop s ⟨.owner, 0, 0, 0, 0, 0⟩ else body n gh u t.graph)

/-- GIVE (R309). -/
def execGive (x : Ops) (s : State) :=
  runBuffer .give x s (fun n gh u g =>
    match s.bufferOf g gh with
    | none => .stop s ⟨.owner, 0, 0, 0, 0, 0⟩
    | some b =>
      if b.holder ≠ some u then .stop s ⟨.owner, 0, 0, 0, 0, 0⟩
      else
        let s := State.release s n 2
        .retire { s with buffers := s.buffers.map (fun c => if c = b then { b with holder := none } else c) } 0)

/-- TAKE `.wait` (R309): one that waits goes on waiting until a buffer that its handle names is given. -/
def execTake (x : Ops) (s : State) :=
  runBuffer .take x s (fun n gh u g =>
    let held := (s.hart n).held.isSome
    match s.buffers.find? (fun b => b.graph = g && b.tag = bitsN gh 31 16) with
    | none => .wait s ⟨13, 0, 3, BitVec.ofNat 64 gh⟩
    | some b =>
      if b.first ≠ bitsN gh 15 8 || b.npg ≠ bitsN gh 7 0 then
        if held then .wait s ⟨13, 0, 3, BitVec.ofNat 64 gh⟩ else .stop s ⟨.owner, 0, 0, 0, 0, 0⟩
      else if b.holder = some u then .retire s 0
      else if b.holder.isSome then .wait s ⟨13, 0, 3, BitVec.ofNat 64 gh⟩
      else if !s.pagesFree n b then .stop s ⟨.owner, 0, 0, 0, 0, 0⟩
      else .retire (s.moveBuffer b n (some u)) 0)

/-- TAKE `.new` (R309). -/
def execTakeNew (x : Ops) (s : State) :=
  runBuffer .takeNew x s (fun n gh u g =>
    let b : Buffer := ⟨n, bitsN gh 15 8, bitsN gh 7 0, bitsN gh 31 16, g, some u⟩
    if s.buffers.any (fun c => (c.graph = g && c.tag = b.tag) || (c.hart = n && pagesMeet b.first b.npg c.first c.npg)) then
      .stop s ⟨.owner, 0, 0, 0, 0, 0⟩
    else .retire { s with buffers := s.buffers ++ [b] } 0)

end Sys2Proof.Machine
end

