-- ==== Sys2Proof/Machine/Number.lean ====
section
/-! DEFINITION. Numbers (R103 to R119): the value of an encoding, exact arithmetic on values, rounding to a type with
its flags, the generator of stochastic draws (R117, R163), and the functions of R162 to any precision. -/
namespace Sys2Proof
open Sys2Proof.Machine

/-- A value of R112: NaN, ±∞, a signed zero, or (−1)^neg × (m + δ) × 2^e, where δ is 0, or lies strictly between 0 and 1
when `sticky` (then m has more than 100 bits, so no rounding boundary of any type falls strictly inside). -/
inductive XReal where
  | nan
  | inf (neg : Bool)
  | zero (neg : Bool)
  | fin (neg : Bool) (m : Nat) (e : Int) (sticky : Bool)
  deriving DecidableEq, Repr

/-- Exponent bits of a floating-point type (Table 6-1). -/
def Ty.expBits : Ty → Nat
  | .e4m3 => 4 | .e5m2 => 5 | .bf16 => 8 | .fp16 => 5 | .fp32 => 8 | .fp64 => 11 | _ => 0
/-- Fraction bits of a floating-point type (Table 6-1). -/
def Ty.fracBits : Ty → Nat
  | .e4m3 => 3 | .e5m2 => 2 | .bf16 => 7 | .fp16 => 10 | .fp32 => 23 | .fp64 => 52 | _ => 0
/-- The bias of a floating-point type (Table 6-1). -/
def Ty.bias (t : Ty) : Nat := 2 ^ (t.expBits - 1) - 1
/-- The exponent field of an encoding. -/
def Ty.expField (t : Ty) (x : Nat) : Nat := bitsN x (t.width - 2) t.fracBits
/-- The fraction field of an encoding. -/
def Ty.fracField (t : Ty) (x : Nat) : Nat := x % 2 ^ t.fracBits
/-- The sign bit of an encoding. -/
def Ty.signBit (t : Ty) (x : Nat) : Bool := x.testBit (t.width - 1)
/-- The all-ones exponent field. -/
def Ty.expMax (t : Ty) : Nat := 2 ^ t.expBits - 1

/-- Whether an encoding is a NaN (Table 6-1). -/
def Ty.isNaN (t : Ty) (x : Nat) : Bool :=
  t.isFp && t.expField x = t.expMax && (if t = .e4m3 then t.fracField x = 7 else t.fracField x ≠ 0)
/-- Whether an encoding is a signalling NaN (R106). -/
def Ty.isSNaN (t : Ty) (x : Nat) : Bool := t.isFpw && t.isNaN x && !x.testBit (t.fracBits - 1)
/-- The canonical NaN (Table 6-1). -/
def Ty.nan : Ty → Nat
  | .e4m3 => 0x7F | .e5m2 => 0x7E | .bf16 => 0x7FC0 | .fp16 => 0x7E00 | .fp32 => 0x7FC00000
  | .fp64 => 0x7FF8000000000000 | _ => 0
/-- The encoding with a sign of an exponent field and a fraction field. -/
def Ty.pack (t : Ty) (neg : Bool) (e f : Nat) : Nat := (if neg then 2 ^ (t.width - 1) else 0) + e * 2 ^ t.fracBits + f
/-- The infinity of a sign; for E4M3 the code that stands in its place is chosen by `roundInf`. -/
def Ty.infinity (t : Ty) (neg : Bool) : Nat := t.pack neg t.expMax 0
/-- The largest finite value of a sign. -/
def Ty.largest (t : Ty) (neg : Bool) : Nat :=
  if t = .e4m3 then t.pack neg 15 6 else t.pack neg (t.expMax - 1) (2 ^ t.fracBits - 1)

/-- `m × 2^e` with a sign, exact; a zero `m` is the zero of that sign. -/
def XReal.exact (neg : Bool) (m : Nat) (e : Int) : XReal := if m = 0 then .zero neg else .fin neg m e false
/-- An integer as a value. -/
def XReal.ofInt (x : Int) : XReal := XReal.exact (x < 0) x.natAbs 0

/-- The value of an integer encoding (R103). -/
def Ty.int (t : Ty) (x : Nat) : Int :=
  match t with
  | .t2 => if x % 4 = 1 then 1 else if x % 4 = 3 then -1 else 0
  | _ => if t.isSigned then sextN x t.width else (zextN x t.width : Nat)

/-- The value of an encoding (R103, R105, R112). -/
def Ty.value (t : Ty) (x : Nat) : XReal :=
  if !t.isFp then XReal.ofInt (t.int x)
  else
    let e := t.expField x
    let f := t.fracField x
    let s := t.signBit x
    if t.isNaN x then .nan
    else if e = t.expMax && t ≠ .e4m3 then .inf s
    else if e = 0 then XReal.exact s f (1 - t.bias - t.fracBits)
    else .fin s (2 ^ t.fracBits + f) (e - t.bias - t.fracBits) false

/-- The flags that reading an encoding raises: a signalling NaN (R106), the T2 code 0b10 (R103). -/
def Ty.readFlags (t : Ty) (x : Nat) : Flags :=
  if t = .t2 then (if x % 4 = 2 then fNV else 0) else if t.isSNaN x then fNV else 0

/-- The value of an E8M0 scale (R109). -/
def e8m0 (s : Nat) : XReal := if s = 0xFF then .nan else .fin false 1 ((s : Int) - 127) false

/-! Rounding. -/

/-- Philox-4×32 with ten rounds (R163): the word of a counter and a key. -/
def philox (ctr key : Nat) : Nat :=
  let rec go : Nat → Nat → Nat → Nat → Nat → Nat → Nat → Nat
    | 0, x0, _, _, _, _, _ => x0
    | r + 1, x0, x1, x2, x3, k0, k1 =>
      let p := 0xD2511F53 * x0
      let q := 0xCD9E8D57 * x2
      go r ((q >>> 32) ^^^ x1 ^^^ k0) (q % 2 ^ 32) ((p >>> 32) ^^^ x3 ^^^ k1) (p % 2 ^ 32)
        ((k0 + 0x9E3779B9) % 2 ^ 32) ((k1 + 0xBB67AE85) % 2 ^ 32)
  go 10 (ctr % 2 ^ 32) (bitsN ctr 63 32) 0 0 (key % 2 ^ 32) (bitsN key 63 32)

/-- The draw of R117 for an element index and a base counter. -/
def drawAt (i c : Nat) : Nat := philox ((c + i) % 2 ^ 64) 0

/-- `m / 2^sh` (with δ) of a sign rounded to an integer by a mode (R113 step 4, R117); whether it differs. -/
def roundQ (neg : Bool) (m sh : Nat) (sticky : Bool) (rm : RM) (draw : Nat) : Nat × Bool :=
  let lo := m >>> sh
  let r := m % 2 ^ sh
  let inexact := r ≠ 0 || sticky
  let half := 2 ^ sh / 2
  let above := sh ≠ 0 && (half < r || (r = half && sticky))
  let tie := sh ≠ 0 && r = half && !sticky
  let up := inexact && (match rm with
    | .rne => above || (tie && lo % 2 = 1)
    | .rtz => false
    | .rdn => neg
    | .rup => !neg
    | .rna => above || tie
    | .stoch =>
      if neg then
        let y := 2 ^ sh - r
        !(draw < (if sticky then y - 1 else y) * 2 ^ 32 / 2 ^ sh)
      else draw < r * 2 ^ 32 / 2 ^ sh)
  (if up then lo + 1 else lo, inexact)

/-- The result of an overflow (R114, Table 6-2); `sat` says that saturation applies to E4M3 (R115). -/
def overflowTo (t : Ty) (neg : Bool) (rm : RM) (sat : Bool) : Nat :=
  let toMax := match rm with | .rtz => true | .rdn => !neg | .rup => neg | _ => false
  if toMax then t.largest neg
  else if t = .e4m3 then (if sat then t.largest neg else t.nan) else t.infinity neg

/-- `round(x, T, rm, sat)` with a floating-point T (R113): the encoding and its flags. A non-zero x that rounds to zero keeps
its sign, a choice (log 61). -/
def XReal.round (x : XReal) (t : Ty) (rm : RM) (sat : Bool) (draw : Nat) : Nat × Flags :=
  match x with
  | .nan => (t.nan, 0)
  | .inf s =>
    if t = .e4m3 then (if sat then (t.largest s, fOF ||| fNX) else (t.nan, fNV)) else (t.infinity s, 0)
  | .zero s => (t.pack s 0 0, 0)
  | .fin s m e sticky =>
    let p := t.fracBits
    let qmin : Int := 1 - t.bias - p
    let q := max (e + Nat.log2 m - p) qmin
    let (n, inexact) :=
      if q ≤ e then (m * 2 ^ (e - q).toNat, sticky) else roundQ s m (q - e).toNat sticky rm draw
    let (n, q) := if n = 2 ^ (p + 1) then (2 ^ p, q + 1) else (n, q)
    let nx := if inexact then fNX else 0
    if n = 0 then (t.pack s 0 0, nx)
    else if n < 2 ^ p then (t.pack s 0 n, if inexact then fNX ||| fUF else 0)
    else
      let ef := (q + p + t.bias).toNat
      let f := n - 2 ^ p
      if (if t = .e4m3 then 15 < ef || (ef = 15 && f = 7) else t.expMax ≤ ef) then (overflowTo t s rm sat, fOF ||| fNX)
      else (t.pack s ef f, nx)

/-- A finite value rounded to an integer by a mode, and whether it differs (R116). NaN and ±∞ give 0 here. -/
def XReal.toInt (x : XReal) (rm : RM) (draw : Nat) : Int × Bool :=
  match x with
  | .fin s m e sticky =>
    let (n, inexact) := if 0 ≤ e then (m * 2 ^ e.toNat, sticky) else roundQ s m (-e).toNat sticky rm draw
    (if s then -(n : Int) else n, inexact)
  | _ => (0, false)

/-- The least value of an integer type (R103; T2 runs from −1 to 1). -/
def Ty.lo (t : Ty) : Int := match t with | .t2 => -1 | _ => if t.isSigned then -(2 ^ (t.width - 1) : Nat) else 0
/-- The greatest value of an integer type. -/
def Ty.hi (t : Ty) : Int := match t with | .t2 => 1 | _ => if t.isSigned then (2 ^ (t.width - 1) : Nat) - 1 else (2 ^ t.width : Nat) - 1

/-- An integer result written to an integer type (R104): saturating, or mod 2^w; T2 always saturates. -/
def fitInt (t : Ty) (x : Int) (sat : Bool) : Nat × Flags :=
  if sat || t = .t2 then
    let y := if x < t.lo then t.lo else if t.hi < x then t.hi else x
    (encN y t.width, if y = x then 0 else fSAT)
  else (encN x t.width, 0)

/-- A floating-point value converted to an integer type (R116). -/
def XReal.fitFp (x : XReal) (t : Ty) (rm : RM) (draw : Nat) : Nat × Flags :=
  match x with
  | .nan => (0, fNV)
  | .inf s => (encN (if s then t.lo else t.hi) t.width, fNV)
  | _ =>
    let (n, inexact) := x.toInt rm draw
    if n < t.lo then (encN t.lo t.width, fNV)
    else if t.hi < n then (encN t.hi t.width, fNV)
    else (encN n t.width, if inexact then fNX else 0)

/-- An encoding converted from one type to another (R104, R106, R116, R136, R154): `sat` is the SAT bit and `sat8` is
FMODE.SAT8. A NaN converted to E4M3 without saturation raises NV (Table 6-4). -/
def convert (td ts : Ty) (x : Nat) (rm : RM) (sat sat8 : Bool) (draw : Nat) : Nat × Flags :=
  let v := ts.value x
  let fl := ts.readFlags x
  if td.isFp then
    let (e, g) := v.round td rm (sat || sat8) draw
    (e, fl ||| g ||| (if v = .nan && td = .e4m3 && !(sat || sat8) then fNV else 0))
  else if ts.isFp then
    let (e, g) := v.fitFp td rm draw
    (e, fl ||| g)
  else
    let (e, g) := fitInt td (ts.int x) sat
    (e, fl ||| g)

/-! Exact arithmetic (R112). -/

/-- The value with its sign turned. -/
def XReal.neg : XReal → XReal
  | .nan => .nan
  | .inf s => .inf !s
  | .zero s => .zero !s
  | .fin s m e t => .fin (!s) m e t
/-- The sign. -/
def XReal.sign : XReal → Bool
  | .nan => false
  | .inf s => s
  | .zero s => s
  | .fin s _ _ _ => s

/-- The numerator of an exact finite value over `2^e`, where `e` is at most its exponent. -/
def XReal.scaled (x : XReal) (e : Int) : Int :=
  match x with
  | .fin s m f _ => let n : Int := m * (2 ^ (f - e).toNat : Nat); if s then -n else n
  | _ => 0
/-- The exponent of a finite value, 0 for a zero. -/
def XReal.expo : XReal → Int
  | .fin _ _ e _ => e
  | _ => 0

/-- The exact sum, with the zero signs of R113 step 3, and NV for ∞ − ∞. -/
def XReal.add (x y : XReal) (rm : RM) : XReal × Flags :=
  match x, y with
  | .nan, _ => (.nan, 0)
  | _, .nan => (.nan, 0)
  | .inf s, .inf t => if s = t then (.inf s, 0) else (.nan, fNV)
  | .inf s, _ => (.inf s, 0)
  | _, .inf s => (.inf s, 0)
  | .zero s, .zero t => (.zero (if s = t then s else rm = .rdn), 0)
  | .zero _, y => (y, 0)
  | x, .zero _ => (x, 0)
  | x, y =>
    let e := min x.expo y.expo
    let n := x.scaled e + y.scaled e
    (if n = 0 then .zero (rm = .rdn) else .fin (n < 0) n.natAbs e false, 0)

/-- The exact product; NV for 0 × ∞. -/
def XReal.mul (x y : XReal) : XReal × Flags :=
  let s := x.sign != y.sign
  match x, y with
  | .nan, _ => (.nan, 0)
  | _, .nan => (.nan, 0)
  | .inf _, .zero _ => (.nan, fNV)
  | .zero _, .inf _ => (.nan, fNV)
  | .inf _, _ => (.inf s, 0)
  | _, .inf _ => (.inf s, 0)
  | .zero _, _ => (.zero s, 0)
  | _, .zero _ => (.zero s, 0)
  | .fin _ m e _, .fin _ n f _ => (.fin s (m * n) (e + f) false, 0)

/-- `x × 2^k`. -/
def XReal.scale (x : XReal) (k : Int) : XReal :=
  match x with
  | .fin s m e t => .fin s m (e + k) t
  | x => x

/-- The quotient of two naturals to at least 130 bits, at exponent `e`. -/
def quotient (neg : Bool) (m n : Nat) (e : Int) : XReal :=
  let k := 130 + Nat.log2 n + 1 - Nat.log2 m
  .fin neg ((m <<< k) / n) (e - k) ((m <<< k) % n ≠ 0)

/-- The quotient (R112). -/
def XReal.div (x y : XReal) : XReal × Flags :=
  let s := x.sign != y.sign
  match x, y with
  | .nan, _ => (.nan, 0)
  | _, .nan => (.nan, 0)
  | .inf _, .inf _ => (.nan, fNV)
  | .inf _, _ => (.inf s, 0)
  | _, .inf _ => (.zero s, 0)
  | .zero _, .zero _ => (.nan, fNV)
  | .zero _, _ => (.zero s, 0)
  | .fin _ _ _ _, .zero _ => (.inf s, fDZ)
  | .fin _ m e _, .fin _ n f _ => (quotient s m n (e - f), 0)

/-- The integer square root by bits, from bit `k` down. -/
def isqrtFrom (n : Nat) : Nat → Nat → Nat
  | 0, r => r
  | k + 1, r => isqrtFrom n k (if (r + 2 ^ k) * (r + 2 ^ k) ≤ n then r + 2 ^ k else r)
/-- The integer square root. -/
def isqrt (n : Nat) : Nat := isqrtFrom n (Nat.log2 n / 2 + 1) 0

/-- √(m × 2^e) to at least 130 bits. -/
def rootOf (m : Nat) (e : Int) : XReal :=
  let k := 262 - Nat.log2 m
  let k := if (e - k) % 2 = 0 then k else k + 1
  let n := m <<< k
  let r := isqrt n
  .fin false r ((e - k) / 2) (r * r ≠ n)

/-- The square root (Table 7-4). -/
def XReal.sqrt (x : XReal) : XReal × Flags :=
  match x with
  | .nan => (.nan, 0)
  | .zero s => (.zero s, 0)
  | .inf false => (.inf false, 0)
  | .fin false m e _ => (rootOf m e, 0)
  | _ => (.nan, fNV)

/-- The order of two exact values that are no NaN: −1, 0 or 1; equal zeros. -/
def XReal.order (x y : XReal) : Int :=
  match x, y with
  | .inf s, .inf t => if s = t then 0 else if s then -1 else 1
  | .inf s, _ => if s then -1 else 1
  | _, .inf t => if t then 1 else -1
  | x, y => let e := min x.expo y.expo; (x.scaled e - y.scaled e).sign

/-- FMIN and FMAX on two encodings (R135). -/
def minMax (t : Ty) (greater : Bool) (x y : Nat) : Nat × Flags :=
  let fl := t.readFlags x ||| t.readFlags y
  match t.isNaN x, t.isNaN y with
  | true, true => (t.nan, fl)
  | true, false => (y, fl)
  | false, true => (x, fl)
  | false, false =>
    let c := (t.value x).order (t.value y)
    let xFirst := if c = 0 then t.signBit x else c < 0
    (if xFirst != greater then x else y, fl)

/-- The compare kinds of Table 7-5, with NV. -/
def fpCompare (t : Ty) (kind x y : Nat) : Bool × Flags :=
  let nan := t.isNaN x || t.isNaN y
  let fl := t.readFlags x ||| t.readFlags y ||| (if nan && (kind = 1 || kind = 2) then fNV else 0)
  let c := (t.value x).order (t.value y)
  (match kind with
    | 0 => !nan && c = 0
    | 1 => !nan && c < 0
    | 2 => !nan && c ≤ 0
    | 3 => nan
    | _ => nan || c ≠ 0, fl)

/-! The functions of R162 and of the log norm, to as many bits as a result needs: a value known to lie strictly inside an
interval whose ends agree in all but the lowest 16 of their bits is given by those bits and `sticky`. -/

/-- The product of 2^(2^−j) over the set bits of a fraction `f / 2^n` from the highest, at `p` fraction bits, rounded
down; at most 10 units too small for each root taken. -/
def exp2Bits (p f : Nat) : Nat → Nat → Nat → Nat
  | 0, _, y => y
  | n + 1, root, y =>
    let root := isqrt (root <<< p)
    exp2Bits p f n root (if f.testBit n then (y * root) >>> p else y)

/-- 2^(f / 2^n) for 0 < f < 2^n, at rising precision. -/
def exp2Frac (f n : Nat) : Nat → Nat → XReal
  | 0, p => .fin false (2 ^ p) (-p) true
  | fuel + 1, p =>
    let lo := exp2Bits p f n (2 ^ (p + 1)) (2 ^ p)
    let hi := lo + 10 * n + 4
    if lo >>> 16 = hi >>> 16 then .fin false (lo >>> 16) (16 - (p : Int)) true else exp2Frac f n fuel (2 * p)

/-- 2^x for an exact finite x of moderate size. -/
def exp2Real (neg : Bool) (m : Nat) (e : Int) : XReal :=
  if 0 ≤ e then
    let k : Int := m * 2 ^ e.toNat
    .fin false 1 (if neg then -k else k) false
  else
    let d := (-e).toNat
    let n := m % 2 ^ d
    let k : Int := (m >>> d : Nat)
    if n = 0 then .fin false 1 (if neg then -k else k) false
    else
      let (k, n) := if neg then (-k - 1, 2 ^ d - n) else (k, n)
      XReal.scale (exp2Frac n d 6 (192 + 2 * d)) k

/-- The first `n` fraction bits of log2 of a number between `lo` and `hi` over 2^p, both in [1, 2); none where the
interval does not settle them. -/
def log2Bits (p : Nat) : Nat → Nat → Nat → Nat → Option Nat
  | 0, _, _, acc => some acc
  | n + 1, lo, hi, acc =>
    let lo := (lo * lo) >>> p
    let hi := ((hi * hi) >>> p) + 1
    if 2 ^ (p + 1) ≤ lo then log2Bits p n (lo / 2) (hi / 2 + 1) (2 * acc + 1)
    else if hi < 2 ^ (p + 1) then log2Bits p n lo hi (2 * acc)
    else none

/-- log2(a / b) for a / b in (1, 2): `n` fraction bits rounded down. -/
def log2Frac (a b n : Nat) : Nat → Nat → Nat
  | 0, _ => 0
  | fuel + 1, p =>
    let lo := (a <<< p) / b
    match log2Bits p n lo (lo + 1) 0 with
    | some x => x
    | none => log2Frac a b n fuel (2 * p)

/-- log2((a / b) × 2^e) for positive a and b. -/
def log2Real (a b : Nat) (e : Int) : XReal :=
  -- a / b = (a' / b') × 2^k with a' / b' in [1, 2)
  let k : Int := (Nat.log2 a : Int) - Nat.log2 b
  let (a', b') := if 0 ≤ k then (a, b <<< k.toNat) else (a <<< (-k).toNat, b)
  let (a', k) := if a' < b' then (2 * a', k - 1) else (a', k)
  let i := k + e
  if a' = b' then XReal.ofInt i
  else
    let n := 160
    let f := log2Frac a' b' n 8 (3 * n)
    let x : Int := i * (2 ^ n : Nat) + f
    if 0 ≤ x then .fin false x.toNat (-(n : Int)) true else .fin true (-x - 1).toNat (-(n : Int)) true

/-- VEXP2 on a value (Table 8-4). -/
def XReal.exp2 (x : XReal) : XReal × Flags :=
  match x with
  | .nan => (.nan, 0)
  | .inf s => (if s then .zero false else .inf false, 0)
  | .zero _ => (.fin false 1 0 false, 0)
  | .fin s m e _ =>
    -- beyond 2^20 in magnitude every type over- or underflows
    if 20 ≤ e + Nat.log2 m then (.fin false 1 (if s then -1048576 else 1048576) false, 0) else (exp2Real s m e, 0)

/-- VLOG2 on a value (Table 8-4). -/
def XReal.log2 (x : XReal) : XReal × Flags :=
  match x with
  | .nan => (.nan, 0)
  | .zero _ => (.inf true, fDZ)
  | .inf false => (.inf false, 0)
  | .fin false m e _ => (log2Real m 1 e, 0)
  | _ => (.nan, fNV)

/-- VRCP on a value (Table 8-4). -/
def XReal.rcp (x : XReal) : XReal × Flags := XReal.div (.fin false 1 0 false) x

/-- VRSQ on a value (Table 8-4). -/
def XReal.rsq (x : XReal) : XReal × Flags :=
  match x with
  | .nan => (.nan, 0)
  | .zero s => (.inf s, fDZ)
  | .inf false => (.zero false, 0)
  | .fin false m e _ =>
    let k := 270 + Nat.log2 m
    let k := if (e + k) % 2 = 0 then k else k + 1
    let r := isqrt (2 ^ k / m)
    (.fin false r (-(e + k) / 2) (r * r * m ≠ 2 ^ k), 0)
  | _ => (.nan, fNV)

end Sys2Proof
end

