-- ==== Sys2Proof/Machine/Scalar.lean ====
section
/-! DEFINITION. Scalar integer, address and floating-point instructions (R126 to R139). -/
namespace Sys2Proof.Machine
open Sys2Proof

/-- An integer instruction that writes `f a b` to gd (R127, R128). -/
def runInt (d : Desc) (x : Ops) (s : State) (f : Word → Word → Word) : Host.Outcome State Fault Refusal :=
  runReg d x s true none (fun h => .ok (h.setG (gNum x.d) (f (h.src x.a) (h.src x.b))) 0)

/-- A shift count (R130). -/
def shiftCount (b : Word) : Nat := b.toNat % 64
/-- A truth value as a word. -/
def wordOfBool (b : Bool) : Word := if b then 1 else 0

def execAdd (x : Ops) (s : State) := runInt .add x s (fun a b => a + b)
def execSub (x : Ops) (s : State) := runInt .sub x s (fun a b => a - b)
def execMul (x : Ops) (s : State) := runInt .mul x s (fun a b => a * b)
/-- Bits [127:64] of the signed product (Table 7-1). -/
def execMulh (x : Ops) (s : State) := runInt .mulh x s (fun a b => BitVec.ofInt 64 (a.toInt * b.toInt / 2 ^ 64))
/-- Bits [127:64] of the unsigned product (Table 7-1). -/
def execMulhu (x : Ops) (s : State) := runInt .mulhu x s (fun a b => BitVec.ofNat 64 (a.toNat * b.toNat / 2 ^ 64))
def execAnd (x : Ops) (s : State) := runInt .and x s (fun a b => a &&& b)
def execOr (x : Ops) (s : State) := runInt .or x s (fun a b => a ||| b)
def execXor (x : Ops) (s : State) := runInt .xor x s (fun a b => a ^^^ b)
def execAndn (x : Ops) (s : State) := runInt .andn x s (fun a b => a &&& ~~~b)
def execShl (x : Ops) (s : State) := runInt .shl x s (fun a b => a <<< shiftCount b)
def execShr (x : Ops) (s : State) := runInt .shr x s (fun a b => a >>> shiftCount b)
def execSra (x : Ops) (s : State) := runInt .sra x s (fun a b => a.sshiftRight (shiftCount b))
def execRol (x : Ops) (s : State) := runInt .rol x s (fun a b => a.rotateLeft (shiftCount b))
def execMin (x : Ops) (s : State) := runInt .min x s (fun a b => if a.toInt ≤ b.toInt then a else b)
def execMax (x : Ops) (s : State) := runInt .max x s (fun a b => if b.toInt ≤ a.toInt then a else b)
def execMinu (x : Ops) (s : State) := runInt .minu x s (fun a b => if a.toNat ≤ b.toNat then a else b)
def execMaxu (x : Ops) (s : State) := runInt .maxu x s (fun a b => if b.toNat ≤ a.toNat then a else b)
def execSlt (x : Ops) (s : State) := runInt .slt x s (fun a b => wordOfBool (a.toInt < b.toInt))
def execSltu (x : Ops) (s : State) := runInt .sltu x s (fun a b => wordOfBool (a.toNat < b.toNat))
def execSeq (x : Ops) (s : State) := runInt .seq x s (fun a b => wordOfBool (a = b))
/-- SEL reads gd before writing it (R128). -/
def execSel (x : Ops) (s : State) :=
  runReg .sel x s true none (fun h =>
    .ok (h.setG (gNum x.d) (if h.gr (gNum x.d) ≠ 0 then h.src x.a else h.src x.b)) 0)

/-- A division (R129): the stop of DIVEN, the result `z a` for a zero divisor, `f a b` otherwise. -/
def runDiv (d : Desc) (x : Ops) (s : State) (z : Word → Word) (f : Word → Word → Word) :
    Host.Outcome State Fault Refusal :=
  runReg d x s true none (fun h =>
    let a := h.src x.a
    let b := h.src x.b
    if b = 0 then
      if h.diven then .stop h ⟨.intDivzero, 0, 0, 0, 0, 0⟩ else .ok (h.setG (gNum x.d) (z a)) 0
    else .ok (h.setG (gNum x.d) (f a b)) 0)

def execDiv (x : Ops) (s : State) :=
  runDiv .div x s (fun _ => BitVec.allOnes 64) (fun a b => BitVec.ofInt 64 (a.toInt.tdiv b.toInt))
def execDivu (x : Ops) (s : State) :=
  runDiv .divu x s (fun _ => BitVec.allOnes 64) (fun a b => BitVec.ofNat 64 (a.toNat / b.toNat))
def execRem (x : Ops) (s : State) :=
  runDiv .rem x s (fun a => a) (fun a b => BitVec.ofInt 64 (a.toInt - b.toInt * a.toInt.tdiv b.toInt))
def execRemu (x : Ops) (s : State) :=
  runDiv .remu x s (fun a => a) (fun a b => BitVec.ofNat 64 (a.toNat - b.toNat * (a.toNat / b.toNat)))

/-- Counting from the top bit `n − 1` down to the first 1 bit. -/
def leadingZeros (a : Word) : Nat → Nat
  | 0 => 0
  | n + 1 => if a.getLsbD n then 0 else 1 + leadingZeros a n
/-- Counting from bit `64 − n` up to the first 1 bit. -/
def trailingZeros (a : Word) : Nat → Nat
  | 0 => 0
  | n + 1 => if a.getLsbD (63 - n) then 0 else 1 + trailingZeros a n
/-- The number of 1 bits below bit `n`. -/
def bitCount (a : Word) : Nat → Nat
  | 0 => 0
  | n + 1 => (if a.getLsbD n then 1 else 0) + bitCount a n

def execClz (x : Ops) (s : State) := runInt .clz x s (fun a _ => BitVec.ofNat 64 (leadingZeros a 64))
def execCtz (x : Ops) (s : State) := runInt .ctz x s (fun a _ => BitVec.ofNat 64 (trailingZeros a 64))
def execPopc (x : Ops) (s : State) := runInt .popc x s (fun a _ => BitVec.ofNat 64 (bitCount a 64))
def execMov (x : Ops) (s : State) := runInt .mov x s (fun a _ => a)
/-- The immediate of LI is an i16, or an i32 in A and B (R72, Table 7-3). -/
def execLi (x : Ops) (s : State) :=
  runInt .li x s (fun a _ => if x.a.cls = 7 then BitVec.ofInt 64 (sextN (imm32 x) 32) else a)
def execLih (x : Ops) (s : State) :=
  runReg .lih x s true none (fun h =>
    .ok (h.setG (gNum x.d) (BitVec.ofNat 64 (imm32 x * 2 ^ 32 + (h.gr (gNum x.d)).toNat % 2 ^ 32))) 0)
def execSext (x : Ops) (s : State) := runInt .sext x s (fun a _ => BitVec.ofInt 64 (sextN a.toNat x.ts.width))
def execZext (x : Ops) (s : State) := runInt .zext x s (fun a _ => BitVec.ofNat 64 (zextN a.toNat x.ts.width))
def execLea (x : Ops) (s : State) := runInt .lea x s (fun a b => a + b)
/-- LEA `.pc` adds its own address (R132). -/
def execLeaPc (x : Ops) (s : State) :=
  runReg .leaPc x s true none (fun h => .ok (h.setG (gNum x.d) (h.pc + BitVec.ofInt 64 (sextN (imm32 x) 32))) 0)

/-! Floating point. -/

/-- The encoding that a floating-point operand of type `t` holds in a g register (R133). -/
def Hart.fpBits (h : Hart) (t : Ty) (o : Operand) : Nat := (h.src o).toNat % 2 ^ t.width

/-- A scalar floating-point result: FP_ENABLED, or gd and the flags (R133, R139). -/
def Hart.fpWrite (h : Hart) (x : Ops) (bits : Nat) (f : Flags) : RegDone :=
  h.fpDone (h.setG (gNum x.d) (BitVec.ofNat 64 bits)) f

/-- The arithmetic of Table 7-4: one rounding of an exact value, with the flags of its operands (R134). -/
def runFp (d : Desc) (x : Ops) (s : State) (reads : List Operand) (f : Hart → RM → XReal × Flags) :
    Host.Outcome State Fault Refusal :=
  runReg d x s true none (fun h =>
    let t := x.td
    let rm := h.modeN x
    let (v, fl) := f h rm
    let (bits, g) := v.round t rm (satBit x || h.sat8) 0
    let r := reads.foldl (fun g o => g ||| t.readFlags (h.fpBits t o)) 0
    h.fpWrite x bits (r ||| fl ||| g))

/-- The value of an operand. -/
def Hart.fpVal (h : Hart) (x : Ops) (o : Operand) : XReal := x.td.value (h.fpBits x.td o)

def execFadd (x : Ops) (s : State) :=
  runFp .fadd x s [x.a, x.b] (fun h rm => (h.fpVal x x.a).add (h.fpVal x x.b) rm)
def execFsub (x : Ops) (s : State) :=
  runFp .fsub x s [x.a, x.b] (fun h rm => (h.fpVal x x.a).add (h.fpVal x x.b).neg rm)
def execFmul (x : Ops) (s : State) :=
  runFp .fmul x s [x.a, x.b] (fun h _ => (h.fpVal x x.a).mul (h.fpVal x x.b))
/-- A fused multiply-add of values (R124): ∞ × 0 raises NV whatever the addend (R134, R150). -/
def fusedAdd (a b c : XReal) (rm : RM) : XReal × Flags :=
  let (p, f) := a.mul b
  let (r, g) := p.add c rm
  (r, f ||| g)
def execFma (x : Ops) (s : State) :=
  runFp .fma x s [x.a, x.b, x.d] (fun h rm => fusedAdd (h.fpVal x x.a) (h.fpVal x x.b) (h.fpVal x x.d) rm)
def execFdiv (x : Ops) (s : State) :=
  runFp .fdiv x s [x.a, x.b] (fun h _ => (h.fpVal x x.a).div (h.fpVal x x.b))
def execFsqrt (x : Ops) (s : State) :=
  runFp .fsqrt x s [x.a] (fun h _ => (h.fpVal x x.a).sqrt)

/-- FMIN and FMAX (R135). -/
def runMinMax (d : Desc) (x : Ops) (s : State) (greater : Bool) : Host.Outcome State Fault Refusal :=
  runReg d x s true none (fun h =>
    let (bits, f) := minMax x.td greater (h.fpBits x.td x.a) (h.fpBits x.td x.b)
    h.fpWrite x bits f)
def execFmin (x : Ops) (s : State) := runMinMax .fmin x s false
def execFmax (x : Ops) (s : State) := runMinMax .fmax x s true

/-- FCVT (R136): a stochastic mode draws for element 0 with counter gb; I32 and I64 results are sign-extended. -/
def execFcvt (x : Ops) (s : State) :=
  runReg .fcvt x s true none (fun h =>
    let rm := h.modeC x
    let (e, f) := convert x.td x.ts (h.fpBits x.ts x.a) rm (satBit x) h.sat8 (drawAt 0 (h.src x.b).toNat)
    h.fpWrite x (if x.td.isSigned then encN (sextN e x.td.width) 64 else e) f)

/-- FCMP (R137). -/
def execFcmp (x : Ops) (s : State) :=
  runReg .fcmp x s true none (fun h =>
    let (r, f) := fpCompare x.ts x.var.val (h.fpBits x.ts x.a) (h.fpBits x.ts x.b)
    h.fpWrite x (if r then 1 else 0) f)

/-- The bit of Table 7-6 for an encoding (R138). -/
def fpClass (t : Ty) (x : Nat) : Nat :=
  let neg := t.signBit x
  if t.isNaN x then (if t.isSNaN x then 8 else 9)
  else match t.value x with
    | .inf _ => if neg then 0 else 7
    | .zero _ => if neg then 3 else 4
    | _ => if t.expField x = 0 then (if neg then 2 else 5) else (if neg then 1 else 6)
def execFclass (x : Ops) (s : State) :=
  runReg .fclass x s true none (fun h => .ok (h.setG (gNum x.d) (BitVec.ofNat 64 (2 ^ fpClass x.ts (h.fpBits x.ts x.a)))) 0)

end Sys2Proof.Machine
end

