-- ==== Sys2Proof/Machine/VectorOps.lean ====
section
/-! DEFINITION. What the vector instructions share (R140 to R148): the capacity and liveness checks, the loop over element
groups with its stops, operands that stand for a vector, sums in their shapes (R124). -/
namespace Sys2Proof.Machine
open Sys2Proof

/-- VL_RANGE for the first operand, in the order D, A, B, whose capacity VL.LEN exceeds (R140): `caps` gives the fields
with their element widths. -/
def Hart.vlRange (h : Hart) (x : Ops) (caps : List (Nat × Nat)) : Option Stop :=
  (caps.find? (fun p => match capOf (x.field p.1) p.2 with
    | some c => c < h.vlen
    | none => false)).map (fun p => ⟨.vlRange, 0, 0, 0, p.1, 0⟩)

/-- LIVE_DEAD for the first dead source of the fields given (R55, R145). -/
def Hart.deadStop (h : Hart) (x : Ops) (fs : List Nat) : Option Stop :=
  (h.deadField x fs).map (fun f => ⟨.liveDead, 0, 0, 0, f, 0⟩)

/-- The checks of R145 in their order. -/
def Hart.vecCheck (h : Hart) (x : Ops) (caps : List (Nat × Nat)) (dead : List Nat) : Option Stop :=
  (h.vlRange x caps).or (h.deadStop x dead)

/-- The indices from `start` to `len − 1` in runs that end at multiples of `per` (R146). -/
def unitGroups (start len per : Nat) : List (List Nat) :=
  ((List.range (len / per + 1)).map (fun k => (List.range per).filterMap (fun j =>
    let i := k * per + j
    if start ≤ i && i < len then some i else none))).filter (fun g => !g.isEmpty)

/-- The elements of a group in the order of their ranks. -/
def rankSort (rank : Nat → Nat) (g : List Nat) : List Nat :=
  let rec ins (i : Nat) : List Nat → List Nat
    | [] => [i]
    | j :: js => if rank i < rank j then i :: j :: js else j :: ins i js
  g.foldr ins []

/-- Writing the elements of one group, with their flags. -/
def groupWrites (f : Hart → Nat → Hart × Flags) (h : Hart) (g : List Nat) : Hart × Flags :=
  g.foldl (fun r i => let (h, fl) := f r.1 i; (h, r.2 ||| fl)) (h, 0)

/-- The lowest unit of a group, whatever the order of its elements: the boundary before it (R146). -/
def groupStart (g : List Nat) : Nat := g.min?.getD 0

/-- The loop of a long instruction over its groups (R146, R147): a chosen cut falls between groups; a group that raises
an enabled flag is not written and stops at its start. A stop at boundary 0 leaves a dead destination dead (R389; R170 is
read to speak of later boundaries, log 56). -/
def unitLoop (x : Ops) (f : Hart → Nat → Hart × Flags) (cut : Option Nat) (first : Bool) :
    List (List Nat) → Hart → Flags → RegDone
  | [], h, fl => .ok (h.liveAll x.d) fl
  | g :: gs, h, fl =>
    let b := groupStart g
    if !first && cut = some b then .cut ((h.liveAll x.d).addFlags fl) b
    else
      let (h', fg) := groupWrites f h g
      if h.fpTraps fg then
        .stop (if b = 0 then h else (h.liveAll x.d).addFlags fl) ⟨.fpEnabled, fg.setWidth 64, 0, 0, 0, b⟩
      else unitLoop x f cut false gs h' (fl ||| fg)

/-- The body of a long element-wise instruction (R143 to R147): `wd` the element width of D, `wg` the governing width,
`f` the result of element `i`; `guarded` that it is element-guarded; `order` the order of the elements of a group. -/
def vecBody (x : Ops) (wd wg : Nat) (caps : List (Nat × Nat)) (dead : List Nat) (guarded : Bool)
    (order : List Nat → List Nat) (f : Hart → Nat → Nat × Flags) (h : Hart) : RegDone :=
  match h.vecCheck x caps dead with
  | some e => .stop h e
  | none =>
    let one (h : Hart) (i : Nat) : Hart × Flags :=
      if guarded && !h.pred x i wg then (h, 0)
      else let (e, fl) := f h i; (h.setElem (firstReg x.d) i wd e, fl)
    unitLoop x one (h.cut.map (fun c => c.unit)) true ((unitGroups h.estart.toNat h.vlen (2048 / wg)).map order) h 0

/-- A long element-wise instruction, its elements in index order. -/
def runVec (d : Desc) (x : Ops) (s : State) (wd wg : Nat) (caps : List (Nat × Nat)) (dead : List Nat) (guarded : Bool)
    (f : Hart → Nat → Nat × Flags) : Host.Outcome State Fault Refusal :=
  runReg d x s false (some Hart.vlen) (vecBody x wd wg caps dead guarded id f)

/-- A long element-guarded instruction that reads A at width `ws` and writes D at width `wd`. Where D is the A group and
the widths differ, the order of the elements inside an element group shows; the spec leaves it open (R7, R146), and it is
a free value (log 23). -/
def runMixed (d : Desc) (x : Ops) (s : State) (wd ws : Nat) (caps : List (Nat × Nat)) (dead : List Nat)
    (f : Hart → Nat → Nat × Flags) : Host.Outcome State Fault Refusal :=
  let free := x.d.identical x.a && wd ≠ ws
  runCore d x s false (some Hart.vlen) (fun n h =>
    (vecBody x wd ws caps dead true (if free then rankSort (Config.elementRank s.tick) else id) f h).on
      (if free then { s with tick := s.tick + 1 } else s) n)

/-- An element of an operand that stands for a vector (R141, R151): a v group, a broadcast g register, an immediate. -/
def Hart.vsrc (h : Hart) (x : Ops) (o : Operand) (i w : Nat) : Nat :=
  match o with
  | .v n _ _ => h.elem n.val i w
  | .i32 _ => encN (sextN (imm32 x) 32) w
  | o => (h.src o).toNat % 2 ^ w

/-- The exact sum of terms (R124 Fused): a NaN gives NaN, infinities of both signs give NaN and NV, and an exact zero has
the sign of R113 step 3. -/
def sumAll (rm : RM) (ts : List XReal) : XReal × Flags :=
  if ts.contains .nan then (.nan, 0)
  else match ts with
    | [] => (.zero false, 0)
    | t :: ts => ts.foldl (fun r y => let (v, f) := r.1.add y rm; (v, r.2 ||| f)) (t, 0)

/-- One level of the pairwise tree (R124). -/
def treeLevel {α : Type} (comb : α → α → α × Flags) : List (Option α) → List (Option α) × Flags
  | some a :: some b :: r =>
    let (c, f) := comb a b
    let (r, g) := treeLevel comb r
    (some c :: r, f ||| g)
  | a :: b :: r =>
    let (r, g) := treeLevel comb r
    (a.or b :: r, g)
  | r => (r, 0)
/-- The pairwise tree of R124 over leaves, absent ones `none`; `fuel` at least the number of levels. A level of odd
length keeps its last node, whose partner is absent. -/
def treeSum {α : Type} (comb : α → α → α × Flags) : Nat → List (Option α) → Option α × Flags
  | _, [] => (none, 0)
  | _, [a] => (a, 0)
  | 0, _ => (none, 0)
  | fuel + 1, l =>
    let (l, f) := treeLevel comb l
    let (r, g) := treeSum comb fuel l
    (r, f ||| g)

/-- An arithmetic result on two encodings of a type: exact on the values, then rounded once (R113), or on the integers,
then fitted (R104). -/
def arith (t : Ty) (rm : RM) (sat sat8 : Bool) (fp : XReal → XReal → RM → XReal × Flags) (int : Int → Int → Int)
    (a b : Nat) : Nat × Flags :=
  if t.isFp then
    let (v, f) := fp (t.value a) (t.value b) rm
    let (e, g) := v.round t rm (sat || sat8) 0
    (e, t.readFlags a ||| t.readFlags b ||| f ||| g)
  else fitInt t (int (t.int a) (t.int b)) sat

/-- A result of a not-long vector instruction whose D is a v group: FP_ENABLED before anything is written, or the elements
written (R139, R144, R147). -/
def Hart.writeElems (h : Hart) (x : Ops) (w : Nat) (es : List (Nat × Nat)) (fl : Flags) : RegDone :=
  h.fpDone ((es.foldl (fun h e => h.setElem (firstReg x.d) e.1 w e.2) h).liveAll x.d) fl

/-- The active elements below VL (R140, R143). -/
def Hart.actives (h : Hart) (x : Ops) (w : Nat) : List Nat := (List.range h.vlen).filter (fun i => h.pred x i w)

/-- The scalar operand of VSLIDE, VBCAST and VEXT, unsigned (R159). -/
def Hart.index (h : Hart) (o : Operand) : Nat := (h.src o).toNat

end Sys2Proof.Machine
end

