-- ==== Sys2Proof/Machine/Bank.lean ====
section
/-! DEFINITION. Bank commands (R216 to R236): issue, start, the work at the banks, completion. -/
namespace Sys2Proof.Machine
open Sys2Proof

/-- The commands of Table 11-1 by OP[5:0]. -/
inductive BkOp where
  | add | mul | fma | dot8 | lut4 | sum | fill | acc | clr
  deriving DecidableEq, Repr
/-- The command of an OP[5:0]. -/
def BkOp.ofCode (n : Nat) : BkOp :=
  [.add, .mul, .fma, .dot8, .lut4, .sum, .fill, .acc, .clr].getD n .clr
/-- OP[5:0] of a command. -/
def BkOp.code : BkOp → Nat
  | .add => 0 | .mul => 1 | .fma => 2 | .dot8 => 3 | .lut4 => 4 | .sum => 5 | .fill => 6 | .acc => 7 | .clr => 8
/-- BKADD, BKMUL and BKFMA. -/
def BkOp.elementwise : BkOp → Bool
  | .add | .mul | .fma => true
  | _ => false

/-! The parameter block (Tables 11-2 to 11-4). -/

/-- The header as a structure; RM is resolved against FMODE.RM (R220). -/
def bankParam (bs : List Byte) (fmode : Nat) : BankParam :=
  let rm := fieldAt bs 4 2 % 8
  { count := fieldAt bs 0 4
    rm := if rm = 6 then (if fmode = 5 then 0 else fmode) else rm
    bcast := (fieldAt bs 4 2).testBit 3
    l := fieldAt bs 6 2
    npage := fieldAt bs 8 4
    x := fieldAt bs 0x10 8
    y := fieldAt bs 0x18 8
    z := fieldAt bs 0x20 8
    opv := fieldAt bs 0x28 8
    stride := fieldAt bs 0x30 8
    scalar := fieldAt bs 0x38 8 }

/-- A range that a command touches (Table 11-4), with what R222 counts for it: reads, writes, or units of accumulation. -/
structure BankRange where
  va : Nat
  len : Nat
  reads : Bool
  writes : Bool
  units : Bool
  deriving DecidableEq, Repr

/-- The bytes of an element. -/
def BankParam.esz (_p : BankParam) (td : Ty) : Nat := td.width / 8

/-- The ranges of Table 11-4. -/
def bankRanges (op : BkOp) (td : Ty) (p : BankParam) : List BankRange :=
  let n := p.count * (td.width / 8)
  if p.count = 0 then []
  else match op with
  | .add | .mul | .fma =>
    [⟨p.x, n, true, false, false⟩] ++ (if p.bcast then [] else [⟨p.y, n, true, false, false⟩]) ++ [⟨p.z, n, op = .fma, true, false⟩]
  | .sum => (List.range p.l).map (fun s => ⟨p.x + s * p.stride, n, true, false, false⟩) ++ [⟨p.z, n, false, true, false⟩]
  | .dot8 => (List.range p.count).map (fun r => ⟨p.x + r * p.stride, p.l, true, false, false⟩) ++ [⟨p.z, 16 * p.count, true, true, true⟩]
  | .lut4 => (List.range p.count).map (fun r => ⟨p.x + r * p.stride, p.l / 2, true, false, false⟩) ++ [⟨p.z, 4 * p.count, true, true, false⟩]
  | .fill => [⟨p.z, n, false, true, false⟩]
  | .acc => [⟨p.x, 16 * p.count, true, false, false⟩, ⟨p.z, 16 * p.count, true, true, true⟩]
  | .clr => [⟨p.z, 16 * p.count, false, true, false⟩]

/-- Tables 11-2 and 11-3: values in range, unused and reserved fields 0. -/
def bankFieldsOk (op : BkOp) (bs : List Byte) (p : BankParam) (entries : List Nat) : Bool :=
  let rm := fieldAt bs 4 2 % 8
  let usesRm := op.elementwise || op = .sum || op = .lut4
  let usesX := op ≠ .fill && op ≠ .clr
  let usesY := op.elementwise && !p.bcast
  let rows := op = .dot8 || op = .lut4
  fieldAt bs 4 2 / 16 = 0 && fieldAt bs 12 4 = 0 && p.count ≤ 2 ^ 26 && p.npage ≤ 256 &&
  (if usesRm then rm ≠ 5 && rm ≠ 7 else rm = 0) && (op.elementwise || !p.bcast) &&
  (match op with
   | .sum => 1 ≤ p.l && p.l ≤ 64
   | .dot8 => 1 ≤ p.l && p.l ≤ 1024
   | .lut4 => 2 ≤ p.l && p.l ≤ 32 && p.l % 2 = 0
   | _ => p.l = 0) &&
  (usesX || p.x = 0) && (usesY || p.y = 0) && (rows || p.opv = 0) && (rows || op = .sum || p.stride = 0) && p.stride < 2 ^ 32 &&
  (op ≠ .sum || p.stride % 2 ^ 20 = 0) && ((op.elementwise && p.bcast) || op = .fill || p.scalar = 0) &&
  entries.all (fun e => e % 2 ^ 21 = 0) && (p.count = 0 || p.npage ≠ 0)

/-- The bytes from XVA to the end of the last row. -/
def rowSpan (op : BkOp) (p : BankParam) : Nat :=
  if p.count = 0 then 0 else (p.count - 1) * p.stride + (if op = .lut4 then p.l / 2 else p.l)

/-- The placement rules of Table 11-4, on virtual addresses (R221). -/
def bankPlacesOk (op : BkOp) (td : Ty) (p : BankParam) : Bool :=
  let e := td.width / 8
  let n := p.count * e
  let cong := fun a b => a % 2 ^ 20 = b % 2 ^ 20
  let rowsOk := fun len => (List.range p.count).all (fun r => (p.x + r * p.stride) % 1024 + len ≤ 1024)
  match op with
  | .add | .mul | .fma =>
    p.x % e = 0 && p.z % e = 0 && cong p.x p.z && (p.bcast || (p.y % e = 0 && cong p.y p.z)) &&
    (p.z = p.x || (!p.bcast && p.z = p.y) || (apartVa p.z n p.x n && (p.bcast || apartVa p.z n p.y n)))
  | .sum => cong p.x p.z && (p.z = p.x || (List.range p.l).all (fun s => apartVa p.z n (p.x + s * p.stride) n))
  | .dot8 => rowsOk p.l && p.z % 16 = 0 && apartVa p.z (16 * p.count) p.x (rowSpan op p)
  | .lut4 => rowsOk (p.l / 2) && p.z % 4 = 0 && apartVa p.z (4 * p.count) p.x (rowSpan op p)
  | .fill => p.z % e = 0
  | .acc => p.x % 16 = 0 && p.z % 16 = 0 && apartVa p.x (16 * p.count) p.z (16 * p.count)
  | .clr => p.z % 16 = 0

/-! Translation (R221 to R223, R234). -/

/-- The 2 MiB piece of a virtual address. -/
def pieceBase (va : Nat) : Nat := va / 2 ^ 21 * 2 ^ 21
/-- Whether a command writes bytes of a piece. -/
def pieceWritten (rs : List BankRange) (e : Nat) : Bool := rs.any (fun r => r.writes && r.len ≠ 0 && rangesMeet r.va r.len e (2 ^ 21))

/-- Translating the entries in ascending order: (entry, physical base, class) for each, or the cause and FADDR. A piece of which the
command touches no byte is translated as one that it reads, a choice (log 83). -/
def State.translatePieces (s : State) (asid place : Nat) (rs : List BankRange) : List Nat → Except (Cause × Nat) (List (Nat × Nat × Nat))
  | [] => .ok []
  | e :: es =>
    match s.xlate asid place (if pieceWritten rs e then .write else .read) e with
    | .error c => .error (c, e)
    | .ok x => match State.translatePieces s asid place rs es with
      | .error x => .error x
      | .ok rest => .ok ((e, x.pa, x.pclass) :: rest)

/-- The physical address and class of a byte of a command's ranges. -/
def pieceAt (ps : List (Nat × Nat × Nat)) (va : Nat) : Nat × Nat :=
  match ps.find? (fun p => p.1 = pieceBase va) with
  | some (b, pa, c) => (pa + (va - b), c)
  | none => (0, 0)

/-- What a range adds to the load of each bank it touches (R222): pairs of a bank (64 die + bank) and bytes. -/
def rangeLoad (ps : List (Nat × Nat × Nat)) (r : BankRange) : List (Nat × Nat) :=
  let bank := fun va => let pa := (pieceAt ps va).1; 64 * bitsN pa 13 10 + bitsN pa 19 14
  if r.units then (List.range (r.len / 16)).map (fun i => (bank (r.va + 16 * i), 32))
  else if r.len = 0 then []
  else (List.range ((r.va + r.len - 1) / 32 - r.va / 32 + 1)).map (fun i =>
    (bank (max r.va (r.va / 32 * 32 + 32 * i)), (if r.reads then 32 else 0) + (if r.writes then 32 else 0)))
/-- Whether every bank's load is at most 262,144 bytes (R222). -/
def loadOk (ps : List (Nat × Nat × Nat)) (rs : List BankRange) : Bool :=
  let t := (rs.flatMap (rangeLoad ps)).foldl (fun (t : Table Nat) p => Table.set 0 t p.1 (Table.get 0 t p.1 + p.2)) []
  t.all (fun p => p.2 ≤ 262144)

/-- Whether a piece of a post's DRAM has the byte layout throughout (R221, R264): the plane map decides for each 1 KiB. -/
def State.bytePiece (s : State) (pa : Nat) : Bool := (List.range 2048).all (fun i => !s.inPlane (pa + 1024 * i))

/-- The translation of a command's list with the checks of R221 and R222: the target post and the pieces, or the cause and
FADDR. The target is `target` where it is settled (a queued command's post, R234; the issuer's with COUNT = 0, R224), and
otherwise the post of the first piece. A post that cannot be reached refuses the command (R415, R431, log 66). -/
def State.bankList (s : State) (asid place : Nat) (target : Option Nat) (rs : List BankRange) (entries : List Nat) (ga : Nat) :
    Except (Cause × Nat) (Nat × List (Nat × Nat × Nat)) :=
  match s.translatePieces asid place rs entries with
  | .error e => .error e
  | .ok ps =>
    let post := target.getD (match ps with | (_, pa, _) :: _ => window pa | [] => place)
    let big := fun e => match (s.walkVa asid e place).leaf with | .ok (_, size) => size = 21 || size = 30 | .error _ => false
    match ps.findSome? (fun p =>
        if 7 < window p.2.1 || window p.2.1 ≠ post || !big p.1 || !s.bytePiece p.2.1 then some (Cause.bankParam, p.1)
        else (s.unreachable place p.2.1).map (fun c => (c, p.1))) with
    | some e => .error e
    | none =>
      let inside := fun (r : BankRange) => r.len = 0 ||
        (List.range ((r.va + r.len - 1) / 2 ^ 21 - r.va / 2 ^ 21 + 1)).all (fun i => ps.any (fun p => p.1 = pieceBase r.va + i * 2 ^ 21))
      if rs.all inside && loadOk ps rs then .ok (post, ps) else .error (.bankParam, ga)

/-- The commands of a post's queue (R218). -/
def State.bankQueue (s : State) (post : Nat) : List BankCmd := Table.get [] s.banks post
/-- Replacing a post's queue. -/
def State.setBankQueue (s : State) (post : Nat) (q : List BankCmd) : State := { s with banks := Table.set [] s.banks post q }

/-- Reading `n` 8-byte words as ordinary loads of a core (R223). -/
def State.loadWords (s : State) (hart va hint : Nat) : Nat → State × Except (Cause × Nat) (List Nat)
  | 0 => (s, .ok [])
  | n + 1 =>
    match s.load hart va 8 .read hint with
    | (s, .error e) => (s, .error e)
    | (s, .ok bs) => match State.loadWords s hart (va + 8) hint n with
      | (s, .error e) => (s, .error e)
      | (s, .ok ws) => (s, .ok (natOfBytes bs :: ws))

/-- The operand vector of BKDOT8 and BKLUT4 (R223). -/
def State.operandVector (s : State) (n : Nat) (op : BkOp) (p : BankParam) (hint : Nat) : State × Except (Cause × Nat) (List Byte) :=
  match op with
  | .dot8 => s.load n p.opv p.l .read hint
  | .lut4 => if p.opv % 2 ≠ 0 then (s, .error (.align, p.opv)) else s.load n p.opv ((16 + p.l) * 2) .read hint
  | _ => (s, .ok [])

/-- The last steps of R223 for a prepared command: the wait for a queue entry, the release at the effective scope (R224), the peg, the
queue entry. A post that has become out of reach refuses it (R415, log 66). -/
def State.tryBank (s : State) (n scope ga post : Nat) (c : BankCmd) : Done :=
  if 256 ≤ (s.bankQueue post).length then .wait s ⟨12, 0, 3, BitVec.ofNat 64 ga⟩ (.bank post c)
  else if let some f := s.unreachable (postId n) (post * 2 ^ 48) then .stop s (engineStop (f, ga))
  else
    let s := State.release s n (max scope (if post = postId n then 1 else 2))
    let (s, seq) := s.takeSeq (16 + post)
    let s := s.setPeg n c.peg ⟨1, c.op, post, seq, BitVec.ofNat 64 ga⟩
    let s := s.countCommand c.task n 1 true
    .retire (s.setBankQueue post (s.bankQueue post ++ [{ c with seq := seq }])) 0

/-- A bank command (R223). One that waits has prepared its command; where that is stale, it begins again once the queue has room (log
72). -/
def runBank (d : Desc) (x : Ops) (s : State) (op : BkOp) : Host.Outcome State Fault Refusal :=
  runCore d x s true none (fun n h =>
    let ga := (h.gr (gNum x.a)).toNat
    let hint := x.hint.val
    match h.work with
    | .bank post c => s.tryBank n x.var.val ga post c
    | work =>
    if work.waits (fun w => match w with | .bank post _ => 256 ≤ (s.bankQueue post).length | _ => false) then
      .wait s ⟨12, 0, 3, BitVec.ofNat 64 ga⟩ work
    else if ga % 64 ≠ 0 then .stop s (engineStop (.align, ga))
    else match s.load n ga 64 .read hint with
    | (s, .error e) => .stop s (engineStop e)
    | (s, .ok bs) =>
      let p := bankParam bs h.fmodeRm
      match s.loadWords n (ga + 64) hint p.npage with
      | (s, .error e) => .stop s (engineStop e)
      | (s, .ok entries) =>
        if !(bankFieldsOk op bs p entries && bankPlacesOk op x.td p) then .stop s (engineStop (.bankParam, ga))
        else match s.operandVector n op p hint with
        | (s, .error e) => .stop s (engineStop e)
        | (s, .ok opv) =>
          let rs := bankRanges op x.td p
          let found := s.bankList (s.asidOf n) (postId n) (if p.count = 0 then some (postId n) else none) rs entries ga
          let s := entries.foldl (fun s e => s.noteWalks n e 1) s
          match found with
          | .error e => .stop s (engineStop e)
          | .ok (post, ps) => s.tryBank n x.var.val ga post {
              seq := 0, op := op.code, td := x.td, ts := x.ts, par := p, entries := entries.map (BitVec.ofNat 64),
              pieces := ps, opv := opv, task := h.task, graph := match s.graphOf n with | some (g, _) => g | none => 0,
              asid := s.asidOf n, peg := gNum x.d, started := false, stale := false, early := [], ran := [], seen := 0, met := none, result := none })

def execBkadd (x : Ops) (s : State) := runBank .bkadd x s .add
def execBkmul (x : Ops) (s : State) := runBank .bkmul x s .mul
def execBkfma (x : Ops) (s : State) := runBank .bkfma x s .fma
def execBkdot8 (x : Ops) (s : State) := runBank .bkdot8 x s .dot8
def execBklut4 (x : Ops) (s : State) := runBank .bklut4 x s .lut4
def execBksum (x : Ops) (s : State) := runBank .bksum x s .sum
def execBkfill (x : Ops) (s : State) := runBank .bkfill x s .fill
def execBkacc (x : Ops) (s : State) := runBank .bkacc x s .acc
def execBkclr (x : Ops) (s : State) := runBank .bkclr x s .clr

/-! The work at the banks: DRAM itself, not the L2 (R235). -/

/-- Reading a sector of DRAM for an engine (R231, R403): its correction or rebuild, or the cause. -/
def State.dramUnit (s : State) (pa pclass : Nat) (who : LogAgent) : State × Option Cause :=
  let e := s.errAt pa
  if e.poison then (s, some .poison)
  else if e = .clean || s.asStored pa pclass then (s, none)
  else if !e.uncorr || (pclass = 0 && s.rebuilds pa) then (s.setErr pa .clean, none)
  else (s.logError pa 0 who, some .eccUncorr)

/-- What an engine reads: the number that the bytes hold and the causes met. -/
structure BankRead where
  val : Nat
  causes : List Cause
  deriving DecidableEq, Repr

/-- Writing bytes of one sector to DRAM (R405 to R407): a whole sector takes fresh check bits. -/
def State.dramWrite (s : State) (pa pclass : Nat) (data : List Byte) (poison : Bool) (who : LogAgent) : State :=
  let e := s.errAt pa
  let whole := data.length = 32
  let raw := s.asStored pa pclass
  let lost := !whole && e.uncorr && !((pclass = 0 && s.rebuilds pa) || raw)
  let old := if lost then s.dramSector pa ^^^ e.flip else s.dramSector pa
  let s := if lost then s.logError pa 1 who else s
  let flip := if raw then flipLeft e.flip (pa / 32 * 32) pa data.length else 0
  (s.putNat (pa / 32 * 32) 32 (mergeUnit old (pa / 32 * 32) pa data)).setErr pa ⟨poison || (!whole && (e.poison || lost)), false, flip⟩

/-- What the work has met so far: flags, and the cause of lowest index and rank (R231). -/
structure BankSum where
  flags : Flags
  cause : Option (Nat × Nat × Cause)
  deriving DecidableEq, Repr

/-- The rank of a cause among those of one index (R231). -/
def bankRank (c : Cause) : Nat := match c with | .bankParam => 0 | .poison => 1 | _ => 2
/-- Noting causes met at an index. -/
def BankSum.note (b : BankSum) (i : Nat) (cs : List Cause) : BankSum :=
  cs.foldl (fun b c => match b.cause with
    | some (j, r, _) => if i < j || (i = j && bankRank c < r) then { b with cause := some (i, bankRank c, c) } else b
    | none => { b with cause := some (i, bankRank c, c) }) b

/-- One element of a command: the bits written, the flags, the causes met at its sources. -/
structure BankElem where
  bits : Nat
  flags : Flags
  causes : List Cause
  deriving DecidableEq, Repr

/-- Reading a byte of DRAM at a virtual address of the command's pieces: the sector's state, and the byte as it stands. -/
def State.bankByte (s : State) (c : BankCmd) (va : Nat) (who : LogAgent) : State × Byte × List Cause :=
  let (pa, pc) := pieceAt c.pieces va
  let (s, f) := s.dramUnit pa pc who
  (s, s.rawByte pa, f.toList)
/-- Reading `n` bytes of DRAM at a virtual address of the command's pieces; those read ahead are not read again (R320). -/
def State.bankGet (s : State) (c : BankCmd) (va n : Nat) (who : LogAgent) : State × BankRead :=
  let early := fun i => c.early.find? (fun e => e.1 = va + i)
  let read := (List.range n).filter (fun i => (early i).isNone)
  let (s, cs) := (read.filter (fun i => i = 0 || (va + i) % 32 = 0 || (early (i - 1)).isSome)).foldl (fun (r : State × List Cause) i =>
    let (s, _, f) := r.1.bankByte c (va + i) who
    (s, r.2 ++ f)) (s, [])
  (s, ⟨natOfBytes ((List.range n).map (fun i => match early i with
      | some e => e.2.1
      | none => (s.bankByte c (va + i) who).2.1)),
    cs ++ (List.range n).flatMap (fun i => match early i with | some e => e.2.2 | none => [])⟩)

/-- Writing bytes to DRAM at a virtual address, sector by sector. -/
def State.bankPut (s : State) (c : BankCmd) (poison : Bool) (who : LogAgent) : (fuel va : Nat) → List Byte → State
  | 0, _, _ => s
  | _, _, [] => s
  | fuel + 1, va, data =>
    let (pa, pc) := pieceAt c.pieces va
    let n := 32 - va % 32
    State.bankPut (s.dramWrite pa pc (data.take n) poison who) c poison who fuel (va + n) (data.drop n)

/-- An element of BKADD, BKMUL or BKFMA (R225). -/
def State.bankElementwise (s : State) (c : BankCmd) (who : LogAgent) (i : Nat) : State × BankElem :=
  let t := c.td
  let e := t.width / 8
  let rm := RM.ofCode c.par.rm
  let (s, x) := s.bankGet c (c.par.x + i * e) e who
  let (s, y) := if c.par.bcast then (s, ⟨c.par.scalar % 2 ^ t.width, []⟩) else s.bankGet c (c.par.y + i * e) e who
  let (s, z) := if c.op = 2 then s.bankGet c (c.par.z + i * e) e who else (s, ⟨0, []⟩)
  let (v, f) := if c.op = 0 then (t.value x.val).add (t.value y.val) rm
    else if c.op = 1 then (t.value x.val).mul (t.value y.val)
    else fusedAdd (t.value x.val) (t.value y.val) (t.value z.val) rm
  let (bits, g) := v.round t rm false 0
  (s, ⟨bits, f ||| g ||| t.readFlags x.val ||| t.readFlags y.val ||| (if c.op = 2 then t.readFlags z.val else 0), x.causes ++ y.causes ++ z.causes⟩)

/-- An element of BKSUM (R226). -/
def State.bankSumElem (s : State) (c : BankCmd) (who : LogAgent) (i : Nat) : State × BankElem :=
  let t := c.td
  let e := t.width / 8
  let rm := RM.ofCode c.par.rm
  (List.range c.par.l).foldl (fun (r : State × BankElem) k =>
    let (s, a) := r
    let (s, x) := s.bankGet c (c.par.x + k * c.par.stride + i * e) e who
    let (v, f) := if k = 0 then (t.value x.val, (0 : Flags)) else (t.value a.bits).add (t.value x.val) rm
    let (bits, g) := v.round t rm false 0
    (s, ⟨bits, a.flags ||| f ||| g ||| t.readFlags x.val, a.causes ++ x.causes⟩)) (s, ⟨0, 0, []⟩)

/-- A row of BKLUT4 (R229). -/
def State.bankLutElem (s : State) (c : BankCmd) (who : LogAgent) (r : Nat) : State × BankElem :=
  let t := c.ts
  let rm := RM.ofCode c.par.rm
  let (s, row) := s.bankGet c (c.par.x + r * c.par.stride) (c.par.l / 2) who
  let (s, z) := s.bankGet c (c.par.z + 4 * r) 4 who
  let op := fun k => natOfBytes ((c.opv.drop (2 * k)).take 2)
  let pairs := (List.range c.par.l).map (fun l => (op (16 + l), op (bitsN row.val (4 * l + 3) (4 * l))))
  let ps := pairs.map (fun p => XReal.mul (t.value p.1) (t.value p.2))
  let rd := pairs.foldl (fun f p => f ||| t.readFlags p.1 ||| t.readFlags p.2) (Ty.fp32.readFlags z.val)
  let (v, f) := sumAll rm (Ty.fp32.value z.val :: ps.map (fun p => p.1))
  let (bits, g) := v.round .fp32 rm false 0
  (s, ⟨bits, ps.foldl (fun f p => f ||| p.2) (rd ||| f ||| g), row.causes ++ z.causes⟩)

/-! Exact accumulators (R120 to R122). -/

/-- Whether a record keeps R120. -/
def accOk (r : Nat) : Bool :=
  r / 2 ^ 100 = 0 && ((if r.testBit 96 then 1 else 0) + (if r.testBit 97 then 1 else 0) + (if r.testBit 98 then 1 else 0) : Nat) ≤ 1

/-- The terms of a unit: the sum of the finite ones over 2^−32, and which special terms there are. -/
structure AccTerms where
  fin : Int
  nan : Bool
  pinf : Bool
  ninf : Bool
  deriving DecidableEq, Repr

/-- Adding the value of a term. -/
def AccTerms.add (a : AccTerms) (x : XReal) : AccTerms :=
  match x with
  | .nan => { a with nan := true }
  | .inf s => if s then { a with ninf := true } else { a with pinf := true }
  | .zero _ => a
  | x => { a with fin := a.fin + x.scaled (-32) }

/-- A unit of accumulation (R122, Table 6-7): the new record and its flags. -/
def accUnit (r : Nat) (t : AccTerms) : Nat × Flags :=
  let f := sextN r 96 + t.fin
  let v := max (-(2 ^ 95 : Nat) : Int) (min f ((2 ^ 95 : Nat) - 1))
  let outside := v ≠ f
  let stored := r.testBit 96
  let p := r.testBit 97 || t.pinf
  let n := r.testBit 98 || t.ninf
  let clash := !stored && !t.nan && p && n
  let nan := stored || t.nan || clash
  let bit := fun (b : Bool) k => if b then 2 ^ k else 0
  (encN v 96 + bit nan 96 + bit (!nan && p) 97 + bit (!nan && n) 98 + bit (r.testBit 99 || outside) 99,
   (if outside then fACCOV else 0) ||| (if clash then fNV else 0))

/-- A unit of BKDOT8 (R228): its terms and their flags. -/
def dotTerms (c : BankCmd) (row : Nat) : AccTerms × Flags :=
  (List.range c.par.l).foldl (fun (r : AccTerms × Flags) l =>
    let (x, f) := XReal.mul (c.ts.value (bitsN row (8 * l + 7) (8 * l))) (c.td.value (c.opv.getD l 0).toNat)
    (r.1.add x, r.2 ||| f)) (⟨0, false, false, false⟩, 0)

/-- A unit of BKACC (R230): the terms of a record. -/
def recordTerms (r : Nat) : AccTerms := ⟨sextN r 96, r.testBit 96, r.testBit 97, r.testBit 98⟩

/-- Record `r` of BKDOT8 or BKACC, read and written in one step (R228, R230): left as it is where a record breaks R120, with a bad source
too, a choice (R231, log 84). -/
def State.bankRecord (s : State) (c : BankCmd) (who : LogAgent) (b : BankSum) (r : Nat) : State × BankSum :=
  let dot := c.op = 3
  let (s, src) := if dot then s.bankGet c (c.par.x + r * c.par.stride) c.par.l who else s.bankGet c (c.par.x + 16 * r) 16 who
  let (s, z) := s.bankGet c (c.par.z + 16 * r) 16 who
  if !accOk z.val || (!dot && !accOk src.val) then (s, b.note r (.bankParam :: src.causes ++ z.causes))
  else
    let (t, f) := if dot then dotTerms c src.val else (recordTerms src.val, 0)
    let (v, g) := accUnit z.val t
    let v := if !dot && src.val.testBit 99 && !v.testBit 99 then v + 2 ^ 99 else v
    let cs := src.causes ++ z.causes
    (s.bankPut c (!cs.isEmpty) who 16 (c.par.z + 16 * r) (bytesOf 16 v), { b with flags := b.flags ||| f ||| g }.note r cs)

/-- The elements of one destination sector, computed and then written in one access (R233): `n` elements of `e` bytes from
index `i`. Elements computed from poisoned or uncorrectable sources raise their flags too, a choice (R231, log 65). -/
def State.bankSector (s : State) (c : BankCmd) (who : LogAgent) (elem : State → Nat → State × BankElem) (e i n : Nat) (b : BankSum) :
    State × BankSum :=
  let (s, els) := (List.range n).foldl (fun (r : State × List BankElem) k =>
    let (s, x) := elem r.1 (i + k)
    (s, r.2 ++ [x])) (s, [])
  let s := s.bankPut c (els.any (fun x => !x.causes.isEmpty)) who 32 (c.par.z + i * e) (els.flatMap (fun x => bytesOf e x.bits))
  (s, (els.zipIdx).foldl (fun b p => { b with flags := b.flags ||| p.1.flags }.note (i + p.2) p.1.causes) b)

/-- The bytes of one element of the destination (R225 to R230). -/
def BankCmd.size (c : BankCmd) : Nat :=
  match BkOp.ofCode c.op with
  | .lut4 => 4
  | .clr | .dot8 | .acc => 16
  | _ => c.td.width / 8
/-- The destination sector of element `i`, by its virtual address. -/
def BankCmd.place (c : BankCmd) (i : Nat) : Nat := (c.par.z + i * c.size) / 32

/-- The elements of a command in the destination sectors that `on` selects, sector by sector. -/
def State.bankElements (c : BankCmd) (who : LogAgent) (on : Nat → Bool) (elem : State → Nat → State × BankElem) (e : Nat) :
    (fuel i : Nat) → State → BankSum → State × BankSum
  | 0, _, s, b => (s, b)
  | fuel + 1, i, s, b =>
    if c.par.count ≤ i then (s, b)
    else
      let n := min (c.par.count - i) (max 1 ((32 - (c.par.z + i * e) % 32) / e))
      let (s, b) := if on (c.place i) then s.bankSector c who elem e i n b else (s, b)
      State.bankElements c who on elem e fuel (i + n) s b

/-- The agent that the error log names for a command (Table 20-2). -/
def State.bankAgent (s : State) (c : BankCmd) : LogAgent :=
  ⟨1, 0, c.asid, c.graph, match c.task.bind s.task with | some t => t.id | none => 0⟩
/-- The work of a command in the destination sectors that `on` selects (R225 to R230), with what was met before. -/
def State.bankShare (s : State) (c : BankCmd) (on : Nat → Bool) (b : BankSum) : State × BankSum :=
  let who := s.bankAgent c
  let n := c.par.count
  let e := c.td.width / 8
  let const := fun (v : Nat) (s : State) (_ : Nat) => (s, (⟨v, 0, []⟩ : BankElem))
  match BkOp.ofCode c.op with
  | .add | .mul | .fma => State.bankElements c who on (fun s i => s.bankElementwise c who i) e n 0 s b
  | .sum => State.bankElements c who on (fun s i => s.bankSumElem c who i) e n 0 s b
  | .lut4 => State.bankElements c who on (fun s i => s.bankLutElem c who i) 4 n 0 s b
  | .fill => State.bankElements c who on (const (c.par.scalar % 2 ^ c.td.width)) e n 0 s b
  | .clr => State.bankElements c who on (const 0) 16 n 0 s b
  | .dot8 | .acc => (List.range n).foldl (fun r i => if on (c.place i) then r.1.bankRecord c who r.2 i else r) (s, b)

/-- The whole work of a command. -/
def State.bankWork (s : State) (c : BankCmd) : State × BankSum := s.bankShare c (fun _ => true) ⟨0, none⟩

/-- Applying the work of a started command that is not yet done. -/
def State.bankApply (s : State) (post : Nat) (c : BankCmd) : State :=
  if c.started && c.result.isNone then
    let (s, b) := s.bankShare c (fun k => !c.ran.contains k) ⟨c.seen, c.met⟩
    let c' := { c with result := some (match b.cause with | some (_, _, x) => x | none => .none, b.flags) }
    s.setBankQueue post ((s.bankQueue post).map (fun d => if d.seq = c.seq then c' else d))
  else s

/-- The bank that holds a destination sector, as a number of its place modulo 2^20 (R217, R221). -/
def placeBank (k : Nat) : Nat := k / 32 % 1024

/-- The ranges that element `i` of a command reads and does not write (R225 to R230). -/
def BankCmd.sources (c : BankCmd) (i : Nat) : List (Nat × Nat) :=
  let p := c.par
  let e := c.td.width / 8
  match BkOp.ofCode c.op with
  | .add | .mul | .fma => (p.x + i * e, e) :: (if p.bcast then [] else [(p.y + i * e, e)])
  | .sum => (List.range p.l).map (fun k => (p.x + k * p.stride + i * e, e))
  | .dot8 => [(p.x + i * p.stride, p.l)]
  | .lut4 => [(p.x + i * p.stride, p.l / 2)]
  | .acc => [(p.x + 16 * i, 16)]
  | .fill | .clr => []
/-- The DRAM sector of a virtual address of a command. -/
def BankCmd.dram (c : BankCmd) (va : Nat) : Nat := (pieceAt c.pieces va).1 / 32
/-- The DRAM sectors that the elements of a destination sector read. -/
def BankCmd.reads (c : BankCmd) (k : Nat) : List Nat :=
  (((List.range c.par.count).filter (fun i => c.place i = k)).flatMap c.sources).flatMap (fun r =>
    (List.range ((r.1 + r.2 - 1) / 32 + 1 - r.1 / 32)).map (fun j => c.dram (r.1 / 32 * 32 + 32 * j)))
/-- Whether the elements of two destination sectors meet in DRAM, so that their order shows (R225, R226). -/
def BankCmd.ordered (c : BankCmd) (j k : Nat) : Bool :=
  c.dram (32 * j) = c.dram (32 * k) || (c.reads k).contains (c.dram (32 * j)) || (c.reads j).contains (c.dram (32 * k))
/-- The destination sectors that are done with the one at `k`: itself, and those of its bank before it, not yet done, that it or
another of them must follow. -/
def BankCmd.share (c : BankCmd) (i k : Nat) : List Nat :=
  ((((List.range i).map c.place).eraseDups.filter (fun j => j < k && placeBank j = placeBank k && !c.ran.contains j)).reverse).foldl
    (fun l j => if l.any (c.ordered j) then j :: l else l) [k]

/-- A started command of a post whose work is not done, after the commands started before it have done theirs (R218, R233, log 27). -/
def State.bankReady (s : State) (post seq : Nat) : State × Option BankCmd :=
  let find := fun (s : State) => (s.bankQueue post).find? (fun c => c.seq = seq && c.started && c.result.isNone)
  match find s with
  | none => (s, none)
  | some _ =>
    let s := ((s.bankQueue post).filter (fun c => c.seq < seq)).foldl (fun s c => s.bankApply post c) s
    (s, find s)
/-- A bank engine does the destination sector of element `i` of a started command, after those of its bank that come before it where the
order shows (R225, R226); the sectors of a bank are otherwise done in any order (R320). -/
def State.bankTurn (s : State) (post seq i : Nat) : State :=
  match s.bankReady post seq with
  | (s, none) => s
  | (s, some c) =>
    let k := c.place i
    if c.par.count ≤ i || c.ran.contains k then s
    else
      let now := c.share i k
      let (s, b) := s.bankShare c now.contains ⟨c.seen, c.met⟩
      s.setBankQueue post ((s.bankQueue post).map (fun d =>
        if d.seq = c.seq then { c with ran := now ++ c.ran, seen := b.flags, met := b.cause } else d))
/-- A bank engine reads a source byte of element `i` of a started command ahead of its work (R320), unless the command writes its
sector. -/
def State.bankPeek (s : State) (post seq i va : Nat) : State :=
  match s.bankReady post seq with
  | (s, none) => s
  | (s, some c) =>
    if c.par.count ≤ i || c.ran.contains (c.place i) || c.early.any (fun e => e.1 = va) ||
        !(c.sources i).any (fun r => r.1 ≤ va && va < r.1 + r.2) ||
        (List.range c.par.count).any (fun j => c.dram (32 * c.place j) = c.dram va) then s
    else
      let (s, b, f) := s.bankByte c va (s.bankAgent c)
      s.setBankQueue post ((s.bankQueue post).map (fun d => if d.seq = c.seq then { c with early := (va, b, f) :: c.early } else d))

/-- Ending a command with a status (R231, R62). -/
def State.endBank (s : State) (post : Nat) (c : BankCmd) (cause : Cause) (flags : Flags) : State :=
  let s := s.setBankQueue post ((s.bankQueue post).filter (fun d => d.seq ≠ c.seq))
  let s := s.deliverTo c.task 0 c.peg (statusWord cause flags 1 0 0)
  State.tryComplete (s.countCommand c.task 0 1 false) c.graph

/-- BANK_CMD_START: the first command not started starts, while at most four of the post are (R218). -/
def execBankCmdStart (post : Nat) (s : State) : Host.Outcome State Fault Refusal :=
  let q := s.bankQueue post
  match q.find? (fun c => !c.started) with
  | some c =>
    if (q.filter (fun c => c.started)).length < 4 then
      .next (s.setBankQueue post (q.map (fun d => if d.seq = c.seq then { c with started := true } else d)))
    else .next s
  | none => .next s

/-- BANK_CMD_COMPLETE: what is left of the work of the commands started before it is done first (R218, R233, log 27); then of
its own, and its status is delivered. -/
def execBankCmdComplete (post seq : Nat) (s : State) : Host.Outcome State Fault Refusal :=
  match (s.bankQueue post).find? (fun c => c.seq = seq && c.started) with
  | none => .next s
  | some _ =>
    let s := ((s.bankQueue post).filter (fun c => c.seq ≤ seq)).foldl (fun s c => s.bankApply post c) s
    match (s.bankQueue post).find? (fun c => c.seq = seq) with
    | some c => match c.result with
      | some (x, f) => .next (s.endBank post c x f)
      | none => .next s
    | none => .next s

end Sys2Proof.Machine
end

