-- ==== Sys2Proof/Machine/Rows.lean ====
section
/-! DEFINITION. Row programs (R237 to R261): RPMODE and RPGO, the sequencer's list, joints, the row instructions, waves,
alerts and refresh. -/
namespace Sys2Proof.Machine
open Sys2Proof

/-! The programs of a sequencer. -/

/-- The accepted programs of a post, in order of acceptance (R259). -/
def State.progsAt (s : State) (post : Nat) : List RowProg := Table.get [] s.progs post
/-- Replacing them. -/
def State.setProgs (s : State) (post : Nat) (ps : List RowProg) : State := { s with progs := Table.set [] s.progs post ps }
/-- A program of a post. -/
def State.prog (s : State) (post pid : Nat) : Option RowProg := (s.progsAt post).find? (fun p => p.pid = pid)
/-- Replacing a program. -/
def State.setProg (s : State) (post : Nat) (p : RowProg) : State :=
  s.setProgs post ((s.progsAt post).map (fun q => if q.pid = p.pid then p else q))
/-- The subarrays of a program's region. -/
def State.subsOf (s : State) (p : RowProg) : List Nat := match s.region p.asid p.handle with | some r => r.subs | none => []

/-- Whether the 64 places of a sequencer queue are taken: by programs that have not ended and mode requests not yet applied
(R259). -/
def State.seqFull (s : State) (post : Nat) : Bool :=
  64 ≤ (s.progsAt post).length +
    ((s.regions.filter (fun r => r.post = post)).map (fun r => (r.items.filter (fun i => match i with | .mode .. => true | _ => false)).length)).sum

/-- A stop of RPMODE or RPGO (R241, R243): kind 5, field 3. -/
def rowStop (e : Cause × Nat) : Stop := ⟨e.1, BitVec.ofNat 64 e.2, 5, 0, 3, 0⟩

/-! RPMODE and RPGO. -/

/-- The last steps of R241: the wait for a place in the queue, the request; with an empty list the mode changes at once (R240). A post
that has become out of reach refuses it (R415, log 66). -/
def State.tryMode (s : State) (n handle post : Nat) (subs : List Nat) (compute : Bool) : Done :=
  if s.seqFull post then .wait s ⟨12, 0, 3, 0⟩ (.mode post subs)
  else if let some f := s.unreachable (postId n) (post * 2 ^ 48) then .stop s (rowStop (f, 0))
  else
    let (s, _) := s.takeSeq (32 + post)
    let asid := s.asidOf n
    let gid := match s.graphOf n with | some (g, _) => g | none => 0
    let busy := match s.region asid handle with | some r => !r.items.isEmpty | none => false
    let item := if busy && s.tailMode asid handle != compute then some (Item.mode compute gid) else none
    .retire (s.admitRegion asid handle post subs item (some compute)) 0

/-- RPMODE (R241). One that waits has found its region; where that is stale, it begins again once the queue has room (log 72). -/
def runRpmode (d : Desc) (x : Ops) (s : State) (compute : Bool) : Host.Outcome State Fault Refusal :=
  runCore d x s true none (fun n h =>
    let ga := (h.gr (gNum x.a)).toNat
    match h.work with
    | .mode post subs => s.tryMode n ga post subs compute
    | work =>
      if work.waits (fun w => match w with | .mode post _ => s.seqFull post | _ => false) then .wait s ⟨12, 0, 3, 0⟩ work
      else match (if 2 ^ 32 ≤ ga then (s, .error .regionHandle) else s.validRegion (postId n) (s.asidOf n) ga) with
      | (s, .error c) => .stop s (rowStop (c, 0))
      | (s, .ok (post, subs)) => s.tryMode n ga post subs compute)
def execRpmodeCopy (x : Ops) (s : State) := runRpmode .rpmodeCopy x s false
def execRpmodeCompute (x : Ops) (s : State) := runRpmode .rpmodeCompute x s true

/-- Whether a block of Table 12-2 is refused. -/
def rowBlockBad (bs : List Byte) : Bool :=
  let nword := fieldAt bs 4 2
  fieldAt bs 6 2 ≠ 0 || nword = 0 || 1024 < nword || fieldAt bs 8 8 % 4 ≠ 0 || fieldAt bs 0x10 8 % 64 ≠ 0 ||
    fieldAt bs 0x18 8 % 64 ≠ 0 || (List.range 8).any (fun i => 512 ≤ fieldAt bs (0x20 + 2 * i) 2) ||
    fieldAt bs 0x34 4 ≠ 0 || fieldAt bs 0x38 8 ≠ 0

/-- The ranges that a program's translations cover (R243, R260): its words, INVA, OUTVA. -/
def rowRanges (nword prog inva outva : Nat) : List (Nat × Nat × Acc) :=
  [(prog, 12 * nword, .exec)] ++ (if inva = 0 then [] else [(inva, 4096, .read)]) ++ (if outva = 0 then [] else [(outva, 4096, .write)])

/-- Translating the ranges of a program in order. -/
def State.rowXlate (s : State) (asid place : Nat) : List (Nat × Nat × Acc) → Except (Cause × Nat) (List (List Piece))
  | [] => .ok []
  | (va, n, k) :: rs =>
    match mapRange (s.xlate asid place k) va n with
    | .error e => .error e
    | .ok ps => match State.rowXlate s asid place rs with
      | .error e => .error e
      | .ok rest => .ok (ps :: rest)

/-- The four slots that 4 KiB fill (R245). -/
def slotsOf (bs : List Byte) : Table (BitVec 8192) :=
  Table.ofList 0 0 ((List.range 4).map (fun i => BitVec.ofNat 8192 (natOfBytes ((bs.drop (1024 * i)).take 1024))))

/-- A program that an instruction has prepared (R243): nothing of it is done. -/
def State.newProg (s : State) (n peg : Nat) (bs code input : List Byte) (out : List Piece) : RowProg where
  pid := 0
  seq := 0
  words := (List.range (fieldAt bs 4 2)).map (fun i => wordOfBytes ((code.drop (12 * i)).take 12))
  prog := fieldAt bs 8 8
  inva := fieldAt bs 0x10 8
  outva := fieldAt bs 0x18 8
  out := out
  asid := s.asidOf n
  handle := fieldAt bs 0 4
  task := (s.hart n).task
  graph := match s.graphOf n with | some (g, _) => g | none => 0
  prio := s.levelOn n
  peg := peg
  slots := slotsOf input
  pb := (List.range 8).map (fun i => fieldAt bs (0x20 + 2 * i) 2)
  px := [0, 0, 0, 0]
  sel := fieldAt bs 0x30 4
  loops := []
  ops := 0
  idx := 0
  mark := false
  throttled := false
  alerts := []
  begun := false
  running := false
  recheck := false
  parity := false
  wrote := []

/-- The last steps of R243 for a prepared program: the wait for a place in the queue, the region's mode, the release, the peg, the
acceptance. The effective scope is that of R244. A post that has become out of reach refuses it (R415, log 66). -/
def State.tryProg (s : State) (n scope post ga : Nat) (subs : List Nat) (p : RowProg) : Done :=
  if s.seqFull post then .wait s ⟨12, 0, 3, BitVec.ofNat 64 ga⟩ (.prog post ga subs p)
  else if let some f := s.unreachable (postId n) (post * 2 ^ 48) then .stop s (rowStop (f, ga))
  else if !s.tailMode p.asid p.handle then .stop s (rowStop (.regionMode, ga))
  else
    let s := State.release s n (max scope (if post = postId n then 1 else 2))
    let (s, seq) := s.takeSeq (32 + post)
    let s := s.setPeg n p.peg ⟨2, 0, post, seq, BitVec.ofNat 64 ga⟩
    let s := s.countCommand p.task n 2 true
    let throttled := s.progs.any (fun q => q.2.any (fun r => r.asid = p.asid && r.throttled))
    let s := s.setProgs post (s.progsAt post ++ [{ p with pid := seq, seq := seq, throttled := throttled }])
    .retire (s.admitRegion p.asid p.handle post subs (some (.prog seq)) none) 0

/-- The walks of the ranges of a program, up to one that fails (R366, R404). -/
def State.rowWalks (s : State) (asid place : Nat) (who : LogAgent) (rs : List (Nat × Nat × Acc)) : State :=
  rs.foldl (fun s r => s.remember asid place r.1 r.2.1 who) s

/-- RPGO (R243). One that waits has read its block, its words and its slots; where they are stale, it begins again once the queue has
room (log 72). -/
def execRpgo (x : Ops) (s : State) :=
  runCore .rpgo x s true none (fun n h =>
    match h.work with
    | .prog post ga subs p => s.tryProg n x.var.val post ga subs p
    | work =>
    let ga := (h.gr (gNum x.a)).toNat
    let hint := x.hint.val
    let asid := s.asidOf n
    if work.waits (fun w => match w with | .prog post _ _ _ => s.seqFull post | _ => false) then .wait s ⟨12, 0, 3, BitVec.ofNat 64 ga⟩ work
    else if ga % 64 ≠ 0 then .stop s (rowStop (.align, ga))
    else match s.load n ga 64 .read hint with
    | (s, .error e) => .stop s (rowStop e)
    | (s, .ok bs) =>
      let handle := fieldAt bs 0 4
      let nword := fieldAt bs 4 2
      let prog := fieldAt bs 8 8
      let inva := fieldAt bs 0x10 8
      let outva := fieldAt bs 0x18 8
      if rowBlockBad bs then .stop s (rowStop (.bankParam, ga))
      else match s.validRegion (postId n) asid handle with
      | (s, .error c) => .stop s (rowStop (c, ga))
      | (s, .ok (post, subs)) =>
        let ranges := rowRanges nword prog inva outva
        let found := s.rowXlate asid (postId n) ranges
        let s := s.rowWalks asid (postId n) (s.logHart n) ranges
        match found with
        | .error e => .stop s (rowStop e)
        | .ok rs =>
          let data := (rs.drop 1).flatten
          let out := if outva = 0 then [] else rs.getLastD []
          if data.any (fun p => 8 < window p.addr) then .stop s (rowStop (.bankParam, ga))
          else match firstByte outva (fun pa => inImageArea pa) out with
          | some a => .stop s (rowStop (.imageAccess, a))
          | none => match s.load n prog (12 * nword) .exec hint with
            | (s, .error e) => .stop s (rowStop e)
            | (s, .ok code) => match (if inva = 0 then (s, .ok []) else s.load n inva 4096 .read hint) with
              | (s, .error e) => .stop s (rowStop e)
              | (s, .ok input) => s.tryProg n x.var.val post ga subs (s.newProg n (gNum x.d) bs code input out))

/-! Ends, joints and starts. -/

/-- Resetting the activation counts of some rows (R255, R256). -/
def State.refreshRows (s : State) (post sub : Nat) (p : Nat → Bool) : State :=
  { s with acts := s.acts.filter (fun a => !(rowKey post sub 0 ≤ a.1 && a.1 < rowKey post sub 524 && p (a.1 - rowKey post sub 0))) }

/-- Making the refreshes of a region's subarrays that have fallen due (R254 item 4, R255). -/
def State.makeDue (s : State) (post : Nat) (subs : List Nat) : State :=
  let s : State := (s.due.filter (fun d => d.1 = post && subs.contains d.2)).foldl (fun s d => s.refreshRows post d.2 (fun _ => true)) s
  { s with due := s.due.filter (fun d => !(d.1 = post && subs.contains d.2)) }

/-- Taking a program out of its sequencer: its place, its list entry and its count (R258, R290); no refresh waits any longer for one that
was running (R255). -/
def State.dropProg (s : State) (post : Nat) (p : RowProg) : State :=
  let s := if p.running then s.makeDue post (s.subsOf p) else s
  let s := s.setProgs post ((s.progsAt post).filter (fun q => q.pid ≠ p.pid))
  let s := s.dropItem (fun r => r.post = post) (.prog p.pid)
  State.tryComplete (s.countCommand p.task 0 2 false) p.graph

/-- The agent that the error log names for a program (Table 20-2). -/
def State.progAgent (s : State) (p : RowProg) : LogAgent :=
  ⟨0, 0, p.asid, p.graph, match p.task.bind s.task with | some t => t.id | none => 0⟩
/-- A part of OUTVA within one unit: its offset, its place, the bytes that the slots give it (R245). -/
structure OutPart where
  off : Nat
  addr : Nat
  pclass : Nat
  data : List Byte
  deriving DecidableEq, Repr

/-- Byte `i` of OUTVA as a part of its own. -/
def OutPart.byte (u : OutPart) (i : Nat) : OutPart := ⟨i, u.addr + (i - u.off), u.pclass, [u.data.getD (i - u.off) 0]⟩
/-- The units of OUTVA. -/
def RowProg.outUnits (p : RowProg) : List OutPart :=
  let bytes := (List.range 4).flatMap (fun i => bytesOf 1024 (Table.get 0 p.slots i).toNat)
  (p.out.foldl (fun (r : List OutPart × Nat) q =>
    (r.1 ++ (splitUnits q.addr ((bytes.drop r.2).take q.len)).map (fun u => ⟨r.2 + (u.1 - q.addr), u.1, q.pclass, u.2⟩), r.2 + q.len)) ([], 0)).1
/-- Writing a part of OUTVA through its bytes' home point (R244). -/
def State.writeOut (s : State) (post : Nat) (p : RowProg) (u : OutPart) : State :=
  if (s.unreachable post u.addr).isSome then s else s.copyWrite 0 u.addr u.pclass u.data false (s.progAgent p)
/-- Writing the slots to OUTVA, but for the bytes already written (R244, R258, R320). -/
def State.writeSlots (s : State) (post : Nat) (p : RowProg) : State :=
  p.outUnits.foldl (fun s u =>
    let done := (List.range u.data.length).filter (fun i => p.wrote.contains (u.off + i))
    if done.isEmpty then s.writeOut post p u
    else (List.range u.data.length).foldl (fun s i => if done.contains i then s else s.writeOut post p (u.byte (u.off + i))) s) s

/-- Ending a program (R258): OUTVA unless its translation failed, the status, and for a stop the report to the task. -/
def State.endProg (s : State) (post : Nat) (p : RowProg) (cause : Cause) (word : Nat) (report : Option Report) (out : Bool) : State :=
  let s := if out then s.writeSlots post p else s
  let s := match report with | some r => s.report p.task r | none => s
  State.dropProg (s.deliverTo p.task 0 p.peg (statusWord cause 0 2 word 0)) post p

/-- The virtual address of a word of a program. -/
def RowProg.wordAt (p : RowProg) (i : Nat) : Word := BitVec.ofNat 64 (p.prog + 12 * i)

/-- A stop of a program at a word (R253, R258). -/
def State.stopProg (s : State) (post : Nat) (p : RowProg) (cause : Cause) (field : Nat) : State :=
  s.endProg post p cause p.idx (some ⟨cause, p.wordAt p.idx, field⟩) true

/-- The activation budget of an owner (R383); free where it cannot be read (R408, log 78). -/
def State.budget (s : State) (asid : Nat) : Nat :=
  let a := asidEntry asid + 0x18
  if s.badUnit a then (Config.lostValue s.tick).toNat % 2 ^ 32 else s.memNat a 4

/-- One alert dealt with at a joint (R254 item 3, R256): neighbour refreshes, the charge, ROW_BUDGET. A charge that meets a budget
which cannot be read writes nothing (R406). -/
def State.alert (s : State) (post : Nat) (p : RowProg) (word : Nat) (a : Nat × Nat) : State × RowProg :=
  let (n1, n2) := Config.neighbours a.1 a.2
  let s := s.refreshRows post a.1 (fun r => r = a.2 || r = n1 || r = n2)
  let b := s.budget p.asid
  let at_ := asidEntry p.asid + 0x18
  let s := match s.readUnit at_ 0 ⟨5, 0, 0, 0, 0⟩ with
    | (s, some _) => s
    | (s, none) => if b = 0 then s else s.putNat at_ 4 (b - 1)
  if 1 < b then (s, p)
  else
    let s := { s with progs := s.progs.map (fun q => (q.1, q.2.map (fun r => if r.asid = p.asid then { r with throttled := true } else r))) }
    let s := if p.mark then s else s.report p.task ⟨.rowBudget, p.wordAt word, 0⟩
    (s, { p with mark := true, throttled := true })

/-- The alerts due at a joint: those recorded, and every other row of the region that has reached 2,048 activations. -/
def State.alertsDue (s : State) (post : Nat) (p : RowProg) : List (Nat × Nat) :=
  let more := (s.subsOf p).flatMap (fun b => (Table.slice s.acts (rowKey post b 0) (rowKey post b 524)).filterMap (fun a =>
    if 2048 ≤ a.2 then some (b, a.1 - rowKey post b 0) else none))
  p.alerts ++ more.filter (fun a => !p.alerts.contains a)

/-- The subarrays of a die that running programs hold (R259, R260). -/
def State.dieLoad (s : State) (post die : Nat) : Nat :=
  (((s.progsAt post).filter (fun p => p.running)).map (fun p => ((s.subsOf p).filter (fun b => b / 12288 = die)).length)).sum
/-- The subarrays of a program on a die. -/
def State.dieShare (s : State) (p : RowProg) (die : Nat) : Nat := ((s.subsOf p).filter (fun b => b / 12288 = die)).length
/-- Whether a program stands at the front of its region's list (R240). -/
def State.atFront (s : State) (p : RowProg) : Bool :=
  match s.region p.asid p.handle with | some r => r.items.head? = some (.prog p.pid) | none => false
/-- Whether a waiting program finds a place and room on its dies (R259, R260). -/
def State.fits (s : State) (post : Nat) (p : RowProg) : Bool :=
  ((s.progsAt post).filter (fun q => q.running)).length < 16 &&
  (List.range 16).all (fun d => s.dieShare p d = 0 || s.dieLoad post d + s.dieShare p d ≤ 384)
/-- Whether a more urgent program waits for the place or the dies of a running one (R259). -/
def State.outranked (s : State) (post : Nat) (p : RowProg) : Bool :=
  (s.progsAt post).any (fun q => !q.running && s.atFront q && q.prio < p.prio && !s.fits post q &&
    (16 ≤ ((s.progsAt post).filter (fun r => r.running)).length ||
     (List.range 16).any (fun d => s.dieShare q d ≠ 0 && s.dieShare p d ≠ 0 && 384 < s.dieLoad post d + s.dieShare q d)))

/-- OUTVA translated again, with the checks of its windows (R243, R260). -/
def State.recheckOut (s : State) (post : Nat) (p : RowProg) : Except (Cause × Nat) (List Piece) :=
  if p.outva = 0 then .ok []
  else match s.rowXlate p.asid post [(p.outva, 4096, .write)] with
  | .error e => .error e
  | .ok rs => match firstByte p.outva (fun pa => 8 < window pa) rs.flatten with
    | some a => .error (.addrRange, a)
    | none => match firstByte p.outva inImageArea rs.flatten with
      | some a => .error (.imageAccess, a)
      | none => .ok rs.flatten

/-- Translating again at a joint or before a start (R260, R376): the program with its new translations; the first failure of its handle,
its words, INVA and OUTVA, with FADDR; and whether OUTVA can be written. What is read on the way is corrected or logged (R404, R412). -/
def State.recheckProg (s : State) (post word : Nat) (p : RowProg) : State × RowProg × Option (Cause × Word) × Bool :=
  if !p.recheck then (s, p, none, true)
  else
    let (s, handle) := s.validRegion post p.asid p.handle
    let code := s.rowXlate p.asid post (rowRanges p.words.length p.prog p.inva 0)
    let out := s.recheckOut post p
    let s := s.rowWalks p.asid post (s.progAgent p) (rowRanges p.words.length p.prog p.inva p.outva)
    let fail1 := match handle with
      | .error c => some (c, p.wordAt word)
      | .ok (q, _) => if q = post then none else some (.regionHandle, p.wordAt word)
    let fail2 := match code with | .error (c, a) => some (c, BitVec.ofNat 64 a) | .ok _ => none
    match out with
    | .error (c, a) => (s, { p with recheck := false }, (fail1.or fail2).or (some (c, BitVec.ofNat 64 a)), false)
    | .ok ps => (s, { p with recheck := false, out := ps }, fail1.or fail2, true)

/-- A joint at word `word` (R254), in its order; `ends` says that the program ends at it with RHALT. Its alerts and its due refreshes
are dealt with where it fails at item 2 too (R255, R256); those of a graph being killed, whose slots are not written, end at item 1
(log 81). -/
def State.joint (s : State) (post : Nat) (p : RowProg) (word : Nat) (ends : Bool) : State :=
  if s.isKilled p.graph then s.dropProg post p
  else
  let (s, p, failed, write) := s.recheckProg post word p
  let s := match failed with | some (c, a) => s.report p.task ⟨c, a, 0⟩ | none => s
  let r := (s.alertsDue post p).foldl (fun (r : State × RowProg) a => r.1.alert post r.2 word a) (s, { p with ops := 0 })
  let s : State := r.1
  let p : RowProg := { r.2 with alerts := [] }
  let s := s.makeDue post (s.subsOf p)
  match failed with
  | some (c, _) => s.endProg post p c word none write
  | none =>
    let s := s.rereadRegion p.asid p.handle
    if ends then s.endProg post p (if p.mark then .rowBudget else .none) 0 none true
    else
      let p : RowProg := if s.budget p.asid = 0 then p else { p with throttled := false }
      let s := s.setProg post p
      if s.outranked post p then s.setProg post { p with running := false } else s

/-- ROWPROG_START (R245, R259): the most urgent program, then the earliest accepted, of those at the front of their lists
that find a place; its start, or its return from pre-emption, is at a joint. -/
def execRowprogStart (post : Nat) (s : State) : Host.Outcome State Fault Refusal :=
  let cands := (s.progsAt post).filter (fun p => !p.running && s.atFront p && s.fits post p)
  match cands with
  | [] => .next s
  | c :: cs =>
    let p := cs.foldl (fun best q => if q.prio < best.prio then q else best) c
    let p := { p with running := true, begun := true }
    .next ((s.setProg post p).joint post p p.idx false)

/-- MODE_CHANGE (R240): a mode request at the front of a region's list takes effect. -/
def execModeChange (post asid handle : Nat) (s : State) : Host.Outcome State Fault Refusal :=
  match s.region asid handle with
  | some r => match r.items with
    | .mode m _ :: rest => if r.post = post then .next (s.setRegion { r with now := m, items := rest }) else .next s
    | _ => .next s
  | none => .next s

/-- The key of a die's waves. -/
def waveKey (post die : Nat) : Nat := post * 16 + die
/-- WAVE_ADMIT (R22, R260): the governor admits one more wave on a die that a running program uses; at most two wait. -/
def execWaveAdmit (post die : Nat) (s : State) : Host.Outcome State Fault Refusal :=
  if s.dieLoad post die ≠ 0 then
    .next { s with waves := Table.set 0 s.waves (waveKey post die) (min 2 (Table.get 0 s.waves (waveKey post die) + 1)) }
  else .next s

/-- ACTIVATION_ALERT (R256): recorded for the running program of the row's region. -/
def execActivationAlert (post sub row : Nat) (s : State) : Host.Outcome State Fault Refusal :=
  match (s.progsAt post).find? (fun p => p.running && (s.subsOf p).contains sub) with
  | some p =>
    if 2048 ≤ Table.get 0 s.acts (rowKey post sub row) && row < 522 && !p.alerts.contains (sub, row) then
      .next (s.setProg post { p with alerts := p.alerts ++ [(sub, row)] })
    else .next s
  | none => .next s

/-- REFRESH (R255): of a subarray of a region that is running a program it waits for the joint. -/
def execRefresh (post sub : Nat) (s : State) : Host.Outcome State Fault Refusal :=
  if (s.progsAt post).any (fun p => p.running && (s.subsOf p).contains sub) then
    if s.due.contains (post, sub) then .next s else .next { s with due := s.due ++ [(post, sub)] }
  else .next (s.refreshRows post sub (fun _ => true))

/-! Row instructions. -/

/-- The row that a code names for a program; none above 511 (R246). -/
def RowProg.rowOf (p : RowProg) (o : Operand) : Option Nat :=
  let computed := fun r => if r ≤ 511 then some r else none
  match rowCode o.imm with
  | some (.data r) => some r
  | some (.work n) => some (512 + n)
  | some (.const b) => some (if b then 523 else 522)
  | some (.base n d) => computed (p.pb.getD n 0 + d)
  | some (.indexed n m d) => computed (p.pb.getD n 0 + p.px.getD m 0 + d)
  | none => none

/-- The row operations of a row instruction (Table 12-4). -/
def rowCost : Instr → Nat
  | .rc _ => 1
  | .rm3 _ => 1
  | .rnt _ => 2
  | .rsl _ => 2
  | .rsr _ => 2
  | .rz _ => 1
  | .ro _ => 1
  | .rrd _ => 1
  | .rwr _ => 1
  | .rchk _ => 2
  | _ => 0
/-- Whether a running program asks for waves: it stands at a row operation, and no throttle holds the start of its step (R22, R256). -/
def RowProg.asks (p : RowProg) : Bool :=
  let cost := match (p.words[p.idx]?).map decodeRow with | some (.ok i) => rowCost i | _ => 0
  p.running && 0 < cost && p.ops + cost ≤ 16 && !(p.throttled && p.ops = 0)
/-- Whether a program issued earlier asks for waves of a die of this one: a die admits waves in the order of the RPGO commands (R22,
log 71). -/
def State.behind (s : State) (post : Nat) (p : RowProg) : Bool :=
  (s.progsAt post).any (fun q => q.seq < p.seq && q.asks && (List.range 16).any (fun d => s.dieShare q d ≠ 0 && s.dieShare p d ≠ 0))

/-- What a row instruction gives: the program stops at its word; it goes on at a word; it meets a joint; it ends at one. -/
inductive RowDone where
  | stop (cause : Cause)
  | goes (s : State) (p : RowProg)
  | joint (s : State) (p : RowProg)
  | halt (s : State) (p : RowProg)

/-- Beginning a row instruction of `cost` row operations on the sequencer whose turn it is (R252, R253): JOINT_LONG first;
an operation that lacks its waves waits (R260). On a core it is no instruction (R78). -/
def runRow (cost : Nat) (s : State) (body : Nat → RowProg → RowDone) : Host.Outcome State Fault Refusal :=
  match s.turn with
  | .hart n => .next (s.stopHart n ⟨.illOp, 0, 0, 0, 0, 0⟩)
  | .seq post pid =>
    match s.prog post pid with
    | none => .next s
    | some p =>
      if !p.running then .next s
      else if 16 < p.ops + cost then .next (s.stopProg post p .jointLong 0)
      else match body post p with
      | .stop c => .next (s.stopProg post p c 0)
      | .joint t q => .next (t.joint post { q with idx := p.idx + 1 } p.idx false)
      | .halt t q => .next (t.joint post q p.idx true)
      | .goes t q =>
        let dies := (List.range 16).filter (fun d => s.dieShare p d ≠ 0)
        if dies.all (fun d => cost ≤ Table.get 0 s.waves (waveKey post d)) && (cost = 0 || !s.behind post p) then
          let w := dies.foldl (fun w d => Table.set 0 w (waveKey post d) (Table.get 0 w (waveKey post d) - cost)) s.waves
          .next ({ t with waves := w }.setProg post { q with ops := p.ops + cost })
        else .next s

/-- Counting one activation of each distinct row in each subarray; c0 and c1 are not counted (R256). What copies and the zeroing of a
fresh region activate is not counted, a choice (log 82). -/
def State.touch (s : State) (post : Nat) (subs rows : List Nat) : State :=
  let rows := (rows.filter (fun r => r < 522)).eraseDups
  let acts := subs.foldl (fun t b => rows.foldl (fun t r =>
    let k := rowKey post b r
    Table.set 0 t k (Table.get 0 t k + 1)) t) s.acts
  { s with acts := acts }

/-- One row operation over every subarray (R247): all sources are read first, then `f` gives the rows written in subarray
`i` from its source rows. -/
def rowOp (s : State) (post : Nat) (p : RowProg) (srcs touched : List Nat) (f : List (List (BitVec 8192)) → Nat → List (BitVec 8192) → List (Nat × BitVec 8192)) :
    RowDone :=
  let subs := s.subsOf p
  let xs := subs.map (fun b => srcs.map (fun r => s.row post b r))
  let s := (subs.zip xs).zipIdx.foldl (fun s q => (f xs q.2 q.1.2).foldl (fun s w => s.setRow post q.1.1 w.1 w.2) s) s
  .goes (s.touch post subs touched) { p with idx := p.idx + 1 }

/-- A row operation with one destination and one source, whose effect is the same in every subarray. -/
def runRowMap (cost : Nat) (x : Ops) (s : State) (f : BitVec 8192 → BitVec 8192) : Host.Outcome State Fault Refusal :=
  runRow cost s (fun post p =>
    match p.rowOf x.d, p.rowOf x.a with
    | some d, some a => rowOp s post p [a] [d, a] (fun _ _ v => [(d, f (v.getD 0 0))])
    | _, _ => .stop .addrRange)

/-- RC (Table 12-4). -/
def execRc (x : Ops) (s : State) := runRowMap 1 x s (fun v => v)
/-- The majority of each column (R247). -/
def maj (a b c : BitVec 8192) : BitVec 8192 := (a &&& b) ||| (a &&& c) ||| (b &&& c)
/-- RM3 (Table 12-4). -/
def execRm3 (x : Ops) (s : State) :=
  runRow 1 s (fun post p =>
    match p.rowOf x.d, p.rowOf x.a, p.rowOf x.b with
    | some d, some a, some b =>
      rowOp s post p [d, a, b] [d, a, b] (fun _ _ v =>
        let m := maj (v.getD 0 0) (v.getD 1 0) (v.getD 2 0)
        [(d, m), (a, m), (b, m)])
    | _, _, _ => .stop .addrRange)
/-- RNT: the dual-contact row keeps x, the destination takes its inverse (Table 12-4). -/
def execRnt (x : Ops) (s : State) :=
  runRow 2 s (fun post p =>
    match p.rowOf x.d, p.rowOf x.a with
    | some d, some a =>
      let dc := 520 + x.var.val
      rowOp s post p [a] [d, a, dc] (fun _ _ v => [(dc, v.getD 0 0), (d, ~~~(v.getD 0 0))])
    | _, _ => .stop .addrRange)
/-- RSL and RSR (Table 12-4): `.nb` takes the lane of the neighbouring subarray. -/
def runShift (x : Ops) (s : State) (left : Bool) : Host.Outcome State Fault Refusal :=
  runRow 2 s (fun post p =>
    match p.rowOf x.d, p.rowOf x.a with
    | some d, some a =>
      rowOp s post p [a] [d, a] (fun xs i v =>
        let y := v.getD 0 0
        let next := if x.var.val = 0 then 0 else (xs.getD (i + 1) []).getD 0 0
        let prev := if x.var.val = 0 || i = 0 then 0 else (xs.getD (i - 1) []).getD 0 0
        [(d, if left then y >>> 1 ||| (next &&& 1) <<< 8191 else y <<< 1 ||| prev >>> 8191)])
    | _, _ => .stop .addrRange)
def execRsl (x : Ops) (s : State) := runShift x s true
def execRsr (x : Ops) (s : State) := runShift x s false
/-- RZ and RO: the destination takes c0 or c1 (Table 12-4). -/
def runConst (x : Ops) (s : State) (v : BitVec 8192) : Host.Outcome State Fault Refusal :=
  runRow 1 s (fun post p =>
    match p.rowOf x.d with
    | some d => rowOp s post p [] [d] (fun _ _ _ => [(d, v)])
    | none => .stop .addrRange)
def execRz (x : Ops) (s : State) := runConst x s 0
def execRo (x : Ops) (s : State) := runConst x s (BitVec.allOnes 8192)
/-- RJOINT (R254). -/
def execRjoint (_x : Ops) (s : State) := runRow 0 s (fun _ p => .joint s p)
/-- RHALT (R249, R257). -/
def execRhalt (_x : Ops) (s : State) := runRow 0 s (fun _ p => if p.loops.isEmpty then .halt s p else .stop .seqFetch)
/-- RLOOP (R249). -/
def execRloop (x : Ops) (s : State) :=
  runRow 0 s (fun _ p =>
    if 4 ≤ p.loops.length then .stop .seqFetch
    else
      let m := match x.a with | .i16 v => some v.toNat | _ => none
      let px := match m with | some m => p.px.set m 0 | none => p.px
      .goes s { p with loops := ⟨p.idx + 1, x.d.imm, m⟩ :: p.loops, px := px, idx := p.idx + 1 })
/-- RNEXT (R249). -/
def execRnext (_x : Ops) (s : State) :=
  runRow 0 s (fun _ p =>
    match p.loops with
    | [] => .stop .seqFetch
    | l :: ls =>
      if l.left ≤ 1 then .goes s { p with loops := ls, idx := p.idx + 1 }
      else match l.px with
        | none => .goes s { p with loops := { l with left := l.left - 1 } :: ls, idx := l.start }
        | some m =>
          if 63 ≤ p.px.getD m 0 then .stop .addrRange
          else .goes s { p with loops := { l with left := l.left - 1 } :: ls, idx := l.start, px := p.px.set m (p.px.getD m 0 + 1) })

/-- The new value of a plane base or index, where it is in range (R250). -/
def planeValue (old : Nat) (add : Bool) (imm top : Nat) : Option Nat :=
  let v := (if add then (old : Int) else 0) + sextN imm 16
  if 0 ≤ v && v ≤ top then some v.toNat else none
/-- RBASE (R250). -/
def runBase (x : Ops) (s : State) (add : Bool) : Host.Outcome State Fault Refusal :=
  runRow 0 s (fun _ p =>
    match planeValue (p.pb.getD x.d.imm 0) add x.a.imm 511 with
    | some v => .goes s { p with pb := p.pb.set x.d.imm v, idx := p.idx + 1 }
    | none => .stop .addrRange)
def execRbaseSet (x : Ops) (s : State) := runBase x s false
def execRbaseAdd (x : Ops) (s : State) := runBase x s true
/-- RPLANE (R250). -/
def runPlane (x : Ops) (s : State) (add : Bool) : Host.Outcome State Fault Refusal :=
  runRow 0 s (fun _ p =>
    match planeValue (p.px.getD x.d.imm 0) add x.a.imm 63 with
    | some v => .goes s { p with px := p.px.set x.d.imm v, idx := p.idx + 1 }
    | none => .stop .addrRange)
def execRplaneSet (x : Ops) (s : State) := runPlane x s false
def execRplaneAdd (x : Ops) (s : State) := runPlane x s true
/-- RRD (R251): of subarray SEL alone. -/
def execRrd (x : Ops) (s : State) :=
  runRow 1 s (fun post p =>
    match p.rowOf x.a, (s.subsOf p)[p.sel]? with
    | some a, some b =>
      .goes (s.touch post [b] [a]) { p with slots := Table.set 0 p.slots x.d.imm (s.row post b a), idx := p.idx + 1 }
    | _, _ => .stop .addrRange)
/-- RWR (R251). -/
def execRwr (x : Ops) (s : State) :=
  runRow 1 s (fun post p =>
    match p.rowOf x.d with
    | some d => rowOp s post p [] [d] (fun _ _ _ => [(d, Table.get 0 p.slots x.a.imm)])
    | none => .stop .addrRange)
/-- RCHK (Table 12-4). -/
def execRchk (x : Ops) (s : State) :=
  runRow 2 s (fun post p =>
    match p.rowOf x.d, p.rowOf x.a with
    | some d, some a => rowOp s post p [d, a] [d, a] (fun _ _ v => [(d, v.getD 0 0 ^^^ v.getD 1 0)])
    | _, _ => .stop .addrRange)
/-- RSET `.sel` (R251). -/
def execRsetSel (x : Ops) (s : State) := runRow 0 s (fun _ p => .goes s { p with sel := imm32 x, idx := p.idx + 1 })

end Sys2Proof.Machine
end

