-- ==== Sys2Proof/Machine/Sched.lean ====
section
/-! DEFINITION. The dispatchers (R340 to R357, R371 to R373): resident and dormant queues, dispatch batches, binding,
saves, held fault entries; and PFH (R284). -/
namespace Sys2Proof.Machine
open Sys2Proof

/-! Held stop entries and advice (R284, R373). -/

/-- FAULTQ_HELD_WRITE (R373). -/
def execFaultqHeldWrite (graph : Nat) (s : State) : Host.Outcome State Fault Refusal := .next (s.writeHeld graph)

/-- PFH (R284): its advice takes its place after the stops before it (R373, log 51); a full queue drops it. -/
def execPfh (x : Ops) (s : State) :=
  runCore .pfh x s true none (fun n h =>
    let len := (h.gr (gNum x.b)).toNat % 2 ^ 32
    match s.taskOf n, s.graphOf n with
    | some (u, t), some (gid, g) =>
      if len = 0 then .retire s 0
      else if s.faultFull g then .retire (s.readFaultq g) 0
      else .retire (s.addEntry ⟨gid, u, s.nextStop, true, false,
        faultEntry gid t (128 + t.post * 2 ^ 24 + len * 2 ^ 32) (h.gr (gNum x.a)).toNat⟩) 0
    | _, _ => .retire s 0)

/-! Residency (R343, R344). -/

/-- Whether a queue's record fails the check of R344. -/
def State.badQueue (s : State) (q : Nat) : Bool :=
  let w := s.qword q 8
  let ring := s.qword q 0
  w.testBit 7 || bitsN w 15 13 ≠ 0 || bitsN w 31 27 ≠ 0 || s.qword q 0x28 ≠ 0 ||
  (List.range 6).any (fun i => s.qword q (0x50 + 8 * i) ≠ 0) ||
  16 < s.qLogSize q || ring % (64 * 2 ^ s.qLogSize q) ≠ 0 || 10 < window ring ||
  bitsN w 39 32 = 0 || bitsN w 47 40 < 16 || 40 < bitsN w 47 40 || !s.homeOk q

/-- The resident queues of a post (R343). -/
def State.residents (s : State) (post : Nat) : List Nat :=
  let base := queueRec 0
  (Table.slice s.mem base (base + 0x100000)).filterMap (fun p =>
    let o := p.1 - base
    if o % 128 = 0x20 && p.2.getLsbD 0 && s.qHome (o / 128) = post then some (o / 128) else none)

/-- The pending queues that a dispatcher may bring in, in the order in which their PEND bits were set (R343, R344). -/
def State.entering (s : State) (post : Nat) : List Nat :=
  s.pend.filter (fun q => s.qBit q 1 && (s.qword q 8).testBit 6 && !s.qBit q 3 && s.qHome q = post)

/-- QPRIO (Table 17-1). -/
def State.qPrio (s : State) (q : Nat) : Nat := bitsN (s.qword q 8) 12 8

/-- Whether a post's dispatcher works: the device is READY, the post exists and is not scrapped (R18, R415). -/
def State.dispatches (s : State) (post : Nat) : Bool := s.phase = 8 && s.posts.testBit post && !s.scrapped.testBit post

/-- QUEUE_RESIDENT (R343, R344): the first pending queue by QPRIO, then by PEND; a record that fails its check takes
CFGERR. -/
def execQueueResident (post : Nat) (s : State) : Host.Outcome State Fault Refusal :=
  if !s.dispatches post then .next s
  else match s.entering post with
  | [] => .next s
  | c :: cs =>
    let q := cs.foldl (fun best q => if s.qPrio q < s.qPrio best then q else best) c
    if s.badQueue q then .next (s.setQBit q 3 true)
    else if 128 ≤ (s.residents post).length then .next s
    else
      let s := (s.setQBit q 0 true).setQBit q 1 false
      .next { s with pend := s.pend.filter (fun p => p ≠ q) }

/-- QUEUE_DORMANT (R343): with no free place and a queue pending, the resident queue with HEAD = TAIL that was least
recently given an entry. TAIL cannot move between the write-back and the compare-and-swap of one event. -/
def execQueueDormant (post : Nat) (s : State) : Host.Outcome State Fault Refusal :=
  let rs := s.residents post
  if !s.dispatches post || (s.entering post).isEmpty || rs.length < 128 then .next s
  else
    let idle := rs.filter (fun q => s.qHead q = s.qTail q)
    match (idle.find? (fun q => !s.recent.contains q)).or (s.recent.find? (fun q => idle.contains q)) with
    | some q => .next ((s.advanceDone q).setQBit q 0 false)
    | none => .next s

/-! Dispatch batches (R346). -/

/-- The fields of a launch entry (Table 17-3). -/
structure LaunchEntry where
  asid : Nat
  prio : Nat
  posts : Nat
  logPool : Nat
  quota : Nat
  pool : Nat
  faultq : Nat
  fqlen : Nat
  root : Nat
  cmasks : Nat
  reserved : Bool
  deriving DecidableEq, Repr

/-- Reading the fields; `reserved` says that a reserved bit is set. -/
def launchEntry (bs : List Byte) : LaunchEntry :=
  let a := fieldAt bs 0 4
  let b := fieldAt bs 4 4
  let f := fieldAt bs 0x18 8
  { asid := a % 2 ^ 16, prio := bitsN a 20 16, posts := bitsN a 31 24, logPool := b % 32, quota := bitsN b 15 8
    pool := fieldAt bs 8 8, faultq := fieldAt bs 0x10 8, fqlen := f % 2 ^ 17, root := fieldAt bs 0x20 8
    cmasks := fieldAt bs 0x38 8, reserved := bitsN a 23 21 ≠ 0 || bitsN b 7 5 ≠ 0 || bitsN b 31 16 ≠ 0 || f / 2 ^ 17 ≠ 0 }

/-- Whether a range of bytes lies in windows 0x0 to `top`, at addresses that exist and hold no plane region. -/
def State.rangeOk (s : State) (top a n : Nat) : Bool :=
  window a ≤ top && window (a + n - 1) = window a && s.validAddr a && s.validAddr (a + n - 1) && !s.inPlane a && !s.inPlane (a + n - 1)
/-- Whether a range of the SRAM tier touches the image area or the system area (check 4 of Table 17-4). -/
def touchesSystem (a n : Nat) : Bool := window a = 8 && rangesMeet (a % 2 ^ 44) n 0x20000000 0x10000000

/-- Bytes as they stand at their home points, errors aside. -/
def State.rawBytes (s : State) (place a n : Nat) : List Byte := (List.range n).map (fun i => s.homeByte place (a + i) 0)

/-- The reading of the CMASKS array of a launch entry, where it lies in its windows (R346). -/
def State.launchArray (s : State) (place : Nat) (e : LaunchEntry) : State × Except Cause (Option (List Byte)) :=
  if e.cmasks = 0 || !s.rangeOk 10 e.cmasks 32 then (s, .ok none)
  else match s.devRead place e.cmasks 32 ⟨0, 0, e.asid, 0, 0⟩ with
    | (s, .error c) => (s, .error c)
    | (s, .ok bs) => (s, .ok (some bs))
/-- The core masks of a launch (R346): the array counts where it lies in its windows and reads without error. -/
def State.launchMasks (s : State) (q : Nat) (array : Except Cause (Option (List Byte))) : List Nat :=
  let own := (List.range 8).map (fun n => s.memNat (queueRec q + 0x30 + 4 * n) 4)
  match array with
  | .ok (some bs) => own.zipIdx.map (fun p => p.1 &&& fieldAt bs (4 * p.2) 4)
  | _ => own

/-- Checks 1 to 4 of Table 17-4: the first cause. -/
def State.launchRefused (s : State) (q : Nat) (e : LaunchEntry) (posts : Nat) (masks : List Nat) : Option Cause :=
  let poolLen := 64 * 2 ^ e.logPool
  let faultLen := 32 + 32 * e.fqlen
  if e.asid ≠ bitsN (s.qword q 8) 63 48 || e.prio < s.qPrio q then some .priv
  else if e.reserved || e.logPool < 6 || 16 < e.logPool || e.fqlen = 0 || 65536 < e.fqlen || e.pool % poolLen ≠ 0 ||
      e.faultq % 32 ≠ 0 || e.root % 64 ≠ 0 || e.cmasks % 32 ≠ 0 then some .bankParam
  else if (List.range 8).all (fun p => !posts.testBit p || masks.getD p 0 = 0) then some .maskEmpty
  else if !(window e.pool = 8 && s.rangeOk 8 e.pool poolLen) || !(window e.faultq = 8 && s.rangeOk 8 e.faultq faultLen) ||
      !s.rangeOk 10 e.root 64 || (e.cmasks ≠ 0 && !s.rangeOk 10 e.cmasks 32) ||
      touchesSystem e.pool poolLen || touchesSystem e.faultq faultLen || touchesSystem e.root 64 then some .addrRange
  else none

/-- A free GRAPHID (R26, log 9). -/
def State.freeGraphId (s : State) : Nat :=
  let v := Config.graphIdPick s.tick
  let ids := (List.range (s.graphs.length + 1)).map (fun i => (v + i) % (2 ^ 32 - 1) + 1)
  (ids.find? (fun g => (s.graph g).isNone)).getD 1

/-- Refusing an entry: its COMPLETION word alone (R346, R347). -/
def State.refuseEntry (s : State) (addr : Nat) (c : Cause) : State :=
  s.devWrite (addr + 0x30) (bytesOf 8 (completionWord c false 0 0)) ⟨5, 0, 0, 0, 0⟩

/-- Check 5 of Table 17-4: the entry and the root record are read, and the array has been, and the pool can be reached (R415); the root
record's bytes. -/
def State.launchReads (s : State) (place addr : Nat) (e : LaunchEntry) (array : Except Cause (Option (List Byte))) :
    State × Except Cause (List Byte) :=
  let who : LogAgent := ⟨0, 0, e.asid, 0, 0⟩
  match s.devRead place addr 64 who with
  | (s, .error c) => (s, .error c)
  | (s, .ok _) => match s.devRead place e.root 64 who, array with
    | (s, .error c), _ => (s, .error c)
    | (s, .ok _), .error c => (s, .error c)
    | (s, .ok rec_), .ok _ => match s.unreachable place e.pool with
      | some c => (s, .error c)
      | none => (s, .ok rec_)

/-- Taking the entry at HEAD (R346): refused, or a graph whose root record is published in slot 0 (R28). -/
def State.takeEntry (s : State) (q : Nat) : State :=
  let head := s.qHead q
  let place := s.qHome q
  let addr := s.qword q 0 + 64 * (head % 2 ^ s.qLogSize q)
  let e := launchEntry (s.rawBytes place addr 64)
  let w := s.qword q 8
  let posts := e.posts &&& bitsN w 23 16 &&& s.posts &&& (0xFF ^^^ s.scrapped &&& 0xFF)
  let (s, array) := s.launchArray place e
  let masks := s.launchMasks q array
  let s := s.putNat (queueRec q + 0x18) 4 (head + 1)
  let s := { s with recent := s.recent.filter (fun p => p ≠ q) ++ [q] }
  match s.launchRefused q e posts masks with
  | some c => s.refuseEntry addr c
  | none => match s.launchReads place addr e array with
    | (s, .error c) => s.refuseEntry addr c
    | (s, .ok rec_) =>
      if fieldAt rec_ 16 4 ≠ 0 || fieldAt rec_ 24 8 ≠ 0 || badRecord posts rec_ then s.refuseEntry addr .spawnRecord
      else
        let gid := s.freeGraphId
        let quota := bitsN w 39 32
        let g : Graph := {
          queue := q, asid := e.asid, prio := e.prio, posts := posts, cores := masks, pool := e.pool, poolLog := e.logPool
          faultq := e.faultq, fqlen := e.fqlen, quota := if e.quota = 0 then quota else min e.quota quota
          wdog := bitsN w 47 40, entry := addr, number := head, nextId := 1, underflow := false, killed := false }
        State.publish (State.setGraph { s with tick := s.tick + 1 } gid (some g)) gid 0 0 rec_ none

/-- Whether an entry was counted by a doorbell while the queue is a device queue (R342). -/
def State.rungEntry (s : State) (q n : Nat) : Bool :=
  (s.qword q 8).testBit 5 && s.rung.any (fun r => r.1 = q && (n + 2 ^ 32 - r.2.1) % 2 ^ 32 < r.2.2)

/-- Up to `k` entries of a queue (R346). -/
def State.takeEntries (q : Nat) : Nat → State → State
  | 0, s => s
  | k + 1, s => if s.qHead q = s.qTail q || s.rungEntry q (s.qHead q) then s else State.takeEntries q k (s.takeEntry q)

/-- DISPATCH_BATCH (R346, R348): `count` entries, eight at most, of a resident and enabled queue; HEAD and DONE are then
written back. -/
def execDispatchBatch (queue count : Nat) (s : State) : Host.Outcome State Fault Refusal :=
  if 8192 ≤ queue || !(s.homeOk queue && s.dispatches (s.qHome queue)) || !s.qBit queue 0 || !(s.qword queue 8).testBit 6 then .next s
  else
    let s := (s.takeEntries queue (min count 8)).advanceDone queue
    let head := s.qHead queue
    .next { s with rung := s.rung.filter (fun r => r.1 ≠ queue || 2 ^ 31 > (r.2.1 + r.2.2 + 2 ^ 32 - 1 - head) % 2 ^ 32) }

/-! Binding and saves. -/

/-- TASK_BIND (R350, R351): a record that the binding leaves without a core may choose a victim (R353). -/
def execTaskBind (post : Nat) (s : State) : Host.Outcome State Fault Refusal :=
  .next (if s.dispatches post then (s.bindNext post).chooseVictims post else s)

/-- IMAGE_SAVE_DONE (R60, R391). -/
def execImageSaveDone (hart : Nat) (s : State) : Host.Outcome State Fault Refusal := .next (s.saveDone hart)

end Sys2Proof.Machine
end

