-- ==== Sys2Proof/Machine/System.lean ====
section
/-! DEFINITION. The system instructions (R374 to R379, R388, R400, R413): TLBINV, REVOKE, RESUME, KILL, ATTEST, ERET and
SCRUB; and the killing of a graph (R42). -/
namespace Sys2Proof.Machine
open Sys2Proof

/-! Invalidation (R234, R260, R297, R375). -/

/-- What a TLBINV or REVOKE covers: translations by ASID and range, the stores of an ASID, and region handles. -/
structure Cover where
  range : (asid va len : Nat) → Bool
  asid : Nat → Bool
  handle : (asid handle : Nat) → Bool

/-- The bits of the range that an entry of a level maps (Table 18-3). -/
def levelShift (level : Nat) : Nat := if level = 3 then 39 else if level = 2 then 30 else if level = 1 then 21 else if level = 4 then 16 else 12

/-- Whether a translation that a command carries is covered. -/
def Cover.bank (v : Cover) (c : BankCmd) : Bool := c.pieces.any (fun p => v.range c.asid p.1 (2 ^ 21))
/-- The same for a copy of a task; a system core's copy carries none (R367). -/
def Cover.copy (v : Cover) (c : Copy) : Bool :=
  !isSys c.issuer &&
  ((c.par.srcLen c.kind ≠ 0 && v.range c.asid c.par.src (c.par.srcLen c.kind)) ||
   (c.par.dstLen c.kind ≠ 0 && v.range c.asid c.par.dst (c.par.dstLen c.kind)) ||
   (c.par.fpLen c.kind ≠ 0 && v.range c.asid c.par.fpva (c.par.fpLen c.kind)) || (c.bar.isSome && v.range c.asid c.par.bar 8))
/-- Whether a copy is of a covered handle. -/
def Cover.copyRegion (v : Cover) (c : Copy) : Bool := (c.kind = 1 || c.kind = 2) && v.handle c.asid c.par.handle
/-- The same for a row program. -/
def Cover.prog (v : Cover) (p : RowProg) : Bool :=
  v.handle p.asid p.handle || (rowRanges p.words.length p.prog p.inva p.outva).any (fun r => v.range p.asid r.1 r.2.1)

/-- A covered command of a bank queue (R234): a started one is waited for; a queued one is translated again, or ends. -/
def State.invalBank (s : State) (v : Cover) (post : Nat) (c : BankCmd) : State :=
  if !v.bank c then s
  else
    let put := fun (s : State) (c : BankCmd) => s.setBankQueue post ((s.bankQueue post).map (fun d => if d.seq = c.seq then c else d))
    if c.started then put s { c with stale := true }
    else
      let found := s.bankList c.asid post (some post) (bankRanges (.ofCode c.op) c.td c.par) (c.entries.map BitVec.toNat) 0
      let s := c.entries.foldl (fun s e => s.remember c.asid post e.toNat 1 (s.bankAgent c)) s
      match found with
      | .error (x, _) => s.endBank post c x 0
      | .ok (_, ps) => put s { c with pieces := ps }

/-- A covered copy of an engine's queue (R297). One that fails has DETAIL 0, CPYC's too, a choice (log 85). -/
def State.invalCopy (s : State) (v : Cover) (e : Nat) (c : Copy) : State :=
  if !v.copy c then s
  else if c.started then s.setCopy e { c with stale := true }
  else
    let hart := match c.task.bind s.hartOf with | some n => n | none => c.issuer
    let found := s.copyRanges hart c.asid c.task c.kind c.par 0 c.bar.isSome
    let s := s.copyWalks c.asid (postId hart) (s.copyAgent c) c.kind c.par
    match found with
    | .error (x, _) => s.endCopy e c x 0
    | .ok r => s.setCopy e { c with src := r.src, dst := r.dst, fp := r.fp, bar := r.bar }

/-- A covered row program (R260): a running one is translated again at its next joint, another now. -/
def State.invalProg (s : State) (v : Cover) (post : Nat) (p : RowProg) : State :=
  if !v.prog p then s
  else
    let p := { p with recheck := true }
    let s := s.setProg post p
    if p.running then s
    else
      let (s, q, failed, write) := s.recheckProg post p.idx p
      match failed with
      | some (c, a) => s.endProg post q c p.idx (some ⟨c, a, 0⟩) write
      | none => s.setProg post { q with recheck := v.handle p.asid p.handle }

/-- Whether a handle is valid in a post as the tables now stand (R381). -/
def State.regionValid (s : State) (r : Region) : Bool :=
  match (s.readRegion r.post r.asid r.handle).2 with | .ok (post, _) => decide (post = r.post) | .error _ => false
/-- A covered handle (R376, R381): its list is read again; an invalid one loses its queued copies and mode requests, and its
modes. -/
def State.invalRegion (s : State) (v : Cover) (r : Region) : State :=
  if !v.handle r.asid r.handle then s
  else
    let (s, found) := s.readRegion r.post r.asid r.handle
    let ok := match found with | .ok (post, _) => decide (post = r.post) | .error _ => false
    let s := s.setRegion { r with checked := false }
    if ok then s
    else
      let copies := (List.range 10).flatMap (fun e => (s.copiesAt e).map (fun c => (e, c)))
      let s := copies.foldl (fun s p => if !p.2.started && v.copyRegion p.2 && p.2.asid = r.asid && p.2.par.handle = r.handle
        then s.endCopy p.1 p.2 .regionHandle 0 else s) s
      match s.region r.asid r.handle with
      | none => s
      | some r =>
        let items := r.items.filter (fun i => match i with | .mode .. => false | _ => true)
        s.setRegion { r with items := items, now := false, tail := false }

/-- Whether what a waiting instruction has prepared holds a covered translation or handle. -/
def Cover.held (v : Cover) (asid : Nat) (h : Hart) (w : Held) : Bool :=
  match w.work with
  | .again => false
  | .launch _ => false
  | .word _ _ => match h.mode with | .blocked x => v.range asid x.faddr.toNat 8 | _ => false
  | .bank _ c => v.bank c
  | .copy _ _ _ _ c => v.copy c || v.copyRegion c
  | .mode _ _ => match w.instr.parts with | some (_, x) => v.handle asid (h.gr (gNum x.a)).toNat | none => false
  | .prog _ _ _ p => v.prog p
  | .stale _ => false
/-- What an instruction that waits has prepared with a covered translation or handle is stale: it is used no longer, and the wait goes on
until its own condition ends it (R41, R366, R376, log 72). -/
def State.invalHeld (s : State) (v : Cover) (n : Nat) : State :=
  let h := s.hart n
  match h.held with
  | some w => if v.held (s.asidOf n) h w then s.setHart n { h with held := some { w with work := .stale w.work } } else s
  | none => s

/-- The translation units drop every entry that they remember of what is covered (R366, R375). -/
def State.forgetWalked (s : State) (v : Cover) : State :=
  { s with walked := s.walked.filter (fun w => !v.range w.asid (w.index <<< levelShift w.level) (2 ^ levelShift w.level)) }

/-- Step 1 of R375 and the checks of R376 on everything covered: the covered tasks' stores are performed, at every place (R318). -/
def State.invalidate (s : State) (v : Cover) : State :=
  let s := s.forgetWalked v
  let s := (s.stores.map (fun x => x.hart)).eraseDups.foldl (fun s n => s.drain n (fun x => x.who.kind = 0 && v.asid x.who.asid)) s
  let s := s.forceHost (fun w => match w.owner with | some a => a.kind = 0 && v.asid a.asid | none => false)
  let s := (s.harts.map (fun p => p.1)).foldl (fun s n => s.invalHeld v n) s
  let s := (List.range 8).foldl (fun s p => (s.bankQueue p).foldl (fun s c => s.invalBank v p c) s) s
  let s := (List.range 10).foldl (fun s e => (s.copiesAt e).foldl (fun s c => s.invalCopy v e c) s) s
  let s := s.regions.foldl (fun s r => s.invalRegion v r) s
  let s := (List.range 10).foldl (fun s e => (s.copiesAt e).foldl (fun s c =>
    if c.started && v.copyRegion c then s.setCopy e { c with stale := true } else s) s) s
  let s := (List.range 8).foldl (fun s p => (s.progsAt p).foldl (fun s q => s.invalProg v p q) s) s
  { s with regions := s.regions.filter (fun r => r.checked || !r.items.isEmpty || !v.handle r.asid r.handle ||
      s.regionValid r) }

/-- Whether a started command, copy or program holds a covered translation or handle still (R375, R376). -/
def State.holders (s : State) (v : Cover) : Bool :=
  s.banks.any (fun q => q.2.any (fun c => c.started && c.stale && v.bank c)) ||
  s.copies.any (fun q => q.2.any (fun c => c.started && c.stale && (v.copy c || v.copyRegion c))) ||
  s.progs.any (fun q => q.2.any (fun p => p.running && p.recheck && v.prog p))

/-- Whether a system core goes on with an instruction that it has begun (log 29). -/
def Hart.stalled (h : Hart) : Bool := match h.mode with | .blocked w => w.port = 0 | _ => false
/-- The wait of a stalled system instruction. -/
def stall (s : State) : Done := .wait s ⟨0, 0, 0, 0⟩

/-- Beginning a system instruction (R374): `bad` gives its stop; then its release at sys scope. -/
def runSystem (d : Desc) (x : Ops) (s : State) (bad : Hart → Option Stop) (body : State → Nat → Hart → Done) :
    Host.Outcome State Fault Refusal :=
  runCore d x s true none (fun n h =>
    match bad h with
    | some e => .stop s e
    | none => let s := State.release s n 3; body s n (s.hart n))

/-- TLBINV and REVOKE: the work once, then the wait for what holds a covered translation (log 29). What the translation units have
remembered since goes when it retires: nothing that an entry held before is used then (R366). -/
def runInval (d : Desc) (x : Ops) (s : State) (bad : Hart → Option Stop) (v : Hart → Cover) : Host.Outcome State Fault Refusal :=
  runSystem d x s bad (fun s _ h =>
    let v := v h
    let s := if h.stalled then s else s.invalidate v
    if s.holders v then stall s else .retire (s.forgetWalked v) 0)

/-- TLBINV `.va` (R375). -/
def execTlbinvVa (x : Ops) (s : State) :=
  runInval .tlbinvVa x s
    (fun h =>
      let gb := (h.gr (gNum x.b)).toNat
      if bitsN gb 31 16 ≠ 0 || 262144 < gb / 2 ^ 32 then some (plainStop .illField 0)
      else if (h.gr (gNum x.a)).toNat % 4096 ≠ 0 then some (plainStop .align (h.gr (gNum x.a))) else none)
    (fun h =>
      let a := (h.gr (gNum x.b)).toNat % 2 ^ 16
      let n := (h.gr (gNum x.b)).toNat / 2 ^ 32
      let va := (h.gr (gNum x.a)).toNat
      { range := fun asid b len => asid = a && n ≠ 0 && rangesMeet va (4096 * n) b len
        asid := fun asid => asid = a && n ≠ 0
        handle := fun _ _ => false })
/-- What `.asid` and `.all` of TLBINV cover. -/
def coverAsid (p : Nat → Bool) (handles : Bool) : Cover :=
  { range := fun asid _ _ => p asid, asid := p, handle := fun asid _ => handles && p asid }
/-- TLBINV `.asid` (R375). -/
def execTlbinvAsid (x : Ops) (s : State) :=
  runInval .tlbinvAsid x s (fun h => if 2 ^ 16 ≤ (h.gr (gNum x.b)).toNat then some (plainStop .illField 0) else none)
    (fun h => coverAsid (fun a => a = (h.gr (gNum x.b)).toNat) false)
/-- TLBINV `.all` (R375). -/
def execTlbinvAll (x : Ops) (s : State) := runInval .tlbinvAll x s (fun _ => none) (fun _ => coverAsid (fun _ => true) false)
/-- REVOKE `.region` (R376). -/
def execRevokeRegion (x : Ops) (s : State) :=
  runInval .revokeRegion x s
    (fun h => if 2 ^ 16 ≤ (h.gr (gNum x.b)).toNat || 2 ^ 32 ≤ (h.gr (gNum x.a)).toNat then some (plainStop .illField 0) else none)
    (fun h =>
      { range := fun _ _ _ => false, asid := fun _ => false
        handle := fun a r => a = (h.gr (gNum x.b)).toNat && r = (h.gr (gNum x.a)).toNat })
/-- REVOKE `.asid` (R376). -/
def execRevokeAsid (x : Ops) (s : State) :=
  runInval .revokeAsid x s (fun h => if 2 ^ 16 ≤ (h.gr (gNum x.b)).toNat then some (plainStop .illField 0) else none)
    (fun h => coverAsid (fun a => a = (h.gr (gNum x.b)).toNat) true)

/-! RESUME and KILL (R377 to R379). -/

/-- RESUME (R377): 0 resumed, 1 not STOPPED, 2 no such image. -/
def execResume (x : Ops) (s : State) :=
  runSystem .resume x s
    (fun h => if (h.gr (gNum x.a)).toNat % 65536 ≠ 0 then some (plainStop .align (h.gr (gNum x.a))) else none)
    (fun s n h =>
      let give := fun (s : State) (v : Word) => Done.retire (s.setHart n ((s.hart n).setG (gNum x.d) v)) 0
      match s.taskList.find? (fun p => p.2.image = some (h.gr (gNum x.a)).toNat) with
      | none => give s 2
      | some (u, t) =>
        if t.status = .stopped then give (State.offer { s with held := s.held.filter (fun e => e.task ≠ u || e.advice) } u none false) 0
        else give s 1)

/-- What a graph that is being killed loses at once (R42, R260): what its tasks queued and has not started is discarded; its tasks
without a core, WAITING ones too, retire (Table 2-7), the others at their next boundary; it completes once all its work has ended. -/
def State.endGraph (s : State) (gid : Nat) (g : Graph) : State :=
  let s := s.setGraph gid (some { g with killed := true })
  let s := (List.range 8).foldl (fun s p =>
    s.setBankQueue p ((s.bankQueue p).filter (fun c => c.started || c.graph ≠ gid || c.task.isNone))) s
  let s := (List.range 10).foldl (fun s e =>
    let gone := (s.copiesAt e).filter (fun c => !c.started && c.graph = gid && c.task.isSome)
    let s := s.setCopies e ((s.copiesAt e).filter (fun c => !gone.contains c))
    gone.foldl (fun s c => s.dropItem (fun _ => c.kind = 1 || c.kind = 2) (.copy e c.seq)) s) s
  let s := (List.range 8).foldl (fun s p =>
    ((s.progsAt p).filter (fun q => q.graph = gid && !q.running)).foldl (fun s q => s.dropProg p q) s) s
  let free := s.taskList.filter (fun p => p.2.graph = gid && (s.hartOf p.1).isNone)
  State.tryComplete (free.foldl (fun s p => s.dropTask p.1) s) gid
/-- Killing a graph (R42), once. -/
def State.killGraph (s : State) (gid : Nat) : State :=
  match s.graph gid with
  | some g => if g.killed then s else s.endGraph gid g
  | none => s

/-- KILL (R378): 0 begun, 1 already begun, 2 no match. -/
def execKill (x : Ops) (s : State) :=
  runSystem .kill x s (fun _ => none) (fun s n h =>
    let ga := (h.gr (gNum x.a)).toNat
    let gid := ga % 2 ^ 32
    let give := fun (s : State) (v : Word) => Done.retire (s.setHart n ((s.hart n).setG (gNum x.d) v)) 0
    match s.graph gid with
    | none => give s 2
    | some g =>
      if g.asid ≠ ga / 2 ^ 32 then give s 2
      else if g.killed then give s 1
      else give (s.killGraph gid) 0)

/-! ATTEST (R388). -/

/-- The bytes of Table 18-13 that are signed, for a request. -/
def State.attestBody (s : State) (req : List Byte) : List Byte :=
  bytesOf 2 1 ++ bytesOf 2 420 ++ bytesOf 4 0 ++ bytesOf 8 s.caps.toNat ++ req.take 64 ++
  sha512 (imageBody s.firmware) ++ sha512 devPub ++ bytesOf 8 s.bootstat.toNat ++ bytesOf 8 s.spares ++ req.drop 64
/-- The report of Table 18-13 for a request, signed with the identity key and a fresh nonce (log 16). -/
def State.attestReport (s : State) (req : List Byte) : List Byte :=
  let body := s.attestBody req
  let sig := ecdsaSign identityKey (keyScalar (Config.attestNonce s.tick)) body
  body ++ bytesBE 66 sig.1 ++ bytesBE 66 sig.2

/-- ATTEST (R388): both addresses are checked before anything is written. It is no load or store, so WATCH does not concern it (R396). -/
def execAttest (x : Ops) (s : State) :=
  runSystem .attest x s
    (fun h =>
      let ga := h.gr (gNum x.a)
      let gb := h.gr (gNum x.b)
      if ga.toNat % 64 ≠ 0 then some (plainStop .align ga)
      else if gb.toNat % 64 ≠ 0 then some (plainStop .align gb) else none)
    (fun s n h =>
      match s.loadBlock n (h.gr (gNum x.a)).toNat 128 x.hint.val with
      | (s, .error e) => .stop s (failStop e)
      | (s, .ok req) =>
        let report := s.attestReport req ++ List.replicate 92 0
        match State.store { s with tick := s.tick + 1 } n (h.gr (gNum x.b)).toNat report x.hint.val with
        | (s, some e) => .stop s (failStop e)
        | (s, none) => .retire (s.setHart n { (s.hart n).setG (gNum x.d) 420 with watchHit := h.watchHit }) 0)

/-! ERET (R400, R401). -/

/-- The registers after ERET. An instruction that goes on keeps what it has touched of the watched word (R396). -/
def Hart.eret (h : Hart) : Hart :=
  { h with
    estart := BitVec.ofNat 64 (bitsN h.tstat.toNat 63 32), tstat := h.tstat &&& 0xFFFFFFFC, pc := h.epc
    stepArmed := h.tstat.getLsbD 1, mode := .running, held := none, cut := none
    watchHit := if bitsN h.tstat.toNat 63 32 = 0 then none else h.watchKept, watchKept := none }
/-- ERET (R400): it orders no access. -/
def execEret (x : Ops) (s : State) :=
  runCore .eret x s true none (fun n h =>
    if !h.tstat.getLsbD 0 then .stop s (plainStop .resumeState 0)
    else if h.epc.toNat % 4 ≠ 0 then .stop s (plainStop .align h.epc)
    else .final (s.setHart n h.eret))

/-! SCRUB (R413). -/

/-- The check of one unit as its memory holds it: whether it was corrected or newly poisoned. Cross-die parity counts as a
correction, as for every access of a system core (R403, log 30). -/
def State.scrubMark (s : State) (n pa : Nat) : State × Nat × Nat :=
  let e := s.errAt pa
  if e = .clean || e.poison then (s, 0, 0)
  else if !e.uncorr || (window pa < 8 && s.rebuilds pa) then (s.setErr pa .clean, 1, 0)
  else
    let base := unitBase pa
    let size := unitSize pa
    let s := (s.putNat base size (s.memNat base size ^^^ e.flip)).setErr pa ⟨true, false, 0⟩
    (s.logError pa 5 ⟨6, n - 256, 0, 0, 0⟩, 0, 1)
/-- The check of one unit at its home point. A dirty sector of the L2 that cannot be corrected is written back poisoned and logged
(R409); a clean one with an error is filled again from DRAM, which is then what is checked; a good clean one corrects DRAM; under any
other, DRAM is not what the home point holds (log 30). -/
def State.scrubUnit (s : State) (n pa : Nat) : State × Nat × Nat :=
  match s.sector pa with
  | none => s.scrubMark n pa
  | some x =>
    if x.bad && x.dirty then (s.loseSector pa ⟨3, n - 256, 0, 0, 0⟩, 0, 0)
    else if x.bad then
      let (t, c, u) := State.scrubMark (s.setSector pa none) n pa
      (t, if u = 0 then 1 else c, u)
    else if x.dirty || x.poison || s.errAt pa = .clean then (s, 0, 0)
    else if x.flip ≠ 0 then State.scrubMark (s.setSector pa none) n pa
    else (s.setErr pa .clean, 1, 0)

/-- The units of a range that differ from clean ones, in ascending order: those marked, and those that the L2 holds with an error. -/
def State.scrub (s : State) (n ga gb : Nat) : State × Nat × Nat :=
  let bad := s.l2.filterMap (fun p => match p.2 with | some x => if x.bad then some (32 * p.1) else none | none => none)
  let at_ := (s.err.map (fun e => e.1) ++ bad).foldl (fun t a => Table.set false t a true) []
  (at_.filter (fun p => rangesMeet p.1 (unitSize p.1) ga gb && !s.inPlane p.1)).foldl (fun (r : State × Nat × Nat) p =>
    let (s, c, u) := r.1.scrubUnit n p.1
    (s, r.2.1 + c, r.2.2 + u)) (s, 0, 0)

/-- Why SCRUB refuses a byte (R263, R272). -/
def State.scrubReach (s : State) (n pa : Nat) : Except Cause Xlat :=
  if 9 < window pa || !s.validAddr pa then .error .addrRange
  else match s.unreachable (postId n) pa with | some c => .error c | none => .ok ⟨pa, 0⟩

/-- SCRUB (R413). -/
def execScrub (x : Ops) (s : State) :=
  let bad := fun (h : Hart) (n : Nat) =>
    let ga := (h.gr (gNum x.a)).toNat
    let gb := (h.gr (gNum x.b)).toNat
    if ga % 32 ≠ 0 then some (plainStop .align (BitVec.ofNat 64 ga))
    else if 2 ^ 24 < gb then some (plainStop .addrRange (BitVec.ofNat 64 ga))
    else match mapRange (s.scrubReach n) ga gb with
      | .error (c, a) => some (plainStop c (BitVec.ofNat 64 a))
      | .ok _ => none
  runSystem .scrub x s (fun h => match s.turn with | .hart n => bad h n | .seq .. => none) (fun s n h =>
    let (s, c, u) := s.scrub n (h.gr (gNum x.a)).toNat (h.gr (gNum x.b)).toNat
    .retire (s.setHart n ((s.hart n).setG (gNum x.d) (BitVec.ofNat 64 (u * 2 ^ 32 + c)))) 0)

end Sys2Proof.Machine
end

