-- ==== Sys2Proof/Machine/Beams.lean ====
section
/-! DEFINITION. Beams (R418 to R438): flits, replay, rates, lane retirement, loss, the beam instructions and the beam
events. -/
namespace Sys2Proof.Machine
open Sys2Proof

/-! The flit (R420, R421). -/

/-- CRC-64 of R421: ECMA-182, initial value and final XOR all ones. -/
def flitCrc (bs : List Byte) : Nat := (bs.foldl crcByte (2 ^ 64 - 1)) ^^^ (2 ^ 64 - 1)
/-- The bits of a flit with its CRC: a data flit, or an idle one; `ack` gives NAK and ACKSEQ. -/
def flitBits (seq : Nat) (data : Option FlitData) (ack : Option (Bool × Nat)) : BitVec 2048 :=
  let head := match data with | some f => seq + f.vc % 4 * 2 ^ 16 | none => 2 ^ 18
  let acks := match ack with | some (nak, n) => 2 ^ 24 + (if nak then 2 ^ 25 else 0) + n * 2 ^ 32 | none => 0
  let payload := match data with | some f => natOfBytes (f.payload.take 240) | none => 0
  let x := head + acks + payload * 2 ^ 64
  BitVec.ofNat 2048 (x + flitCrc (bytesOf 248 x) * 2 ^ 1984)
/-- Whether the CRC of a flit holds and its reserved bits are clear (R421). -/
def flitGood (b : BitVec 2048) : Bool :=
  let x := b.toNat
  bitsN x 23 19 = 0 && bitsN x 31 26 = 0 && bitsN x 63 48 = 0 && bitsN x 2047 1984 = flitCrc (bytesOf 248 x)

/-! Modules and directions. -/

/-- A module as phase 5 leaves it. -/
def Module.fresh : Module := ⟨[], [], false, false, 0, []⟩
/-- A module of a direction. -/
def Direction.mod (d : Direction) (m : Nat) : Module := Table.get .fresh d.modules m
/-- Replacing a module. -/
def Direction.setMod (d : Direction) (m : Nat) (x : Module) : Direction := { d with modules := Table.set .fresh d.modules m x }
/-- The physical lane that carries a data lane (R420). -/
def Module.carrier (x : Module) (lane : Nat) : Nat :=
  match x.repair.find? (fun r => r.1 = lane) with | some (_, p) => p | none => lane
/-- The data lane that a physical lane carries. -/
def Module.carried (x : Module) (lane : Nat) : Option Nat :=
  match x.repair.find? (fun r => r.2 = lane) with
  | some (l, _) => some l
  | none => if lane < 64 && !x.retired.contains lane then some lane else none
/-- The lowest spare that is neither in use nor unusable (R418): R427 says an unused one, log 79 which. -/
def Module.spare (x : Module) : Option Nat :=
  [64, 65, 66, 67].find? (fun p => !x.retired.contains p && x.repair.all (fun r => r.2 ≠ p))
/-- The two ends of a beam, in the order of Table 1-3: a post, or 8 and 9 for the west and east I/O die (R11, R419). -/
def beamEnds (n : Nat) : Nat × Nat :=
  [(0, 1), (1, 2), (2, 3), (4, 5), (5, 6), (6, 7), (0, 4), (1, 5), (2, 6), (3, 7), (8, 0), (8, 4), (9, 3), (9, 7)].getD n (0, 0)
/-- The end that sends direction `d` (R419); the other end receives it and keeps its counters. -/
def beamSender (n d : Nat) : Nat := if d = 0 then (beamEnds n).1 else (beamEnds n).2
/-- A direction of a beam: 0 the flits that its first end of Table 1-3 sends, 1 those of its second (R419). -/
def Beam.dir (b : Beam) (d : Nat) : Direction := b.dirs.getD d .fresh
/-- Replacing a direction. -/
def Beam.setDir (b : Beam) (d : Nat) (x : Direction) : Beam := { b with dirs := b.dirs.set d x }
/-- The width of a direction in modules (R428, R431). -/
def Beam.width (b : Beam) (d : Nat) : Nat := if b.lost then 0 else 128 - (b.dir d).removedCount

/-! Events of a beam (R430, R431). -/

/-- BEAM_DEGRADED with its sticky bit (R430, Table 21-6). -/
def State.degrade (s : State) (n bit : Nat) : State :=
  let b := s.beam n
  (s.setBeam n { b with events := b.events ||| 2 ^ bit }).raiseAsync b.owner .beamDegraded (BitVec.ofNat 64 n)

/-- Losing a beam (R431): what its receivers have not accepted is discarded; a change in progress ends with result 2. -/
def State.loseBeam (s : State) (n : Nat) : State :=
  let b := s.beam n
  if b.lost then s
  else
    let results := match b.change with | some { asker := some h, .. } => b.results ++ [(h, 2)] | _ => b.results
    let clear := fun (d : Direction) => { d with waiting := [], buffer := [], resend := [], wire := [], ack := none, nakOut := false }
    (s.setBeam n { b with
      lost := true, events := b.events ||| 8, change := none, stepDue := 0, results := results
      dirs := b.dirs.map clear }).raiseAsync b.owner .beamDown (BitVec.ofNat 64 n)

/-- Removing a module (R428), with what the fall in width brings about (R430, R431). -/
def State.removeModule (s : State) (n d m : Nat) : State :=
  let b := s.beam n
  let dir := b.dir d
  let x := dir.mod m
  if x.removed || 128 ≤ m then s
  else
    let dir := { dir.setMod m { x with removed := true, training := false } with removedCount := dir.removedCount + 1 }
    let b := b.setDir d dir
    let s := s.setBeam n b
    let s := if b.width d < b.floor then s.degrade n 0 else s
    if b.width d = 0 then s.loseBeam n else s

/-- Retiring a physical lane (R427, R428, R435): the answer of BEAMRETIRE. A data lane takes the lowest unused spare and the
module retrains; the last flit of the module still on the wire is taken to have been on the lane, and fails its CRC whatever else
befalls it (log 31). -/
def State.retireLane (s : State) (n d m lane : Nat) : State × Nat :=
  let b := s.beam n
  let dir := b.dir d
  let x := dir.mod m
  if b.lost then (s, 3)
  else if x.removed || x.retired.contains lane then (s, 2)
  else
    let dir := { dir with lanesRetired := dir.lanesRetired + 1 }
    let y := { x with retired := x.retired ++ [lane] }
    match x.carried lane with
    | none => (s.setBeam n (b.setDir d (dir.setMod m y)), 0)
    | some l =>
      let hit := fun (fs : List Flit) =>
        let k := (fs.zipIdx.filter (fun p => p.1.module = m)).getLast?.map (fun p => p.2)
        fs.zipIdx.map (fun p => if some p.2 = k then { p.1 with spoilt := true } else p.1)
      let dir := { dir with wire := hit dir.wire }
      match y.spare with
      | some sp =>
        let y := { y with repair := y.repair.filter (fun r => r.1 ≠ l) ++ [(l, sp)], training := true }
        (s.setBeam n (b.setDir d (dir.setMod m y)), 0)
      | none => ((s.setBeam n (b.setDir d (dir.setMod m y))).removeModule n d m, 1)

/-- Making every buffered flit of a direction go out again (R423); a number that has been replayed 64 times and is still not accepted
loses the beam instead (R431). -/
def State.replay (s : State) (n d : Nat) : State :=
  let b := s.beam n
  let dir := b.dir d
  let unaccepted := fun (f : Sent) => (f.seq + 2 ^ 16 - dir.expect) % 2 ^ 16 < 2 ^ 15
  if dir.buffer.isEmpty then s
  else if dir.buffer.any (fun f => 64 ≤ f.tries && unaccepted f) then s.loseBeam n
  else s.setBeam n (b.setDir d { dir with
    resend := dir.buffer.map (fun f => f.seq), replays := dir.replays + 1, windowReplays := dir.windowReplays + 1 })

/-! Sending and receiving (R322, R422, R423). -/

/-- The data flit that a sender takes next from what waits: a latency-class one after 15 of other classes, else the first
(R322). -/
def Direction.pick (d : Direction) : Option FlitData :=
  if 15 ≤ d.sinceLatency then (d.waiting.find? (fun f => f.vc = 3)).or d.waiting.head? else d.waiting.head?
/-- The usable module that the round-robin reaches from `place` (R422). -/
def Direction.nextModule (d : Direction) : Option Nat :=
  ((List.range 128).map (fun i => (d.place + i) % 128)).find? (fun m => !(d.mod m).removed && !(d.mod m).training)

/-- Sending one flit in a direction: a replayed one, a new one, or an idle one; it takes the pending ACK of the other
direction. A window that is full takes no further data flit before it is judged (R429). -/
def State.sendFlit (s : State) (n d : Nat) : State :=
  let b := s.beam n
  let dir := b.dir d
  let back := b.dir (1 - d)
  match dir.nextModule with
  | none => s
  | some m =>
    let full := 2 ^ 20 ≤ dir.window
    let put := fun (dir : Direction) (bits : BitVec 2048) =>
      s.setBeam n ((b.setDir d { dir with wire := dir.wire ++ [⟨bits, m, false⟩] }).setDir (1 - d) { back with ack := none })
    let onward := fun (dir : Direction) => { dir with place := (m + 1) % 128, window := dir.window + 1 }
    match dir.resend with
    | q :: rest =>
      if full then s
      else match dir.buffer.find? (fun f => f.seq = q) with
        | some f => put (onward { dir with
            resend := rest, buffer := dir.buffer.map (fun g => if g.seq = q then { g with tries := g.tries + 1 } else g) })
            (flitBits q (some f.data) back.ack)
        | none => s.setBeam n (b.setDir d { dir with resend := rest })
    | [] =>
      match (if b.change.isSome || full || 1024 ≤ dir.buffer.length then none else dir.pick) with
      | some f =>
        let q := dir.nextSeq
        put (onward { dir with
          waiting := dir.waiting.erase f, buffer := dir.buffer ++ [⟨q, f, 0⟩], nextSeq := (q + 1) % 2 ^ 16
          sinceLatency := if f.vc = 3 then 0 else dir.sinceLatency + 1 }) (flitBits q (some f) back.ack)
      | none => put dir (flitBits 0 none back.ack)

/-- FLIT_SEND (R422): data that the fabric hands over waits at the sender; then one flit goes out. -/
def execFlitSend (beam dir : Nat) (data : Option FlitData) (s : State) : Host.Outcome State Fault Refusal :=
  let b := s.beam beam
  if s.phase ≠ 8 || 14 ≤ beam || 2 ≤ dir || b.lost then .next s
  else
    let s : State := match data with
      | some f =>
        if f.vc < 4 && f.payload.length = 240 then
          s.setBeam beam (b.setDir dir { b.dir dir with waiting := (b.dir dir).waiting ++ [f] })
        else s
      | none => s
    if (match b.change with | some c => c.training | none => false) then .next s else .next (s.sendFlit beam dir)

/-- The bit errors of a flit, counted to the lanes that carried them (R420, R427): those of the last 2^20 flits are kept. -/
def Module.note (x : Module) (errors : List Nat) : Module :=
  let k := x.flits + 1
  let es := x.errors ++ errors.map (fun p => (x.carrier (p % 64), k))
  { x with flits := k, errors := es.filter (fun e => k < e.2 + 2 ^ 20) }

/-- An ACK or NAK of `q` for the flits of a direction (R422, R423). -/
def State.acked (s : State) (n d : Nat) (nak : Bool) (q : Nat) : State :=
  let b := s.beam n
  let dir := b.dir d
  let covered := fun seq => (q + 2 ^ 16 - seq) % 2 ^ 16 < 2 ^ 15
  let dir := { dir with
    buffer := dir.buffer.filter (fun f => !covered f.seq), resend := dir.resend.filter (fun q => !covered q) }
  let s := s.setBeam n (b.setDir d dir)
  if nak then s.replay n d else s

/-- What a receiver does with a good data flit numbered `q` (R422): one that it accepts passes on, in sequence order (R424). -/
def Direction.take (d : Direction) (q : Nat) (f : FlitData) : Direction :=
  let last := (d.expect + 2 ^ 16 - 1) % 2 ^ 16
  let off := (q + 2 ^ 16 - d.expect) % 2 ^ 16
  if off = 0 then { d with expect := (d.expect + 1) % 2 ^ 16, ack := some (false, q), nakOut := false, passed := d.passed ++ [f] }
  else if off < 2 ^ 15 then (if d.nakOut then d else { d with ack := some (true, last), nakOut := true })
  else match d.ack with
    | some (true, _) => d
    | _ => { d with ack := some (false, last) }

/-- FLIT_RECEIVE (R421, R422): the oldest flit of a direction arrives, with the bit errors that it met; one that was on a retired lane
fails its CRC (R427). -/
def execFlitReceive (beam dir : Nat) (errors : List Nat) (s : State) : Host.Outcome State Fault Refusal :=
  let b := s.beam beam
  let d := b.dir dir
  match d.wire with
  | [] => .next s
  | f :: rest =>
    if s.phase ≠ 8 || 14 ≤ beam || 2 ≤ dir || b.lost then .next s
    else
      let errors := (errors.filter (fun p => p < 2048)).eraseDups
      let bits := errors.foldl (fun (x : BitVec 2048) p => x ^^^ BitVec.ofNat 2048 (2 ^ p)) f.bits
      let d := { d.setMod f.module ((d.mod f.module).note errors) with wire := rest }
      if f.spoilt || !flitGood bits then .next (s.setBeam beam (b.setDir dir { d with crc := d.crc + 1 }))
      else
        let x := bits.toNat
        let d := if x.testBit 18 then d else d.take (x % 2 ^ 16) ⟨bitsN x 17 16, bytesOf 240 (bitsN x 1983 64)⟩
        let s := s.setBeam beam (b.setDir dir d)
        .next (if x.testBit 24 then s.acked beam (1 - dir) (x.testBit 25) (bitsN x 47 32) else s)

/-- REPLAY_TIMEOUT (R423). -/
def execReplayTimeout (beam dir : Nat) (s : State) : Host.Outcome State Fault Refusal :=
  if s.phase ≠ 8 || 14 ≤ beam || 2 ≤ dir || (s.beam beam).lost then .next s else .next (s.replay beam dir)

/-! Rates (R426, R429). -/

/-- Starting a forced step down that is due and that no change in progress holds back (R429, R432). -/
def State.startStep (s : State) (n : Nat) : State :=
  let b := s.beam n
  if b.lost || b.stepDue = 0 || b.change.isSome then s
  else if b.rate = 0 then s.setBeam n { b with stepDue := 0 }
  else s.setBeam n { b with stepDue := b.stepDue - 1, change := some ⟨b.rate - 1, true, false, none⟩ }

/-- REPLAY_WINDOW_END (R429, R430): after 2^20 data flits sent. -/
def execReplayWindowEnd (beam dir : Nat) (s : State) : Host.Outcome State Fault Refusal :=
  let b := s.beam beam
  let d := b.dir dir
  if s.phase ≠ 8 || 14 ≤ beam || 2 ≤ dir || b.lost || d.window < 2 ^ 20 then .next s
  else
    let r := d.windowReplays
    let s := s.setBeam beam { b.setDir dir { d with rrate := r, window := 0, windowReplays := 0 } with
      stepDue := b.stepDue + if b.ceil < r && b.rate ≠ 0 then 1 else 0 }
    .next (State.startStep (if b.ceil < r then s.degrade beam 1 else s) beam)

/-- RATE_CHANGE_DRAINED (R426): both replay buffers are empty and the modules begin to retrain; a module that still retrains for a
retirement comes first (R432, R438). -/
def execRateChangeDrained (beam : Nat) (s : State) : Host.Outcome State Fault Refusal :=
  let b := s.beam beam
  match b.change with
  | some c =>
    if s.phase = 8 && !c.training && b.dirs.all (fun d => d.buffer.isEmpty && d.modules.all (fun m => !m.2.training)) then
      .next (s.setBeam beam { b with change := some { c with training := true } })
    else .next s
  | none => .next s

/-- RATE_RETRAIN_DONE (R426): a module that fails at the new rate abandons the change, one that then fails at the old rate
is removed; at code 0 a failure of every module loses the beam (R431). -/
def execRateRetrainDone (beam : Nat) (failNew failOld : List ModRef) (s : State) : Host.Outcome State Fault Refusal :=
  let b := s.beam beam
  match b.change with
  | some c =>
    if s.phase ≠ 8 || !c.training || b.lost then .next s
    else
      let active := fun (r : ModRef) => r.dir < 2 && r.module < 128 && !((b.dir r.dir).mod r.module).removed
      let trained := fun (d : Direction) => { d with modules := Table.ofList .fresh 0 ((List.range 128).map (fun m => { d.mod m with training := false })) }
      let b := { b with change := none, dirs := b.dirs.map trained }
      let done := fun (s : State) (r : Nat) => match c.asker with
        | some h => let b := s.beam beam; s.setBeam beam { b with results := b.results ++ [(h, if b.lost then 2 else r)] }
        | none => s
      let every := (List.range 2).all (fun d => (List.range 128).all (fun m => !active ⟨d, m⟩ || failNew.any (fun r => r.dir = d && r.module = m)))
      if c.code = 0 && every then
        .next (done (State.loseBeam (s.setBeam beam b) beam) 2)
      else if failNew.any active then
        let s := (failOld.filter active).foldl (fun s r => if (s.beam beam).lost then s else s.removeModule beam r.dir r.module) (s.setBeam beam b)
        .next ((done s 1).startStep beam)
      else
        let s := s.setBeam beam { b with rate := c.code }
        .next ((done (if c.forced then s.degrade beam 2 else s) 0).startStep beam)
  | none => .next s

/-- LANE_RETIRE (R427): a lane that carries data and has met 16 errors within its module's last 2^20 flits; not during a rate change
(R432). -/
def execLaneRetire (lane : LaneRef) (s : State) : Host.Outcome State Fault Refusal :=
  let x := ((s.beam lane.beam).dir lane.dir).mod lane.module
  if s.phase = 8 && lane.beam < 14 && lane.dir < 2 && lane.module < 128 && (s.beam lane.beam).change.isNone && (x.carried lane.lane).isSome &&
      16 ≤ (x.errors.filter (fun e => e.1 = lane.lane)).length then
    .next (s.retireLane lane.beam lane.dir lane.module lane.lane).1
  else .next s

/-- MODULE_RETRAIN_DONE (R427). -/
def execModuleRetrainDone (beam dir module : Nat) (s : State) : Host.Outcome State Fault Refusal :=
  let b := s.beam beam
  let x := (b.dir dir).mod module
  if s.phase = 8 && beam < 14 && dir < 2 && module < 128 && x.training then
    .next (s.setBeam beam (b.setDir dir ((b.dir dir).setMod module { x with training := false })))
  else .next s

/-! The beam instructions (R432 to R438). -/

/-- The fields of ga (R433). -/
def beamOf (h : Hart) (x : Ops) : Nat := (h.gr (gNum x.a)).toNat % 16
/-- The direction that ga names. -/
def beamDir (h : Hart) (x : Ops) : Nat := (h.gr (gNum x.a)).toNat / 16 % 2
/-- The module that ga names. -/
def beamMod (h : Hart) (x : Ops) : Nat := (h.gr (gNum x.a)).toNat / 32 % 128

/-- Beginning a beam instruction: the checks of R433 and of gb, then the wait for a change in progress (R432). -/
def runBeam (d : Desc) (x : Ops) (s : State) (dir mod : Bool) (ok : Nat → Bool) (body : State → Nat → Hart → Done) :
    Host.Outcome State Fault Refusal :=
  runSystem d x s
    (fun h =>
      let ga := (h.gr (gNum x.a)).toNat
      if 2 ^ 12 ≤ ga || 13 < ga % 16 || (!dir && ga.testBit 4) || (!mod && bitsN ga 11 5 ≠ 0) || !ok (h.gr (gNum x.b)).toNat then
        some (plainStop .illField 0)
      else none)
    (fun s n h => if (s.beam (beamOf h x)).change.isSome then stall s else body s n h)

/-- A beam instruction that answers in gd at once. -/
def beamAnswer (x : Ops) (s : State) (n v : Nat) : Done := .retire (s.setHart n ((s.hart n).setG (gNum x.d) (BitVec.ofNat 64 v))) 0

/-- BEAMRATE `.set` (R434): the core that asked goes on when the change has ended. -/
def execBeamrateSet (x : Ops) (s : State) :=
  runBeam .beamrateSet x s false false (fun v => v ≤ 4) (fun s n h =>
    let k := beamOf h x
    let b := s.beam k
    let code := (h.gr (gNum x.b)).toNat
    let mine := b.results.find? (fun r => r.1 = n)
    let s := s.setBeam k { b with results := b.results.filter (fun r => r.1 ≠ n) }
    match (if h.stalled then mine else none) with
    | some (_, r) => beamAnswer x s n r
    | none =>
      if b.lost then beamAnswer x s n 2
      else if b.rate = code then beamAnswer x s n 0
      else stall (s.setBeam k { s.beam k with change := some ⟨code, false, false, some n⟩ }))
/-- BEAMRATE `.floor`, `.ceil` and `.owner` (R434). -/
def runBeamSetting (d : Desc) (x : Ops) (s : State) (lo hi : Nat) (put : Beam → Nat → Beam) : Host.Outcome State Fault Refusal :=
  runBeam d x s false false (fun v => lo ≤ v && v ≤ hi) (fun s n h =>
    let b := s.beam (beamOf h x)
    beamAnswer x (s.setBeam (beamOf h x) (put b (h.gr (gNum x.b)).toNat)) n (if b.lost then 2 else 0))
def execBeamrateFloor (x : Ops) (s : State) := runBeamSetting .beamrateFloor x s 1 128 (fun b v => { b with floor := v })
def execBeamrateCeil (x : Ops) (s : State) := runBeamSetting .beamrateCeil x s 1 (2 ^ 20) (fun b v => { b with ceil := v })
def execBeamrateOwner (x : Ops) (s : State) := runBeamSetting .beamrateOwner x s 0 7 (fun b v => { b with owner := v })

/-- BEAMRETIRE (R435). -/
def execBeamretire (x : Ops) (s : State) :=
  runBeam .beamretire x s true true (fun v => v ≤ 67) (fun s n h =>
    let (s, r) := s.retireLane (beamOf h x) (beamDir h x) (beamMod h x) (h.gr (gNum x.b)).toNat
    beamAnswer x s n r)

/-- BEAMSTAT (R436): one value of a beam. -/
def runBeamstat (d : Desc) (x : Ops) (s : State) (mod : Bool) (f : Beam → Hart → Nat) : Host.Outcome State Fault Refusal :=
  runBeam d x s true mod (fun _ => true) (fun s n h => beamAnswer x s n (f (s.beam (beamOf h x)) h))
def execBeamstatRate (x : Ops) (s : State) := runBeamstat .beamstatRate x s false (fun b _ => 32 + 4 * b.rate)
def execBeamstatWidth (x : Ops) (s : State) := runBeamstat .beamstatWidth x s false (fun b h => b.width (beamDir h x))
def execBeamstatRetired (x : Ops) (s : State) :=
  runBeamstat .beamstatRetired x s false (fun b h => let d := b.dir (beamDir h x); d.lanesRetired % 2 ^ 32 + d.removedCount * 2 ^ 32)
def execBeamstatCrc (x : Ops) (s : State) := runBeamstat .beamstatCrc x s false (fun b h => (b.dir (beamDir h x)).crc)
def execBeamstatReplay (x : Ops) (s : State) := runBeamstat .beamstatReplay x s false (fun b h => (b.dir (beamDir h x)).replays)
def execBeamstatRrate (x : Ops) (s : State) := runBeamstat .beamstatRrate x s false (fun b h => (b.dir (beamDir h x)).rrate)
def execBeamstatModule (x : Ops) (s : State) :=
  runBeamstat .beamstatModule x s true (fun b h =>
    let m := (b.dir (beamDir h x)).mod (beamMod h x)
    m.repair.length + (if m.removed then 8 else 0))
def execBeamstatCfg (x : Ops) (s : State) :=
  runBeamstat .beamstatCfg x s false (fun b _ => b.floor + b.ceil * 2 ^ 8 + b.owner * 2 ^ 32 + b.rate * 2 ^ 35)
/-- BEAMSTAT `.events` clears FLOOR, CEIL and STEP (Table 21-6). -/
def execBeamstatEvents (x : Ops) (s : State) :=
  runBeam .beamstatEvents x s true false (fun _ => true) (fun s n h =>
    let b := s.beam (beamOf h x)
    beamAnswer x (s.setBeam (beamOf h x) { b with events := b.events / 8 * 8 }) n b.events)

end Sys2Proof.Machine
end

