-- ==== Sys2Proof/Machine/Boot.lean ====
section
/-! DEFINITION. Start-up, resets and the firmware mailbox (R17 to R19, R370, R387), scrapping (R414 to R416), and the
reports of the governor (R20, R23, R402). -/
namespace Sys2Proof.Machine
open Sys2Proof

/-! Resets (R18, R370). -/

/-- Host and CXL memory as they stand outside the device: the host's view of window 0xA, the device's copy of window 0xB. -/
def State.outside (s : State) : Table Byte :=
  let s := s.hostWrites.foldl (fun s w => if w.atHost then s.putBytes w.addr w.data else s) s
  Table.slice s.mem (10 * 2 ^ 48) (12 * 2 ^ 48)

/-- The device in phase 0 (R370): nothing inside it is kept. The schedule, what stands outside, the power and the PERST
inputs, and the counters of the model's own free values go on; open requests of the host end with an abort. -/
def State.resetDevice (s : State) : State :=
  { State.reset with
    agenda := s.agenda, mem := s.outside, marked := s.marked, l6 := s.l6, power := s.power, perst := s.perst, tick := s.tick
    hostReply := .abort }

/-- Leaving phase 0, with power good and no PERST# asserted (R18, R370). -/
def State.startUp (s : State) : State := if s.phase = 0 && s.power && s.perst = 0 then { s with phase := 1 } else s

/-- POWER_GOOD (R18). -/
def execPowerGood (s : State) : Host.Outcome State Fault Refusal := .next (State.startUp { s with power := true })
/-- POWER_GOOD_DROP (R18). -/
def execPowerGoodDrop (s : State) : Host.Outcome State Fault Refusal := .next { s.resetDevice with power := false }
/-- PERST_ASSERT (R370). -/
def execPerstAssert (port : Nat) (s : State) : Host.Outcome State Fault Refusal :=
  if port < 2 then .next { s.resetDevice with perst := s.perst ||| 2 ^ port } else .next s
/-- PERST_DEASSERT (R370). -/
def execPerstDeassert (port : Nat) (s : State) : Host.Outcome State Fault Refusal :=
  if port < 2 && s.perst.testBit port then .next (State.startUp { s with perst := s.perst ^^^ 2 ^ port }) else .next s
/-- A host write of DEVRESET (R370): phase 0 is entered and left; bits [63:32] are ignored. -/
def State.devReset (s : State) (value : Nat) : State :=
  if value % 2 ^ 32 = 0x5253544C && s.phase ≠ 0 then s.resetDevice.startUp else s
/-- DEVRESET (R370). -/
def execDevreset (value : Word) (s : State) : Host.Outcome State Fault Refusal := .next (s.devReset value.toNat)
/-- PORT_HOT_RESET (R370): the port's link and function alone; what it returned to the host last is gone. -/
def execPortHotReset (port : Nat) (s : State) : Host.Outcome State Fault Refusal :=
  if port < 2 then .next { s with hostReply := .none } else .next s

/-! Phases (Table 1-6, R19). -/

/-- The limit of a phase in milliseconds (Table 1-6); no time counts in the others (R17). -/
def phaseLimit : Nat → Nat
  | 1 => 40
  | 2 => 60
  | 3 => 1200
  | 4 => 200
  | 5 => 300
  | 6 => 400
  | 7 => 250
  | _ => 0
/-- Leaving a phase for another; ELAPSED moves on by at most the limit of the phase that ends (R17, R18, log 35). -/
def State.toPhase (s : State) (p : Nat) : State :=
  let ms := min (Config.elapsed s.tick).toNat (phaseLimit s.phase)
  { s with phase := p, tick := s.tick + 1, elapsed := BitVec.ofNat 32 (min (2 ^ 32 - 1) (s.elapsed.toNat + ms)) }
/-- A failed phase (R19). -/
def State.haltBoot (s : State) (c : Cause) (fail : Nat) : State := { s.toPhase 15 with bootCause := c, failPosts := fail }
/-- The end of a phase in which posts may fail with SELF_CHECK (R19). -/
def State.endPhase (s : State) (p fail : Nat) : State :=
  if s.phase ≠ p then s
  else if fail &&& s.posts = 0 then s.toPhase (p + 1) else s.haltBoot .selfCheck (fail &&& s.posts)

/-- PHASE_ROM_DONE (R18, R387): the image of the flash is at hand, and one given through FWCTL is held no longer. -/
def execPhaseRomDone (s : State) : Host.Outcome State Fault Refusal :=
  if s.phase = 1 then .next { s.toPhase 2 with fwImage := none } else .next s
/-- PHASE_AUTH_DONE (R19, R387): the signature of the image is checked: the one given through FWCTL, or what the flash held. The device
runs the image that passes. -/
def execPhaseAuthDone (flash : List (BitVec 8)) (s : State) : Host.Outcome State Fault Refusal :=
  let image := s.fwImage.getD flash
  if s.phase ≠ 2 then .next s
  else if imageOk image then .next { s.toPhase 3 with fwImage := some image }
  else .next (s.haltBoot .fwAuth 0)
/-- Memory from `lo` to below `hi` holds zeros without error, and no cache holds a sector of it (R18). -/
def State.zeroed (s : State) (lo hi : Nat) : State :=
  { s with
    mem := Table.splice s.mem lo hi [], err := Table.splice s.err lo hi []
    l2 := Table.splice s.l2 (lo / 32) (hi / 32) [] }
/-- PHASE_DRAM_DONE (R18, R19): every row of DRAM reads zero with correct check bits. -/
def execPhaseDramDone (fail : Nat) (s : State) : Host.Outcome State Fault Refusal :=
  let t := s.endPhase 3 fail
  .next (if s.phase = 3 && t.phase = 4 then { t.zeroed 0 (8 * 2 ^ 48) with rows := [], acts := [] } else t)
/-- PHASE_CORES_DONE (R18, R19, Table 18-13): at most two spares on a post, two bits each. -/
def execPhaseCoresDone (fail spares : Nat) (s : State) : Host.Outcome State Fault Refusal :=
  let few := (List.range 8).all (fun p => spares >>> (2 * p) % 4 ≤ (if s.posts.testBit p then 2 else 0))
  if s.phase = 4 && few && spares < 2 ^ 16 then .next { s.endPhase 4 fail with spares := spares } else .next s

/-- Repairing a lane at training (R18, R418): none where the module has no unused spare. -/
def State.trainLane (s : State) (r : LaneRef) : Option State :=
  let b := s.beam r.beam
  let d := b.dir r.dir
  let x := d.mod r.module
  if 14 ≤ r.beam || 2 ≤ r.dir || 128 ≤ r.module || 68 ≤ r.lane || x.retired.contains r.lane then some s
  else
    let y := { x with retired := x.retired ++ [r.lane] }
    let put := fun y => s.setBeam r.beam (b.setDir r.dir (d.setMod r.module y))
    match x.carried r.lane with
    | none => some (put y)
    | some l => y.spare.map (fun sp => put { y with repair := y.repair.filter (fun q => q.1 ≠ l) ++ [(l, sp)] })
/-- PHASE_BEAMS_DONE (R18, R19): every beam at 32 GT/s with the lanes that training repaired. -/
def execPhaseBeamsDone (ok : Bool) (repairs : List LaneRef) (s : State) : Host.Outcome State Fault Refusal :=
  if s.phase ≠ 5 then .next s
  else match (if ok then repairs.foldlM State.trainLane { s with beams := [] } else none) with
    | some t => .next (t.toPhase 6)
    | none => .next (s.haltBoot .beamDown 0)
/-- PHASE_SRAM_DONE (R18): the SRAM tier and the benches read zero with correct check bits; the L2 holds nothing. -/
def execPhaseSramDone (s : State) : Host.Outcome State Fault Refusal :=
  if s.phase = 6 then .next { (s.endPhase 6 0).zeroed (8 * 2 ^ 48) (10 * 2 ^ 48) with l2 := [] } else .next s
/-- PHASE_CHECK_DONE (R18, R19). -/
def execPhaseCheckDone (fail : Nat) (s : State) : Host.Outcome State Fault Refusal := .next (s.endPhase 7 fail)

/-- The bytes of host memory at a host physical address, as they stand at the host (R318, R387). -/
def State.hostBytes (s : State) (addr n : Nat) : List Byte :=
  let pa := 10 * 2 ^ 48 + addr % 2 ^ 48
  if s.hostWrites.isEmpty then s.memRange pa n
  else (List.range n).map (fun i => s.hostByte HostWr.atHost (pa + i))
/-- A write of FWCTL (R387): in the FW_AUTH halt, with FWLEN in range, FWLEN bytes are copied from FWADDR and phase 2 is repeated. -/
def State.fwctl (s : State) (value : Nat) : State :=
  if value.testBit 0 && s.phase = 15 && s.bootCause = .fwAuth && 133 ≤ s.fwlen.toNat && s.fwlen.toNat ≤ 2 ^ 26 then
    { s.toPhase 2 with bootCause := .none, fwImage := some (s.hostBytes (s.fwaddr.toNat / 4096 * 4096) s.fwlen.toNat) }
  else s
/-- FWCTL_GO (R387). -/
def execFwctlGo (value : Word) (s : State) : Host.Outcome State Fault Refusal := .next (s.fwctl value.toNat)

/-! Scrapping (R415, R416). -/

/-- The graphs that a post's scrapping kills, or ends where they are being killed (R415): a task or work there, or the pool or the fault
queue. -/
def State.graphsOn (s : State) (post : Nat) : List Nat :=
  (s.graphs.filterMap (fun p => p.2.map (fun g => (p.1, g)))).filterMap (fun p =>
    let gid := p.1
    let g := p.2
    if homePost g.pool = post || homePost g.faultq = post ||
        s.taskList.any (fun t => t.2.graph = gid && t.2.image.isSome && t.2.post = post) ||
        (s.bankQueue post).any (fun c => c.graph = gid) || (s.copiesAt post).any (fun c => c.graph = gid) ||
        (s.progsAt post).any (fun c => c.graph = gid) then some gid else none)

/-- Scrapping the package (R416): all work is discarded and the device halts; SCRAP is raised with bit 8 of FADDR, beside what is
pending of it (R398, Table 19-4). -/
def State.scrapPackage (s : State) (posts : Nat) : State :=
  let chief := s.chiefCore
  let h := s.hart (256 + chief)
  let old := if h.tpend.getLsbD Cause.scrap.code then Table.get 0 h.pendAddr Cause.scrap.code else 0
  let s := { State.haltBoot s .scrap (posts &&& s.posts) with
    harts := [], tasks := [], graphs := [], ready := [], rotation := [], pend := [], recent := [], rung := [], held := [],
    buffers := [], stores := [], banks := [], copies := [], regions := [], progs := [], due := [], waves := [], hostReply := .abort }
  s.raiseAsync chief .scrap (0x100 ||| old)
/-- PACKAGE_SCRAP (R414, R416). -/
def execPackageScrap (posts : Nat) (s : State) : Host.Outcome State Fault Refusal :=
  .next (if s.phase = 8 then s.scrapPackage posts else s)

/-- Whether the beam fabric of a post relays traffic (R414): it has a beam that is not lost (log 80). -/
def State.relays (s : State) (post : Nat) : Bool :=
  (List.range 14).any (fun b => ((beamEnds b).1 = post || (beamEnds b).2 = post) && !(s.beam b).lost)
/-- POST_SCRAP (R414, R415): an uncontained error of a post whose fabric no longer relays scraps the package. -/
def execPostScrap (post : Nat) (s : State) : Host.Outcome State Fault Refusal :=
  if s.phase ≠ 8 || !s.posts.testBit post || s.scrapped.testBit post then .next s
  else if !s.relays post then .next (s.scrapPackage (2 ^ post))
  else
    let dead := s.graphsOn post
    let inPost := fun (pa : Nat) => window pa ≤ 9 && homePost pa = post
    let s := { s with
      scrapped := s.scrapped ||| 2 ^ post
      harts := s.harts.filter (fun p => isSys p.1 || p.1 / 32 ≠ post)
      stores := s.stores.filter (fun x => (isSys x.hart || x.hart / 32 ≠ post) && !inPost x.addr)
      l2 := s.l2.filter (fun p => !inPost (32 * p.1))
      regions := s.regions.filter (fun r => r.post ≠ post)
      rotation := s.rotation.filter (fun r => r.post ≠ post)
      waves := s.waves.filter (fun p => p.1 / 16 ≠ post)
      due := s.due.filter (fun p => p.1 ≠ post) }
    let s := ((s.setBankQueue post []).setCopies post []).setProgs post []
    let s := dead.foldl (fun s gid => match s.graph gid with | some g => s.endGraph gid g | none => s) s
    let lost := s.ready.filter (fun r => r.post = post)
    let s := lost.foldl (fun s r => State.offer { s with ready := s.ready.filter (fun q => q.task ≠ r.task) } r.task none false) s
    .next (s.raiseAsync s.chiefCore .scrap (BitVec.ofNat 64 (2 ^ post)))

/-! The governor's reports (R20, R23, R402). -/

/-- POWER_LIMIT (R20): a domain of Table 1-7. -/
def execPowerLimit (domain : Nat) (s : State) : Host.Outcome State Fault Refusal :=
  if s.phase = 8 && domain < 6 then .next (s.raiseAsync s.chiefCore .powerLimit (BitVec.ofNat 64 domain)) else .next s
/-- THERMAL (Table 19-4): a die passes its throttle temperature and its clock is lowered. -/
def execThermal (die : Nat) (s : State) : Host.Outcome State Fault Refusal :=
  if s.phase = 8 && die < 10 && !s.throttledDies.testBit die then
    .next (State.raiseAsync { s with throttledDies := s.throttledDies ||| 2 ^ die } s.chiefCore .thermal (BitVec.ofNat 64 die))
  else .next s
/-- TEMPERATURE_FALL (Table 19-4): the die's clock is restored. -/
def execTemperatureFall (die : Nat) (s : State) : Host.Outcome State Fault Refusal :=
  if s.throttledDies.testBit die then .next { s with throttledDies := s.throttledDies ^^^ 2 ^ die } else .next s

end Sys2Proof.Machine
end

