-- ==== Sys2Proof/Machine/Direction.lean ====
section
/-! DEFINITION. Exact arithmetic of directional pairs (R190 to R195): norm codes, renormalisation, cosines. A sum of two
scaled directions lies in numbers a + b r with integer a and b and r = 2^(−n / 2^23); their signs and logarithms are found
exactly, by bounds of rising precision and by algebra where bounds cannot decide (log 15). -/
namespace Sys2Proof.Machine
open Sys2Proof

/-- The classes of a norm code (R192). -/
inductive NormClass where
  | finite | saturated | zero | nan
  deriving DecidableEq, Repr

/-- The class of a norm code (R191, R192). -/
def normClass (c : BitVec 32) : NormClass :=
  if c = normZero then .zero else if c = normNaN then .nan else if c = normSat then .saturated else .finite

/-- The finite code of `n` units of 2^−23, or what stands outside the range, with its flag (`logcode`, R111, R194). -/
def normOf (n : Int) : BitVec 32 × Flags :=
  if 2 ^ 31 - 2 < n then (normSat, fOF) else if n < -(2 ^ 31) + 2 then (normZero, fUF) else (BitVec.ofInt 32 n, 0)

/-- A pair: its components and its norm code. -/
structure Pair where
  comps : List Int
  norm : BitVec 32
  deriving DecidableEq, Repr

/-- The sum of products of two directions, exact (R204). -/
def dotSum (a b : List Int) : Int := (List.zipWith (fun x y => x * y) a b).foldl (fun s x => s + x) 0

/-- Bounds of 2^(−n / 2^23): the value lies in `[m, m + 2] × 2^−e`, with about `p` bits in `m`. -/
def rootBounds (p n : Nat) : Nat × Nat :=
  -- −n = −k − 1 + f, with f the fraction
  let k := n / 2 ^ 23
  let f := 2 ^ 23 - n % 2 ^ 23
  let lo := exp2Bits p f 23 (2 ^ (p + 1)) (2 ^ p)
  (lo >>> 8, p - 8 + k + 1)

/-- Bounds of `a + b r + c r²` times 2^(2e). -/
def quadBounds (p n : Nat) (a b c : Int) : Int × Int × Nat :=
  let (m, e) := rootBounds p n
  let lo : Int := m
  let hi : Int := m + 2
  let a' := a * (2 ^ (2 * e) : Nat)
  let b' := b * (2 ^ e : Nat)
  (a' + (if 0 ≤ b then b' * lo else b' * hi) + (if 0 ≤ c then c * lo * lo else c * hi * hi),
   a' + (if 0 ≤ b then b' * hi else b' * lo) + (if 0 ≤ c then c * hi * hi else c * lo * lo), e)

/-- The sign of `a + b r + c r²` by bounds; 0 where they do not decide. -/
def quadSignBy (n : Nat) (a b c : Int) : Nat → Nat → Int
  | 0, _ => 0
  | fuel + 1, p =>
    let (lo, hi, _) := quadBounds p n a b c
    if 0 < lo then 1 else if hi < 0 then -1 else quadSignBy n a b c fuel (2 * p)

/-- The sign of `a + b r + c r²` for r = 2^(−n / 2^23), n no multiple of 2^23 unless `b` and `c` are 0. It is 0 exactly
where all three are 0, or r² is rational, `b` is 0 and the rest cancels: a power of two with a finer exponent satisfies no
quadratic equation. -/
def quadSign (n : Nat) (a b c : Int) : Int :=
  if b = 0 && c = 0 then a.sign
  else if n % 2 ^ 22 = 0 && b = 0 && a * (2 ^ (n / 2 ^ 22) : Nat) + c = 0 then 0
  else quadSignBy n a b c 8 192

/-- An exact vector: its components `a + b r` times 2^(e / 2^23) over `den`, with r = 2^(−n / 2^23). -/
structure Mixed where
  n : Nat
  xs : List (Int × Int)
  e : Int
  den : Nat

/-- A vector of integers times 2^(e / 2^23) over `den`. -/
def Mixed.ofInts (xs : List Int) (e : Int) (den : Nat) : Mixed := ⟨0, xs.map (fun x => (x, 0)), e, den⟩

/-- λ² without its scale: the coefficients of 1, r and r² (R194). -/
def Mixed.square (v : Mixed) : Int × Int × Int :=
  v.xs.foldl (fun q x => (q.1 + x.1 * x.1, q.2.1 + 2 * x.1 * x.2, q.2.2 + x.2 * x.2)) (0, 0, 0)

/-- `rne14(x / λ)` (R194): the magnitude by bits from the highest, each decided exactly; `q` is λ². -/
def unitComp (n : Nat) (q : Int × Int × Int) (x : Int × Int) : Int :=
  if x = (0, 0) then 0
  else
    let square : Int × Int × Int := (x.1 * x.1, 2 * x.1 * x.2, x.2 * x.2)
    -- whether |x| / λ, in units of 2^−14, rounds to at least k
    let atLeast := fun (k : Nat) =>
      let m : Int := (2 * k - 1) * (2 * k - 1)
      let s := quadSign n (2 ^ 30 * square.1 - m * q.1) (2 ^ 30 * square.2.1 - m * q.2.1) (2 ^ 30 * square.2.2 - m * q.2.2)
      0 < s || (s = 0 && k % 2 = 0)
    let k := (List.range 15).foldl (fun k i => if atLeast (k + 2 ^ (14 - i)) then k + 2 ^ (14 - i) else k) 0
    if quadSign n x.1 x.2 0 < 0 then -k else k

/-- The floor of 2^23 log2 (a / b) for positive a and b. -/
def logFloor (a b : Nat) : Int :=
  match log2Real a b 0 with
  | .fin neg m e _ =>
    let k := (23 + e)
    let x : Int := if 0 ≤ k then m * (2 ^ k.toNat : Nat) else (m / 2 ^ (-k).toNat : Nat)
    if !neg then x
    else if 0 ≤ k then -x else -x - (if m % 2 ^ (-k).toNat ≠ 0 || e < 0 then 1 else 0)
  | _ => 0

/-- The floor of 2^23 log2 of `(a + b r + c r²) / d`, which is positive, by bounds. -/
def quadLog (n : Nat) (q : Int × Int × Int) (d : Nat) : Nat → Nat → Int
  | 0, _ => 0
  | fuel + 1, p =>
    let (lo, hi, e) := quadBounds p n q.1 q.2.1 q.2.2
    let den := d * 2 ^ (2 * e)
    if 0 < lo && logFloor lo.toNat den = logFloor hi.toNat den then logFloor lo.toNat den else quadLog n q d fuel (2 * p)

/-- log2 λ in units of 2^−23, rounded to nearest (R194): half of log2 λ². A tie cannot arise, since 2 to an odd multiple
of 2^−23 is no such sum. -/
def Mixed.logNorm (v : Mixed) : Int :=
  let (a, b, c) := v.square
  let d := v.den * v.den
  let f :=
    if b = 0 && c = 0 then logFloor a.toNat d
    else if v.n % 2 ^ 22 = 0 && b = 0 then
      logFloor (a * (2 ^ (v.n / 2 ^ 22) : Nat) + c).toNat (d * 2 ^ (v.n / 2 ^ 22))
    else quadLog v.n (a, b, c) d 8 192
  v.e + (f + 1) / 2

/-- The canonical zero direction with a code (R191). -/
def Pair.flat (len : Nat) (norm : BitVec 32) : Pair := ⟨List.replicate len 0, norm⟩

/-- The unit direction of a non-zero vector (R194). -/
def Mixed.unit (v : Mixed) : List Int := let q := v.square; v.xs.map (unitComp v.n q)

/-- Whether the exact vector is zero (R194). -/
def Mixed.isZero (v : Mixed) : Bool := v.xs.all (fun x => quadSign v.n x.1 x.2 0 = 0)

/-- `renorm(x)` for finite components (R194, R195). -/
def Mixed.renorm (v : Mixed) : Pair × Flags :=
  if v.isZero then (.flat v.xs.length normZero, 0)
  else
    let (m, f) := normOf v.logNorm
    if m = normZero then (.flat v.xs.length m, f) else (⟨v.unit, m⟩, f)

/-- `renorm(x)` (R194). -/
def renorm (xs : List XReal) : Pair × Flags :=
  if xs.contains .nan then (.flat xs.length normNaN, 0)
  else
    let isInf := fun (x : XReal) => match x with | .inf _ => true | _ => false
    if xs.any isInf then
      let signs : List Int := xs.map (fun x => match x with | .inf s => if s then -1 else 1 | _ => 0)
      (⟨(Mixed.ofInts signs 0 1).unit, normSat⟩, fOF)
    else
      let finite := xs.filter (fun x => match x with | .fin _ _ _ _ => true | _ => false)
      let e := finite.foldl (fun e x => min e x.expo) 2048
      (Mixed.ofInts (xs.map (fun x => x.scaled e)) (e * 2 ^ 23) 1).renorm

/-- An integer times 2^(n / 2^23), as far as rounding to any type needs it. -/
def scaledPow (s : Int) (n : Int) : XReal :=
  let k := n / 2 ^ 23
  let f := (n % 2 ^ 23).toNat
  if s = 0 then .zero false
  else if f = 0 then .fin (s < 0) s.natAbs k false
  else
    let rec go : Nat → Nat → XReal
      | 0, p => .fin (s < 0) (s.natAbs * 2 ^ p) (k - p) true
      | fuel + 1, p =>
        let lo := exp2Bits p f 23 (2 ^ (p + 1)) (2 ^ p)
        let a := (s.natAbs * lo) >>> 64
        let b := (s.natAbs * (lo + 234)) >>> 64
        if a = b then .fin (s < 0) a (64 - (p : Int) + k) true else go fuel (2 * p)
    go 8 256

/-- The unit invariant of R193 for `n` components. -/
def unitOk (comps : List Int) : Bool := ((dotSum comps comps) - 2 ^ 28).natAbs ≤ comps.length * 2 ^ 14

/-- Whether a pair keeps R193 as a load may write it (R193, R211). -/
def Pair.ok (p : Pair) : Bool :=
  match normClass p.norm with
  | .nan => true
  | .zero => p.comps.all (fun c => c = 0)
  | _ => unitOk p.comps

end Sys2Proof.Machine
end

