-- ==== Sys2Proof/Machine/Matrix.lean ====
section
/-! DEFINITION. The accumulator tiles: outer products, slices and whole tiles in memory, moves, scaling, conversion,
zeroing and release (R166 to R189). -/
namespace Sys2Proof.Machine
open Sys2Proof

/-- Rows `lo` to `hi - 1` of tile `t` replaced by `f` of row, column and old cell, with the flags of all (R119, R142,
R170). -/
def Hart.mapRows (h : Hart) (t lo hi : Nat) (f : Nat → Nat → BitVec 32 → Nat × Flags) : Hart × Flags :=
  let base := cellKey t lo 0
  let top := cellKey t hi 0
  let old := Table.dense 0 (top - base) base (Table.slice h.acc base top)
  let new := old.zipIdx.map (fun c => f (lo + c.2 / 256) (c.2 % 256) c.1)
  (Hart.live { h with acc := Table.splice h.acc base top (Table.ofList 0 base (new.map (fun c => BitVec.ofNat 32 c.1))) } (48 + t),
   new.foldl (fun g c => g ||| c.2) 0)

/-- ACC_RANGE for the index register of the slice in field `f` (R71, R169). -/
def Hart.sliceStop (h : Hart) (x : Ops) (f : Nat) : Option Stop :=
  if h.sliceBad (x.field f) then some ⟨.accRange, 0, 0, 0, f, 0⟩ else none

/-- The cells of a slice with their places in it (R71). -/
def Hart.sliceCells (h : Hart) (o : Operand) : List (Nat × Nat × Nat) :=
  (List.range 256).map (fun n => (n, sliceCell (accDirOf o) (h.sliceIdx o) n))

/-- Writing 256 values to a slice (R170, R180, R183). -/
def Hart.setSlice (h : Hart) (o : Operand) (f : Nat → BitVec 32) : Hart :=
  Hart.live ((h.sliceCells o).foldl (fun g c => g.setCell (accTile o) c.2.1 c.2.2 (f c.1)) h) (48 + accTile o)

/-- The exact product of two vector elements and the flags of reading and forming it (R106, R112, R173). -/
def termOf (t : Ty) (a b : Nat) : XReal × Flags :=
  let (p, f) := (t.value a).mul (t.value b)
  (p, t.readFlags a ||| t.readFlags b ||| f)

/-- `acc_add` (R173): an FP32 cell takes the exact term with one rounding; an I32 cell wraps or saturates. -/
def accAdd (tc : Ty) (rm : RM) (sat : Bool) (c : BitVec 32) (p : XReal) : Nat × Flags :=
  if tc.isFp then
    let (v, f) := (tc.value c.toNat).add p rm
    let (e, g) := v.round tc rm false 0
    (e, tc.readFlags c.toNat ||| f ||| g)
  else fitInt tc (tc.int c.toNat + (p.toInt .rne 0).1) sat

/-- One outer-product step over all cells of tile D: `a` and `b` give the encodings of elements. -/
def Hart.outer (h : Hart) (x : Ops) (a b : Nat → Nat) : Hart × Flags :=
  h.mapRows (accTile x.d) 0 256 (fun i j c =>
    let (p, f) := termOf x.ts (a i) (b j)
    let (e, g) := accAdd x.td (h.modeN x) (satBit x) c p
    (e, f ||| g))

/-- A matrix instruction that is not long: LIVE_DEAD, then its effect or FP_ENABLED with nothing written (R169, R188). -/
def runTile (d : Desc) (x : Ops) (s : State) (slices dead : List Nat) (f : Hart → Hart × Flags) :
    Host.Outcome State Fault Refusal :=
  runReg d x s true none (fun h =>
    match (slices.findSome? (h.sliceStop x)).or (h.deadStop x dead) with
    | some e => .stop h e
    | none => let (h', fl) := f h; h.fpDone h' fl)

/-- MZERO (R186): the whole tile, or one slice. -/
def execMzero (x : Ops) (s : State) :=
  runTile .mzero x s [2] [] (fun h =>
    let t := accTile x.d
    if accDirOf x.d = 0 then
      (Hart.live { h with acc := Table.splice h.acc (cellKey t 0 0) (cellKey (t + 1) 0 0) [] } (48 + t), 0)
    else (h.setSlice x.d (fun _ => 0), 0))
/-- MOP (R174). -/
def execMop (x : Ops) (s : State) :=
  runTile .mop x s [] [2, 3, 4] (fun h =>
    h.outer x (fun i => h.elem (firstReg x.a) i x.ts.width) (fun j => h.elem (firstReg x.b) j x.ts.width))
/-- MOPS (R175): a rank-2 product; a T2 code 0b10 counts as 0 and raises NV. -/
def execMops (x : Ops) (s : State) :=
  runTile .mops x s [] [2, 3, 4] (fun h =>
    let t := fun n => h.elem (firstReg x.a) n 2
    let b := fun r j => Ty.i8.int (h.elem (firstReg x.b + r) j 8)
    h.mapRows (accTile x.d) 0 256 (fun i j c =>
      let (e, g) := accAdd .i32 .rne (satBit x) c (XReal.ofInt (Ty.t2.int (t i) * b 0 j + Ty.t2.int (t (256 + i)) * b 1 j))
      (e, Ty.t2.readFlags (t i) ||| Ty.t2.readFlags (t (256 + i)) ||| g)))
/-- MMOVV (R183). -/
def execMmovv (x : Ops) (s : State) :=
  runTile .mmovv x s [3] [3] (fun h =>
    let t := accTile x.a
    (((h.sliceCells x.a).foldl (fun g c => g.setElem (firstReg x.d) c.1 32 (h.cell t c.2.1 c.2.2).toNat) h).liveAll x.d, 0))
/-- MMOVA (R183). -/
def execMmova (x : Ops) (s : State) :=
  runTile .mmova x s [2] [3] (fun h => (h.setSlice x.d (fun n => BitVec.ofNat 32 (h.elem (firstReg x.a) n 32)), 0))
/-- MREL (R187). -/
def execMrel (x : Ops) (s : State) := runTile .mrel x s [] [] (fun h => (h.kill (48 + accTile x.d), 0))

/-- A long matrix instruction by rows (R184, R185): a unit is a row; FP_ENABLED stops at the lowest row that raises. -/
def runRows (d : Desc) (x : Ops) (s : State) (dead : List Nat) (f : Hart → Nat → Nat → BitVec 32 → Nat × Flags) :
    Host.Outcome State Fault Refusal :=
  runReg d x s true (some (fun _ => 256)) (fun h =>
    match h.deadStop x dead with
    | some e => .stop h e
    | none =>
      unitLoop x (fun g i => g.mapRows (accTile x.d) i (i + 1) (f h)) (h.cut.map (fun c => c.unit)) true
        (unitGroups h.estart.toNat 256 1) h 0)

/-- MSCL (R184): the exact product of three values, rounded once. -/
def execMscl (x : Ops) (s : State) :=
  runRows .mscl x s [2, 3, 4] (fun h i j c =>
    let t := Ty.fp32
    let a := h.vsrc x x.a i 32
    let b := h.vsrc x x.b j 32
    let (p, f) := (t.value c.toNat).mul (t.value a)
    let (q, g) := p.mul (t.value b)
    let (e, r) := q.round t (h.modeN x) false 0
    (e, t.readFlags c.toNat ||| t.readFlags a ||| t.readFlags b ||| f ||| g ||| r))
/-- MCVT (R185). -/
def execMcvt (x : Ops) (s : State) :=
  runRows .mcvt x s [2] (fun h _ _ c => convert x.td x.ts c.toNat (h.modeN x) false false 0)

/-! Panels, slices and tiles in memory. -/

/-- Reading `count` elements of `nb` bytes at `va`, each an access of its own (R176, R180). -/
def State.loadCells (s : State) (n va nb hint : Nat) : (count : Nat) → State × Except (Cause × Nat) (List Nat)
  | 0 => (s, .ok [])
  | k + 1 =>
    match State.loadCells s n va nb hint k with
    | (s, .error e) => (s, .error e)
    | (s, .ok xs) => match s.load n (va + k * nb) nb .read hint with
      | (s, .error e) => (s, .error e)
      | (s, .ok bs) => (s, .ok (xs ++ [natOfBytes bs]))

/-- Reading a whole run, the translation of all of it first (R180, R181): a failure gives the lowest failing address. -/
def State.loadLine (s : State) (n va nb hint : Nat) (count : Nat) : State × Except (Cause × Nat) (List Nat) :=
  match mapRange (s.reach n .read) va (count * nb) with
  | .error e => (s, .error e)
  | .ok _ => s.loadCells n va nb hint count

/-- K of MOPK (R176). -/
def Hart.mopkK (h : Hart) (x : Ops) : Nat := bitsN (h.gr (gNum x.a)).toNat 63 52

/-- The steps of MOPK from `k` (R176 to R178). Where both panels fail at one address, the stop names A, a choice (log 40). -/
def mopkSteps (x : Ops) (n : Nat) (cut : Option Nat) (first : Bool) : List Nat → State → Flags → Done
  | [], s, fl => .retire s fl
  | k :: ks, s, fl =>
    if !first && cut = some k then .cut (s.setHart n ((s.hart n).addFlags fl)) k
    else
      let h := s.hart n
      let step := 256 * x.ts.width / 8
      let read := fun (s : State) (o : Operand) =>
        s.loadCells n (bitsN (h.gr (gNum o)).toNat 51 0 + k * step) (x.ts.width / 8) x.hint.val 256
      let stopped := fun (s : State) (e : Stop) => Done.stop (s.setHart n ((s.hart n).addFlags fl)) { e with unit := k }
      match read s x.a with
      | (s, .error e) =>
        -- the lowest failing address of both panels (R178), A's field where they are equal (log 40)
        match read s x.b with
        | (s', .error e') => if e'.2 < e.2 then stopped s' (accessStop e' .read 4 0) else stopped s (accessStop e .read 3 0)
        | _ => stopped s (accessStop e .read 3 0)
      | (s, .ok as) => match read s x.b with
        | (s, .error e) => stopped s (accessStop e .read 4 0)
        | (s, .ok bs) =>
          let h := s.hart n
          let (h', g) := h.outer x (fun i => as.getD i 0) (fun j => bs.getD j 0)
          if h.fpTraps g then stopped s ⟨.fpEnabled, g.setWidth 64, 0, 0, 0, 0⟩
          else mopkSteps x n cut false ks (s.setHart n h') (fl ||| g)

/-- MOPK (R176 to R179). With K = 0 it does nothing but the checks of its operands. FINFO of its ADDR_RANGE and ALIGN stops
has kind 0 and the field of the failing base, that of ga where both are misaligned, a choice (log 58). -/
def execMopk (x : Ops) (s : State) :=
  runCore .mopk x s true (some (fun h => h.mopkK x)) (fun n h =>
    let ga := (h.gr (gNum x.a)).toNat
    let gb := (h.gr (gNum x.b)).toNat
    match (if h.mopkK x = 0 then none else h.deadStop x [2]) with
    | some e => .stop s e
    | none =>
      if bitsN gb 63 52 ≠ 0 then .stop s (accessStop (.addrRange, bitsN gb 51 0) .read 4 0)
      else if ga % 64 ≠ 0 then .stop s (accessStop (.align, bitsN ga 51 0) .read 3 0)
      else if gb % 64 ≠ 0 then .stop s (accessStop (.align, bitsN gb 51 0) .read 4 0)
      else mopkSteps x n (h.cut.map (fun c => c.unit)) true
        ((List.range (h.mopkK x)).filter (fun k => h.estart.toNat ≤ k)) s 0)

/-- The address of a slice in memory: the base register plus the immediate (R180). -/
def Hart.sliceAddr (h : Hart) (base : Operand) (x : Ops) : Nat := (h.gr (gNum base) + h.src x.b).toNat

/-- MLD (R180). FINFO of its ALIGN and access stops has kind 0 and the field of the base register, as R271 gives for group
0x08 (log 58). -/
def execMld (x : Ops) (s : State) :=
  runCore .mld x s true none (fun n h =>
    match h.sliceStop x 2 with
    | some e => .stop s e
    | none =>
      let ea := h.sliceAddr x.a x
      if ea % 4 ≠ 0 then .stop s (accessStop (.align, ea) .read 3 0)
      else match s.loadLine n ea 4 x.hint.val 256 with
      | (s, .error e) => .stop s (accessStop e .read 3 0)
      | (s, .ok cs) => .retire (s.setHart n ((s.hart n).setSlice x.d (fun k => BitVec.ofNat 32 (cs.getD k 0)))) 0)

/-- The 4-byte writes of cells at `va`, all of them translated first, or the failure (R180, R181, R211). -/
def State.cellWrites (s : State) (n va hint : Nat) (cells : List (BitVec 32)) : State × Except (Cause × Nat) (List Pending) :=
  match s.storePieces n va (4 * cells.length) with
  | (s, .error e) => (s, .error e)
  | (s, .ok _) =>
    cells.zipIdx.foldl (fun r c => match r with
      | (s, .error e) => (s, .error e)
      | (s, .ok ws) => match s.storePieces n (va + 4 * c.2) 4 with
        | (s, .error e) => (s, .error e)
        | (s, .ok ps) => (s, .ok (ws ++ s.pendingOf n hint ps (bytesOf 4 c.1.toNat)))) (s, .ok [])

/-- MST (R180). FINFO of its ALIGN and access stops has kind 1 and field 2 (log 58). -/
def execMst (x : Ops) (s : State) :=
  runCore .mst x s true none (fun n h =>
    match (h.sliceStop x 3).or (h.deadStop x [3]) with
    | some e => .stop s e
    | none =>
      let ea := h.sliceAddr x.d x
      if ea % 4 ≠ 0 then .stop s (accessStop (.align, ea) .write 2 0)
      else match s.cellWrites n ea x.hint.val ((h.sliceCells x.a).map (fun c => h.cell (accTile x.a) c.2.1 c.2.2)) with
      | (s, .error e) => .stop s (accessStop e .write 2 0)
      | (s, .ok ws) => .retire (s.issueElems ws) 0)

/-- The address of line `k` of a tile in memory (R181). -/
def Hart.lineAddr (h : Hart) (base : Operand) (x : Ops) (k : Nat) : Nat :=
  (h.gr (gNum base) + BitVec.ofNat 64 k * h.src x.b).toNat
/-- The cell at place `q` of line `k`: rows, or columns under `.col` (R181). -/
def lineCell (x : Ops) (k q : Nat) : Nat × Nat := if x.var.val = 0 then (k, q) else (q, k)
/-- ALIGN for a base or a stride (R181): FADDR is the base; FINFO has the access kind and the field of the base, a choice (log 58). -/
def Hart.lineStop (h : Hart) (base : Operand) (x : Ops) (kind : Acc) (field : Nat) : Option Stop :=
  let b := (h.gr (gNum base)).toNat
  if b % 4 ≠ 0 || (h.src x.b).toNat % 4 ≠ 0 then some (accessStop (.align, b) kind field 0) else none

/-- The lines of MLDT from ESTART (R181, R182). -/
def mldtLines (x : Ops) (n : Nat) (cut : Option Nat) (first : Bool) : List Nat → State → Done
  | [], s => .retire s 0
  | k :: ks, s =>
    if !first && cut = some k then .cut s k
    else match s.loadLine n ((s.hart n).lineAddr x.a x k) 4 x.hint.val 256 with
    | (s, .error e) => .stop s (accessStop e .read 3 k)
    | (s, .ok cs) =>
      let h := cs.zipIdx.foldl (fun h c => h.setCell (accTile x.d) (lineCell x k c.2).1 (lineCell x k c.2).2 (BitVec.ofNat 32 c.1)) (s.hart n)
      mldtLines x n cut false ks (s.setHart n h)

/-- MLDT (R181, R182). -/
def execMldt (x : Ops) (s : State) :=
  runCore .mldt x s true (some (fun _ => 256)) (fun n h =>
    match h.lineStop x.a x .read 3 with
    | some e => .stop s e
    | none => mldtLines x n (h.cut.map (fun c => c.unit)) true ((List.range 256).filter (fun k => h.estart.toNat ≤ k)) s)

/-- The lines of MSTT from ESTART (R181, R182): the writes of all its lines, `ws` so far, go out together when it ends, merged as R406
gives. -/
def msttLines (x : Ops) (n : Nat) (cut : Option Nat) (first : Bool) (ws : List Pending) : List Nat → State → Done
  | [], s => .retire (s.issueElems ws) 0
  | k :: ks, s =>
    if !first && cut = some k then .cut (s.issueElems ws) k
    else
      let h := s.hart n
      let cells := (List.range 256).map (fun q => h.cell (accTile x.a) (lineCell x k q).1 (lineCell x k q).2)
      match s.cellWrites n (h.lineAddr x.d x k) x.hint.val cells with
      | (s, .error e) => .stop (s.issueElems ws) (accessStop e .write 2 k)
      | (s, .ok line) => msttLines x n cut false (ws ++ line) ks s

/-- MSTT (R181, R182). -/
def execMstt (x : Ops) (s : State) :=
  runCore .mstt x s true (some (fun _ => 256)) (fun n h =>
    match (h.deadStop x [3]).or (h.lineStop x.d x .write 2) with
    | some e => .stop s e
    | none => msttLines x n (h.cut.map (fun c => c.unit)) true [] ((List.range 256).filter (fun k => h.estart.toNat ≤ k)) s)

end Sys2Proof.Machine
end

