-- ==== Sys2Proof/Machine/Directional.lean ====
section
/-! DEFINITION. The directional instructions (R196 to R215). -/
namespace Sys2Proof.Machine
open Sys2Proof

/-- The pair of a d group (R190). -/
def Hart.pair (h : Hart) (o : Operand) : Pair :=
  ⟨(List.range (256 * grpSize o)).map (h.comp (firstReg o)), h.mr (firstReg o)⟩
/-- 256 components as the bits of a d register (R70). -/
def packComps (cs : List Int) : BitVec 4096 := BitVec.ofNat 4096 (cs.foldr (fun c n => encN c 16 + 65536 * n) 0)
/-- Writing the d registers `lo` to `hi - 1` of a group from a pair. -/
def Hart.setComps (h : Hart) (o : Operand) (p : Pair) (lo hi : Nat) : Hart :=
  (List.range (hi - lo)).foldl (fun h i => h.setD (firstReg o + lo + i) (packComps ((p.comps.drop (256 * (lo + i))).take 256))) h
/-- Writing the norm of a pair and the member codes, the last that is written of it (R190, R201): the whole group is live then (R55). -/
def Hart.setNorms (h : Hart) (o : Operand) (m : BitVec 32) : Hart :=
  ((List.range (grpSize o - 1)).foldl (fun h i => h.setM (firstReg o + 1 + i) normNaN) (h.setM (firstReg o) m)).liveAll o
/-- Writing a pair whole (R190, R200). -/
def Hart.setPair (h : Hart) (o : Operand) (p : Pair) : Hart := (h.setComps o p 0 (grpSize o)).setNorms o p.norm

/-- A computed pair with its flags, and the field of the zero operand where it raises DZERO (R199). -/
structure PairDone where
  pair : Pair
  flags : Flags := 0
  dz : Option Nat := none

/-- DIR_ZERO (R199). -/
def dirZero (f : Nat) : Stop := ⟨.dirZero, 0, 0, 0, f, 0⟩
/-- A stop for the zero vector or for enabled flags, before anything is written (R199, R201). -/
def Hart.pairStop (h : Hart) (fl : Flags) (dz : Option Nat) : Option Stop :=
  match dz with
  | some f => if h.diren then some (dirZero f) else if h.fpTraps fl then some ⟨.fpEnabled, (fl ||| fDZERO).setWidth 64, 0, 0, 0, 0⟩ else none
  | none => if h.fpTraps fl then some ⟨.fpEnabled, fl.setWidth 64, 0, 0, 0, 0⟩ else none
/-- The flags with DZERO where it is raised. -/
def withDz (fl : Flags) (dz : Option Nat) : Flags := if dz.isSome then fl ||| fDZERO else fl

/-- Writing a computed pair (R200, R201): the norm phase of a first start takes the stops; the write phase goes on at
ESTART and, where the instruction is long, stops for a cut above it; the norms are written last. -/
def Hart.writePair (h : Hart) (x : Ops) (long : Bool) (r : PairDone) : RegDone :=
  let b := h.estart.toNat
  let fl := if b = 0 then withDz r.flags r.dz else 0
  match (if b = 0 then h.pairStop r.flags r.dz else none) with
  | some e => .stop h e
  | none =>
    match h.cut with
    | some c =>
      if long && b < c.unit && c.unit < grpSize x.d then .cut ((h.setComps x.d r.pair b c.unit).addFlags fl) c.unit
      else .ok ((h.setComps x.d r.pair b (grpSize x.d)).setNorms x.d r.pair.norm) fl
    | none => .ok ((h.setComps x.d r.pair b (grpSize x.d)).setNorms x.d r.pair.norm) fl

/-- The unit count of a long directional instruction on groups of size `g` (R201). -/
def dirLong (g : Nat) : Option (Hart → Nat) := if g = 1 then none else some (fun _ => g)

/-- An instruction that writes a pair; `long` where Table 10-2 says so. -/
def runPair (d : Desc) (x : Ops) (s : State) (long : Bool) (dead : List Nat) (f : Hart → PairDone) :
    Host.Outcome State Fault Refusal :=
  runReg d x s true (if long then dirLong (grpSize x.d) else none) (fun h =>
    match h.deadStop x dead with
    | some e => .stop h e
    | none => h.writePair x long (f h))

/-- DNORM (R202). An all-zero source is no pair, so DIR_ZERO reports the result (R199, R443). -/
def execDnorm (x : Ops) (s : State) :=
  runPair .dnorm x s true [3] (fun h =>
    let es := (List.range (256 * grpSize x.d)).map (fun j => h.elem (firstReg x.a) j x.ts.width)
    let xs := es.map x.ts.value
    let (p, f) := renorm xs
    let zero := xs.all (fun v => match v with | .zero _ => true | _ => false)
    ⟨p, es.foldl (fun g e => g ||| x.ts.readFlags e) f, if zero then some 2 else none⟩)

/-- The value of component `c` of a pair under DEXP (Table 10-3). -/
def dexpValue (t : Ty) (rm : RM) (m : BitVec 32) (c : Int) : Nat × Flags :=
  if t = .i16 then (encN c 16, 0)
  else match normClass m with
  | .nan => (t.nan, 0)
  | .zero => (0, 0)
  | .saturated => if c = 0 then (0, 0) else (overflowTo t (c < 0) rm false, fOF ||| fNX)
  | .finite => ((scaledPow c m.toInt).scale (-14)).round t rm false 0

/-- DEXP (R203): a unit is a component group of 256 elements (R201). -/
def execDexp (x : Ops) (s : State) :=
  runReg .dexp x s true (dirLong (grpSize x.a)) (fun h =>
    match h.deadStop x [3] with
    | some e => .stop h e
    | none =>
      let w := x.td.width
      let one := fun (g : Hart) (b : Nat) =>
        (List.range 256).foldl (fun r i =>
          let j := 256 * b + i
          let (e, f) := dexpValue x.td (h.modeN x) (h.mr (firstReg x.a)) (h.comp (firstReg x.a) j)
          (r.1.setElem (firstReg x.d) j w e, r.2 ||| f)) (g, (0 : Flags))
      unitLoop x one (h.cut.map (fun c => c.unit)) true (unitGroups h.estart.toNat (grpSize x.a) 1) h 0)

/-- An instruction that writes a g register from two pairs: the value, its flags, the field of a zero operand. -/
def runPairG (d : Desc) (x : Ops) (s : State) (f : Hart → Pair → Pair → Word × Flags × Option Nat) :
    Host.Outcome State Fault Refusal :=
  runReg d x s true none (fun h =>
    match h.deadStop x [3, 4] with
    | some e => .stop h e
    | none =>
      let (v, fl, dz) := f h (h.pair x.a) (h.pair x.b)
      match h.pairStop fl dz with
      | some e => .stop h e
      | none => .ok (h.setG (gNum x.d) v) (withDz fl dz))

/-- The field of the first zero pair of two (R199): A's where both are zero, for DDOT and DCMP too, a choice (log 59). -/
def zeroField (a b : Pair) : Option Nat :=
  if normClass a.norm = .zero then some 3 else if normClass b.norm = .zero then some 4 else none
/-- Whether one of two pairs is a NaN pair (R192). -/
def anyNaN (a b : Pair) : Bool := normClass a.norm = .nan || normClass b.norm = .nan

/-- DDOT (R204). -/
def execDdot (x : Ops) (s : State) :=
  runPairG .ddot x s (fun h a b =>
    if anyNaN a b then (BitVec.ofNat 64 Ty.fp32.nan, 0, none)
    else match zeroField a b with
    | some f => (0, 0, some f)
    | none =>
      let (e, fl) := ((XReal.ofInt (dotSum a.comps b.comps)).scale (-28)).round .fp32 (h.modeN x) false 0
      (BitVec.ofNat 64 e, fl, none))
/-- DDOTF (R205). -/
def execDdotf (x : Ops) (s : State) :=
  runPairG .ddotf x s (fun h a b =>
    let t := dotSum a.comps b.comps
    if anyNaN a b then (BitVec.ofNat 64 Ty.fp32.nan, 0, none)
    else if (zeroField a b).isSome then (0, 0, none)
    else if normClass a.norm = .saturated || normClass b.norm = .saturated then
      if t = 0 then (0, 0, none)
      else (BitVec.ofNat 64 (overflowTo .fp32 (t < 0) (h.modeN x) false), fOF ||| fNX, none)
    else
      let (e, fl) := ((scaledPow t (a.norm.toInt + b.norm.toInt)).scale (-28)).round .fp32 (h.modeN x) false 0
      (BitVec.ofNat 64 e, fl, none))

/-- A threshold compare of DCMP (R206): gd's low half is read as FP32 before it is written. -/
def runDcmp (d : Desc) (x : Ops) (s : State) (ok : Int → Bool) : Host.Outcome State Fault Refusal :=
  runPairG d x s (fun h a b =>
    let t := (h.gr (gNum x.d)).toNat % 2 ^ 32
    if anyNaN a b || Ty.fp32.isNaN t then (0, fNV, none)
    else match zeroField a b with
    | some f => (0, 0, some f)
    | none =>
      let c := ((XReal.ofInt (dotSum a.comps b.comps)).scale (-28)).order (Ty.fp32.value t)
      (if ok c then 1 else 0, 0, none))
def execDcmpGe (x : Ops) (s : State) := runDcmp .dcmpGe x s (fun c => 0 ≤ c)
def execDcmpGt (x : Ops) (s : State) := runDcmp .dcmpGt x s (fun c => 0 < c)
/-- DCMP `.same` (R206): components and norms as bits. -/
def execDcmpSame (x : Ops) (s : State) := runPairG .dcmpSame x s (fun _ a b => (if a = b then 1 else 0, 0, none))

/-- A NaN pair as an instruction writes it (R193). -/
def nanPair (p : Pair) : Pair := .flat p.comps.length normNaN
/-- A zero pair (R191). -/
def zeroPair (p : Pair) : Pair := .flat p.comps.length normZero
/-- A direction with the norm `n` in units of 2^−23; underflow zeroes the components (R194, R207). -/
def withNorm (comps : List Int) (n : Int) : Pair × Flags :=
  let (m, f) := normOf n
  (if m = normZero then .flat comps.length m else ⟨comps, m⟩, f)
/-- Negating components (R110, R207): −(−2) saturates. -/
def negComps (cs : List Int) : List Int × Flags :=
  (cs.map (fun c => if c = -32768 then 32767 else -c), if cs.contains (-32768) then fSAT else 0)

/-- DSCL `.val` (R207). Where the norm underflows the components are zeroes and no SAT of their negation is raised, a choice
(log 60). -/
def execDsclVal (x : Ops) (s : State) :=
  runPair .dsclVal x s false [3] (fun h =>
    let p := h.pair x.a
    let e := (h.gr (gNum x.b)).toNat % 2 ^ 32
    let fl := Ty.fp32.readFlags e
    let v := Ty.fp32.value e
    let c := normClass p.norm
    let (cs, sat) := if v.sign then negComps p.comps else (p.comps, 0)
    if c = .nan || v = .nan then ⟨nanPair p, fl, none⟩
    else if c = .zero then ⟨zeroPair p, fl, none⟩
    else match v with
    | .zero _ => if c = .saturated then ⟨nanPair p, fNV, none⟩ else ⟨zeroPair p, 0, some 4⟩
    | .fin _ m k _ =>
      if c = .saturated then ⟨⟨cs, normSat⟩, sat, none⟩
      else
        let (r, f) := withNorm cs (Mixed.logNorm (.ofInts [(m : Int)] (p.norm.toInt + k * 2 ^ 23) 1))
        ⟨r, f ||| (if r.norm = normZero then 0 else sat), none⟩
    | _ => ⟨⟨cs, normSat⟩, if c = .saturated then sat else sat ||| fOF, none⟩)
/-- DSCL `.log` (R207). -/
def execDsclLog (x : Ops) (s : State) :=
  runPair .dsclLog x s false [3] (fun h =>
    let p := h.pair x.a
    if normClass p.norm = .finite then
      let (r, f) := withNorm p.comps (p.norm.toInt + sextN (h.gr (gNum x.b)).toNat 32)
      ⟨r, f, none⟩
    else ⟨p, 0, none⟩)

/-- The exact vector `2^La a + σ 2^Lb b` over 2^14 of two finite pairs (R208). -/
def mixPairs (a b : Pair) (sub : Bool) : Mixed :=
  let sg : Int := if sub then -1 else 1
  let la := a.norm.toInt
  let lb := b.norm.toInt
  let n := (la - lb).natAbs
  let hi := max la lb
  let at_ := fun (u v : Int) => if lb ≤ la then (u, sg * v) else (sg * v, u)
  let xs := List.zipWith at_ a.comps b.comps
  if a.comps.all (fun c => c = 0) then .ofInts (b.comps.map (fun c => sg * c)) lb (2 ^ 14)
  else if b.comps.all (fun c => c = 0) then .ofInts a.comps la (2 ^ 14)
  else if n % 2 ^ 23 = 0 then
    let k := n / 2 ^ 23
    .ofInts (xs.map (fun x => x.1 * (2 ^ k : Nat) + x.2)) (hi - n) (2 ^ 14)
  else ⟨n, xs, hi, 2 ^ 14⟩

/-- DADD and DSUB (R208). With two zero pairs DIR_ZERO names A, a choice (R199, log 59). -/
def addPairs (a b : Pair) (sub : Bool) : PairDone :=
  let sg : Int := if sub then -1 else 1
  let ca := normClass a.norm
  let cb := normClass b.norm
  let scaled := b.comps.map (fun c => sg * c)
  let zeroOf := if ca = .zero then some 3 else if cb = .zero then some 4 else some 2
  if anyNaN a b then ⟨nanPair a, 0, none⟩
  else if ca = .saturated && cb = .saturated then
    let r := List.zipWith (fun u v => u + v) a.comps scaled
    if r.all (fun c => c = 0) then ⟨nanPair a, fNV, none⟩
    else ⟨⟨(Mixed.ofInts r 0 1).unit, normSat⟩, 0, none⟩
  else if ca = .saturated then ⟨⟨a.comps, normSat⟩, 0, none⟩
  else if cb = .saturated then
    let (cs, f) := if sub then negComps b.comps else (b.comps, 0)
    ⟨⟨cs, normSat⟩, f, none⟩
  else
    let v : Mixed :=
      if ca = .zero && cb = .zero then .ofInts (a.comps.map (fun _ => 0)) 0 1
      else if ca = .zero then .ofInts scaled b.norm.toInt (2 ^ 14)
      else if cb = .zero then .ofInts a.comps a.norm.toInt (2 ^ 14)
      else mixPairs a b sub
    let (p, f) := v.renorm
    ⟨p, f, if v.isZero then zeroOf else none⟩

def execDadd (x : Ops) (s : State) :=
  runPair .dadd x s true [3, 4] (fun h => addPairs (h.pair x.a) (h.pair x.b) false)
def execDsub (x : Ops) (s : State) :=
  runPair .dsub x s true [3, 4] (fun h => addPairs (h.pair x.a) (h.pair x.b) true)

/-- DPROJ (R209). -/
def projPair (a b : Pair) (par : Bool) : PairDone :=
  let t := dotSum a.comps b.comps
  let q := dotSum b.comps b.comps
  let r := List.zipWith (fun u v => if par then t * v else q * u - t * v) a.comps b.comps
  let zero := r.all (fun c => c = 0)
  if anyNaN a b then ⟨nanPair a, 0, none⟩
  else if normClass b.norm = .zero || q = 0 then ⟨zeroPair a, 0, some 4⟩
  else if normClass a.norm = .zero then ⟨zeroPair a, 0, none⟩
  else if normClass a.norm = .saturated then
    if zero then ⟨nanPair a, fNV, none⟩ else ⟨⟨(Mixed.ofInts r 0 1).unit, normSat⟩, 0, none⟩
  else
    let (p, f) := (Mixed.ofInts r a.norm.toInt (q.toNat * 2 ^ 14)).renorm
    ⟨p, f, if zero then some 2 else none⟩

def execDprojPar (x : Ops) (s : State) :=
  runPair .dprojPar x s true [3, 4] (fun h => projPair (h.pair x.a) (h.pair x.b) true)
def execDprojPerp (x : Ops) (s : State) :=
  runPair .dprojPerp x s true [3, 4] (fun h => projPair (h.pair x.a) (h.pair x.b) false)

/-- DMOV (R210): every component and every m register, bit for bit. -/
def execDmov (x : Ops) (s : State) :=
  runReg .dmov x s true none (fun h =>
    match h.deadStop x [3] with
    | some e => .stop h e
    | none =>
      .ok ((List.range (grpSize x.d)).foldl (fun g i =>
        (g.setD (firstReg x.d + i) (h.dr (firstReg x.a + i))).setM (firstReg x.d + i) (h.mr (firstReg x.a + i))) h) 0)

/-- The pair of a record's 4-byte words (R211). -/
def recordPair (g : Nat) (ws : List Nat) : Pair :=
  ⟨(List.range (256 * g)).map (fun j => sextN (ws.getD (j / 2) 0 >>> (16 * (j % 2))) 16), BitVec.ofNat 32 (ws.getD (128 * g) 0)⟩
/-- The 4-byte words of a pair's record (R211). -/
def pairRecord (p : Pair) : List (BitVec 32) :=
  (List.range (p.comps.length / 2)).map (fun i =>
    BitVec.ofNat 32 (encN (p.comps.getD (2 * i) 0) 16 + 65536 * encN (p.comps.getD (2 * i + 1) 0) 16)) ++ [p.norm]

/-- DLD (R211). -/
def execDld (x : Ops) (s : State) :=
  runCore .dld x s true none (fun n h =>
    let ea := h.sliceAddr x.a x
    let g := grpSize x.d
    if ea % 64 ≠ 0 then .stop s (failStop (.align, ea))
    else match s.loadLine n ea 4 x.hint.val (128 * g + 1) with
    | (s, .error e) => .stop s (accessStop e .read 3 0)
    | (s, .ok ws) =>
      let p := recordPair g ws
      if !p.ok then .stop s (failStop (.dirCode, ea))
      else .retire (s.setHart n ((s.hart n).setPair x.d p)) 0)
/-- DST (R211). -/
def execDst (x : Ops) (s : State) :=
  runCore .dst x s true none (fun n h =>
    match h.deadStop x [3] with
    | some e => .stop s e
    | none =>
      let ea := h.sliceAddr x.d x
      if ea % 64 ≠ 0 then .stop s (failStop (.align, ea))
      else match s.cellWrites n ea x.hint.val (pairRecord (h.pair x.a)) with
      | (s, .error e) => .stop s (accessStop e .write 2 0)
      | (s, .ok ws) => .retire (s.issueElems ws) 0)

/-- An instruction that reads the norm of a pair into a g register (R212). -/
def runDgetn (d : Desc) (x : Ops) (s : State) (f : BitVec 32 → Nat × Flags) : Host.Outcome State Fault Refusal :=
  runReg d x s true none (fun h =>
    match h.deadStop x [3] with
    | some e => .stop h e
    | none =>
      let (v, fl) := f (h.mr (firstReg x.a))
      h.fpDone (h.setG (gNum x.d) (BitVec.ofNat 64 v)) fl)
def execDgetnLog (x : Ops) (s : State) := runDgetn .dgetnLog x s (fun m => (m.toNat, 0))
/-- DGETN `.len` (Table 10-4). -/
def execDgetnLen (x : Ops) (s : State) :=
  runDgetn .dgetnLen x s (fun m => match normClass m with
    | .nan => (Ty.fp32.nan, 0)
    | .zero => (0, 0)
    | .saturated => (Ty.fp32.infinity false, fOF ||| fNX)
    | .finite => (scaledPow 1 m.toInt).round .fp32 .rne false 0)

/-- DSETN (R213). -/
def execDsetn (x : Ops) (s : State) :=
  runReg .dsetn x s true none (fun h =>
    match h.deadStop x [2] with
    | some e => .stop h e
    | none =>
      let c := BitVec.ofNat 32 (h.gr (gNum x.a)).toNat
      let p := h.pair x.d
      match normClass c with
      | .zero => .ok (h.setPair x.d (zeroPair p)) 0
      | .nan => .ok (h.setPair x.d { p with norm := c }) 0
      | _ => if unitOk p.comps then .ok (h.setPair x.d { p with norm := c }) 0 else .stop h ⟨.dirCode, 0, 0, 0, 2, 0⟩)

end Sys2Proof.Machine
end

