-- ==== Sys2Proof/Machine/Upsets.lean ====
section
/-! DEFINITION. Errors that arise in memories, caches, cores, sequencers and rows (R403, R408 to R411), as the schedule
names them. -/
namespace Sys2Proof.Machine
open Sys2Proof

/-- Whether a line of a core's registers can be hit: the core runs or waits (R410). -/
def Hart.exposed (h : Hart) : Bool := match h.mode with | .running => true | .blocked _ => true | _ => false

/-- The s-register that FADDR of CORE_PARITY names by five bits: 0x00 to 0x0F, or 0x210 to 0x21F (log 73). TSTAT and the stop
registers are written by the trap itself. -/
def Hart.setSpecial (h : Hart) (r : Nat) (x : Word) : Hart :=
  match r with
  | 0x00 => { h with vl := x &&& 0x3F3FFF }
  | 0x02 => { h with estart := x &&& 0xFFFFFFFF }
  | 0x03 => { h with fflags := x &&& 0xFF }
  | 0x04 => { h with fmode := x &&& 0x1FFF }
  | 0x05 => h.setLive 4 x
  | 0x06 => { h with pegmask := x &&& 0xFFFFFFFE }
  | 0x10 => { h with tvec := x }
  | 0x12 => { h with tpend := x }
  | 0x13 => { h with tmask := x }
  | 0x14 => { h with tscr0 := x }
  | 0x15 => { h with tscr1 := x }
  | 0x16 => { h with waddr := x }
  | _ => h
/-- CORE_PARITY (R410, Table 19-4): the register that FADDR names reads 0 on a system core; in a task its value is lost
(log 28). All ones names the pipeline state. -/
def State.coreParity (s : State) (n : Nat) (faddr : Word) : State :=
  let h := { s.hart n with parity := none }
  let r := faddr.toNat % 32
  let v : BitVec 4096 := if isSys n then 0 else Config.lostValue s.tick
  let h := if faddr = BitVec.allOnes 64 then h
    else match bitsN faddr.toNat 10 8 with
      | 0 => h.setG r (v.setWidth 64)
      | 1 => if isSys n || h.isLive r then { h with v := Table.set 0 h.v r (v.setWidth 2048) } else h
      | 2 => if r = 0 then h else { h with k := Table.set 0 h.k (r % 8) (v.setWidth 256) }
      | 3 => if h.isLive (32 + r % 16) then { h with d := Table.set 0 h.d (r % 16) v } else h
      | 6 => h.setSpecial r (v.setWidth 64)
      | _ => h
  State.stopHart (State.setHart { s with tick := s.tick + 1 } n h) n ⟨.coreParity, faddr, 0, 0, 0, 0⟩

/-- Whether an address lies in the ASID table or the queue table, whose uncorrectable words scrap the package (R414). -/
def inTables (pa : Nat) : Bool :=
  (sramAddr 0 0x2F000000 ≤ pa && pa < sramAddr 0 0x2F400000) || (sramAddr 0 0x2FF00000 ≤ pa && pa < sramAddr 0 0x30000000)
/-- An error that arises: `bits` of a unit or of a row turn over; a held sector of the L2 becomes uncorrectable; a dirty
or pinned line of a core, or the state of a running program, fails parity. FADDR is what the core reports. An uncorrectable word of the ASID table or the queue table scraps the
package as it arises (R414, log 74). -/
def State.upset (s : State) : Upset → State
  | .unit pa bits uncorr =>
    if window pa ≤ 9 && s.validAddr pa && bits < 2 ^ (8 * unitSize pa) then
      let e := s.errAt pa
      if uncorr && inTables pa && (s.phase = 7 || s.phase = 8) then s.scrapPackage 1
      else s.setErr pa { e with flip := e.flip ^^^ bits, uncorr := e.uncorr || uncorr }
    else s
  | .held pa =>
    match s.sector pa with
    | some x => if window pa < 8 then s.setSector pa (some { x with bad := true }) else s
    | none => s
  | .core n faddr =>
    let h := s.hart n
    if s.coreUp n && (h.exposed || (isSys n && s.phase = 8 && h.mode = .idle)) then s.setHart n { h with parity := some faddr } else s
  | .prog post pid =>
    match s.prog post pid with
    | some p => if p.running then s.setProg post { p with parity := true } else s
    | none => s
  | .row post sub row bits =>
    if row < 522 && bits < 2 ^ 8192 then s.setRow post sub row (s.row post sub row ^^^ BitVec.ofNat 8192 bits) else s

end Sys2Proof.Machine
end

