-- ==== Sys2Proof/Machine/Env.lean ====
section
/-! DEFINITION. What happens outside the cores: accesses performed (R310, R318), evictions of the L2 (R235), the host's
accesses and writes (R58, R341, R368 to R370), answers to device requests (R272, R305), asynchronous traps taken (R398). -/
namespace Sys2Proof.Machine
open Sys2Proof

/-! Performing (R310, R312, R318). -/

/-- Performing the write of a place in the list at one of 0 west, 1 host, 2 east (R318). -/
def State.hostStep (s : State) (place index : Nat) : State :=
  match s.hostWrites[index]? with
  | none => s
  | some w => s.hostAt (fun v => if v = w then [place] else [])

/-- ACCESS_PERFORM: the store of that place in the list, unless an earlier store of its hart to the same bytes waits
(R312); or a write to host memory at one of its three places, after the places that come before it (R318). -/
def execAccessPerform (host : Option Nat) (index : Nat) (s : State) : Host.Outcome State Fault Refusal :=
  match host with
  | some place => .next (if place < 3 then s.hostStep place index else s)
  | none => match s.stores[index]? with
    | none => .next s
    | some x =>
      if (s.stores.take index).any (fun y => y.hart = x.hart && rangesMeet y.addr y.data.length x.addr x.data.length) then .next s
      else .next (State.performStore { s with stores := s.stores.eraseIdx index } x)

/-- L2_EVICTION (R235, R409). -/
def execL2Eviction (addr : Nat) (s : State) : Host.Outcome State Fault Refusal := .next (s.evict addr)

/-! The host (R58, R318, R341, R368, R369). -/

/-- HOST_WRITE (R318): the host writes its memory, performed at the host first; a CXL device writes its own, which the line
cache keeps coherent. -/
def execHostWrite (addr : Nat) (data : List Byte) (s : State) : Host.Outcome State Fault Refusal :=
  if data.isEmpty || window (addr + data.length - 1) ≠ window addr then .next s
  else if window addr = 10 then .next (s.addHost ⟨addr, data, none, false, true, false, []⟩)
  else if window addr = 11 then
    let out := fun (s : State) pa => match s.sector pa with
      | some x => (if x.dirty then s.writeBack pa x else s).setSector pa none
      | none => s
    .next (((splitUnits addr data).foldl (fun s u => out s u.1) s).putBytes addr data)
  else .next s

/-- Whether BAR0 answers: out of reset, and not while the package is scrapped (R370, R416). -/
def State.barUp (s : State) : Bool := s.phase ≠ 0 && !(s.phase = 15 && s.bootCause = .scrap)

/-- A host write of the register at `off` of BAR0 (R341, R369, R370, R387). -/
def State.barWrite (s : State) (off : Nat) (v : Nat) : State :=
  if off = 0x118 then s.devReset v
  else if !s.barUp then s
  else if off = 0x110 then s.fwctl v
  else if 0x10000 ≤ off && off < 0x20000 then s.ringDoorbell ((off - 0x10000) / 8) v
  else s.setCtrl off (BitVec.ofNat 64 v)

/-- DOORBELL (R341, R342). -/
def execDoorbell (queue : Nat) (value : Word) (s : State) : Host.Outcome State Fault Refusal :=
  if queue < 8192 then .next (s.barWrite (0x10000 + 8 * queue) value.toNat) else .next s
/-- CONTROL_REGISTER_WRITE (R369): a register without behaviour of its own; any other offset ignores the write. -/
def execControlRegisterWrite (offset : Nat) (value : Word) (s : State) : Host.Outcome State Fault Refusal :=
  if [0x40, 0x48, 0x50, 0x100, 0x108].contains offset then .next (s.barWrite offset value.toNat) else .next s

/-- Whether the host reaches a byte of memory (R58, R263, R264, R368). -/
def State.hostReach (s : State) (pa : Nat) : Bool :=
  window pa ≤ 8 && s.validAddr pa && !s.inPlane pa && !inImageArea pa

/-- A host store to package memory, bytes that only others may change left out (R340, R362, R412). -/
def State.hostStore (s : State) (addr : Nat) (data : List Byte) : State :=
  (splitUnits addr data).foldl (fun s u => s.agentWrite none u.1 u.2 0 0 false ⟨4, 0, 0, 0, 0⟩) s

/-- HOST_ACCESS (R368): a load, or a store of `data`, through a port; the answer stands in `hostReply`. A register of BAR0
is named by its address in window 0xE. What cannot be reached or read ends with an abort (log 32). -/
def execHostAccess (port addr len : Nat) (data : Option (List Byte)) (s : State) : Host.Outcome State Fault Refusal :=
  let place := 8 + port
  let bytes := (List.range len).map (fun i => addr + i)
  let abort := Host.Outcome.next { s with hostReply := .abort }
  if 2 ≤ port || len = 0 || (match data with | some d => d.length ≠ len | none => false) then .next s
  else if window addr = 14 then
    let off := winOff addr / 8 * 8
    if 8 < winOff addr % 8 + len then (if s.barUp then .next s else abort)
    else if off = 0x18 && data.isNone then
      .next { s with hostReply := .data (bytes.map (fun a => BitVec.ofNat 8 (s.bootstat.toNat >>> (8 * (a % 8))))) }
    else match data with
      | some d =>
        if s.barUp || off = 0x118 then
          .next { s.barWrite off (mergeUnit (s.ctrlReg off).toNat off (winOff addr) d) with hostReply := .done }
        else abort
      | none => if s.barUp then .next { s with hostReply := .data (bytes.map (fun a => s.homeByte place a 0)) } else abort
  else if s.phase ≠ 8 || !bytes.all s.hostReach || bytes.any (fun a => (s.unreachable place a).isSome) then abort
  else match data with
    | some d => .next { s.hostStore addr d with hostReply := .done }
    | none => match s.devRead place addr len ⟨4, 0, 0, 0, 0⟩ with
      | (s, .ok bs) => .next { (splitUnits addr bs).foldl (fun s u => s.fillSector u.1 0 0) s with hostReply := .data bs }
      | (s, .error _) => .next { s with hostReply := .abort }

/-! Answers to device requests (R272, R305). -/

/-- Giving a failure to whoever waits: the next access of a core, or the next transfer of a started copy. -/
def State.answer (s : State) (t : Target) (c : Option Cause) : State :=
  match t with
  | .hart n =>
    let h := s.hart n
    if h.exposed || (isSys n && n < 264 && s.phase = 8 && h.mode = .idle) then s.setHart n { h with response := c } else s
  | .copy e seq =>
    match (s.copiesAt e).find? (fun x => x.seq = seq && x.started) with
    | some x => s.setCopy e { x with fail := c }
    | none => s

/-- REMOTE_TIMEOUT (R272, R307). -/
def execRemoteTimeout (target : Target) (s : State) : Host.Outcome State Fault Refusal := .next (s.answer target (some .remoteTimeout))
/-- HOST_COMPLETION (R272, R305): a core makes no span transfer, so PEER_ABORT reaches copies alone (R307). -/
def execHostCompletion (target : Target) (kind : Completion) (s : State) : Host.Outcome State Fault Refusal :=
  match kind, target with
  | .normal, _ => .next (s.answer target none)
  | .abort, _ => .next (s.answer target (some .hostAbort))
  | .poisoned, _ => .next (s.answer target (some .hostPoison))
  | .peerAbort, .copy .. => .next (s.answer target (some .peerAbort))
  | .peerAbort, .hart _ => .next s

/-! Asynchronous traps (R398). -/

/-- ASYNC_TRAP_TAKE (R398): at an instruction boundary or at the instruction that waits; inside a long instruction the stop
is set for a unit boundary (log 14). A parity error of the core comes first (R392). -/
def execAsyncTrapTake (core unit : Nat) (s : State) : Host.Outcome State Fault Refusal :=
  let h := s.hart (256 + core)
  let may := match h.mode with | .running => true | .idle => s.phase = 8 | .blocked _ => !h.stalled | _ => false
  if 8 ≤ core || !may || h.asyncReady.isNone then .next s
  else if let some f := h.parity then .next (s.coreParity (256 + core) f)
  else if unit = 0 || h.mode ≠ .running then .next (s.takeAsync (256 + core))
  else .next (s.setHart (256 + core) { h with cut := some ⟨unit, none⟩ })

end Sys2Proof.Machine
end

