-- ==== Sys2Proof/Machine/Vector.lean ====
section
/-! DEFINITION. Vector instructions: element-wise arithmetic, logic, compares, moves, dot products, conversions and block
scaling (R149 to R156), and the lookup, special functions and random numbers (R161 to R163). -/
namespace Sys2Proof.Machine
open Sys2Proof

/-- An element-wise instruction on A and B whose types are one T in MOD[7:4] (Table 8-1): `f` gives element `i` from the
encodings of A, B and the old D. -/
def runEw (d : Desc) (x : Ops) (s : State) (readsD : Bool) (f : Hart → Nat → Nat → Nat → Nat × Flags) :
    Host.Outcome State Fault Refusal :=
  let w := x.td.width
  runVec d x s w w [(2, w), (3, w), (4, w)] (if readsD then [2, 3, 4] else [3, 4]) true (fun h i =>
    f h (h.vsrc x x.a i w) (h.vsrc x x.b i w) (h.elem (firstReg x.d) i w))

/-- An element-wise arithmetic instruction with layout RND (R150). -/
def runEwArith (d : Desc) (x : Ops) (s : State) (fp : XReal → XReal → RM → XReal × Flags) (int : Int → Int → Int) :
    Host.Outcome State Fault Refusal :=
  runEw d x s false (fun h a b _ => arith x.td (h.modeN x) (satBit x) h.sat8 fp int a b)

def execVadd (x : Ops) (s : State) := runEwArith .vadd x s XReal.add (fun a b => a + b)
def execVsub (x : Ops) (s : State) := runEwArith .vsub x s (fun a b rm => a.add b.neg rm) (fun a b => a - b)
def execVmul (x : Ops) (s : State) := runEwArith .vmul x s (fun a b _ => a.mul b) (fun a b => a * b)
/-- Bits [2w−1:w] of the exact product (Table 8-1). -/
def execVmulh (x : Ops) (s : State) :=
  runEw .vmulh x s false (fun _ a b _ => (encN (x.td.int a * x.td.int b / (2 ^ x.td.width : Nat)) x.td.width, 0))
def execVfma (x : Ops) (s : State) :=
  runEw .vfma x s true (fun h a b c =>
    let t := x.td
    let rm := h.modeN x
    let (v, f) := fusedAdd (t.value a) (t.value b) (t.value c) rm
    let (e, g) := v.round t rm (satBit x || h.sat8) 0
    (e, t.readFlags a ||| t.readFlags b ||| t.readFlags c ||| f ||| g))
def execVdiv (x : Ops) (s : State) := runEwArith .vdiv x s (fun a b _ => a.div b) (fun a _ => a)
def execVsqrt (x : Ops) (s : State) :=
  runEw .vsqrt x s false (fun h a _ _ =>
    let (v, f) := (x.td.value a).sqrt
    let (e, g) := v.round x.td (h.modeN x) (satBit x || h.sat8) 0
    (e, x.td.readFlags a ||| f ||| g))

/-- The lesser or the greater of two encodings, by R135 or by the signedness of an integer type. -/
def pick (t : Ty) (greater : Bool) (a b : Nat) : Nat × Flags :=
  if t.isFp then minMax t greater a b else (if (t.int a < t.int b) != greater then a else b, 0)
def execVmin (x : Ops) (s : State) := runEw .vmin x s false (fun _ a b _ => pick x.td false a b)
def execVmax (x : Ops) (s : State) := runEw .vmax x s false (fun _ a b _ => pick x.td true a b)
/-- VABS (Table 8-1): a floating-point type only loses its sign bit. -/
def execVabs (x : Ops) (s : State) :=
  runEw .vabs x s false (fun _ a _ _ =>
    if x.td.isFp then (a % 2 ^ (x.td.width - 1), 0) else fitInt x.td (x.td.int a).natAbs (satBit x))

/-- A bitwise element instruction. -/
def runBits (d : Desc) (x : Ops) (s : State) (f : Nat → Nat → Nat) : Host.Outcome State Fault Refusal :=
  runEw d x s false (fun _ a b _ => (f a b, 0))
def execVand (x : Ops) (s : State) := runBits .vand x s (fun a b => a &&& b)
def execVor (x : Ops) (s : State) := runBits .vor x s (fun a b => a ||| b)
def execVxor (x : Ops) (s : State) := runBits .vxor x s (fun a b => a ^^^ b)
def execVandn (x : Ops) (s : State) := runBits .vandn x s (fun a b => a &&& (2 ^ x.td.width - 1 - b))
/-- The shift count is the low log2 w bits of the B element (R150). -/
def execVshl (x : Ops) (s : State) := runBits .vshl x s (fun a b => a * 2 ^ (b % x.td.width) % 2 ^ x.td.width)
def execVshr (x : Ops) (s : State) := runBits .vshr x s (fun a b => a / 2 ^ (b % x.td.width))
def execVsra (x : Ops) (s : State) :=
  runBits .vsra x s (fun a b => encN (sextN a x.td.width / (2 ^ (b % x.td.width) : Nat)) x.td.width)

/-- VSEL (R151): the guard selects between A and B for every element below VL. -/
def execVsel (x : Ops) (s : State) :=
  let w := x.td.width
  runVec .vsel x s w w [(2, w), (3, w), (4, w)] [3, 4] false (fun h i =>
    (if h.pred x i w then h.vsrc x x.a i w else h.vsrc x x.b i w, 0))
def execVmov (x : Ops) (s : State) :=
  let w := x.td.width
  runVec .vmov x s w w [(2, w), (3, w)] [3] true (fun h i => (h.vsrc x x.a i w, 0))

/-- Setting the predicate bits of element `i` of width `w` (R68, R152). -/
def setPredBits (k i w : Nat) (b : Bool) : Nat := patchBits k (i * w / 8) (w / 8) (if b then 2 ^ (w / 8) - 1 else 0)

/-- A compare of the vector chapter (R152): `kind` as in Table 7-5. -/
def runVcmp (d : Desc) (x : Ops) (s : State) (kind : Nat) (int : Int → Int → Bool) : Host.Outcome State Fault Refusal :=
  let t := x.ts
  let w := t.width
  runReg d x s false none (fun h =>
    match h.vecCheck x [(2, w), (3, w), (4, w)] [3, 4] with
    | some e => .stop h e
    | none =>
      let (k, f) := (h.actives x w).foldl (fun r i =>
        let a := h.vsrc x x.a i w
        let b := h.vsrc x x.b i w
        let (c, g) := if t.isFp then fpCompare t kind a b else (int (t.int a) (t.int b), 0)
        (setPredBits r.1 i w c, r.2 ||| g)) ((h.kr (kNum x.d)).toNat, 0)
      h.fpDone (h.setK (kNum x.d) (BitVec.ofNat 256 k)) f)
def execVcmpeq (x : Ops) (s : State) := runVcmp .vcmpeq x s 0 (fun a b => a = b)
def execVcmpne (x : Ops) (s : State) := runVcmp .vcmpne x s 4 (fun a b => a ≠ b)
def execVcmplt (x : Ops) (s : State) := runVcmp .vcmplt x s 1 (fun a b => a < b)
def execVcmple (x : Ops) (s : State) := runVcmp .vcmple x s 2 (fun a b => a ≤ b)

/-- VDOT (R153): one fused sum in each 32-bit lane; a g operand gives its low 32 bits to every lane. -/
def execVdot (x : Ops) (s : State) :=
  let ws := x.ts.width
  runVec .vdot x s 32 32 [(2, 32), (3, 32), (4, 32)] [2, 3, 4] true (fun h j =>
    let c := h.elem (firstReg x.d) j 32
    let la := h.vsrc x x.a j 32
    let lb := h.vsrc x x.b j 32
    let pairs := (List.range (32 / ws)).map (fun q => (bitsN la (ws * q + ws - 1) (ws * q), bitsN lb (ws * q + ws - 1) (ws * q)))
    if x.td.isFp then
      let rm := h.modeN x
      let ps := pairs.map (fun p => XReal.mul (x.ts.value p.1) (x.ts.value p.2))
      let rd := pairs.foldl (fun f p => f ||| x.ts.readFlags p.1 ||| x.ts.readFlags p.2) (x.td.readFlags c)
      let (v, f) := sumAll rm (x.td.value c :: ps.map (fun p => p.1))
      let (e, g) := v.round x.td rm (satBit x || h.sat8) 0
      (e, ps.foldl (fun f p => f ||| p.2) (rd ||| f ||| g))
    else fitInt x.td (pairs.foldl (fun n p => n + x.ts.int p.1 * x.ts.int p.2) (x.td.int c)) (satBit x))

/-- VCVT (R154). -/
def execVcvt (x : Ops) (s : State) :=
  let ws := x.ts.width
  let wd := x.td.width
  runMixed .vcvt x s wd ws [(2, wd), (3, ws)] [3] (fun h i =>
    convert x.td x.ts (h.vsrc x x.a i ws) (h.modeC x) (satBit x) h.sat8 (drawAt i (h.src x.b).toNat))

/-- The scale byte of the block of an element (R155). -/
def Hart.scaleOf (h : Hart) (x : Ops) (i : Nat) : Nat := h.elem (firstReg x.b) (i / 32) 8

/-- VBSCL (R155). The capacity check leaves out the scales (log 57). -/
def execVbscl (x : Ops) (s : State) :=
  let ws := x.ts.width
  let wd := x.td.width
  runMixed .vbscl x s wd ws [(2, wd), (3, ws)] [3, 4] (fun h i =>
    let sc := h.scaleOf x i
    let v := if sc = 0xFF then .nan else (x.ts.value (h.vsrc x x.a i ws)).scale ((sc : Int) - 127)
    v.round x.td (h.modeN x) (satBit x || h.sat8) 0)

/-- emax of a quantised type (R156). -/
def quantEmax (t : Ty) : Int := if t = .e4m3 then 8 else if t = .e5m2 then 15 else 6

/-- The scale of a block from the values of its active elements (R156). -/
def blockScale (te : Ty) (vs : List XReal) : Nat :=
  if vs.any (fun v => match v with | .nan => true | .inf _ => true | _ => false) then 0xFF
  else match (vs.filterMap (fun v => match v with | .fin _ m e _ => some (e + Nat.log2 m) | _ => none)).max? with
    | none => 0
    | some l => (max 0 (min 254 (l - quantEmax te + 127))).toNat

/-- VBQNT `.scale` (R156): one byte of D for each block that holds an element below VL. The capacity check
leaves out D (log 57). -/
def execVbqntScale (x : Ops) (s : State) :=
  let ws := x.ts.width
  runReg .vbqntScale x s false none (fun h =>
    match h.vecCheck x [(3, ws)] [3] with
    | some e => .stop h e
    | none =>
      let act := h.actives x ws
      let fl := act.foldl (fun f i => f ||| x.ts.readFlags (h.vsrc x x.a i ws)) 0
      let bytes := (List.range ((h.vlen + 31) / 32)).map (fun b =>
        (b, blockScale x.td ((act.filter (fun i => i / 32 = b)).map (fun i => x.ts.value (h.vsrc x x.a i ws)))))
      h.writeElems x 8 bytes fl)

/-- A quantised element (R156): overflow gives the largest finite value of the sign, and I8 saturates with SAT. -/
def quantise (te : Ty) (v : XReal) : Nat × Flags :=
  if te = .i8 then
    match v with
    | .nan => (0, fNV)
    | .inf s => (encN (if s then te.lo else te.hi) 8, fSAT)
    | v =>
      let (n, inexact) := v.toInt .rne 0
      if n < te.lo || te.hi < n then fitInt te n true else (encN n 8, if inexact then fNX else 0)
  else
    let (e, f) := v.round te .rne true 0
    if te = .e5m2 && e % 128 = 0x7C then (te.largest v.sign, fOF ||| fNX) else (e, f)

/-- VBQNT `.quant` (R156): under the scale 0xFF no element of A is read. The capacity check leaves out the scales, of which
an instruction reads a byte a block (log 57). -/
def execVbqntQuant (x : Ops) (s : State) :=
  let ws := x.ts.width
  let we := x.td.width
  runMixed .vbqntQuant x s we ws [(2, we), (3, ws)] [3, 4] (fun h i =>
    let sc := h.scaleOf x i
    let a := h.vsrc x x.a i ws
    if sc = 0xFF then (if x.td = .i8 then (0, fNV) else (x.td.nan, 0))
    else
      let (e, f) := quantise x.td ((x.ts.value a).scale (127 - (sc : Int)))
      (e, x.ts.readFlags a ||| f))

/-- VLUT (R161): the table entry named by the low four bits of the element. The capacity check leaves out the table
(log 57). -/
def execVlut (x : Ops) (s : State) :=
  let ws := x.ts.width
  let wd := x.td.width
  runMixed .vlut x s wd ws [(2, wd), (3, ws)] [3, 4] (fun h i =>
    (h.elem (firstReg x.b) (h.vsrc x x.a i ws % 16) wd, 0))

/-- A special function (R162): correctly rounded RNE. -/
def runFunction (d : Desc) (x : Ops) (s : State) (f : XReal → XReal × Flags) : Host.Outcome State Fault Refusal :=
  runEw d x s false (fun _ a _ _ =>
    let (v, fl) := f (x.td.value a)
    let (e, g) := v.round x.td .rne false 0
    (e, x.td.readFlags a ||| fl ||| g))
def execVexp2 (x : Ops) (s : State) := runFunction .vexp2 x s XReal.exp2
def execVlog2 (x : Ops) (s : State) := runFunction .vlog2 x s XReal.log2
def execVrcp (x : Ops) (s : State) := runFunction .vrcp x s XReal.rcp
def execVrsq (x : Ops) (s : State) := runFunction .vrsq x s XReal.rsq

/-- VRNG (R163). -/
def execVrng (x : Ops) (s : State) :=
  runVec .vrng x s 32 32 [(2, 32)] [] true (fun h i =>
    (philox (((h.src x.a).toNat + i) % 2 ^ 64) (h.src x.b).toNat, 0))

/-! Setting the length. -/

/-- SETVL (R149). -/
def execSetvl (x : Ops) (s : State) :=
  runReg .setvl x s true none (fun h =>
    let n := min (h.src x.a).toNat (2048 * 2 ^ x.var.val / x.td.width)
    .ok { h.setG (gNum x.d) (BitVec.ofNat 64 n) with vl := BitVec.ofNat 64 (n + x.td.code * 2 ^ 16 + x.var.val * 2 ^ 20) } 0)
def execGetvlLen (x : Ops) (s : State) :=
  runReg .getvlLen x s true none (fun h => .ok (h.setG (gNum x.d) (BitVec.ofNat 64 h.vlen)) 0)
def execGetvlMax (x : Ops) (s : State) :=
  runReg .getvlMax x s true none (fun h => .ok (h.setG (gNum x.d) (BitVec.ofNat 64 (vlmaxOf h.vl))) 0)

end Sys2Proof.Machine
end

