-- ==== Sys2Proof/Machine/VectorMove.lean ====
section
/-! DEFINITION. Reductions, scans, permutes, the Hadamard stages and the predicate instructions (R157 to R160, R164). -/
namespace Sys2Proof.Machine
open Sys2Proof

/-- A scalar result of type `t` in a g register: integers extended by their signedness, floating-point zero-extended
(R133, R157). -/
def scalarOf (t : Ty) (e : Nat) : Word := BitVec.ofNat 64 (if t.isSigned then encN (sextN e t.width) 64 else e)

/-- The source elements of a reduction: `none` where the element is inactive. -/
def Hart.leaves (h : Hart) (x : Ops) (w : Nat) : List (Option Nat) :=
  (List.range h.vlen).map (fun i => if h.pred x i w then some (h.vsrc x x.a i w) else none)

/-- The flags of reading the active source elements (R106). -/
def leafFlags (t : Ty) (l : List (Option Nat)) : Flags :=
  l.foldl (fun f a => match a with | some a => f ||| t.readFlags a | none => f) 0

/-- Rounding an exact value to a type and reading it back: a node or partial sum of R124. -/
def node (t : Ty) (rm : RM) (sat8 : Bool) (v : XReal) : XReal × Flags :=
  let (e, f) := v.round t rm sat8 0
  (t.value e, f)

/-- VREDSUM (R157): a pairwise tree of rounded sums, or an exact integer sum. -/
def execVredsum (x : Ops) (s : State) :=
  let ws := x.ts.width
  runReg .vredsum x s false none (fun h =>
    match h.vecCheck x [(3, ws)] [3] with
    | some e => .stop h e
    | none =>
      let l := h.leaves x ws
      let (e, f) :=
        if x.td.isFp then
          let rm := h.modeN x
          let comb (a b : XReal) : XReal × Flags :=
            let (v, f) := a.add b rm
            let (v, g) := node x.td rm h.sat8 v
            (v, f ||| g)
          let (r, f) := treeSum comb 14 (l.map (fun a => a.map x.ts.value))
          let (e, g) := (r.getD (.zero false)).round x.td rm h.sat8 0
          (e, leafFlags x.ts l ||| f ||| g)
        else fitInt x.td (l.foldl (fun n a => match a with | some a => n + x.ts.int a | none => n) 0) (satBit x)
      h.fpDone (h.setG (gNum x.d) (scalarOf x.td e)) f)

/-- VREDMIN and VREDMAX (R157): a NaN result is the canonical one, also where a single active element is the result (R107,
log 39). -/
def runRedPick (d : Desc) (x : Ops) (s : State) (greater : Bool) : Host.Outcome State Fault Refusal :=
  let t := x.td
  runReg d x s false none (fun h =>
    match h.vecCheck x [(3, t.width)] [3] with
    | some e => .stop h e
    | none =>
      let l := h.leaves x t.width
      let (r, f) := treeSum (pick t greater) 14 l
      let empty := if t.isFp then t.nan else encN (if greater then t.lo else t.hi) t.width
      let e := r.getD empty
      h.fpDone (h.setG (gNum x.d) (scalarOf t (if t.isFp && t.isNaN e then t.nan else e))) (leafFlags t l ||| f))
def execVredmin (x : Ops) (s : State) := runRedPick .vredmin x s false
def execVredmax (x : Ops) (s : State) := runRedPick .vredmax x s true

/-- A scan: the state after each active element and the element written (R158). -/
def scanElems {α : Type} (first : Nat → α × Flags) (next : α → Nat → α × Flags) (write : α → Nat × Flags) :
    List (Nat × Nat) → Option α → List (Nat × Nat) × Flags
  | [], _ => ([], 0)
  | (i, a) :: r, st =>
    let (st, f) := match st with | none => first a | some st => next st a
    let (e, g) := write st
    let (es, fs) := scanElems first next write r (some st)
    ((i, e) :: es, f ||| g ||| fs)

/-- VSCAN (R158). -/
def execVscan (x : Ops) (s : State) :=
  let ws := x.ts.width
  let wd := x.td.width
  runReg .vscan x s false none (fun h =>
    match h.vecCheck x [(2, wd), (3, ws)] [3] with
    | some e => .stop h e
    | none =>
      let src := (h.actives x ws).map (fun i => (i, h.vsrc x x.a i ws))
      let rm := h.modeN x
      let (es, f) :=
        if x.td.isFp then
          scanElems (fun a => (x.ts.value a, x.ts.readFlags a))
            (fun st a =>
              let (v, f) := st.add (x.ts.value a) rm
              let (v, g) := node x.td rm h.sat8 v
              (v, x.ts.readFlags a ||| f ||| g))
            (fun st => st.round x.td rm (satBit x || h.sat8) 0) src none
        else
          scanElems (fun a => (x.ts.int a, 0)) (fun st a => (st + x.ts.int a, 0)) (fun st => fitInt x.td st (satBit x)) src none
      h.writeElems x wd es f)

/-- VSCANMAX (R158): the greater by R135; a NaN is written as the canonical NaN. -/
def execVscanmax (x : Ops) (s : State) :=
  let t := x.td
  runReg .vscanmax x s false none (fun h =>
    match h.vecCheck x [(2, t.width), (3, t.width)] [3] with
    | some e => .stop h e
    | none =>
      let src := (h.actives x t.width).map (fun i => (i, h.vsrc x x.a i t.width))
      let (es, f) := scanElems (fun a => (a, t.readFlags a)) (pick t true)
        (fun a => (if t.isNaN a then t.nan else a, 0)) src none
      h.writeElems x t.width es f)

/-! Permutes (R159). -/

/-- A permute with D a v group: `src` gives the index of the A element for element `i`, `none` for 0. -/
def runPerm (d : Desc) (x : Ops) (s : State) (caps : List (Nat × Nat)) (dead : List Nat) (src : Hart → Nat → Option Nat) :
    Host.Outcome State Fault Refusal :=
  let w := x.td.width
  runReg d x s false none (fun h =>
    match h.vecCheck x caps dead with
    | some e => .stop h e
    | none =>
      h.writeElems x w ((h.actives x w).map (fun i => (i, match src h i with
        | some j => if j < h.vlen then h.vsrc x x.a j w else 0
        | none => 0))) 0)

def execVperm (x : Ops) (s : State) :=
  let w := x.td.width
  runPerm .vperm x s [(2, w), (3, w), (4, w)] [3, 4] (fun h i => some (h.vsrc x x.b i w))
def execVslideUp (x : Ops) (s : State) :=
  let w := x.td.width
  runPerm .vslideUp x s [(2, w), (3, w)] [3] (fun h i => if h.index x.b ≤ i then some (i - h.index x.b) else none)
def execVslideDown (x : Ops) (s : State) :=
  let w := x.td.width
  runPerm .vslideDown x s [(2, w), (3, w)] [3] (fun h i => some (i + h.index x.b))
def execVbcast (x : Ops) (s : State) :=
  let w := x.td.width
  runPerm .vbcast x s [(2, w), (3, w)] [3] (fun h _ => some (h.index x.b))

/-- VEXT (Table 8-3). -/
def execVext (x : Ops) (s : State) :=
  let w := x.td.width
  runReg .vext x s true none (fun h =>
    match h.vecCheck x [(3, w)] [3] with
    | some e => .stop h e
    | none =>
      let j := h.index x.b
      .ok (h.setG (gNum x.d) (scalarOf x.td (if j < h.vlen then h.vsrc x x.a j w else 0))) 0)

/-- VCOMPRESS (Table 8-3): the guard is its input. -/
def execVcompress (x : Ops) (s : State) :=
  let w := x.td.width
  runReg .vcompress x s false none (fun h =>
    match h.vecCheck x [(2, w), (3, w)] [3] with
    | some e => .stop h e
    | none => h.writeElems x w (((h.actives x w).map (fun i => h.vsrc x x.a i w)).zipIdx.map (fun p => (p.2, p.1))) 0)

/-- VIOTA (Table 8-3): the number of active elements below each element, mod 2^w. -/
def execViota (x : Ops) (s : State) :=
  let w := x.td.width
  runReg .viota x s false none (fun h =>
    match h.vecCheck x [(2, w)] [] with
    | some e => .stop h e
    | none =>
      let act := h.actives x w
      h.writeElems x w ((List.range h.vlen).map (fun i => (i, (act.filter (fun j => j < i)).length % 2 ^ w))) 0)

/-- One butterfly stage over an array of encodings (R160). -/
def hadStage (t : Ty) (rm : RM) (sat : Bool) (st : Nat) (xs : List Nat) : List Nat × Flags :=
  let arr := xs.toArray
  let rs := (List.range xs.length).map (fun i =>
    if i.testBit st then
      arith t rm sat false (fun a b rm => a.add b.neg rm) (fun a b => a - b) (arr.getD (i - 2 ^ st) 0) (arr.getD i 0)
    else arith t rm sat false XReal.add (fun a b => a + b) (arr.getD i 0) (arr.getD (i + 2 ^ st) 0))
  (rs.map (fun r => r.1), rs.foldl (fun f r => f ||| r.2) 0)

/-- VHAD (R160). -/
def execVhad (x : Ops) (s : State) :=
  let t := x.td
  runReg .vhad x s true none (fun h =>
    let first := x.b.imm % 16
    let last := bitsN x.b.imm 7 4
    let n := h.vlen
    match h.vlRange x [(2, t.width), (3, t.width)] with
    | some e => .stop h e
    | none =>
      if n ≠ 0 && (n < 2 ^ (last + 1) || 2 ^ Nat.log2 n ≠ n) then .stop h ⟨.vlRange, 0, 0, 0, 0, 0⟩
      else match h.deadStop x [3] with
      | some e => .stop h e
      | none =>
        let src := (List.range n).map (fun i => h.vsrc x x.a i t.width)
        let (r, f) := (List.range (last + 1 - first)).foldl (fun r k =>
          let (ys, g) := hadStage t (h.modeN x) (satBit x) (first + k) r.1
          (ys, r.2 ||| g)) (src, 0)
        h.writeElems x t.width (r.zipIdx.map (fun p => (p.2, p.1))) f)

/-! Predicates (Table 8-5). -/

/-- An instruction that writes a predicate from two predicates. -/
def runPred (d : Desc) (x : Ops) (s : State) (f : BitVec 256 → BitVec 256 → BitVec 256) : Host.Outcome State Fault Refusal :=
  runReg d x s true none (fun h => .ok (h.setK (kNum x.d) (f (h.kr (kNum x.a)) (h.kr (kNum x.b)))) 0)
def execKand (x : Ops) (s : State) := runPred .kand x s (fun a b => a &&& b)
def execKor (x : Ops) (s : State) := runPred .kor x s (fun a b => a ||| b)
def execKxor (x : Ops) (s : State) := runPred .kxor x s (fun a b => a ^^^ b)
def execKnot (x : Ops) (s : State) := runPred .knot x s (fun a _ => ~~~a)

/-- The elements below VL whose governing bit is 1 in the predicate of A (R164). -/
def Hart.governed (h : Hart) (x : Ops) : List Nat :=
  (List.range h.vlen).filter (fun i => (h.kr (kNum x.a)).getLsbD (i * x.td.width / 8))
def execKcnt (x : Ops) (s : State) :=
  runReg .kcnt x s true none (fun h =>
    match h.vlRange x [(3, x.td.width)] with
    | some e => .stop h e
    | none => .ok (h.setG (gNum x.d) (BitVec.ofNat 64 (h.governed x).length)) 0)
def execKfirst (x : Ops) (s : State) :=
  runReg .kfirst x s true none (fun h =>
    match h.vlRange x [(3, x.td.width)] with
    | some e => .stop h e
    | none => .ok (h.setG (gNum x.d) (BitVec.ofNat 64 ((h.governed x).head?.getD h.vlen))) 0)
/-- KWHILE (Table 8-5): exact sums, independent of VL. -/
def execKwhile (x : Ops) (s : State) :=
  runReg .kwhile x s true none (fun h =>
    let w := x.td.width
    let val (a : Word) : Int := if x.td.isSigned then a.toInt else a.toNat
    let a := val (h.src x.a)
    let b := val (h.src x.b)
    let k := (List.range (2048 / w)).foldl (fun k i => setPredBits k i w (a + i < b)) 0
    .ok (h.setK (kNum x.d) (BitVec.ofNat 256 k)) 0)

end Sys2Proof.Machine
end

