-- ==== Sys2Proof/Machine/Memory.lean ====
section
/-! DEFINITION. Loads, stores, atomics, cache maintenance, prefetch and fences (R271 to R285). -/
namespace Sys2Proof.Machine
open Sys2Proof

/-- The register of an address field plus a displacement (R273, R274). -/
def Hart.addr (h : Hart) (base : Operand) (disp : Word) : Nat := (h.gr (gNum base) + disp).toNat
/-- A number of `n` bytes as a word, sign-extended or not. -/
def extend (signed : Bool) (n x : Nat) : Word := if signed then BitVec.ofInt 64 (sextN x (8 * n)) else BitVec.ofNat 64 (zextN x (8 * n))

/-- A scalar load of `n` bytes at the register A plus a displacement (R273). Loads are performed in program order, so LDA's
order is kept (R315, log 5). -/
def runLoad (d : Desc) (x : Ops) (s : State) (n : Nat) (signed : Bool) (disp : Hart → Word) : Host.Outcome State Fault Refusal :=
  runCore d x s true none (fun m h =>
    let ea := h.addr x.a (disp h)
    if ea % n ≠ 0 then .stop s (accessStop (.align, ea) .read 3 0)
    else match s.load m ea n .read x.hint.val with
    | (s, .error e) => .stop s (accessStop e .read 3 0)
    | (s, .ok bs) => .retire (s.setHart m ((s.hart m).setG (gNum x.d) (extend signed n (natOfBytes bs)))) 0)

/-- A scalar store of `n` bytes (R273); `scope` gives the release of STL, before its write (R315). -/
def runStore (d : Desc) (x : Ops) (s : State) (n : Nat) (disp : Hart → Word) (scope : Option Nat) :
    Host.Outcome State Fault Refusal :=
  runCore d x s true none (fun m h =>
    let ea := h.addr x.d (disp h)
    if ea % n ≠ 0 then .stop s (accessStop (.align, ea) .write 2 0)
    else match s.storePieces m ea n with
    | (s, .error e) => .stop s (accessStop e .write 2 0)
    | (s, .ok ps) =>
      let s := match scope with | some sc => State.release s m sc | none => s
      .retire (s.issue (s.pendingOf m x.hint.val ps (bytesOf n (h.src x.a).toNat))) 0)

/-- The sizes and extensions of the kinds of LD (R273). -/
def ldKind (k : Nat) : Nat × Bool :=
  match k with
  | 0 => (8, false) | 1 => (4, true) | 2 => (4, false) | 3 => (2, true) | 4 => (2, false) | 5 => (1, true) | _ => (1, false)

def execLd (x : Ops) (s : State) :=
  runLoad .ld x s (ldKind x.var.val).1 (ldKind x.var.val).2 (fun h => h.src x.b)
def execSt (x : Ops) (s : State) := runStore .st x s (8 / 2 ^ x.var.val) (fun h => h.src x.b) none
/-- LDA: layout SK holds the scope in [9:8] and the kind in [11:10] (Table 4-4). -/
def execLda (x : Ops) (s : State) :=
  runLoad .lda x s (ldKind (x.var.val / 4)).1 (ldKind (x.var.val / 4)).2 (fun _ => 0)
def execStl (x : Ops) (s : State) :=
  runStore .stl x s (8 / 2 ^ (x.var.val / 4)) (fun _ => 0) (some (x.var.val % 4))

/-! Vector accesses. -/

/-- How a loop over elements ended. -/
inductive MemEnd where
  | all
  | stop (e : Stop)
  | cut (unit : Nat)

/-- The loop of a long memory instruction (R276): a fault stops at its element, a cut at a boundary of `per` elements
after the first. -/
def memLoop (per start : Nat) (cut : Option Nat) (act : Nat → Bool) {σ : Type} (f : σ → Nat → σ × Option Stop) :
    List Nat → σ → σ × MemEnd
  | [], s => (s, .all)
  | i :: is, s =>
    if cut = some i && i % per = 0 && start < i then (s, .cut i)
    else if act i then
      match f s i with
      | (s, some e) => (s, .stop { e with unit := i })
      | (s, none) => memLoop per start cut act f is s
    else memLoop per start cut act f is s

/-- The elements from ESTART.UNIT below VL; of a sub-byte type those that begin a byte (R274). -/
def Hart.memUnits (h : Hart) (w : Nat) : List Nat :=
  (List.range h.vlen).filter (fun i => h.estart.toNat ≤ i && i * w % 8 = 0)

/-- ADDR at the first active element that is misaligned (R271 step 4). -/
def firstMisaligned (nb : Nat) (act : Nat → Bool) (addr : Nat → Nat) (units : List Nat) : Option Nat :=
  (units.find? (fun i => act i && addr i % nb ≠ 0)).map addr

/-- The remapping of the skewed-tile mode (R269). -/
def skewAddr (va : Nat) : Nat := va - bitsN va 7 2 * 4 + (bitsN va 7 2 + bitsN va 13 8) % 64 * 4

/-- The virtual address that an element uses, or the stop of `.skew` where it translates outside the bench, at the address before the
remapping (R269). -/
def State.skewed (s : State) (n : Nat) (skew : Bool) (kind : Acc) (va field : Nat) : Except Stop Nat :=
  if !skew then .ok va
  else
    let va' := skewAddr va
    let outside : Bool := if isSys n then window va' ≠ 9 else match (s.walkVa (s.asidOf n) va' (postId n)).leaf with
      | .ok (e, _) => window (bitsN e 51 0) ≠ 9
      | .error _ => false
    match s.reach n kind va' with
    | .error c =>
      if va' < 2 ^ 52 && outside && (c = .addrRange || c = .imageAccess) then .error (accessStop (.addrRange, va) kind field 0)
      else .error (accessStop (c, va') kind field 0)
    | .ok p => if window p.pa = 9 then .ok va' else .error (accessStop (.addrRange, va) kind field 0)

/-- What a contiguous, strided, gathered or scattered access needs: the fields of data and base, the element width, the
width of its guard, whether it is skewed, and the address of an element. -/
structure VecAccess where
  load : Bool
  data : Operand
  field : Nat
  w : Nat
  wg : Nat
  skew : Bool
  addr : Nat → Nat

/-- The end of a long load, store or VAMO: what it loads to is live, at a stop and a cut too (R276). -/
def endMem (x : Ops) (n : Nat) (load : Bool) (r : State × MemEnd) : Done :=
  let live (s : State) : State := if load then s.setHart n ((s.hart n).liveAll x.d) else s
  match r with
  | (s, .all) => .retire (live s) 0
  | (s, .stop e) => .stop (live s) e
  | (s, .cut b) => .cut (live s) b

/-- The accesses of a long vector load or store (R271 steps 4 to 6, R274, R276). The writes of a store go out together
when it ends, merged as R406 gives. -/
def vecAccess (x : Ops) (n : Nat) (h : Hart) (s : State) (a : VecAccess) : Done :=
  let units := h.memUnits a.w
  let act := fun i => h.pred x i a.wg
  let nb := max 1 (a.w / 8)
  let kind := if a.load then Acc.read else Acc.write
  match firstMisaligned nb act a.addr units with
  | some va => .stop s { accessStop (.align, va) kind a.field 0 with unit := h.estart.toNat }
  | none =>
    let cut := h.cut.map (fun c => c.unit)
    let one (r : State × List Pending) (i : Nat) : (State × List Pending) × Option Stop :=
      let (s, ws) := r
      match s.skewed n a.skew kind (a.addr i) a.field with
      | .error e => (r, some e)
      | .ok va =>
        if a.load then
          match s.load n va nb .read x.hint.val with
          | (s, .error e) => ((s, ws), some (accessStop e .read a.field 0))
          | (s, .ok bs) =>
            ((s.setHart n ((s.hart n).setElem (firstReg a.data) (i * a.w / (8 * nb)) (8 * nb) (natOfBytes bs)), ws), none)
        else
          match s.storePieces n va nb with
          | (s, .error e) => ((s, ws), some (accessStop e .write a.field 0))
          | (s, .ok ps) =>
            let bs := bytesOf nb (h.elem (firstReg a.data) (i * a.w / (8 * nb)) (8 * nb))
            ((s, ws ++ s.pendingOf n x.hint.val ps bs), none)
    let ((s, ws), e) := memLoop (2048 / a.w) h.estart.toNat cut act one units (s, [])
    endMem x n a.load (s.issueElems ws, e)

/-- The checks of R271 step 3: capacity (R140), VL.TYPE, deadness (R55), each with the kind of the access. -/
def Hart.memCheck (h : Hart) (x : Ops) (kind : Acc) (caps : List (Nat × Nat)) (ty : Option Stop) (dead : List Nat) : Option Stop :=
  (((h.vlRange x caps).or ty).or (h.deadStop x dead)).map (fun e => { e with kind := kind.code })

/-- Beginning a vector access: the checks of R271 step 3. -/
def runVecMem (d : Desc) (x : Ops) (s : State) (caps : Hart → List (Nat × Nat)) (dead : List Nat)
    (ty : Hart → Option Stop) (a : Hart → VecAccess) : Host.Outcome State Fault Refusal :=
  runCore d x s false (some Hart.vlen) (fun n h =>
    match h.memCheck x (if (a h).load then .read else .write) (caps h) (ty h) dead with
    | some e => .stop s e
    | none => vecAccess x n h s (a h))

/-- A refusal of VL.TYPE, or of VL with it (R269, R274, R275), with the field of the base register (R271). -/
def vlTypeStop (c : Cause) (field : Nat) : Stop := ⟨c, 0, 0, 0, field, 0⟩
/-- The VL.TYPE checks of LDV and STV (R269, R274); `field` is that of the base register. -/
def contigType (x : Ops) (field : Nat) (h : Hart) : Option Stop :=
  let w := h.vtype.width
  if x.var.val = 1 && w ≠ 32 then some (vlTypeStop .illType field)
  else if w < 8 && h.vlen * w % 8 ≠ 0 then some (vlTypeStop .vlRange field) else none
/-- The VL.TYPE checks of LDS and STS. -/
def strideType (x : Ops) (field : Nat) (h : Hart) : Option Stop :=
  if (x.var.val = 1 && h.vtype.width ≠ 32) || h.vtype.width < 8 then some (vlTypeStop .illType field) else none
/-- An address plus an offset, mod 2^64. -/
def offsetBy (base : Word) (off : Int) : Nat := (base + BitVec.ofInt 64 off).toNat

/-- A contiguous access (Table 13-6). -/
def contig (load : Bool) (x : Ops) (skew : Bool) (h : Hart) : VecAccess :=
  let w := h.vtype.width
  let base := h.gr (gNum (if load then x.a else x.d)) + h.src x.b
  ⟨load, if load then x.d else x.a, if load then 3 else 2, w, w, skew, fun i => offsetBy base (i * w / 8 : Nat)⟩
/-- A strided access (Table 13-6). -/
def strided (load : Bool) (x : Ops) (h : Hart) : VecAccess :=
  let w := h.vtype.width
  ⟨load, if load then x.d else x.a, if load then 3 else 2, w, w, x.var.val = 1,
    fun i => offsetBy (h.gr (gNum (if load then x.a else x.d))) (i * (h.src x.b).toInt)⟩
/-- A gather or scatter (R275). -/
def indexed (load : Bool) (x : Ops) (h : Hart) : VecAccess :=
  let w := h.vtype.width
  ⟨load, if load then x.d else x.a, if load then 3 else 2, w, x.ts.width, false,
    fun i => offsetBy (h.gr (gNum (if load then x.a else x.d))) (x.ts.int (h.elem (firstReg x.b) i x.ts.width))⟩

def execLdv (x : Ops) (s : State) :=
  runVecMem .ldv x s (fun h => [(2, h.vtype.width)]) [] (contigType x 3) (contig true x (x.var.val = 1))
def execStv (x : Ops) (s : State) :=
  runVecMem .stv x s (fun h => [(3, h.vtype.width)]) [3] (contigType x 2) (contig false x (x.var.val = 1))
def execLds (x : Ops) (s : State) :=
  runVecMem .lds x s (fun h => [(2, h.vtype.width)]) [] (strideType x 3) (strided true x)
def execSts (x : Ops) (s : State) :=
  runVecMem .sts x s (fun h => [(3, h.vtype.width)]) [3] (strideType x 2) (strided false x)
/-- The VL.TYPE check of LDG and STG (R275). -/
def gatherType (field : Nat) (h : Hart) : Option Stop := if h.vtype.width < 8 then some (vlTypeStop .illType field) else none
def execLdg (x : Ops) (s : State) :=
  runVecMem .ldg x s (fun h => [(2, h.vtype.width), (4, x.ts.width)]) [4] (gatherType 3) (indexed true x)
def execStg (x : Ops) (s : State) :=
  runVecMem .stg x s (fun h => [(3, h.vtype.width), (4, x.ts.width)]) [3, 4] (gatherType 2) (indexed false x)

/-- The loop of LDFF (R277): `none` where no active element fails, else the element and its stop. -/
def ldffLoop (x : Ops) (n nb : Nat) (a : VecAccess) : List Nat → State → State × Option (Nat × Stop)
  | [], s => (s, none)
  | i :: is, s =>
    let va := a.addr i
    if va % nb ≠ 0 then (s, some (i, accessStop (.align, va) .read 3 0))
    else match s.load n va nb .read x.hint.val with
    | (s', .error e) => (s', some (i, accessStop e .read 3 0))
    | (s, .ok bs) =>
      ldffLoop x n nb a is (s.setHart n ((s.hart n).setElem (firstReg x.d) (i * a.w / (8 * nb)) (8 * nb) (natOfBytes bs)))

/-- LDFF (R277): it truncates VL.LEN at the first failing active element, unless that is the lowest active one. -/
def execLdff (x : Ops) (s : State) :=
  runCore .ldff x s false none (fun n h =>
    match h.memCheck x .read [(2, h.vtype.width)] (contigType { x with var := 0 } 3 h) [] with
    | some e => .stop s e
    | none =>
      let a := contig true x false h
      let nb := max 1 (a.w / 8)
      let act := (h.memUnits a.w).filter (fun i => h.pred x i a.w)
      match ldffLoop x n nb a act s with
      | (s, none) => .retire (s.setHart n ((s.hart n).liveAll x.d)) 0
      | (s, some (f, e)) =>
        if act.head? = some f then .stop s e
        else
          let g := (s.hart n).liveAll x.d
          .retire (s.setHart n { g with vl := BitVec.ofNat 64 (patchBits g.vl.toNat 0 14 f) }) 0)

/-! Atomics. -/

/-- The operations of Table 13-9 on encodings of a type: the new value, and its flags. -/
def amoOp (t : Ty) (kind m b : Nat) : Nat × Flags :=
  match kind with
  | 0 => arith t .rne false false XReal.add (fun a b => a + b) m b
  | 1 => (m &&& b, 0)
  | 2 => (m ||| b, 0)
  | 3 => (m ^^^ b, 0)
  | 4 => pick t false m b
  | 5 => pick t true m b
  | _ => (b, 0)

/-- Writing the bytes of an atomic at its place (Table 13-8), all bytes at one instant. -/
def State.atomicWrite (s : State) (n : Nat) (p : Piece) (data : List Byte) (hint : Nat) : State :=
  if window p.addr = 10 then
    let s := s.forceHost (fun w => rangesMeet w.addr w.data.length p.addr p.len)
    s.putBytes p.addr data
  else s.performStore ⟨n, p.addr, data, hint, p.pclass, s.logHart n, false, false⟩

/-- The checks before an atomic of `nb` bytes at `va` (R271 steps 4 to 6, R278): its piece, or a stop. -/
def State.atomicPiece (s : State) (n va nb : Nat) : State × Except Stop Piece :=
  if va % nb ≠ 0 then (s, .error (accessStop (.align, va) .atomic 3 0))
  else match s.reach n .atomic va with
  | .error c => (s.noteWalks n va nb, .error (accessStop (c, va) .atomic 3 0))
  | .ok t =>
    let s := s.noteWalks n va nb
    if window t.pa = 14 then (s, .error (accessStop (.addrRange, va) .atomic 3 0))
    else
      let p : Piece := ⟨t.pa, nb, t.pclass⟩
      match s.readPiece n p with
      | (s, some (c, pa)) => (s, .error (accessStop (c, va + (pa - t.pa)) .atomic 3 0))
      | (s, none) => (s, .ok p)

/-- One atomic at a piece that answers (R278): its own earlier stores to the bytes are performed first (R312); then it
reads, and writes where `f` gives a value, at one instant. -/
def State.atomicAt (s : State) (n : Nat) (p : Piece) (hint : Nat) (f : Nat → Option Nat) : State × Nat :=
  let s := s.drain n (fun w => rangesMeet w.addr w.data.length p.addr p.len)
  let s := if window p.addr = 10 then s.forceHost (fun w => rangesMeet w.addr w.data.length p.addr p.len) else s
  let old := natOfBytes ((List.range p.len).map (fun i => s.seenByte n (p.addr + i) p.pclass))
  let s := s.watch n .atomic p.addr p.len
  match f old with
  | some v => (s.atomicWrite n p (bytesOf p.len v) hint, old)
  | none => (s, old)

/-- One atomic of `nb` bytes at `va`, with its checks (R271, R278). -/
def State.atomic (s : State) (n va nb hint : Nat) (f : Nat → Option Nat) : State × Except Stop Nat :=
  match s.atomicPiece n va nb with
  | (s, .error e) => (s, .error e)
  | (s, .ok p) => let (s, old) := s.atomicAt n p hint f; (s, .ok old)

/-- AMO (R279). -/
def execAmo (x : Ops) (s : State) :=
  runCore .amo x s true none (fun n h =>
    let t := x.td
    let nb := t.width / 8
    let b := (h.src x.b).toNat % 2 ^ t.width
    match s.atomic n (h.addr x.a 0) nb x.hint.val (fun m => some (amoOp t x.var.val m b).1) with
    | (s, .error e) => .stop s e
    | (s, .ok old) =>
      .retire (s.setHart n ((s.hart n).setG (gNum x.d) (scalarOf t old))) (amoOp t x.var.val old b).2)

/-- CAS (R280). -/
def execCas (x : Ops) (s : State) :=
  runCore .cas x s true none (fun n h =>
    let t := x.td
    let w := t.width
    let want := (h.gr (gNum x.d)).toNat % 2 ^ w
    match s.atomic n (h.addr x.a 0) (w / 8) x.hint.val (fun m => if m = want then some ((h.src x.b).toNat % 2 ^ w) else none) with
    | (s, .error e) => .stop s e
    | (s, .ok old) => .retire (s.setHart n ((s.hart n).setG (gNum x.d) (scalarOf t old))) 0)

/-- One element of VAMO at its piece (R281): its flags are ORed at once. -/
def vamoElem (x : Ops) (n : Nat) (s : State) (i : Nat) (p : Piece) : State :=
  let t := x.td
  let b := (s.hart n).elem (firstReg x.d) i t.width
  let (s, old) := s.atomicAt n p x.hint.val (fun m => some (amoOp t x.var.val m b).1)
  s.setHart n (((s.hart n).setElem (firstReg x.d) i t.width old).addFlags (amoOp t x.var.val old b).2)

/-- Whether two of some accesses of `nb` bytes touch the same byte. -/
def anyOverlap (nb : Nat) : List Nat → Bool
  | [] => false
  | a :: as => as.any (fun b => rangesMeet a nb b nb) || anyOverlap nb as

/-- VAMO (R281): elements that touch the same bytes are applied in some order, a free value (log 23); every active element
below the first failing one, or below the cut, is applied. All are performed in this step (R313 lets other accesses fall between
them, log 5). -/
def execVamo (x : Ops) (s : State) :=
  runCore .vamo x s false (some Hart.vlen) (fun n h =>
    let wi := x.ts.width
    let nb := x.td.width / 8
    match h.memCheck x .atomic [(2, x.td.width), (4, wi)] none [2, 4] with
    | some e => .stop s e
    | none =>
      let addr := fun i => offsetBy (h.gr (gNum x.a)) (x.ts.int (h.elem (firstReg x.b) i wi))
      let act := fun i => h.pred x i wi
      let units := h.memUnits 8
      match firstMisaligned nb act addr units with
      | some va => .stop s { accessStop (.align, va) .atomic 3 0 with unit := h.estart.toNat }
      | none =>
        let dry (r : State × List (Nat × Piece)) (i : Nat) : (State × List (Nat × Piece)) × Option Stop :=
          match r.1.atomicPiece n (addr i) nb with
          | (s, .error e) => ((s, r.2), some e)
          | (s, .ok p) => ((s, r.2 ++ [(i, p)]), none)
        let ((s, todo), e) := memLoop (2048 / x.td.width) h.estart.toNat (h.cut.map (fun c => c.unit)) act dry units (s, [])
        let free := anyOverlap nb (todo.map (fun q => q.2.addr))
        let order := if free then rankSort (Config.elementRank s.tick) (todo.map (fun q => q.1)) else todo.map (fun q => q.1)
        let s := order.foldl (fun s i => match todo.find? (fun q => q.1 = i) with
          | some q => vamoElem x n s i q.2
          | none => s) (if free then { s with tick := s.tick + 1 } else s)
        endMem x n true (s, e))

/-! Maintenance, prefetch, fences. -/

/-- What maintenance does to one sector (Table 13-11): `clean` keeps it, `drop` drops it without write-back. A dirty sector
that cannot be corrected goes to DRAM poisoned, with a log entry (R409). -/
def State.maintain (s : State) (pa : Nat) (keep drop : Bool) (who : LogAgent) : State :=
  match s.sector pa with
  | none => s
  | some x =>
    if drop then s.setSector pa none
    else
      let lost := x.bad && x.dirty
      let s := if x.dirty then s.writeBack pa x else s
      let s := if lost then s.logError pa 4 { who with kind := 5 } else s
      s.setSector pa (if keep && !lost then some { x with dirty := false } else none)

/-- The sectors of which a range holds a byte, with whether the range covers them whole (R282). -/
def sectorsOf (pa len : Nat) : List (Nat × Bool) :=
  if len = 0 then []
  else (List.range ((pa + len - 1) / 32 - pa / 32 + 1)).map (fun i =>
    let b := pa / 32 * 32 + 32 * i
    (b, pa ≤ b && b + 32 ≤ pa + len))

/-- Maintenance of a line cache for host memory at sys scope (Table 13-11): a write-back reaches the host; `drop` forgets the writes
that the cache of this side alone holds; a line not kept is gone, and this side then reads what the host holds. -/
def State.maintainHost (s : State) (east keep drop : Bool) (pa len : Nat) : State :=
  let meets := fun (w : HostWr) => rangesMeet w.addr w.data.length pa len
  let s : State :=
    if drop then
      { s with hostWrites := s.hostWrites.filter (fun w => !(w.at east && !w.atHost && w.owner.isSome && pa ≤ w.addr && w.addr + w.data.length ≤ pa + len)) }
    else s.hostAt (fun w => if w.at east && meets w then [1] else [])
  if keep then s else s.hostAt (fun w => if w.atHost && meets w then [if east then 2 else 0] else [])

/-- Whether maintenance at a scope acts on an address (Table 13-11). -/
def maintActs (scope pa : Nat) : Bool := window pa < 8 || ((window pa = 10 || window pa = 11) && scope = 3)
/-- The home point or line cache of every piece that maintenance acts on answers (R272). -/
def State.maintAnswers (s : State) (n scope va : Nat) : List Piece → State × Option (Cause × Nat)
  | [] => (s, none)
  | p :: ps => match (if maintActs scope p.addr then s.writeAnswers n va [p] else (s, none)) with
    | (s, some e) => (s, some e)
    | (s, none) => State.maintAnswers s n scope (va + p.len) ps

/-- CLEAN, INVAL and FLUSH (R282, R321): what they act on has been acted on when they retire (log 77). -/
def runMaint (d : Desc) (x : Ops) (s : State) (kind : Acc) (keep drop : Bool) : Host.Outcome State Fault Refusal :=
  runCore d x s true none (fun n h =>
    let va := h.addr x.a 0
    let len := (h.src x.b).toNat
    if 2 ^ 21 < len then .stop s (accessStop (.addrRange, va) kind 3 0)
    else match mapRange (s.reach n kind) va len with
    | .error e => .stop (s.noteWalks n va len) (accessStop e kind 3 0)
    | .ok ps =>
      match (s.noteWalks n va len).maintAnswers n x.var.val va ps with
      | (s, some e) => .stop s (accessStop e kind 3 0)
      | (s, none) =>
        -- the task's own earlier stores to the sectors come first (R312)
        let s := s.drain n (fun w => ps.any (fun p => rangesMeet (w.addr / 32 * 32) 32 p.addr p.len))
        let whole := fun (b : Nat) => ps.any (fun p => p.addr ≤ b && b + 32 ≤ p.addr + p.len) ||
          (List.range 32).all (fun i => ps.any (fun p => p.addr ≤ b + i && b + i < p.addr + p.len))
        let s := ps.foldl (fun s p =>
          if !maintActs x.var.val p.addr then s
          else (sectorsOf p.addr p.len).foldl (fun s b =>
            if window p.addr = 10 then s.maintainHost (sideOf (postId n)) keep (drop && whole b.1) b.1 32
            else s.maintain b.1 keep (drop && whole b.1) (s.logHart n)) s) s
        .retire s 0)
def execClean (x : Ops) (s : State) := runMaint .clean x s .read true false
def execInval (x : Ops) (s : State) := runMaint .inval x s .maint false true
def execFlush (x : Ops) (s : State) := runMaint .flush x s .maint false false

/-- PF (R283): it brings a readable sector into its cache, and never stops. -/
def execPf (x : Ops) (s : State) :=
  runCore .pf x s true none (fun n h =>
    let va := h.addr x.a (h.src x.b)
    let found := s.reach n .read va
    let s := s.noteWalks n va 1
    match found with
    | .error _ => .retire s 0
    | .ok t =>
      if (s.unreachable (postId n) t.pa).isSome || !cached t.pa then .retire s 0
      else match s.readUnit t.pa t.pclass (s.logHart n) with
      | (s, some _) => .retire s 0
      | (s, none) => .retire (s.fillSector t.pa x.hint.val t.pclass) 0)

/-- FENCE (R285, R315): every earlier access of the hart is performed, or at core scope ordered for later tasks of its core; what it
fetches after it is up to date (R66). -/
def execFence (x : Ops) (s : State) :=
  runCore .fence x s true none (fun n _ => .retire ((State.release s n x.var.val).syncFetch n) 0)

/-- FENCE.SC (R319): a fence that takes the next place in the total order. Its own writes to host memory are performed at
every side from pkg scope on. -/
def execFenceSc (x : Ops) (s : State) :=
  runCore .fenceSc x s true none (fun n _ =>
    let s := (State.release s n x.var.val).syncFetch n
    let me := s.logHart n
    let s := if 2 ≤ x.var.val then s.forceHost (fun w => w.owner = some me) else s
    .retire { s with scCount := s.scCount + 1 } 0)

end Sys2Proof.Machine
end

