-- ==== Sys2Proof/Machine/Fetch.lean ====
section
/-! DEFINITION. What an agent's step finds to do (R63, R79, R81, R253): the boundary events that come before the next
instruction, the fetch and the decoding. `step` runs the instruction found. -/
namespace Sys2Proof.Machine
open Sys2Proof

/-- What a step finds: an instruction to run in a state, a state that is already the next one, a byte of a program's OUTVA that its
sequencer may write, or nothing to do. -/
inductive Fetched where
  | run (i : Instr) (s : State)
  | done (s : State)
  | out (post prog i : Nat) (s : State)
  | quiet

/-- The instruction at the pc of a hart (R63), read as one access of kind execute, or the cause and the lowest failing address. Each
of its 32-bit words is one of those that R66 allows; which is free where they differ (log 13). A pc that is no multiple of 4 raises
ALIGN. -/
def State.fetchBytes (s : State) (n : Nat) : State × Except (Cause × Nat) IWord :=
  let va := (s.hart n).pc.toNat
  if va % 4 ≠ 0 then (s, .error (.align, va))
  else match mapRange (s.reach n .exec) va 12 with
  | .error e => (s.noteWalks n va 12, .error e)
  | .ok ps =>
    match (s.noteWalks n va 12).readPieces n va ps with
    | (s, some e) => (s, .error e)
    | (s, none) =>
      let places := ps.flatMap (fun p => (List.range (p.len / 4)).map (fun i => (p.addr + 4 * i, p.pclass)))
      let choices := places.map (fun p => s.fetchChoices n p.1 p.2)
      let words := choices.zipIdx.map (fun c => c.1.getD (Config.fetchPick s.tick c.2 % c.1.length) 0)
      let one := choices.all (fun c => c.all (fun w => some w = c.head?))
      let words := if one then choices.map (fun c => c.headD 0) else words
      (if one then s else { s with tick := s.tick + 1 }, .ok (wordOfBytes (words.flatMap (fun w => bytesOf 4 w.toNat))))

/-- A step of a hart (R42, R392, R398, R402): the end of a killed graph's task, a parity error, a pending report or an asynchronous
cause comes first; then the instruction at the pc. A blocked core goes on with the instruction that it holds, without
fetching it again (R41, R355), and meets a parity error where its wait ends; a system core stalled in a system instruction (port 0) takes no asynchronous cause until it retires
(R374). A word that does not decode, after a restore with ESTART not 0, raises RESUME_STATE (R52). -/
def State.fetchHart (s : State) (n : Nat) : Fetched :=
  let h := s.hart n
  if !s.coreUp n then .quiet
  else match h.mode with
  | .idle => if isSys n && s.phase = 8 then fetchWord false else .quiet
  | .saving _ => .quiet
  | .halted => .quiet
  | .running => fetchWord false
  | .blocked w => fetchWord (w.port = 0)
where
  /-- The boundary before an instruction, and its word. -/
  fetchWord (stalled : Bool) : Fetched :=
    let h := s.hart n
    let killed := match s.taskOf n with | some (u, t) => if s.isKilled t.graph then some u else none | none => none
    match killed with
    | some u => .done (s.retireTask u)
    | none =>
      let report := s.hasReport n && (h.estart = 0 || h.held.isSome)
      let trap := isSys n && !stalled && h.asyncReady.isSome && h.cut.isNone
      match (if h.held.isNone || report || trap then h.parity else none) with
      | some f => .done (s.coreParity n f)
      | none =>
      if report then .done (s.reportStop n)
      else if trap then .done (s.takeAsync n)
      else match h.held with
      | some w => .run w.instr s
      | none => match s.fetchBytes n with
        | (s, .error e) => .done (s.stopHart n (accessStop e .exec 0 0))
        | (s, .ok w) => match decode (isSys n) w with
          | .error (c, f) => .done (if h.estart = 0 then s.stopHart n ⟨c, 0, 0, 0, f, 0⟩ else s.stopHart n ⟨.resumeState, 0, 0, 0, 0, 0⟩)
          | .ok i => .run i s

/-! Lines that a core has not yet filled from the image (R59, R408). -/

/-- The 256 bytes of a register that the line at an image offset holds (Table 3-8). -/
def Hart.line (h : Hart) (off : Nat) : BitVec 2048 :=
  if off < 0x4000 then h.vr ((off - 0x2000) / 256)
  else if off < 0x6000 then (h.dr ((off - 0x4000) / 512)).extractLsb' (2048 * ((off - 0x4000) / 256 % 2)) 2048
  else
    let k := (off - 0x10000) / 256 * 64
    BitVec.ofNat 2048 (natOfBytes ((Table.dense 0 64 k (Table.slice h.acc k (k + 64))).flatMap (fun c => bytesOf 4 c.toNat)))
/-- Replacing them. -/
def Hart.setLine (h : Hart) (off : Nat) (x : BitVec 2048) : Hart :=
  if off < 0x4000 then { h with v := Table.set 0 h.v ((off - 0x2000) / 256) x }
  else if off < 0x6000 then
    let r := (off - 0x4000) / 512
    let at_ := 2048 * ((off - 0x4000) / 256 % 2)
    { h with d := Table.set 0 h.d r (BitVec.ofNat 4096 (patchBits (h.dr r).toNat at_ 2048 x.toNat)) }
  else
    let k := (off - 0x10000) / 256 * 64
    { h with acc := Table.splice h.acc k (k + 64) (Table.ofList 0 k ((List.range 64).map (fun i => x.extractLsb' (32 * i) 32))) }

/-- What an instruction does with a line: leaves it alone, writes it whole, or depends on what it holds. -/
inductive Fate where
  | kept | replaced | used
  deriving DecidableEq, Repr
/-- The fate of a line of hart `n` under the step `run` from `s`, whose result is `t`: found by running the step with every bit of the
line turned over. -/
def State.fate (run : State → Host.Outcome State Fault Refusal) (s : State) (n : Nat) (t : State) (off : Nat) : Fate :=
  let x := (s.hart n).line off
  let without := fun (s : State) => s.setHart n ((s.hart n).setLine off 0)
  match run (s.setHart n ((s.hart n).setLine off (~~~x))) with
  | .next u =>
    let a := (t.hart n).line off
    let b := (u.hart n).line off
    if without t ≠ without u then .used
    else if a = b then .replaced
    else if a = x && b = ~~~x then .kept else .used
  | _ => .used

/-- Whether an instruction that has run reads a register as its source A or B. -/
def Hart.sources (h : Hart) (d : Desc) (x : Ops) (bit : Nat) : Bool :=
  (elementOps.contains d.op || h.guardOn x) && ((liveBits x.a).contains bit || (liveBits x.b).contains bit)

/-- A fill that meets a word which cannot be read (R408): the task stops with SRAM_UNCORR at the offset of the word. -/
def State.lineStop (s : State) (n off : Nat) : State :=
  let s := match s.taskOf n with
    | some (_, { image := some b, .. }) => (s.readUnit (b + off) 0 (s.logHart n)).1
    | _ => s
  s.stopHart n ⟨.sramUncorr, BitVec.ofNat 64 off, 0, 15, 0, 0⟩

/-- Running an instruction on the hart whose turn it is, where the image has words that no fill can read (R59, R408): one that needs
such a line stops before it has any effect (log 46); a line that it writes whole needs no fill. -/
def State.runFilled (run : Instr → State → Host.Outcome State Fault Refusal) (i : Instr) (s : State) : Host.Outcome State Fault Refusal :=
  match s.turn, i.parts with
  | .hart n, some (d, x) =>
    let h := s.hart n
    if h.unfilled.isEmpty then run i s
    else match run i s with
    | .next t =>
      let went := match (t.hart n).mode with | .saving .stop => false | .blocked _ => false | _ => true
      let fate := fun off =>
        if went && (match lineBit off with | some k => h.sources d x k | none => false) then .used
        else s.fate (run i) n t (off / 256 * 256)
      match h.unfilled.find? (fun off => fate off = .used) with
      | some off => .next (s.lineStop n off)
      | none => .next (t.setHart n { t.hart n with unfilled := (t.hart n).unfilled.filter (fun off => fate off = .kept) })
    | o => o
  | _, _ => run i s

/-- A step of a row program (R253, R402): a parity error ends it; a word outside the program or one that fails R81 stops
it with SEQ_FETCH. -/
def State.fetchSeq (s : State) (post pid : Nat) : Fetched :=
  match s.prog post pid with
  | none => .quiet
  | some p =>
    if !p.running then .quiet
    else if p.parity then .done (s.endProg post p .seqParity p.idx (some ⟨.seqParity, p.wordAt p.idx, 0⟩) true)
    else match p.words[p.idx]? with
    | none => .done (s.stopProg post p .seqFetch 0)
    | some w => match decodeRow w with
      | .error f => .done (s.stopProg post p .seqFetch f)
      | .ok i => .run i s

/-- A step of an agent. -/
def State.fetchAgent (s : State) : Fetched :=
  match s.turn with
  | .hart n => s.fetchHart n
  | .seq post pid => s.fetchSeq post pid

/-- The sequencer of a program that its next word ends writes byte `i` of OUTVA before the status (R320). -/
def State.outTurn (run : Instr → State → Host.Outcome State Fault Refusal) (s : State) (post pid i : Nat) : State :=
  match s.prog post pid with
  | none => s
  | some p =>
    let ends := match State.fetchSeq { s with turn := .seq post pid } post pid with
      | .run i t => (match run i t with | .next t => (t.prog post pid).isNone | _ => false)
      | .done t => (t.prog post pid).isNone
      | _ => false
    match p.outUnits.find? (fun u => u.off ≤ i && i < u.off + u.data.length) with
    | some u =>
      if !ends || p.recheck || p.wrote.contains i || s.isKilled p.graph then s
      else (s.writeOut post p (u.byte i)).setProg post { p with wrote := i :: p.wrote }
    | none => s

/-- The translation units of a post or an I/O die walk an address of an address space, and remember the entries (R366). -/
def State.walkTurn (s : State) (asid place va : Nat) : State :=
  if s.phase = 8 && asid < 65536 && (place = 8 || place = 9 || (place < 8 && s.posts.testBit place && !s.scrapped.testBit place)) then
    s.remember asid place va 1 ⟨0, 0, asid, 0, 0⟩
  else s

/-- What the next step does (log 1): a line leaves an L2 that holds more than its capacity (R9); else the head of the agenda is an
event (an instruction of a core or a sequencer is none), an error that arises, a share of a bank command, an early read, a walk or a byte of OUTVA, or gives the turn to an agent; with
an empty agenda the agent of the last turn goes on. An agent of the agenda that has nothing to do lets its turn pass. -/
def State.begin (s : State) : Fetched :=
  match s.overfull with
  | some post => .done (s.evictLine post)
  | none => match s.agenda with
  | [] => s.fetchAgent
  | .event i :: rest => if i.parts.isSome then .done { s with agenda := rest } else .run i { s with agenda := rest }
  | .upset u :: rest => .done (State.upset { s with agenda := rest } u)
  | .bank post seq i :: rest => .done (State.bankTurn { s with agenda := rest } post seq i)
  | .peek post seq i va :: rest => .done (State.bankPeek { s with agenda := rest } post seq i va)
  | .gather e seq first count :: rest => .done (State.gather { s with agenda := rest } e seq first count)
  | .prefetch n pa :: rest => .done (if s.coreUp n then State.prefetch { s with agenda := rest } n pa else { s with agenda := rest })
  | .walk asid place va :: rest => .done (State.walkTurn { s with agenda := rest } asid place va)
  | .out post pid i :: rest => .out post pid i { s with agenda := rest }
  | .agent a :: rest =>
    let s := { s with agenda := rest, turn := a }
    match s.fetchAgent with
    | .quiet => .done s
    | r => r

end Sys2Proof.Machine
end

