-- ==== Sys2Proof/Machine/Stops.lean ====
section
/-! DEFINITION. The stops that come to a core from outside its instruction (R353, R356 to R358, R392): pre-emption, the watchdog, the
reports of row programs; what an instruction may be stalled on. -/
namespace Sys2Proof.Machine
open Sys2Proof

/-! Waits that are over (R355, R356). -/

/-- Whether the queue of a prepared command has room. -/
def State.roomFor (s : State) : Prepared → Bool
  | .bank post _ => (s.bankQueue post).length < 256
  | .copy e _ _ _ _ => (s.copiesAt e).length < engineSize e
  | .mode post _ => !s.seqFull post
  | .prog post _ _ _ => !s.seqFull post
  | .stale w => State.roomFor s w
  | _ => false

/-- Whether what a BLOCKED core waits for has come (Table 17-7): its timer has then restarted, and the instruction proceeds (R356,
R392). -/
def State.waitOver (s : State) (n : Nat) (w : Wait) : Bool :=
  let h := s.hart n
  match w.port, h.held with
  | 8, _ => !h.pegmask.getLsbD w.faddr.toNat
  | 9, some ⟨.waitc x, _⟩ => s.outstanding n x.var.val ≤ (h.src x.a).toNat
  | 9, _ => s.outstanding n 3 = 0
  | 10, some ⟨_, .word pa c⟩ => match (s.pieceWord n pa c).2 with | .ok v => v = 0 | .error _ => false
  | 11, some ⟨.waita x, .word pa c⟩ => match (s.pieceWord n pa c).2 with | .ok v => BitVec.ofNat 64 v ≠ h.gr (gNum x.b) | .error _ => false
  | 12, some ⟨_, work⟩ => s.roomFor work
  | 13, _ => match s.taskOf n with
    | some (_, t) => match s.bufferOf t.graph w.faddr.toNat with | some b => b.holder.isNone | none => false
    | none => false
  | 14, _ => (s.qTail w.faddr.toNat + 2 ^ 32 - s.qDone w.faddr.toNat) % 2 ^ 32 < 2 ^ s.qLogSize w.faddr.toNat
  | _, _ => false

/-! What an instruction may be stalled on (Table 17-8). -/

/-- An access that an instruction makes: its kind, the field of its address register, its place. -/
structure Reach where
  kind : Nat
  field : Nat
  va : Nat
  len : Nat
  deriving DecidableEq, Repr

/-- The accesses of a vector load or store at one of the active elements from `unit` to the end of its group (R276). -/
def vecReach (h : Hart) (x : Ops) (a : VecAccess) (unit : Nat) : List Reach :=
  ((List.range h.vlen).filter (fun i => unit ≤ i && i < unit + 2048 / a.w && h.pred x i a.wg && i * a.w % 8 = 0)).map (fun i =>
    ⟨if a.load then 0 else 1, a.field, if a.skew then skewAddr (a.addr i) else a.addr i, max 1 (a.w / 8)⟩)
/-- The reads of the block of an engine's command, whose list of `n` words of 8 bytes follows it (R223, R296). -/
def blockReach (h : Hart) (x : Ops) (n : Nat) : List Reach := [⟨4, 3, (h.gr (gNum x.a)).toNat, 64 + 8 * n⟩]
/-- The bytes of a block as its core reads them. -/
def State.blockBytes (s : State) (n ga : Nat) : List Byte := match (s.load n ga 64 .read 0).2 with | .ok bs => bs | .error _ => []
/-- The accesses of a bank command (R223): its block, its list, its operand vector. -/
def State.bankReach (s : State) (n : Nat) (h : Hart) (x : Ops) (op : BkOp) : List Reach :=
  let p := bankParam (s.blockBytes n (h.gr (gNum x.a)).toNat) 0
  blockReach h x (min p.npage 256) ++
    (if op = .dot8 then [⟨4, 3, p.opv, p.l⟩] else if op = .lut4 then [⟨4, 3, p.opv, (16 + p.l) * 2⟩] else [])

/-- The accesses that an instruction of hart `n` makes of its own from unit `unit` on, as far as that unit's group goes. A wait makes
none once it is BLOCKED. -/
def State.reaches (s : State) (n unit : Nat) (i : Instr) : List Reach :=
  let h := s.hart n
  let g := fun (o : Operand) => (h.gr (gNum o)).toNat
  match i with
  | .ld x => [⟨0, 3, h.addr x.a (h.src x.b), (ldKind x.var.val).1⟩]
  | .st x => [⟨1, 2, h.addr x.d (h.src x.b), 8 / 2 ^ x.var.val⟩]
  | .lda x => [⟨0, 3, g x.a, (ldKind (x.var.val / 4)).1⟩]
  | .stl x => [⟨1, 2, g x.d, 8 / 2 ^ (x.var.val / 4)⟩]
  | .ldv x => vecReach h x (contig true x (x.var.val = 1) h) unit
  | .stv x => vecReach h x (contig false x (x.var.val = 1) h) unit
  | .lds x => vecReach h x (strided true x h) unit
  | .sts x => vecReach h x (strided false x h) unit
  | .ldg x => vecReach h x (indexed true x h) unit
  | .stg x => vecReach h x (indexed false x h) unit
  | .ldff x => (List.range (h.vlen + 1)).flatMap (fun k => vecReach h x (contig true x false h) k)
  | .vamo x => (vecReach h x { indexed true x h with w := x.td.width } unit).map (fun r => { r with kind := 3 })
  | .amo x => [⟨3, 3, g x.a, x.td.width / 8⟩]
  | .cas x => [⟨3, 3, g x.a, x.td.width / 8⟩]
  | .clean x => [⟨0, 3, g x.a, (h.src x.b).toNat⟩]
  | .inval x => [⟨1, 3, g x.a, (h.src x.b).toNat⟩]
  | .flush x => [⟨1, 3, g x.a, (h.src x.b).toNat⟩]
  | .mopk x =>
    let step := 256 * x.ts.width / 8
    [⟨0, 3, bitsN (g x.a) 51 0 + unit * step, step⟩, ⟨0, 4, bitsN (g x.b) 51 0 + unit * step, step⟩]
  | .mld x => [⟨0, 3, h.sliceAddr x.a x, 1024⟩]
  | .mst x => [⟨1, 2, h.sliceAddr x.d x, 1024⟩]
  | .mldt x => [⟨0, 3, h.lineAddr x.a x unit, 1024⟩]
  | .mstt x => [⟨1, 2, h.lineAddr x.d x unit, 1024⟩]
  | .dld x => [⟨0, 3, h.sliceAddr x.a x, 512 * grpSize x.d + 4⟩]
  | .dst x => [⟨1, 2, h.sliceAddr x.d x, 512 * grpSize x.a + 4⟩]
  | .spawn x => [⟨0, 3, g x.a, 64⟩]
  | .launch x => [⟨0, 4, g x.b, 64⟩]
  | .waita x => [⟨0, 3, g x.a, 8⟩]
  | .waitb x => [⟨0, 3, g x.a, 8⟩]
  | .cpyByte x => blockReach h x 0
  | .cpyTin x => blockReach h x 0
  | .cpyTout x => blockReach h x 0
  | .cpyBloom x => blockReach h x 0
  | .cpyf x => blockReach h x 0
  | .cpyc x => blockReach h x 0
  | .bkadd x => s.bankReach n h x .add
  | .bkmul x => s.bankReach n h x .mul
  | .bkfma x => s.bankReach n h x .fma
  | .bkdot8 x => s.bankReach n h x .dot8
  | .bklut4 x => s.bankReach n h x .lut4
  | .bksum x => s.bankReach n h x .sum
  | .bkfill x => s.bankReach n h x .fill
  | .bkacc x => s.bankReach n h x .acc
  | .bkclr x => s.bankReach n h x .clr
  | .rpgo x =>
    let bs := s.blockBytes n (g x.a)
    [⟨5, 3, g x.a, 64⟩, ⟨5, 3, fieldAt bs 8 8, 12 * fieldAt bs 4 2⟩, ⟨5, 3, fieldAt bs 0x10 8, if fieldAt bs 0x10 8 = 0 then 0 else 4096⟩]
  | _ => []

/-- Whether an access to a virtual address may be stalled at a port of Table 17-8: at a walk; at the home point that the address
translates to; at the beams on the way. -/
def State.portFits (s : State) (n : Nat) (kind : Acc) (port va : Nat) : Bool :=
  port = 1 || (match s.xlateOn n kind va with
    | .error _ => false
    | .ok p =>
      let w := window p.pa
      (port = 2 && w < 8) || (port = 3 && w = 8) || (port = 4 && w = 9) || (port = 5 && w = 10) || (port = 6 && w = 11) ||
        (port = 7 && route (postId n) (homePlace (postId n) p.pa) ≠ []))

/-- Whether the running instruction of a task may be stalled as a WATCHDOG names it (Table 17-8, log 14): in the core's own pipeline; at
the filling of a live register that it names; or at an access that its fetch or the instruction itself makes. -/
def State.stalledAt (s : State) (n unit : Nat) (w : Wait) : Bool :=
  let h := s.hart n
  let va := w.faddr.toNat
  let found := match (s.fetchBytes n).2 with
    | .ok word => (match decode (isSys n) word with | .ok i => some i | .error _ => none)
    | .error _ => none
  let at_ := if unit = 0 then h.estart.toNat else unit
  let own := match found with | some i => s.reaches n at_ i | none => []
  let fetch : Reach := ⟨2, 0, h.pc.toNat, 12⟩
  if w.port = 0 then w = ⟨0, 0, 0, 0⟩
  else if w.port = 15 then
    w.kind = 0 && w.field = 0 && va % 256 = 0 && (match found.bind Instr.parts, lineBit va with
      | some (_, x), some k => h.livemask.getLsbD k && (liveBits x.d ++ liveBits x.a ++ liveBits x.b).contains k
      | _, _ => false)
  else (if unit = 0 then fetch :: own else own).any (fun r =>
    w.kind = r.kind && w.field = r.field && r.va ≤ va && va < r.va + r.len &&
      (s.portFits n (if r.kind = 2 then .exec else if r.kind = 1 then .write else if r.kind = 3 then .atomic else .read) w.port va ||
        (r.kind = 5 && s.portFits n .exec w.port va)))

/-! The stops. -/

/-- A stop at the boundary where a core stands, unless its core has met a parity error, whose stop comes first (R392, R402). -/
def State.boundaryStop (s : State) (n : Nat) (f : State → State) : State :=
  match (s.hart n).parity with | some a => s.coreParity n a | none => f s

/-- Pre-emption at an instruction boundary, after a pending report (R392). -/
def State.preemptAt (s : State) (n : Nat) : State :=
  s.boundaryStop n (fun s => if s.hasReport n then s.reportStop n else s.beginSave n .preempt)
/-- PREEMPT_STOP (R353): a BLOCKED victim stops at once; one between instructions begins its save; inside a long
instruction the stop is set for a unit boundary (log 14). -/
def execPreemptStop (hart unit : Nat) (s : State) : Host.Outcome State Fault Refusal :=
  let h := s.hart hart
  if !h.victim || isSys hart then .next s
  else match h.mode with
    | .blocked _ => .next (s.preemptAt hart)
    | .running =>
      if unit ≠ 0 then .next (s.setHart hart { h with cut := some ⟨unit, none⟩ })
      else if h.estart = 0 then .next (s.preemptAt hart)
      else .next s
    | _ => .next s

/-- WATCHDOG (R356, R357): a BLOCKED task whose wait is not over stops with the port of its wait; a running one at the unit that has
stalled, at the port and the access that the event names (log 14). -/
def execWatchdog (hart unit port kind field : Nat) (addr : Word) (s : State) : Host.Outcome State Fault Refusal :=
  let h := s.hart hart
  if isSys hart || h.task.isNone then .next s
  else match h.mode with
    | .blocked w =>
      if s.waitOver hart w then .next s
      else .next (s.boundaryStop hart (fun s => s.stopHart hart ⟨.watchdog, w.faddr, w.kind, w.port, w.field, 0⟩))
    | .running =>
      let w : Wait := ⟨port, kind, field, addr⟩
      if !s.stalledAt hart unit w then .next s
      else if unit = 0 then .next (s.boundaryStop hart (fun s => s.stopHart hart ⟨.watchdog, w.faddr, w.kind, w.port, w.field, 0⟩))
      else .next (s.setHart hart { h with cut := some ⟨unit, some w⟩ })
    | _ => .next s

/-- ROW_REPORT_STOP (R258): at an instruction boundary. -/
def execRowReportStop (hart : Nat) (s : State) : Host.Outcome State Fault Refusal :=
  let h := s.hart hart
  if !s.hasReport hart then .next s
  else match h.mode with
    | .blocked _ => .next (s.boundaryStop hart (fun s => s.reportStop hart))
    | .running => .next (if h.estart = 0 then s.boundaryStop hart (fun s => s.reportStop hart) else s)
    | _ => .next s

end Sys2Proof.Machine
end

