-- ==== Sys2Proof/Machine/Dispatch.lean ====
section
/-! DEFINITION. What each instruction and each event does: one arm per row of the table of operations and events. -/
namespace Sys2Proof.Machine
open Sys2Proof
def exec (i : Instr) (s : State) : Host.Outcome State Fault Refusal :=
  match i with
  | .add x => Sys2Proof.Machine.execAdd x s
  | .sub x => Sys2Proof.Machine.execSub x s
  | .mul x => Sys2Proof.Machine.execMul x s
  | .mulh x => Sys2Proof.Machine.execMulh x s
  | .mulhu x => Sys2Proof.Machine.execMulhu x s
  | .div x => Sys2Proof.Machine.execDiv x s
  | .divu x => Sys2Proof.Machine.execDivu x s
  | .rem x => Sys2Proof.Machine.execRem x s
  | .remu x => Sys2Proof.Machine.execRemu x s
  | .and x => Sys2Proof.Machine.execAnd x s
  | .or x => Sys2Proof.Machine.execOr x s
  | .xor x => Sys2Proof.Machine.execXor x s
  | .andn x => Sys2Proof.Machine.execAndn x s
  | .shl x => Sys2Proof.Machine.execShl x s
  | .shr x => Sys2Proof.Machine.execShr x s
  | .sra x => Sys2Proof.Machine.execSra x s
  | .rol x => Sys2Proof.Machine.execRol x s
  | .clz x => Sys2Proof.Machine.execClz x s
  | .ctz x => Sys2Proof.Machine.execCtz x s
  | .popc x => Sys2Proof.Machine.execPopc x s
  | .min x => Sys2Proof.Machine.execMin x s
  | .max x => Sys2Proof.Machine.execMax x s
  | .minu x => Sys2Proof.Machine.execMinu x s
  | .maxu x => Sys2Proof.Machine.execMaxu x s
  | .slt x => Sys2Proof.Machine.execSlt x s
  | .sltu x => Sys2Proof.Machine.execSltu x s
  | .seq x => Sys2Proof.Machine.execSeq x s
  | .sel x => Sys2Proof.Machine.execSel x s
  | .mov x => Sys2Proof.Machine.execMov x s
  | .li x => Sys2Proof.Machine.execLi x s
  | .lih x => Sys2Proof.Machine.execLih x s
  | .sext x => Sys2Proof.Machine.execSext x s
  | .zext x => Sys2Proof.Machine.execZext x s
  | .lea x => Sys2Proof.Machine.execLea x s
  | .leaPc x => Sys2Proof.Machine.execLeaPc x s
  | .fadd x => Sys2Proof.Machine.execFadd x s
  | .fsub x => Sys2Proof.Machine.execFsub x s
  | .fmul x => Sys2Proof.Machine.execFmul x s
  | .fma x => Sys2Proof.Machine.execFma x s
  | .fdiv x => Sys2Proof.Machine.execFdiv x s
  | .fsqrt x => Sys2Proof.Machine.execFsqrt x s
  | .fmin x => Sys2Proof.Machine.execFmin x s
  | .fmax x => Sys2Proof.Machine.execFmax x s
  | .fcvt x => Sys2Proof.Machine.execFcvt x s
  | .fcmp x => Sys2Proof.Machine.execFcmp x s
  | .fclass x => Sys2Proof.Machine.execFclass x s
  | .vadd x => Sys2Proof.Machine.execVadd x s
  | .vsub x => Sys2Proof.Machine.execVsub x s
  | .vmul x => Sys2Proof.Machine.execVmul x s
  | .vmulh x => Sys2Proof.Machine.execVmulh x s
  | .vfma x => Sys2Proof.Machine.execVfma x s
  | .vdiv x => Sys2Proof.Machine.execVdiv x s
  | .vsqrt x => Sys2Proof.Machine.execVsqrt x s
  | .vmin x => Sys2Proof.Machine.execVmin x s
  | .vmax x => Sys2Proof.Machine.execVmax x s
  | .vabs x => Sys2Proof.Machine.execVabs x s
  | .vand x => Sys2Proof.Machine.execVand x s
  | .vor x => Sys2Proof.Machine.execVor x s
  | .vxor x => Sys2Proof.Machine.execVxor x s
  | .vandn x => Sys2Proof.Machine.execVandn x s
  | .vshl x => Sys2Proof.Machine.execVshl x s
  | .vshr x => Sys2Proof.Machine.execVshr x s
  | .vsra x => Sys2Proof.Machine.execVsra x s
  | .vcmpeq x => Sys2Proof.Machine.execVcmpeq x s
  | .vcmpne x => Sys2Proof.Machine.execVcmpne x s
  | .vcmplt x => Sys2Proof.Machine.execVcmplt x s
  | .vcmple x => Sys2Proof.Machine.execVcmple x s
  | .vsel x => Sys2Proof.Machine.execVsel x s
  | .vmov x => Sys2Proof.Machine.execVmov x s
  | .vdot x => Sys2Proof.Machine.execVdot x s
  | .vcvt x => Sys2Proof.Machine.execVcvt x s
  | .vbscl x => Sys2Proof.Machine.execVbscl x s
  | .vbqntScale x => Sys2Proof.Machine.execVbqntScale x s
  | .vbqntQuant x => Sys2Proof.Machine.execVbqntQuant x s
  | .vredsum x => Sys2Proof.Machine.execVredsum x s
  | .vredmin x => Sys2Proof.Machine.execVredmin x s
  | .vredmax x => Sys2Proof.Machine.execVredmax x s
  | .vscan x => Sys2Proof.Machine.execVscan x s
  | .vscanmax x => Sys2Proof.Machine.execVscanmax x s
  | .vperm x => Sys2Proof.Machine.execVperm x s
  | .vslideUp x => Sys2Proof.Machine.execVslideUp x s
  | .vslideDown x => Sys2Proof.Machine.execVslideDown x s
  | .vbcast x => Sys2Proof.Machine.execVbcast x s
  | .vext x => Sys2Proof.Machine.execVext x s
  | .vcompress x => Sys2Proof.Machine.execVcompress x s
  | .viota x => Sys2Proof.Machine.execViota x s
  | .vhad x => Sys2Proof.Machine.execVhad x s
  | .vlut x => Sys2Proof.Machine.execVlut x s
  | .vexp2 x => Sys2Proof.Machine.execVexp2 x s
  | .vlog2 x => Sys2Proof.Machine.execVlog2 x s
  | .vrcp x => Sys2Proof.Machine.execVrcp x s
  | .vrsq x => Sys2Proof.Machine.execVrsq x s
  | .vrng x => Sys2Proof.Machine.execVrng x s
  | .setvl x => Sys2Proof.Machine.execSetvl x s
  | .getvlLen x => Sys2Proof.Machine.execGetvlLen x s
  | .getvlMax x => Sys2Proof.Machine.execGetvlMax x s
  | .kand x => Sys2Proof.Machine.execKand x s
  | .kor x => Sys2Proof.Machine.execKor x s
  | .kxor x => Sys2Proof.Machine.execKxor x s
  | .knot x => Sys2Proof.Machine.execKnot x s
  | .kcnt x => Sys2Proof.Machine.execKcnt x s
  | .kfirst x => Sys2Proof.Machine.execKfirst x s
  | .kwhile x => Sys2Proof.Machine.execKwhile x s
  | .mzero x => Sys2Proof.Machine.execMzero x s
  | .mop x => Sys2Proof.Machine.execMop x s
  | .mops x => Sys2Proof.Machine.execMops x s
  | .mopk x => Sys2Proof.Machine.execMopk x s
  | .mld x => Sys2Proof.Machine.execMld x s
  | .mst x => Sys2Proof.Machine.execMst x s
  | .mldt x => Sys2Proof.Machine.execMldt x s
  | .mstt x => Sys2Proof.Machine.execMstt x s
  | .mmovv x => Sys2Proof.Machine.execMmovv x s
  | .mmova x => Sys2Proof.Machine.execMmova x s
  | .mscl x => Sys2Proof.Machine.execMscl x s
  | .mcvt x => Sys2Proof.Machine.execMcvt x s
  | .mrel x => Sys2Proof.Machine.execMrel x s
  | .dnorm x => Sys2Proof.Machine.execDnorm x s
  | .dexp x => Sys2Proof.Machine.execDexp x s
  | .ddot x => Sys2Proof.Machine.execDdot x s
  | .ddotf x => Sys2Proof.Machine.execDdotf x s
  | .dsclVal x => Sys2Proof.Machine.execDsclVal x s
  | .dsclLog x => Sys2Proof.Machine.execDsclLog x s
  | .dadd x => Sys2Proof.Machine.execDadd x s
  | .dsub x => Sys2Proof.Machine.execDsub x s
  | .dprojPar x => Sys2Proof.Machine.execDprojPar x s
  | .dprojPerp x => Sys2Proof.Machine.execDprojPerp x s
  | .dmov x => Sys2Proof.Machine.execDmov x s
  | .dld x => Sys2Proof.Machine.execDld x s
  | .dst x => Sys2Proof.Machine.execDst x s
  | .dcmpGe x => Sys2Proof.Machine.execDcmpGe x s
  | .dcmpGt x => Sys2Proof.Machine.execDcmpGt x s
  | .dcmpSame x => Sys2Proof.Machine.execDcmpSame x s
  | .dgetnLog x => Sys2Proof.Machine.execDgetnLog x s
  | .dgetnLen x => Sys2Proof.Machine.execDgetnLen x s
  | .dsetn x => Sys2Proof.Machine.execDsetn x s
  | .ld x => Sys2Proof.Machine.execLd x s
  | .st x => Sys2Proof.Machine.execSt x s
  | .lda x => Sys2Proof.Machine.execLda x s
  | .stl x => Sys2Proof.Machine.execStl x s
  | .ldv x => Sys2Proof.Machine.execLdv x s
  | .stv x => Sys2Proof.Machine.execStv x s
  | .lds x => Sys2Proof.Machine.execLds x s
  | .sts x => Sys2Proof.Machine.execSts x s
  | .ldg x => Sys2Proof.Machine.execLdg x s
  | .stg x => Sys2Proof.Machine.execStg x s
  | .ldff x => Sys2Proof.Machine.execLdff x s
  | .amo x => Sys2Proof.Machine.execAmo x s
  | .cas x => Sys2Proof.Machine.execCas x s
  | .vamo x => Sys2Proof.Machine.execVamo x s
  | .clean x => Sys2Proof.Machine.execClean x s
  | .inval x => Sys2Proof.Machine.execInval x s
  | .flush x => Sys2Proof.Machine.execFlush x s
  | .pf x => Sys2Proof.Machine.execPf x s
  | .pfh x => Sys2Proof.Machine.execPfh x s
  | .fence x => Sys2Proof.Machine.execFence x s
  | .fenceSc x => Sys2Proof.Machine.execFenceSc x s
  | .cpyByte x => Sys2Proof.Machine.execCpyByte x s
  | .cpyTin x => Sys2Proof.Machine.execCpyTin x s
  | .cpyTout x => Sys2Proof.Machine.execCpyTout x s
  | .cpyBloom x => Sys2Proof.Machine.execCpyBloom x s
  | .cpyf x => Sys2Proof.Machine.execCpyf x s
  | .cpyc x => Sys2Proof.Machine.execCpyc x s
  | .give x => Sys2Proof.Machine.execGive x s
  | .take x => Sys2Proof.Machine.execTake x s
  | .takeNew x => Sys2Proof.Machine.execTakeNew x s
  | .waitb x => Sys2Proof.Machine.execWaitb x s
  | .bkadd x => Sys2Proof.Machine.execBkadd x s
  | .bkmul x => Sys2Proof.Machine.execBkmul x s
  | .bkfma x => Sys2Proof.Machine.execBkfma x s
  | .bkdot8 x => Sys2Proof.Machine.execBkdot8 x s
  | .bklut4 x => Sys2Proof.Machine.execBklut4 x s
  | .bksum x => Sys2Proof.Machine.execBksum x s
  | .bkfill x => Sys2Proof.Machine.execBkfill x s
  | .bkacc x => Sys2Proof.Machine.execBkacc x s
  | .bkclr x => Sys2Proof.Machine.execBkclr x s
  | .rpgo x => Sys2Proof.Machine.execRpgo x s
  | .rpmodeCopy x => Sys2Proof.Machine.execRpmodeCopy x s
  | .rpmodeCompute x => Sys2Proof.Machine.execRpmodeCompute x s
  | .br x => Sys2Proof.Machine.execBr x s
  | .brz x => Sys2Proof.Machine.execBrz x s
  | .brnz x => Sys2Proof.Machine.execBrnz x s
  | .jmp x => Sys2Proof.Machine.execJmp x s
  | .jr x => Sys2Proof.Machine.execJr x s
  | .call x => Sys2Proof.Machine.execCall x s
  | .callReg x => Sys2Proof.Machine.execCallReg x s
  | .ret x => Sys2Proof.Machine.execRet x s
  | .spawn x => Sys2Proof.Machine.execSpawn x s
  | .done x => Sys2Proof.Machine.execDone x s
  | .endTask x => Sys2Proof.Machine.execEndTask x s
  | .yield x => Sys2Proof.Machine.execYield x s
  | .waitc x => Sys2Proof.Machine.execWaitc x s
  | .waita x => Sys2Proof.Machine.execWaita x s
  | .launch x => Sys2Proof.Machine.execLaunch x s
  | .liveSet x => Sys2Proof.Machine.execLiveSet x s
  | .liveDrop x => Sys2Proof.Machine.execLiveDrop x s
  | .mfs x => Sys2Proof.Machine.execMfs x s
  | .mts x => Sys2Proof.Machine.execMts x s
  | .traps x => Sys2Proof.Machine.execTraps x s
  | .brk x => Sys2Proof.Machine.execBrk x s
  | .tlbinvVa x => Sys2Proof.Machine.execTlbinvVa x s
  | .tlbinvAsid x => Sys2Proof.Machine.execTlbinvAsid x s
  | .tlbinvAll x => Sys2Proof.Machine.execTlbinvAll x s
  | .revokeRegion x => Sys2Proof.Machine.execRevokeRegion x s
  | .revokeAsid x => Sys2Proof.Machine.execRevokeAsid x s
  | .resume x => Sys2Proof.Machine.execResume x s
  | .kill x => Sys2Proof.Machine.execKill x s
  | .attest x => Sys2Proof.Machine.execAttest x s
  | .eret x => Sys2Proof.Machine.execEret x s
  | .scrub x => Sys2Proof.Machine.execScrub x s
  | .beamrateSet x => Sys2Proof.Machine.execBeamrateSet x s
  | .beamrateFloor x => Sys2Proof.Machine.execBeamrateFloor x s
  | .beamrateCeil x => Sys2Proof.Machine.execBeamrateCeil x s
  | .beamrateOwner x => Sys2Proof.Machine.execBeamrateOwner x s
  | .beamretire x => Sys2Proof.Machine.execBeamretire x s
  | .beamstatRate x => Sys2Proof.Machine.execBeamstatRate x s
  | .beamstatWidth x => Sys2Proof.Machine.execBeamstatWidth x s
  | .beamstatRetired x => Sys2Proof.Machine.execBeamstatRetired x s
  | .beamstatCrc x => Sys2Proof.Machine.execBeamstatCrc x s
  | .beamstatReplay x => Sys2Proof.Machine.execBeamstatReplay x s
  | .beamstatRrate x => Sys2Proof.Machine.execBeamstatRrate x s
  | .beamstatModule x => Sys2Proof.Machine.execBeamstatModule x s
  | .beamstatCfg x => Sys2Proof.Machine.execBeamstatCfg x s
  | .beamstatEvents x => Sys2Proof.Machine.execBeamstatEvents x s
  | .rc x => Sys2Proof.Machine.execRc x s
  | .rm3 x => Sys2Proof.Machine.execRm3 x s
  | .rnt x => Sys2Proof.Machine.execRnt x s
  | .rsl x => Sys2Proof.Machine.execRsl x s
  | .rsr x => Sys2Proof.Machine.execRsr x s
  | .rz x => Sys2Proof.Machine.execRz x s
  | .ro x => Sys2Proof.Machine.execRo x s
  | .rjoint x => Sys2Proof.Machine.execRjoint x s
  | .rloop x => Sys2Proof.Machine.execRloop x s
  | .rnext x => Sys2Proof.Machine.execRnext x s
  | .rbaseSet x => Sys2Proof.Machine.execRbaseSet x s
  | .rbaseAdd x => Sys2Proof.Machine.execRbaseAdd x s
  | .rplaneSet x => Sys2Proof.Machine.execRplaneSet x s
  | .rplaneAdd x => Sys2Proof.Machine.execRplaneAdd x s
  | .rrd x => Sys2Proof.Machine.execRrd x s
  | .rwr x => Sys2Proof.Machine.execRwr x s
  | .rchk x => Sys2Proof.Machine.execRchk x s
  | .rsetSel x => Sys2Proof.Machine.execRsetSel x s
  | .rhalt x => Sys2Proof.Machine.execRhalt x s
  | .powerGood => Sys2Proof.Machine.execPowerGood s
  | .phaseRomDone => Sys2Proof.Machine.execPhaseRomDone s
  | .phaseAuthDone flash => Sys2Proof.Machine.execPhaseAuthDone flash s
  | .phaseDramDone fail => Sys2Proof.Machine.execPhaseDramDone fail s
  | .phaseCoresDone fail spares => Sys2Proof.Machine.execPhaseCoresDone fail spares s
  | .phaseBeamsDone ok repairs => Sys2Proof.Machine.execPhaseBeamsDone ok repairs s
  | .phaseSramDone => Sys2Proof.Machine.execPhaseSramDone s
  | .phaseCheckDone fail => Sys2Proof.Machine.execPhaseCheckDone fail s
  | .perstAssert port => Sys2Proof.Machine.execPerstAssert port s
  | .perstDeassert port => Sys2Proof.Machine.execPerstDeassert port s
  | .devreset value => Sys2Proof.Machine.execDevreset value s
  | .portHotReset port => Sys2Proof.Machine.execPortHotReset port s
  | .fwctlGo value => Sys2Proof.Machine.execFwctlGo value s
  | .doorbell queue value => Sys2Proof.Machine.execDoorbell queue value s
  | .controlRegisterWrite offset value => Sys2Proof.Machine.execControlRegisterWrite offset value s
  | .hostAccess port addr len data => Sys2Proof.Machine.execHostAccess port addr len data s
  | .queueResident post => Sys2Proof.Machine.execQueueResident post s
  | .queueDormant post => Sys2Proof.Machine.execQueueDormant post s
  | .dispatchBatch queue count => Sys2Proof.Machine.execDispatchBatch queue count s
  | .taskBind post => Sys2Proof.Machine.execTaskBind post s
  | .preemptStop hart unit => Sys2Proof.Machine.execPreemptStop hart unit s
  | .imageSaveDone hart => Sys2Proof.Machine.execImageSaveDone hart s
  | .faultqHeldWrite graph => Sys2Proof.Machine.execFaultqHeldWrite graph s
  | .watchdog hart unit port kind field addr => Sys2Proof.Machine.execWatchdog hart unit port kind field addr s
  | .bankCmdStart post => Sys2Proof.Machine.execBankCmdStart post s
  | .bankCmdComplete post seq => Sys2Proof.Machine.execBankCmdComplete post seq s
  | .copyStart engine => Sys2Proof.Machine.execCopyStart engine s
  | .copyLand engine seq run => Sys2Proof.Machine.execCopyLand engine seq run s
  | .copyComplete engine seq => Sys2Proof.Machine.execCopyComplete engine seq s
  | .modeChange post asid handle => Sys2Proof.Machine.execModeChange post asid handle s
  | .rowprogStart post => Sys2Proof.Machine.execRowprogStart post s
  | .waveAdmit post die => Sys2Proof.Machine.execWaveAdmit post die s
  | .activationAlert post sub row => Sys2Proof.Machine.execActivationAlert post sub row s
  | .refresh post sub => Sys2Proof.Machine.execRefresh post sub s
  | .rowReportStop hart => Sys2Proof.Machine.execRowReportStop hart s
  | .flitSend beam dir data => Sys2Proof.Machine.execFlitSend beam dir data s
  | .flitReceive beam dir errors => Sys2Proof.Machine.execFlitReceive beam dir errors s
  | .replayTimeout beam dir => Sys2Proof.Machine.execReplayTimeout beam dir s
  | .replayWindowEnd beam dir => Sys2Proof.Machine.execReplayWindowEnd beam dir s
  | .laneRetire lane => Sys2Proof.Machine.execLaneRetire lane s
  | .moduleRetrainDone beam dir module => Sys2Proof.Machine.execModuleRetrainDone beam dir module s
  | .rateChangeDrained beam => Sys2Proof.Machine.execRateChangeDrained beam s
  | .rateRetrainDone beam failNew failOld => Sys2Proof.Machine.execRateRetrainDone beam failNew failOld s
  | .asyncTrapTake core unit => Sys2Proof.Machine.execAsyncTrapTake core unit s
  | .powerLimit domain => Sys2Proof.Machine.execPowerLimit domain s
  | .thermal die => Sys2Proof.Machine.execThermal die s
  | .postScrap post => Sys2Proof.Machine.execPostScrap post s
  | .packageScrap posts => Sys2Proof.Machine.execPackageScrap posts s
  | .accessPerform host index => Sys2Proof.Machine.execAccessPerform host index s
  | .l2Eviction addr => Sys2Proof.Machine.execL2Eviction addr s
  | .hostWrite addr data => Sys2Proof.Machine.execHostWrite addr data s
  | .remoteTimeout target => Sys2Proof.Machine.execRemoteTimeout target s
  | .hostCompletion target kind => Sys2Proof.Machine.execHostCompletion target kind s
  | .powerGoodDrop => Sys2Proof.Machine.execPowerGoodDrop s
  | .temperatureFall die => Sys2Proof.Machine.execTemperatureFall die s

end Sys2Proof.Machine
end

