-- ==== Sys2Proof/Machine/Place.lean ====
section
/-! DEFINITION. Placing one instruction where the next step fetches it (log 3): a stand-in for the loading of a program,
which firmware and the host do. Nothing else of the model uses it. -/
namespace Sys2Proof.Machine
open Sys2Proof

/-- Placing the twelve bytes of a word in memory at a physical address, out of any cache. -/
def State.placeBytes (s : State) (pa w : Nat) : State :=
  let s := { s with l2 := Table.erase (Table.erase s.l2 (pa / 32)) ((pa + 11) / 32) }
  s.putBytes pa (bytesOf 12 w)

/-- A task with four tiles running at address `pc` on core 0 of post 0, its address space mapping the first GiB of the
post's DRAM one to one. -/
def State.placeTask (s : State) (pc : Word) : State :=
  let s := s.putNat (asidEntry 1) 8 0x40001
  let s := s.putNat 0x40000 8 0x60003
  let s := s.putNat 0x60000 8 0x1D
  let s := s.setGraph 1 (some {
    queue := 0, asid := 1, prio := 0, posts := 1, cores := List.replicate 8 0xFFFFFFFF,
    pool := 0, poolLog := 4, faultq := 0, fqlen := 0, quota := 0, wdog := 0, entry := 0, number := 0, nextId := 1,
    underflow := false, killed := false })
  let s := s.setTask 0 (some {
    graph := 1, id := 0, slot := 0, status := .running, post := 0, started := true,
    image := some (sramAddr 0 0x20000000), tiles := 4, posts := 0, near := false, lastCore := 0, copies := 0, banks := 0, rows := 0, reports := [], fetched := [] })
  s.setHart 0 { s.hart 0 with task := some 0, mode := .running, pc := pc }

/-- A row program of one word running on the sequencer of post 0, over a region of one subarray in compute mode. -/
def State.placeProg (s : State) (w : Nat) : State :=
  { s with
    turn := .seq 0 0
    waves := [(0, 2)]
    regions := [{ asid := 1, handle := 0, post := 0, subs := [0], now := true, tail := true, items := [.prog 0], checked := true }]
    progs := [(0, [{
      pid := 0, seq := 0, words := [BitVec.ofNat 96 w], prog := 0, inva := 0, outva := 0, out := [], asid := 1,
      handle := 0, task := none, graph := 0, prio := 0, peg := 0, slots := [], pb := List.replicate 8 0,
      px := List.replicate 4 0, sel := 0, loops := [], ops := 0, idx := 0, mark := false, throttled := false, alerts := [],
      begun := true, running := true, recheck := false, parity := false, wrote := [] }])] }

/-- Placing a word: a row instruction in a running row program, an instruction that a system core lacks at address 0x1000, the PROG of
a task, any other at the pc of system core 0. -/
def State.placeWord (s : State) (w : Nat) : State :=
  let s := { s with phase := 8, agenda := [] }
  if opGroup (bitsN w 11 0) = 0x10 then s.placeProg w
  else
    let onSys := match rowOf w with | some d => d.sys | none => true
    if onSys then State.placeBytes { s with turn := .hart 256 } (s.hart 256).pc.toNat w
    else State.placeBytes (State.placeTask { s with turn := .hart 0 } 0x1000) 0x1000 w

end Sys2Proof.Machine
end

