-- ==== Sys2Proof/Machine/Step.lean ====
section
/-! DEFINITION. One step of the package: the head of the agenda, an agent's step or an event (log 1). -/
namespace Sys2Proof.Machine
open Sys2Proof

/-- Running what a step found. -/
def runFetched : Fetched → Host.Outcome State Fault Refusal
  | .run i s => s.runFilled exec i
  | .done s => .next s
  | .out post prog i s => .next (s.outTurn exec post prog i)
  | .quiet => .fault .quiescent

/-- One step: an event of the agenda, or a step of the agent whose turn it is (log 1). -/
def step (s : State) : Host.Outcome State Fault Refusal := runFetched s.begin

/-- `s` with an instruction stored where `step` fetches its next one (log 3). -/
def State.withFetchWord (s : State) (_nbits w : Nat) : State := s.placeWord w

end Sys2Proof.Machine
end

