-- ==== Sys2Proof/Safety.lean ====
section
/-! DEFINITION. The terms of the claims: when an instruction begins with nothing in its way, when nothing follows its
retirement, what a core looks like afterwards, and what a step leaves alone. -/
namespace Sys2Proof.Machine
open Sys2Proof

/-- A core or row instruction from its three 32-bit words, the lowest first (R63). -/
def threeWords (a b c : BitVec 32) : IWord := c ++ b ++ a
/-- The fields of an instruction with guard k0, types I8, variant 0 and no schedule bit. -/
def plainOps (d a b : Operand) : Ops := ⟨0, false, d, a, b, .i8, .i8, 0, 0, false⟩

/-- The same with the types and the variant. -/
def typedOps (d a b : Operand) (td ts : Ty) (var : Fin 16) : Ops := { plainOps d a b with td := td, ts := ts, var := var }

/-- The instruction with the fields `x` that `d` describes begins on hart `n`, and neither the kind of core (R79 step 1),
nor its privilege (R79 step 7), nor its tiles (R48), nor a restart (R52), nor a peg (R61) stands in its way; the core is not at a wait that
it has begun (R41). -/
abbrev State.Begins (s : State) (n : Nat) (d : Desc) (x : Ops) : Prop :=
  s.turn = .hart n ∧ (isSys n = true → d.sys = true) ∧ (opGroup d.op = 0x0D → isSys n = true) ∧ s.badTile n x = none ∧
  (s.hart n).estart = 0 ∧ (s.hart n).pegField x = none ∧ (s.hart n).held = none

/-- At the boundary after the instruction nothing waits for hart `n` (R77, R392, R396, R398, R401): no report, no
pre-emption, no yield-after, no STEP, no WATCH, no chosen cut. -/
abbrev State.Calm (s : State) (n : Nat) (x : Ops) : Prop :=
  x.yield = false ∧ (s.hart n).victim = false ∧ s.hasReport n = false ∧ (s.hart n).stepArmed = false ∧
  (s.hart n).watchHit = none ∧ (s.hart n).waddr = 0 ∧ (s.hart n).cut = none

/-- The instruction begins and nothing follows it. -/
abbrev State.Starts (s : State) (n : Nat) (d : Desc) (x : Ops) : Prop := s.Begins n d x ∧ s.Calm n x
/-- The same, with the whole guard on (R67). -/
abbrev State.Ready (s : State) (n : Nat) (d : Desc) (x : Ops) : Prop := s.Starts n d x ∧ (s.hart n).guardOn x = true

/-- As `Starts`, for a long instruction that begins at unit `b` of ESTART and for which a stop may be chosen at a unit (R52, log 14). -/
abbrev State.StartsAt (s : State) (n : Nat) (d : Desc) (x : Ops) (b : Nat) : Prop :=
  s.turn = .hart n ∧ (isSys n = true → d.sys = true) ∧ (opGroup d.op = 0x0D → isSys n = true) ∧ s.badTile n x = none ∧
  (s.hart n).estart = BitVec.ofNat 64 b ∧ b < 2 ^ 32 ∧ (s.hart n).pegField x = none ∧ (s.hart n).held = none ∧
  x.yield = false ∧ (s.hart n).victim = false ∧ s.hasReport n = false ∧ (s.hart n).stepArmed = false ∧
  (s.hart n).watchHit = none ∧ (s.hart n).waddr = 0

/-- The rows of the long instructions, by OP and variants (Tables 2-5 and 10-2). -/
def longRows : List (Nat × Nat) :=
  [Desc.vadd, .vsub, .vmul, .vmulh, .vfma, .vdiv, .vsqrt, .vmin, .vmax, .vabs, .vand, .vor, .vxor, .vandn, .vshl, .vshr, .vsra,
   .vsel, .vmov, .vdot, .vcvt, .vbscl, .vbqntQuant, .vlut, .vexp2, .vlog2, .vrcp, .vrsq, .vrng, .mopk, .mldt, .mstt, .mscl, .mcvt,
   .dnorm, .dexp, .dadd, .dsub, .dprojPar, .dprojPerp, .ldv, .stv, .lds, .sts, .ldg, .stg, .vamo].map (fun d => (d.op, d.vars))

/-- Whether the instruction with these fields is long (R52, R201). -/
def longOn (d : Desc) (x : Ops) : Bool :=
  longRows.contains (d.op, d.vars) && (opGroup d.op ≠ 7 || grpSize (if d.op = 0x1C1 then x.a else x.d) ≠ 1)

/-- A core after an instruction that retires with flags `f` and goes on at `pc` (R53, R56, R63): the flags ORed in, marked
sources released, ESTART at 0. -/
def Hart.goesOn (h : Hart) (x : Ops) (f : Flags) (pc : Word) : Hart :=
  { (h.addFlags f).release x with estart := 0, pc := pc, mode := .running, held := none, cut := none }

/-- `t` is `s` with the core `n` replaced by `h`, and nothing else changed: every other core, every byte of memory, every
task, every queue and every device register is as it was. -/
def State.Turns (s t : State) (n : Nat) (h : Hart) : Prop :=
  t.hart n = h ∧ (∀ m, m ≠ n → t.hart m = s.hart m) ∧ t = { s with harts := t.harts }

/-- A long instruction stops at the unit `c` chosen for it, `u` being the state with its units below `c` done: with WATCHDOG, for a
pre-emption, or on a system core for an asynchronous trap (R147, R178, R276, R356, R398). -/
def State.CutsTo (u t : State) (n c : Nat) (dog : Option Wait) : Prop :=
  match dog with
  | some w => t = u.stopHart n ⟨.watchdog, w.faddr, w.kind, w.port, w.field, c⟩
  | none => if isSys n then ∃ v, u.Turns v n { u.hart n with estart := BitVec.ofNat 64 c, cut := none } ∧ t = v.takeAsync n
      else u.Turns t n { u.hart n with estart := BitVec.ofNat 64 c, mode := .saving .preempt, victim := false, held := none, cut := none }

/-- Instruction `i` gives a next state in which core `n` alone has changed, to `h`. -/
def Completes (i : Instr) (s : State) (n : Nat) (h : Hart) : Prop := ∃ t, exec i s = .next t ∧ s.Turns t n h

/-- Instruction `i` with the fields `x` retires on core `n` with the registers `h` and the flags `f`, and goes on at the
next instruction. -/
def Retires (i : Instr) (x : Ops) (s : State) (n : Nat) (h : Hart) (f : Flags) : Prop :=
  Completes i s n (h.goesOn x f ((s.hart n).pc + 12))

/-- Instruction `i` stops on core `n` with `e` (R390, R391, R397) and has no other effect: `u` is `s`, up to how the table
of cores is listed. -/
def Stops (i : Instr) (s : State) (n : Nat) (e : Stop) : Prop :=
  ∃ u, s.Turns u n (s.hart n) ∧ exec i s = .next (u.stopHart n e)

/-- Every ready instruction of a row writes the word `f` of its two sources to gd and nothing else (R127). -/
def WritesInt (d : Desc) (f : Word → Word → Word) : Prop :=
  ∀ s n x, s.Ready n d x → Retires (d.ctor x) x s n ((s.hart n).setG (gNum x.d) (f ((s.hart n).src x.a) ((s.hart n).src x.b))) 0

/-- Every instruction of a row that begins with its guard on gives the registers `f` and then retires, whatever follows at the
boundary. -/
def EndsRetired (d : Desc) (f : Hart → Ops → Hart) : Prop :=
  ∀ s n x, s.Begins n d x → (s.hart n).guardOn x = true →
    ∃ u, s.Turns u n (f (s.hart n) x) ∧ exec (d.ctor x) s = .next (u.retire n x 0 ((s.hart n).pc + 12))

/-- Every ready instruction of a row gives the registers `f`, without flags. -/
def WritesHart (d : Desc) (f : Hart → Ops → Hart) : Prop :=
  ∀ s n x, s.Ready n d x → Retires (d.ctor x) x s n (f (s.hart n) x) 0

/-- FMODE enables no flag (R54). -/
abbrev Hart.NoTraps (h : Hart) : Prop := h.fmode.extractLsb' 4 5 = 0

/-- Every ready instruction of a row, with no flag enabled, writes the encoding `f` to gd and ORs its flags in (R133,
R139); with a raised flag enabled it stops with FP_ENABLED, FADDR the flags, and writes nothing (R54). -/
def WritesFp (d : Desc) (f : Hart → Ops → Nat × Flags) : Prop :=
  ∀ s n x, s.Ready n d x →
    ((s.hart n).NoTraps → Retires (d.ctor x) x s n ((s.hart n).setG (gNum x.d) (BitVec.ofNat 64 (f (s.hart n) x).1)) (f (s.hart n) x).2) ∧
    ((s.hart n).fpTraps (f (s.hart n) x).2 = true →
      Stops (d.ctor x) s n ⟨.fpEnabled, ((f (s.hart n) x).2).setWidth 64, 0, 0, 0, 0⟩)

/-- `g` is `h` with LIVEMASK written with `v` (R55, R334): a register whose bit changes reads zero, one whose bit stays holds what it
held, and nothing else changes. Bits of tiles at or above `tiles` read 0. -/
def Hart.LiveTo (h g : Hart) (tiles : Nat) (v : Word) : Prop :=
  let same := fun b => h.isLive b = v.getLsbD b
  (∀ b, g.isLive b = (v.getLsbD b && decide (b < 48 + tiles))) ∧
  g = { h with v := g.v, d := g.d, m := g.m, acc := g.acc, livemask := g.livemask } ∧
  (∀ r, r < 32 → g.vr r = if same r then h.vr r else 0) ∧
  (∀ r, r < 16 → g.dr r = (if same (32 + r) then h.dr r else 0) ∧ g.mr r = if same (32 + r) then h.mr r else normZero) ∧
  ∀ r i j, r < tiles → r < 4 → i < 256 → j < 256 → g.cell r i j = if same (48 + r) then h.cell r i j else 0

/-- Two cores agree outside some registers: the g registers `gs`, the k registers `ks`, and the v, d, m and tile registers
whose LIVEMASK bits are `bs` (Table 3-7). FFLAGS may gain flags; pc, VL, ESTART and the mode are said apart. -/
structure Hart.Same (h t : Hart) (gs ks bs : List Nat) : Prop where
  g : ∀ r, r ∉ gs → t.gr r = h.gr r
  k : ∀ r, r ∉ ks → t.kr r = h.kr r
  v : ∀ r, r < 32 → r ∉ bs → t.vr r = h.vr r
  d : ∀ r, r < 16 → 32 + r ∉ bs → t.dr r = h.dr r
  m : ∀ r, r < 16 → 32 + r ∉ bs → t.mr r = h.mr r
  acc : ∀ r i j, r < 4 → i < 256 → j < 256 → 48 + r ∉ bs → t.cell r i j = h.cell r i j
  live : ∀ b, b < 52 → b ∉ bs → t.isLive b = h.isLive b
  flags : ∀ b, h.fflags.getLsbD b = true → t.fflags.getLsbD b = true
  fmode : t.fmode = h.fmode
  pegmask : t.pegmask = h.pegmask
  stops : (t.cause, t.faddr, t.finfo, t.epc) = (h.cause, h.faddr, h.finfo, h.epc)
  trap : (t.tvec, t.tstat, t.tpend, t.tmask, t.tscr0, t.tscr1, t.waddr) =
    (h.tvec, h.tstat, h.tpend, h.tmask, h.tscr0, h.tscr1, h.waddr)
  task : t.task = h.task

/-- The registers that may change besides a destination: the marked sources, which die (R56). -/
def markedBits (x : Ops) : List Nat := [x.a, x.b].flatMap (fun o => if o.marked then liveBits o else [])

/-- The core `n` goes on after an instruction with the fields `x`: pc at the next instruction, ESTART 0, and outside the
registers named it is unchanged. -/
def State.Frame (s t : State) (x : Ops) (n : Nat) (gs ks bs : List Nat) : Prop :=
  (t.hart n).pc = (s.hart n).pc + 12 ∧ (t.hart n).estart = 0 ∧ (t.hart n).mode = .running ∧ (t.hart n).vl = (s.hart n).vl ∧
  (s.hart n).Same (t.hart n) gs ks (bs ++ markedBits x)

/-- Nothing outside core `n` has changed but the counter of the model's free values (log 7): no other core, no byte of
memory, no store on its way, no task, no queue. -/
def State.OnlyHart (s t : State) (n : Nat) : Prop :=
  (∀ m, m ≠ n → t.hart m = s.hart m) ∧ t = { s with harts := t.harts, tick := t.tick }

/-- Instruction `i` with the fields `x` retires on core `n`, which alone changes, in the registers named. -/
def RetiresFrame (i : Instr) (x : Ops) (s : State) (n : Nat) (gs ks bs : List Nat) : Prop :=
  ∃ t, exec i s = .next t ∧ s.OnlyHart t n ∧ s.Frame t x n gs ks bs

/-- The registers of a destination field as LIVEMASK bits, as g registers and as k registers. -/
def destG (o : Operand) : List Nat := match o with | .g n => [n.val] | _ => []
/-- The k register of a destination field. -/
def destK (o : Operand) : List Nat := match o with | .k n => [n.val] | _ => []

/-- The memory that agents share is in its canonical form. -/
def State.MemWf (s : State) : Prop := Table.wf (0 : Byte) s.mem = true

/-- What an instruction that writes elements of width `wd` to a v group leaves (R143, R144): it retires, core `n` alone
changes, and only in the group and the released sources; the group is live; element `i` below VL that `on` selects holds
`f i`, and every other element of the group, those at VL and above too, is as it was. -/
def WritesElems (i : Instr) (x : Ops) (s : State) (n wd : Nat) (on : Nat → Bool) (f : Nat → Nat) : Prop :=
  ∃ t, exec i s = .next t ∧ s.OnlyHart t n ∧ s.Frame t x n [] [] (liveBits x.d) ∧
    (∀ b ∈ liveBits x.d, (t.hart n).isLive b = true) ∧
    ∀ k, k < 2048 * grpSize x.d / wd → (t.hart n).elem (firstReg x.d) k wd =
      if k < (s.hart n).vlen && on k then f k % 2 ^ wd else (s.hart n).elem (firstReg x.d) k wd

/-- The flags of several results together (R53, R119). -/
def orFlags (fs : List Flags) : Flags := fs.foldl (fun f g => f ||| g) 0

/-- Instruction `i`, which raises the flags `fl`, ends as `done` says where none of them is enabled, and otherwise stops with FP_ENABLED,
FADDR the flags, and writes nothing (R54, R139). -/
def FpEnds (i : Instr) (s : State) (n : Nat) (fl : Flags) (done : Prop) : Prop :=
  ((s.hart n).fpTraps fl = false → done) ∧ ((s.hart n).fpTraps fl = true → Stops i s n ⟨.fpEnabled, fl.setWidth 64, 0, 0, 0, 0⟩)

/-- What every well-formed long instruction of a row that writes elements leaves (R143 to R147), `f` giving element `k` of D and its flags,
`wd` the width of D's elements, `wg` the governing width, from element `b` of ESTART on: where no element group raises an enabled flag it
retires with the elements from `b` on written; where a stop is chosen at a later boundary of its groups it stops there with the elements
below written; where a group raises an enabled flag it stops with FP_ENABLED at the start of the first such group, FADDR the flags of that group, the
groups below written. The elements at VL and above, and those that the guard leaves out, are as they were. -/
def GroupWise (d : Desc) (ok : Hart → Ops → Prop) (guarded : Bool) (wd wg : Ops → Nat) (f : Hart → Ops → Nat → Nat × Flags) : Prop :=
  ∀ s n x b, let h := s.hart n
    let per := 2048 / wg x
    let on := fun k => !guarded || h.pred x k (wg x)
    let flags := fun lo hi => orFlags (((List.range (min hi h.vlen)).filter (fun k => lo ≤ k && on k)).map (fun k => (f h x k).2))
    let passes := fun top => ∀ q, per * q < top → h.fpTraps (flags (max b (per * q)) (per * (q + 1))) = false
    let live := fun (g : Hart) => ∀ r ∈ liveBits x.d, g.isLive r = true
    let done := fun (g : Hart) top => g.fflags = h.fflags ||| (flags b top).setWidth 64 ∧
      ∀ k, k < 2048 * grpSize x.d / wd x → g.elem (firstReg x.d) k (wd x) =
        if b ≤ k && k < top && on k then (f h x k).1 % 2 ^ wd x else h.elem (firstReg x.d) k (wd x)
    let part := fun (u : State) top => s.OnlyHart u n ∧ h.Same (u.hart n) [] [] (liveBits x.d) ∧ (u.hart n).pc = h.pc ∧
      (top ≠ 0 → live (u.hart n)) ∧ done (u.hart n) top
    s.StartsAt n d x b → (b = 0 ∨ b < h.vlen) → d.okOps x = true → ok h x →
    (h.cut = none → passes h.vlen → ∃ t, exec (d.ctor x) s = .next t ∧ s.OnlyHart t n ∧ s.Frame t x n [] [] (liveBits x.d) ∧ live (t.hart n) ∧
      done (t.hart n) h.vlen) ∧
    (∀ c dog, h.cut = some ⟨c, dog⟩ → b < c → c < h.vlen → c % per = 0 → passes c → ∃ u t, exec (d.ctor x) s = .next t ∧ u.CutsTo t n c dog ∧ part u c) ∧
    (∀ q, h.cut = none → per * q < h.vlen → passes (per * q) → let lo := max b (per * q)
      let fl := flags lo (per * (q + 1))
      h.fpTraps fl = true → ∃ u, exec (d.ctor x) s = .next (u.stopHart n ⟨.fpEnabled, fl.setWidth 64, 0, 0, 0, lo⟩) ∧ part u lo)

/-- The tiles of a core are in their canonical form. -/
abbrev Hart.TilesWf (h : Hart) : Prop := Table.wf (0 : BitVec 32) h.acc = true

/-- What an instruction that writes cells of a tile leaves (R166, R170): it retires, core `n` alone changes, and only in
the tile and the released sources; the tile is live and its cells are those that `f` gives. -/
def WritesCells (i : Instr) (x : Ops) (s : State) (n : Nat) (f : Nat → Nat → BitVec 32) : Prop :=
  ∃ t, exec i s = .next t ∧ s.OnlyHart t n ∧ s.Frame t x n [] [] [48 + accTile x.d] ∧ (t.hart n).isLive (48 + accTile x.d) = true ∧
    ∀ r c, r < 256 → c < 256 → (t.hart n).cell (accTile x.d) r c = f r c

/-- The place in its slice of the cell in row `r` and column `c`, where the slice holds it (R71): direction 1 is a row, 2 a
column, 3 a wrapped diagonal. -/
def placeIn (dir j r c : Nat) : Option Nat :=
  if dir = 1 then (if r = j then some c else none)
  else if dir = 2 then (if c = j then some r else none)
  else if c = (r + j) % 256 then some r else none

/-- Every well-formed element-guarded instruction of a row whose operands all have elements of the width of T writes `f` of
its source elements and the old element of D, with its flags, when VL fits its groups and its sources `dead` are live or DEADEN is 0
(R145 to R147, R150). -/
def Elementwise (d : Desc) (dead : List Nat) (f : Hart → Ops → Nat → Nat → Nat → Nat × Flags) : Prop :=
  GroupWise d (fun h x => h.vecCheck x [(2, x.td.width), (3, x.td.width), (4, x.td.width)] dead = none) true (fun x => x.td.width) (fun x => x.td.width)
    (fun h x k => f h x (h.vsrc x x.a k x.td.width) (h.vsrc x x.b k x.td.width) (h.elem (firstReg x.d) k x.td.width))

/-- What a long instruction that writes a tile by rows leaves (R170, R184, R185, R188), from row `b` of ESTART on, as `GroupWise` says it
of elements: `f` gives the cell in row `r` and column `c` from the old one, with its flags. -/
def RowWise (d : Desc) (dead : List Nat) (f : Hart → Ops → Nat → Nat → BitVec 32 → Nat × Flags) : Prop :=
  ∀ s n x b, let h := s.hart n
    let tile := accTile x.d
    let new := fun r c => f h x r c (h.cell tile r c)
    let flags := fun r => orFlags ((List.range 256).map (fun c => (new r c).2))
    let passes := fun top => ∀ r, b ≤ r → r < top → h.fpTraps (flags r) = false
    let done := fun (g : Hart) top => g.fflags = h.fflags ||| (orFlags (((List.range top).filter (fun r => b ≤ r)).map flags)).setWidth 64 ∧
      ∀ r c, r < 256 → c < 256 → g.cell tile r c = if b ≤ r ∧ r < top then BitVec.ofNat 32 (new r c).1 else h.cell tile r c
    let part := fun (u : State) top => s.OnlyHart u n ∧ h.Same (u.hart n) [] [] [48 + tile] ∧ (u.hart n).pc = h.pc ∧
      (top ≠ 0 → ∀ r ∈ liveBits x.d, (u.hart n).isLive r = true) ∧ done (u.hart n) top
    s.StartsAt n d x b → b < 256 → h.guardOn x = true → h.deadStop x dead = none → h.TilesWf →
    (h.cut = none → passes 256 → ∃ t, exec (d.ctor x) s = .next t ∧ s.OnlyHart t n ∧ s.Frame t x n [] [] [48 + tile] ∧
      (t.hart n).isLive (48 + tile) = true ∧ done (t.hart n) 256) ∧
    (∀ c dog, h.cut = some ⟨c, dog⟩ → b < c → c < 256 → passes c → ∃ u t, exec (d.ctor x) s = .next t ∧ u.CutsTo t n c dog ∧ part u c) ∧
    (∀ c, h.cut = none → b ≤ c → c < 256 → passes c → h.fpTraps (flags c) = true →
      ∃ u, exec (d.ctor x) s = .next (u.stopHart n ⟨.fpEnabled, (flags c).setWidth 64, 0, 0, 0, c⟩) ∧ part u c)

/-- An instruction of a row completes on core `n` and changes nothing but the registers that `gs`, `ks` and `bs` give, its
released sources and FFLAGS, when `ok` holds of the core and the fields. -/
def RowCompletes (d : Desc) (ok : Hart → Ops → Prop) (gs ks bs : Ops → List Nat) : Prop :=
  ∀ s n x, s.Starts n d x → (d.op ∈ elementOps ∨ (s.hart n).guardOn x = true) → d.okOps x = true → ok (s.hart n) x →
    RetiresFrame (d.ctor x) x s n (gs x) (ks x) (bs x)

/-- The node `j` of level `l` of the pairwise tree of R124 over leaves, of which absent ones are `none`: two present nodes of the level
below give `comb` of them, one passes unchanged. -/
def pairTree {α : Type} (comb : α → α → α) (leaf : Nat → Option α) : Nat → Nat → Option α
  | 0, j => leaf j
  | l + 1, j => match pairTree comb leaf l (2 * j), pairTree comb leaf l (2 * j + 1) with
    | some a, some b => some (comb a b)
    | some a, none => some a
    | none, b => b

/-- The source elements of hart `h` that are active below VL, in index order (R140, R143), up to and not including index `n`. -/
def Hart.activeBelow (h : Hart) (x : Ops) (w n : Nat) : List Nat := (List.range (min n h.vlen)).filter (fun i => h.pred x i w)

/-- One stage of the Hadamard transform (R160): elements whose indices differ in bit `b` alone become their sum and their difference. -/
def butterfly (t : Ty) (rm : RM) (sat : Bool) (xs : Nat → Nat) (b i : Nat) : Nat :=
  if i.testBit b then (arith t rm sat false (fun p q rm => p.add q.neg rm) (fun p q => p - q) (xs (i - 2 ^ b)) (xs i)).1
  else (arith t rm sat false XReal.add (fun p q => p + q) (xs i) (xs (i + 2 ^ b))).1

/-- What an instruction that writes the pair `p` to a d group leaves (R190, R200): it retires, core `n` alone changes, and
only in the group and the released sources; the group is live and holds the pair, its members the member code. -/
def WritesPair (i : Instr) (x : Ops) (s : State) (n : Nat) (p : Pair) : Prop :=
  ∃ t, exec i s = .next t ∧ s.OnlyHart t n ∧ s.Frame t x n [] [] (liveBits x.d) ∧ (∀ b ∈ liveBits x.d, (t.hart n).isLive b = true) ∧
    (t.hart n).pair x.d = p ∧ ∀ k, 1 ≤ k → k < grpSize x.d → (t.hart n).mr (firstReg x.d + k) = normNaN

/-- An instruction on pairs meets the zero vector at the field `dz`, or none (R199): with DIREN 1 it stops with DIR_ZERO; otherwise it
raises DZERO beside its other flags, and ends as `done` says with the flags that it raises, or with FP_ENABLED. -/
def ZeroEnds (i : Instr) (s : State) (n : Nat) (dz : Option Nat) (done : Flags → Prop) : Prop :=
  (∀ q, (s.hart n).diren = true → dz = some q → Stops i s n ⟨.dirZero, 0, 0, 0, q, 0⟩) ∧
  ((s.hart n).diren = false ∨ dz = none → ∃ fl : Flags, (dz.isSome → fl &&& fDZERO = fDZERO) ∧ FpEnds i s n fl (done fl))

/-- Every well-formed instruction of a row writes the pair that `f` gives, when its sources `dead` are live or DEADEN is 0;
`dz` gives the field of the zero vector. -/
def PairRow (d : Desc) (dead : List Nat) (f : Hart → Ops → Pair) (dz : Hart → Ops → Option Nat) : Prop :=
  ∀ s n x, let h := s.hart n
    s.Ready n d x → d.okOps x = true → h.deadStop x dead = none →
    ZeroEnds (d.ctor x) s n (dz h x) (fun fl => WritesPair (d.ctor x) x s n (f h x) ∧
      ∀ t, exec (d.ctor x) s = .next t → (t.hart n).fflags = h.fflags ||| fl.setWidth 64)

/-- What a long instruction that writes a pair leaves where it begins at a component group `b` of ESTART, to its end or to the group
`c` chosen for a stop (R201): the groups from `b` on are written; the norm and the member codes only at its end. Begun again, it raises
no flag and takes no stop for the zero vector. -/
def PairFrom (d : Desc) (dead : List Nat) (f : Hart → Ops → Pair) : Prop :=
  ∀ s n x b, let h := s.hart n
    let size := grpSize x.d
    let groups := fun (g : Hart) top => ∀ j, j < 256 * size → g.comp (firstReg x.d) j =
      if 256 * b ≤ j ∧ j < 256 * top then (f h x).comps.getD j 0 else h.comp (firstReg x.d) j
    s.StartsAt n d x b → h.guardOn x = true → d.okOps x = true → h.deadStop x dead = none → 1 < size → b < size →
    (b = 0 → h.NoTraps ∧ h.diren = false) →
    (h.cut = none → ∃ t, exec (d.ctor x) s = .next t ∧ s.OnlyHart t n ∧ s.Frame t x n [] [] (liveBits x.d) ∧ (∀ r ∈ liveBits x.d, (t.hart n).isLive r = true) ∧
      groups (t.hart n) size ∧ (t.hart n).mr (firstReg x.d) = (f h x).norm ∧ (∀ k, 1 ≤ k → k < size → (t.hart n).mr (firstReg x.d + k) = normNaN) ∧
      (b ≠ 0 → (t.hart n).fflags = h.fflags)) ∧
    ∀ c dog, h.cut = some ⟨c, dog⟩ → b < c → c < size → ∃ u t, exec (d.ctor x) s = .next t ∧ u.CutsTo t n c dog ∧ s.OnlyHart u n ∧
      h.Same (u.hart n) [] [] (liveBits x.d) ∧ (u.hart n).pc = h.pc ∧ groups (u.hart n) c ∧
      (∀ k, k < size → (u.hart n).mr (firstReg x.d + k) = h.mr (firstReg x.d + k)) ∧
      ∀ k, b ≤ k → k < c → (u.hart n).isLive (32 + firstReg x.d + k) = true

/-- Every instruction of a row that reads pairs writes the word that `f` gives to gd, under the same conditions. -/
def PairWord (d : Desc) (dead : List Nat) (f : Hart → Ops → Word) (dz : Hart → Ops → Option Nat) : Prop :=
  ∀ s n x, let h := s.hart n
    s.Ready n d x → d.okOps x = true → h.deadStop x dead = none →
    ZeroEnds (d.ctor x) s n (dz h x) (fun fl => Retires (d.ctor x) x s n (h.setG (gNum x.d) (f h x)) fl)

/-- No error stands anywhere: neither in a memory, nor in a sector that a cache holds. -/
abbrev State.Clean (s : State) : Prop :=
  s.err = [] ∧ s.l2.all (fun p => match p.2 with | some x => !x.bad && !x.poison && decide (x.flip = 0) | none => true) = true

/-- Nothing outside a core's instruction makes one of its accesses fail or differ: no error stands, nothing is remembered of earlier
walks, no answer of the outside waits for the core. -/
abbrev State.Quiet (s : State) (n : Nat) : Prop := s.Clean ∧ s.walked = [] ∧ (s.hart n).response = none

/-- An access of core `n` to the virtual address `va` reaches physical address `pa` under class `c`, and the home point
answers (R271 steps 5 and 6). -/
abbrev State.Answers (s : State) (n : Nat) (kind : Acc) (va pa c : Nat) : Prop :=
  s.reach n kind va = .ok ⟨pa, c⟩ ∧ s.unreachable (postId n) pa = none

/-- What core `n` reads as `nb` bytes at a physical address (R4, R310, R311). -/
def State.seenNat (s : State) (n pa nb c : Nat) : Nat := natOfBytes ((List.range nb).map (fun i => s.seenByte n (pa + i) c))

/-- Memory reads the same to every agent: each byte at its home point from each place, and the stores on their way. -/
def State.SameMemory (s t : State) : Prop := (∀ place a c, t.homeByte place a c = s.homeByte place a c) ∧ t.stores = s.stores

/-- Instruction `i` with the fields `x`, which only reads memory, retires on core `n`: the other cores and memory are as
they were, and so is core `n` outside the registers named; `after` holds of its new registers. -/
def ReadsMemory (i : Instr) (x : Ops) (s : State) (n : Nat) (gs ks bs : List Nat) (after : Hart → Prop) : Prop :=
  ∃ t, exec i s = .next t ∧ s.SameMemory t ∧ (∀ m, m ≠ n → t.hart m = s.hart m) ∧ s.Frame t x n gs ks bs ∧ after (t.hart n)

/-- Core `n` has issued stores of `nb` bytes, `data k` at the physical address `pa k` for every `k` of `ks`: no home point
has changed yet and no other core sees anything; core `n` reads every byte outside them as before, and of each byte that it may write
reads back what the highest of them that covers it gives, reserved bits as zeros (R3, R58, R182, R274, R275, R310, R311, R340). -/
def State.StoresAt (s t : State) (n nb : Nat) (ks : List Nat) (pa data : Nat → Nat) : Prop :=
  (∀ place a c, t.homeByte place a c = s.homeByte place a c) ∧
  (∀ m a c, m ≠ n → t.seenByte m a c = s.seenByte m a c) ∧
  (∀ a c, (∀ k ∈ ks, a < pa k ∨ pa k + nb ≤ a) → t.seenByte n a c = s.seenByte n a c) ∧
  (∀ k ∈ ks, ∀ i c, i < nb → (∀ j ∈ ks, k < j → pa k + i < pa j ∨ pa j + nb ≤ pa k + i) →
    t.seenByte n (pa k + i) c = if s.storeLands (some n) (pa k + i) then BitVec.ofNat 8 (data k / 2 ^ (8 * i)) &&& s.keptMask (pa k + i)
      else s.seenByte n (pa k + i) c)

/-- Instruction `i` with the fields `x` retires on core `n`, no register but released sources changed, with those stores
issued; `va k` are their virtual addresses. -/
def WritesMemory (i : Instr) (x : Ops) (s : State) (n nb : Nat) (ks : List Nat) (va data : Nat → Nat) : Prop :=
  ∀ pa c : Nat → Nat, s.Quiet n → (∀ k ∈ ks, s.Answers n .write (va k) (pa k) (c k) ∧ window (pa k) ≠ 14) →
    ∃ t, exec i s = .next t ∧ s.StoresAt t n nb ks pa data ∧ (∀ m, m ≠ n → t.hart m = s.hart m) ∧ s.Frame t x n [] [] []

/-- Whether a write or an atomic at these bytes changes plain memory: DRAM, or SRAM tier and bench outside images, tables and the error
log. -/
def State.plainPlace (s : State) (pa nb : Nat) : Bool :=
  window pa < 8 || ((window pa = 8 || window pa = 9) && (List.range nb).all (fun i =>
    !inImageArea (pa + i) && !tableRS (pa + i) && !logRO (pa + i) && s.readMask (pa + i) = 0xFF))

/-- An access of core `n` to the virtual address `va` fails with the cause `c` before anything is read or written (R271 steps 5 and
6). -/
def State.Fails (s : State) (n : Nat) (kind : Acc) (va : Nat) (c : Cause) : Prop :=
  s.reach n kind va = .error c ∨ ∃ p, s.reach n kind va = .ok p ∧ s.unreachable (postId n) p.pa = some c

/-- Instruction `i` stops on core `n` with `e` and has no other effect, but for what the translation units remember of its walks
(R366). -/
def StopsAt (i : Instr) (s : State) (n : Nat) (e : Stop) : Prop :=
  ∃ u : State, u = { s with harts := u.harts, walked := u.walked } ∧ (∀ m, u.hart m = s.hart m) ∧ exec i s = .next (u.stopHart n e)

/-- The stores of core `n` that are not yet performed go to plain memory, each within one unit that carries check bits. -/
def State.PlainStores (s : State) (n : Nat) : Prop :=
  ∀ w : Pending, w ∈ s.stores → w.hart = n → w.data ≠ [] ∧ w.addr % unitSize w.addr + w.data.length ≤ unitSize w.addr ∧ s.plainPlace w.addr w.data.length = true

/-- The byte that stands at a home point once every store of core `n` has been performed in its order (R310, R312). -/
def State.performed (s : State) (n place a c : Nat) : Byte :=
  match (s.stores.filter (fun (w : Pending) => w.hart = n && w.addr ≤ a && a < w.addr + w.data.length)).getLast? with
  | some w => w.data.getD (a - w.addr) 0
  | none => s.homeByte place a c

/-- The stores of core `n` have been performed, in their order (R315): every byte at a home point is what they leave there, the stores of
the other cores alone still wait, and at sys scope each write to host memory that the task of the core has made or read stands at both
sides and at the host (R318). -/
def State.Performs (s t : State) (n scope : Nat) (rest : List Pending) : Prop :=
  (s.Quiet n → s.PlainStores n → s.hostWrites = [] → ∀ place a c, t.homeByte place a c = s.performed n place a c) ∧
  t.stores = s.stores.filter (fun (w : Pending) => w.hart ≠ n) ++ rest ∧
  (scope = 3 → ∀ w : HostWr, w ∈ t.hostWrites → (w.owner = some (s.logHart n) ∨ s.logHart n ∈ w.readers) → w.atWest = true ∧ w.atHost = true ∧ w.atEast = true)

/-- Where an atomic of core `n` finds its place (Table 13-8): in plain memory, in host memory with no write on its way, or in CXL memory; no
store of the core to it waits. -/
def State.AtomicPlace (s : State) (n pa nb : Nat) : Prop :=
  (s.plainPlace pa nb = true ∨ (window pa = 10 ∧ s.hostWrites = []) ∨ window pa = 11) ∧
  ∀ w : Pending, w ∈ s.stores → w.hart = n → w.addr + w.data.length ≤ pa ∨ pa + nb ≤ w.addr

/-- Memory of `t` is that of `s` but for `nb` bytes at `pa`, which hold `v` (R4, R278). -/
def State.MemoryBut (s t : State) (pa nb v : Nat) : Prop :=
  (∀ place a c, (a < pa ∨ pa + nb ≤ a) → t.homeByte place a c = s.homeByte place a c) ∧
  (∀ place i c, i < nb → t.homeByte place (pa + i) c = BitVec.ofNat 8 (v / 2 ^ (8 * i))) ∧ t.stores = s.stores

/-- What the issue of an engine command by core `n` changes besides the queue of its engine (R62, R289 to R291): the core
goes on with its peg's bit set, its task's count of the class rises by one, the queue's number too; no other core
changes. -/
def State.Issues (s t : State) (x : Ops) (n peg cls queue : Nat) : Prop :=
  (t.hart n).pc = (s.hart n).pc + 12 ∧ (t.hart n).mode = .running ∧ (t.hart n).g = (s.hart n).g ∧
  (t.hart n).pegmask = (if peg = 0 then (s.hart n).pegmask else (s.hart n).pegmask ||| BitVec.ofNat 64 (2 ^ peg)) ∧
  (∀ m, m ≠ n → t.hart m = s.hart m) ∧ Table.get 0 t.accepts queue = Table.get 0 s.accepts queue + 1 ∧
  (∀ b, b < 52 → b ∉ markedBits x → (t.hart n).isLive b = (s.hart n).isLive b) ∧
  (∀ u k, s.taskOf n = some (u, k) → t.task u = some
    (if cls = 0 then { k with copies := k.copies + 1 } else if cls = 1 then { k with banks := k.banks + 1 } else { k with rows := k.rows + 1 }))

/-- A system instruction is ready and its release has nothing to perform: no store of the core waits, no write to host memory
is on its way (R374). -/
abbrev State.SysReady (s : State) (n : Nat) (d : Desc) (x : Ops) : Prop :=
  s.Ready n d x ∧ isSys n = true ∧ (s.hart n).stalled = false ∧ (s.stores.all (fun w => w.hart ≠ n)) = true ∧ s.hostWrites = []

/-- A system instruction retires with the answer `v` in gd, and `after` holds of the next state. -/
def Answers (i : Instr) (x : Ops) (s : State) (n : Nat) (v : Nat) (after : State → Prop) : Prop :=
  ∃ t, exec i s = .next t ∧ s.Frame t x n (destG x.d) [] [] ∧ (gNum x.d ≠ 0 → (t.hart n).gr (gNum x.d) = BitVec.ofNat 64 v) ∧
    (∀ m, m ≠ n → isSys m = true → t.hart m = s.hart m) ∧ after t

/-- A row instruction of `cost` row operations may run on the sequencer of a post: its program runs, its step has room
(R252), and its dies have their waves (R260), which no program issued earlier asks for (R22). -/
abbrev State.RowReady (s : State) (post : Nat) (p : RowProg) (cost : Nat) : Prop :=
  s.turn = .seq post p.pid ∧ s.prog post p.pid = some p ∧ p.running = true ∧ p.ops + cost ≤ 16 ∧
  (∀ d, d < 16 → s.dieShare p d ≠ 0 → cost ≤ Table.get 0 s.waves (waveKey post d)) ∧ (cost = 0 ∨ s.behind post p = false)

/-- A row instruction leaves its program as `q`; every other program, every core, memory and every task is as it was. -/
def State.RowGoes (s t : State) (post : Nat) (p q : RowProg) : Prop :=
  t.prog post p.pid = some q ∧ (∀ k, k ≠ p.pid → t.prog post k = s.prog post k) ∧ (∀ r k, r ≠ post → t.prog r k = s.prog r k) ∧
  t.harts = s.harts ∧ t.mem = s.mem ∧ t.stores = s.stores ∧ t.tasks = s.tasks ∧ t.regions = s.regions

/-- Instruction `i` goes on with the next word of its program, `rows` hold in subarray number `k`, row `r`, what `f k r` gives
and every row of no such place is as it was; each of the rows `touched` counts one activation, and each die of the region uses a wave a row
operation (R247, R256, R260). -/
def WritesRows (i : Instr) (s : State) (post : Nat) (p : RowProg) (cost : Nat) (touched : List Nat) (f : Nat → Nat → Option (BitVec 8192)) : Prop :=
  let subs := s.subsOf p
  s.RowReady post p cost → subs.Nodup → (∀ b ∈ subs, b < 196608) →
  ∃ t, exec i s = .next t ∧ s.RowGoes t post p { p with idx := p.idx + 1, ops := p.ops + cost } ∧
    (∀ q die, die < 16 → Table.get 0 t.waves (waveKey q die) =
      Table.get 0 s.waves (waveKey q die) - if q = post ∧ s.dieShare p die ≠ 0 then cost else 0) ∧
    ∀ q b r, b < 196608 → r < 522 →
      t.row q b r = (if q = post ∧ b ∈ subs then (f (subs.idxOf b) r).getD (s.row q b r) else s.row q b r) ∧
      Table.get 0 t.acts (rowKey q b r) = Table.get 0 s.acts (rowKey q b r) + if q = post ∧ b ∈ subs ∧ r ∈ touched then 1 else 0

end Sys2Proof.Machine
end

