-- ==== Sys2Proof/Certificates/Slice0/Obligations.lean ====
section
/-! DEFINITION. The statements about the machine, for the provers. -/
open Sys2Proof Sys2Proof.Machine

/-! Decoding and stepping. -/

/-- R63, R79, R253, R312, R367: when the twelve bytes at the pc of the core whose turn it is decode to an instruction, one step is
that instruction, and a core that is blocked on a wait goes on with the instruction that it holds (R41). The core is in service and
running, or a system core that starts after READY; nothing of R42, R258, R398 or R410 comes before it, and no L2 is over its
capacity (a line leaves it first: R9, log 12). Where the core has lines of its image to fill that cannot be read, the instruction runs or
the task stops for one of them (R59, R408). An event or a share of a bank command that the agenda names runs as it stands there
(log 1). A running row program executes the word at its index. A system core fetches its word from the SRAM tier at its pc, the byte at
the lowest address in the lowest bits; a pc that is no multiple of 4 fetches nothing (log 75). -/
def Obligations.StepRunsDecoded : Prop :=
  ((∀ (s s0 : State) (n : Nat), s.overfull = none →
     (s.agenda = [] ∧ s.turn = .hart n ∧ s0 = s) ∨ (∃ rest, s.agenda = .agent (.hart n) :: rest ∧ s0 = { s with agenda := rest, turn := .hart n }) →
     s0.coreUp n = true → (∀ u t, s0.taskOf n = some (u, t) → s0.isKilled t.graph = false) → (s0.hart n).parity = none →
     let runs := fun (i : Instr) (s' : State) =>
       ((s'.hart n).unfilled = [] → step s = exec i s') ∧
       (∀ t, (s'.hart n).unfilled ≠ [] → i.parts ≠ none → exec i s' = .next t → (∃ off ∈ (s'.hart n).unfilled, step s = .next (s'.lineStop n off)) ∨
         ∃ l, (∀ off ∈ l, off ∈ (t.hart n).unfilled) ∧ step s = .next (t.setHart n { t.hart n with unfilled := l }))
     (∀ s' w i, (s0.hart n).held = none → ((s0.hart n).mode = .running ∨ ((s0.hart n).mode = .idle ∧ isSys n = true ∧ s0.phase = 8)) →
       (s0.hasReport n = false ∨ (s0.hart n).estart ≠ 0) → (isSys n = false ∨ (s0.hart n).asyncReady = none ∨ (s0.hart n).cut ≠ none) →
       s0.fetchBytes n = (s', .ok w) → decode (isSys n) w = .ok i → runs i s') ∧
     (∀ p w, (s0.hart n).held = some w → (s0.hart n).mode = .blocked p → s0.hasReport n = false →
       (isSys n = false ∨ p.port = 0 ∨ (s0.hart n).asyncReady = none ∨ (s0.hart n).cut ≠ none) → runs w.instr s0)) ∧
   (∀ (s : State) i rest, s.overfull = none → s.agenda = .event i :: rest → i.parts = none → step s = exec i { s with agenda := rest }) ∧
   (∀ (s : State) post seq i rest, s.overfull = none → s.agenda = .bank post seq i :: rest →
     step s = .next (State.bankTurn { s with agenda := rest } post seq i)) ∧
   (∀ (s : State) post, s.overfull = some post → step s = .next (s.evictLine post))) ∧
  (∀ (s s0 : State) (post pid : Nat) (p : RowProg) (w : IWord) (i : Instr), s.overfull = none →
     (s.agenda = [] ∧ s.turn = .seq post pid ∧ s0 = s) ∨ (∃ rest, s.agenda = .agent (.seq post pid) :: rest ∧ s0 = { s with agenda := rest, turn := .seq post pid }) →
     s0.prog post pid = some p → p.running = true → p.parity = false → p.words[p.idx]? = some w → decodeRow w = .ok i → step s = exec i s0) ∧
  (∀ (s : State) n, isSys n = true → let pc := (s.hart n).pc.toNat
     (pc % 4 = 0 → pc % 1024 ≤ 1012 → window pc = 8 → s.validAddr pc = true → s.unreachable (postId n) pc = none →
       (s.hart n).response = none → s.Clean → (∀ k, k < 12 → inImageArea (pc + k) = false) → (∀ w ∈ s.stores, w.hart ≠ n) → (s.hart n).fetched = [] →
       ∃ w, s.fetchBytes n = (s, .ok w) ∧ ∀ k, k < 12 → w.extractLsb' (8 * k) 8 = s.memByte (pc + k) &&& s.readMask (pc + k)) ∧
     (pc % 4 ≠ 0 → s.fetchBytes n = (s, .error (.align, pc))))

/-- The words that the spec works out decode to the instructions that it gives for them: the single words of its chapters (of R202,
R326, R335, R400, R413 and the examples beside them) and one of each instruction that its listings show; in each, three 32-bit words, the
lowest first. The same words mean the same on a task's core and on a system core, but for DONE (Table 4-5) and the system instructions.
The faults of Table 4-9 name their cause and field. (Left out: `traps 1`, whose listed word has another A, and the row of Table 4-9 whose OP
is VMIN's, log 34.) -/
def Obligations.DecodeWords : Prop :=
  (([(threeWords 0x002420C0 0x28100241 0x000AA900, .vadd { typedOps (.v 4 1 false) (.v 4 1 false) (.v 8 1 true) .bf16 .bf16 0 with guard := 2 }),
     (threeWords 0x00000040 0x00000000 0x00000000, .add (plainOps (.g 0) (.g 0) (.g 0))),
     (threeWords 0x0004005D 0xFA700000 0x00000743, .li (plainOps (.g 4) (.i32 0x0000) (.i32 0x43FA))),
     (threeWords 0x00030088 0x00000040 0x008C8000, .fcvt (typedOps (.g 3) (.g 4) (.g 0) .e4m3 .fp32 8)),
     (threeWords 0x00010183 0x06000054 0x00004000, .mopk (typedOps (.acc 1 0 0 false false) (.g 5) (.g 6) .i32 .i8 0)),
     (threeWords 0x00000183 0x0C000044 0x00004000, .mopk (typedOps (.acc 0 0 0 false false) (.g 4) (.g 12) .i32 .i8 0)),
     (threeWords 0x00000181 0x02900014 0x00004900, .mop (typedOps (.acc 0 0 0 false false) (.v 1 0 true) (.v 2 0 true) .i32 .i8 0)),
     (threeWords 0x000D0185 0x00400040 0x00000500, .mst (plainOps (.g 13) (.acc 0 1 0 false false) (.i16 0)))] ++
    [(threeWords 0x000101C0 0x00900283 0x00020000, .dnorm (typedOps (.d 1 0 false) (.v 8 1 true) .none .i8 .i16 0)),
     (threeWords 0x000301C0 0x00100263 0x00020000, .dnorm (typedOps (.d 3 0 false) (.v 6 1 false) .none .i8 .i16 0)),
     (threeWords 0x000A01C2 0x01300000 0x0000CB00, .ddot (typedOps (.g 10) (.d 0 0 false) (.d 1 0 true) .fp32 .i8 0)),
     (threeWords 0x00070200 0x40000050 0x00000500, .ld (plainOps (.g 7) (.g 5) (.i16 64))),
     (threeWords 0x000A0200 0x00000020 0x00000500, .ld (plainOps (.g 10) (.g 2) (.i16 0))),
     (threeWords 0x00010201 0x080000B0 0x00000500, .st (plainOps (.g 1) (.g 11) (.i16 8))),
     (threeWords 0x00120203 0x00000140 0x00300000, .stl (typedOps (.g 18) (.g 20) .none .i8 .i8 3)),
     (threeWords 0x00070205 0x00900040 0x00000500, .stv (plainOps (.g 7) (.v 4 0 true) (.i16 0)))] ++
    [(threeWords 0x0000020B 0x15000120 0x00006000, .amo (typedOps (.g 0) (.g 18) (.g 21) .i64 .i8 0)),
     (threeWords 0x0000020E 0x08000050 0x00100000, .clean (typedOps .none (.g 5) (.g 8) .i8 .i8 1)),
     (threeWords 0x0000020F 0x08000040 0x00100000, .inval (typedOps .none (.g 4) (.g 8) .i8 .i8 1)),
     (threeWords 0x00000212 0x08000010 0x00000000, .pfh (plainOps .none (.g 1) (.g 8))),
     (threeWords 0x00000213 0x00000000 0x00200000, .fence (typedOps .none .none .none .i8 .i8 2)),
     (threeWords 0x00000213 0x00000000 0x00300000, .fence (typedOps .none .none .none .i8 .i8 3)),
     (threeWords 0x00070240 0x06000040 0x00200000, .cpyByte (typedOps (.g 7) (.g 4) (.g 6) .i8 .i8 2)),
     (threeWords 0x000B0240 0x00000040 0x00500000, .cpyTin (typedOps (.g 11) (.g 4) (.g 0) .i8 .i8 5))] ++
    [(threeWords 0x00080240 0x00000040 0x00900000, .cpyTout (typedOps (.g 8) (.g 4) (.g 0) .i8 .i8 9)),
     (threeWords 0x00070241 0x00000040 0x00100000, .cpyf (typedOps (.g 7) (.g 4) (.g 0) .i8 .i8 1)),
     (threeWords 0x00070242 0x00000040 0x00100000, .cpyc (typedOps (.g 7) (.g 4) .none .i8 .i8 1)),
     (threeWords 0x00000245 0x00000060 0x00200000, .waitb (typedOps .none (.g 6) .none .i8 .i8 2)),
     (threeWords 0x00070280 0x00000060 0x001AA000, .bkadd (typedOps (.g 7) (.g 6) .none .bf16 .bf16 1)),
     (threeWords 0x00070283 0x00000040 0x00188000, .bkdot8 (typedOps (.g 7) (.g 4) .none .e4m3 .e4m3 1)),
     (threeWords 0x000702C0 0x00000040 0x00100000, .rpgo (typedOps (.g 7) (.g 4) .none .i8 .i8 1)),
     (threeWords 0x000002C1 0x00000050 0x00000000, .rpmodeCopy (plainOps .none (.g 5) .none))] ++
    [(threeWords 0x000002C1 0x00000040 0x00100000, .rpmodeCompute (typedOps .none (.g 4) .none .i8 .i8 1)),
     (threeWords 0x00000300 0x00500020 0x00000000, .br (plainOps .none (.i16 2) .none)),
     (threeWords 0x00000301 0x06000040 0x00000500, .brz (plainOps .none (.g 4) (.i16 6))),
     (threeWords 0x00000302 0xFE000070 0x000005FF, .brnz (plainOps .none (.g 7) (.i16 0xFFFE))),
     (threeWords 0x00060307 0x00000030 0x00000000, .spawn (plainOps (.g 6) (.g 3) .none)),
     (threeWords 0x0005030F 0x00600160 0x00000000, .mfs (plainOps (.g 5) (.s 0x16) .none)),
     (threeWords 0x001A030C 0x19000150 0x00300000, .waita (typedOps (.g 26) (.g 21) (.g 25) .i8 .i8 3)),
     (threeWords 0x00000308 0x00000000 0x00000000, .done (plainOps .none .none .none))] : List (IWord × Instr)).all (fun p => decide ((decode false p.1).toOption = some p.2))) = true ∧
  (([(threeWords 0x02140310 0x00000016 0x00000000, .mts (plainOps (.s 0x214) (.g 1) .none)),
     (threeWords 0x00000340 0x05000040 0x00000000, .tlbinvVa (plainOps .none (.g 4) (.g 5))),
     (threeWords 0x00000340 0x0D000000 0x00100000, .tlbinvAsid (typedOps .none (.g 0) (.g 13) .i8 .i8 1)),
     (threeWords 0x00030342 0x00000040 0x00000000, .resume (plainOps (.g 3) (.g 4) .none)),
     (threeWords 0x000F0343 0x000000C0 0x00000000, .kill (plainOps (.g 15) (.g 12) .none)),
     (threeWords 0x00000345 0x00000000 0x00000000, .eret (plainOps .none .none .none)),
     (threeWords 0x00030346 0x05000040 0x00000000, .scrub (plainOps (.g 3) (.g 4) (.g 5))),
     (threeWords 0x00030347 0x05000040 0x00000000, .beamrateSet (plainOps (.g 3) (.g 4) (.g 5))),
     (threeWords 0x00030347 0x05000040 0x00100000, .beamrateFloor (typedOps (.g 3) (.g 4) (.g 5) .i8 .i8 1)),
     (threeWords 0x00030348 0x05000040 0x00000000, .beamretire (plainOps (.g 3) (.g 4) (.g 5))),
     (threeWords 0x00060349 0x00000040 0x00500000, .beamstatRrate (typedOps (.g 6) (.g 4) .none .i8 .i8 5))] : List (IWord × Instr)).all (fun p => decide ((decode true p.1).toOption = some p.2))) = true ∧
  (([(threeWords 0x10060405 0x00000005 0x00000000, .rz (plainOps (.i16 0x1006) .none .none)),
     (threeWords 0x00040408 0x00500005 0x00000000, .rloop (plainOps (.i16 4) (.i16 0) .none)),
     (threeWords 0x10000400 0x00530005 0x00000000, .rc (plainOps (.i16 0x1000) (.i16 0x3000) .none)),
     (threeWords 0x22040400 0x00510065 0x00000000, .rc (plainOps (.i16 0x2204) (.i16 0x1006) .none)),
     (threeWords 0x10000401 0x02510015 0x00000510, .rm3 (plainOps (.i16 0x1000) (.i16 0x1001) (.i16 0x1002)))] : List (IWord × Instr)).all (fun p => decide ((decodeRow p.1).toOption = some p.2))) = true ∧
  (decode false (threeWords 0x002480C0 0x28100241 0x000AA900) = .error (.illField, 1) ∧
   decode false (threeWords 0x002420C0 0x28100241 0x080AA900) = .error (.illField, 6) ∧
   decode false (threeWords 0x002420C0 0x29100241 0x000AA900) = .error (.illField, 4) ∧
   decode false (threeWords 0x002420C0 0x28100441 0x000AA900) = .error (.illOverlap, 3) ∧
   decode false (threeWords 0 0 0) = .error (.illOp, 0))

/-- R63 to R82: decoding the word of a well-formed instruction gives that instruction back, with every operand, type,
variant and schedule bit, for every core and row instruction. -/
def Obligations.DecodeEncode : Prop :=
  ∀ i w, i.wf = true → encode i = some w → decodeTableWord 96 w.toNat = some i

/-- R63 to R82, R246: a word has at most one meaning. What a core or a sequencer decodes is a well-formed instruction, and the word
is that instruction's own word: no bit of a decoded word is ignored. A word whose OP no row of the opcode map has is ILL_OP
with field 0 on every core, and so is a row instruction's, and on a system core an instruction that Table 4-5 marks absent
there. -/
def Obligations.DecodeOnlyWords : Prop :=
  ((∀ b w i, decode b w = .ok i → i.wf = true ∧ encode i = some w) ∧
   (∀ w i, decodeRow w = .ok i → i.wf = true ∧ encode i = some w)) ∧
  ((∀ b w, (∀ d ∈ descs, bitsN w.toNat 11 0 ≠ d.op) → decode b w = .error (.illOp, 0)) ∧
   (∀ b w, opGroup (bitsN w.toNat 11 0) = 0x10 → decode b w = .error (.illOp, 0)) ∧
   (∀ d ∈ descs, d.sys = false → ∀ w, bitsN w.toNat 11 0 = d.op → decode true w = .error (.illOp, 0)))

/-! Reset and the canonical forms. -/

/-- R11, R12, R17, R49, R340, R369, R418: out of reset the device is in phase 0 with no cause, its control registers are 0, every core's
registers of every kind read zero and none holds a task (k0 all ones; m registers the zero vector, R47), every beam runs at 32 GT/s under the owner of
Table 1-3 with every module in service, every queue and every list of work is empty, no row counts an activation, and no error stands. Every
byte of memory and every row reads 0: R18 gives that for the SRAM tier, the rest is the model's choice (log 4), as are the registers for which
the spec gives no value (log 2). -/
def Obligations.ResetValues : Prop :=
  let s := State.reset
  (s.phase = 0 ∧ s.bootCause = .none ∧ s.bootstat = 0 ∧ (s.hostlim, s.cxllim, s.spancfg, s.fwaddr, s.fwlen) = (0, 0, 0, 0, 0) ∧
    (s.fwImage, s.power, s.scrapped, s.throttledDies, s.failPosts, s.spares) = (none, false, 0, 0, 0, 0)) ∧
  (∀ n, let h := s.hart n
    h.pc = 0 ∧ (∀ r, h.gr r = 0 ∧ h.vr r = 0 ∧ h.dr r = 0 ∧ h.mr r = normZero) ∧ h.kr 0 = BitVec.allOnes 256 ∧ (∀ r, r ≠ 0 → h.kr r = 0) ∧
    (∀ t r c, h.cell t r c = 0) ∧ (∀ b, h.isLive b = false) ∧
    (h.vl, h.estart, h.fflags, h.fmode, h.livemask, h.pegmask) = (0, 0, 0, 0, 0, 0) ∧ (h.cause, h.faddr, h.finfo, h.epc) = (0, 0, 0, 0) ∧
    (h.tvec, h.tstat, h.tpend, h.tmask, h.tscr0, h.tscr1, h.waddr) = (0, 0, 0, 0, 0, 0, 0) ∧
    (h.mode, h.task, h.held, h.cut, h.response, h.parity) = (.idle, none, none, none, none, none)) ∧
  (∀ b, let m := s.beam b
    (m.rate, m.floor, m.ceil, m.events, m.lost, m.change, m.stepDue, m.results) = (0, 120, 64, 0, false, none, 0, []) ∧
    m.owner = (if b = 2 ∨ b = 5 ∨ b = 8 ∨ b = 9 ∨ b = 12 ∨ b = 13 then 4 else 0) ∧
    ∀ d, d < 2 → let e := m.dir d
      (e.nextSeq, e.expect, e.crc, e.replays, e.rrate, e.lanesRetired, e.removedCount) = (0, 0, 0, 0, 0, 0, 0) ∧
      (e.buffer, e.waiting, e.resend, e.wire, e.passed) = ([], [], [], [], []) ∧ ∀ k, ((e.mod k).retired, (e.mod k).repair, (e.mod k).removed) = ([], [], false)) ∧
  ((s.agenda, s.stores, s.hostWrites, s.l2, s.err, s.walked, s.marked) = ([], [], [], [], [], [], []) ∧
    (s.tasks, s.graphs, s.ready, s.rotation, s.pend, s.recent, s.rung) = ([], [], [], [], [], [], []) ∧
    (s.held, s.buffers, s.regions, s.due) = ([], [], [], []) ∧
    ∀ q, s.bankQueue q = [] ∧ s.copiesAt q = [] ∧ s.progsAt q = [] ∧ Table.get 0 s.accepts q = 0 ∧ Table.get 0 s.waves q = 0) ∧
  (∀ a, s.memByte a = 0) ∧ (∀ p b r, (r ≠ 523 → s.row p b r = 0) ∧ Table.get 0 s.acts (rowKey p b r) = 0)

/-- R4, R166, R266, R310: every step keeps memory in its canonical form, and the tiles of every core (keys rising, nothing listed that
reads as an unlisted key does), so that equal contents are equal data. The form is the model's own (log 4). -/
def Obligations.CanonicalStep : Prop :=
  (∀ s t, s.MemWf → step s = .next t → t.MemWf) ∧
  (∀ s t, (∀ n, (s.hart n).TilesWf) → step s = .next t → ∀ n, (t.hart n).TilesWf)

/-- Memory and every tile have their canonical form at reset (the model's own form, log 4). -/
def Obligations.CanonicalReset : Prop :=
  (State.reset.MemWf) ∧
  (∀ n, (State.reset.hart n).TilesWf)

/-! Registers and the checks that every instruction passes. -/

/-- R48: g0 reads as zero and k0 as all ones; a write to either is discarded and any other register takes its write. An
instruction whose operand names a tile at or above the TILES of its task stops with ACC_RANGE at the first such field and does not retire;
one whose tiles all lie below TILES has no such stop. -/
def Obligations.HardwiredRegisters : Prop :=
  (∀ h : Hart, h.gr 0 = 0 ∧ h.kr 0 = BitVec.allOnes 256) ∧
  (∀ (h : Hart) v w, h.setG 0 v = h ∧ h.setK 0 w = h) ∧
  (∀ (h : Hart) r v q, r ≠ 0 → (h.setG r v).gr q = if q = r then v else h.gr q) ∧
  (∀ (h : Hart) r v q, r ≠ 0 → (h.setK r v).kr q = if q = r then v else h.kr q) ∧
  (∀ (s : State) n u (t : Task), s.taskOf n = some (u, t) → isSys n = false → s.turn = .hart n →
    let high := fun (x : Ops) f => (x.field f).cls = 4 ∧ t.tiles ≤ accTile (x.field f)
    (∀ (i : Instr) (d : Desc) x f, i.parts = some (d, x) → opGroup d.op ≠ 0x0D → opGroup d.op ≠ 0x10 → d.op ≠ 0x30F → d.op ≠ 0x310 →
      (s.hart n).estart = 0 → f ∈ [2, 3, 4] → high x f → (∀ e, 2 ≤ e → e < f → ¬ high x e) →
      exec i s = .next (s.stopHart n ⟨.accRange, 0, 0, 0, f, 0⟩) ∧ ((s.stopHart n ⟨.accRange, 0, 0, 0, f, 0⟩).hart n).pc = (s.hart n).pc) ∧
    (∀ x, (∀ f, f ∈ [2, 3, 4] → ¬ high x f) → s.badTile n x = none))

/-- R67, R77, R392, R396, R401: a whole-guarded core instruction that is inactive has no effect but these: it retires, it releases its marked
sources, and ESTART is 0; its SCHED counts but on DONE and END. What follows a retirement: on a system core the trap of a touch of the watched
word, else that of STEP, the instruction's flags and registers standing; on a task's core the stop for the oldest report of a row program, else
the save of a yield-after or of a victim; with none of these the core goes on. (A report's stop takes the next place among the stops; a core that
has met a parity error goes on to the stop for it: log 28. VHAD and the order of the checks: log 24, 40.) -/
def Obligations.GuardInactive : Prop :=
  (∀ (s : State) n (i : Instr) d x, i.parts = some (d, x) → opGroup d.op ≠ 0x10 → d.op ∉ elementOps →
    (d.op = 0x30F → sregCheck (isSys n) false (sNum x.a) = none) → (d.op = 0x310 → sregCheck (isSys n) true (sNum x.d) = none) →
    (s.hart n).guardOn x = false →
    (s.Starts n d x → Completes i s n ((s.hart n).goesOn { x with d := .none } 0 ((s.hart n).pc + 12))) ∧
    (s.Begins n d x → exec i s = .next (s.retire n { x with d := .none, yield := x.yield && decide (d.op ≠ 0x308 ∧ d.op ≠ 0x309) } 0 ((s.hart n).pc + 12)))) ∧
  (EndsRetired .add (fun h x => h.setG (gNum x.d) (h.src x.a + h.src x.b)) ∧ EndsRetired .mov (fun h x => h.setG (gNum x.d) (h.src x.a)) ∧
   EndsRetired .kand (fun h x => h.setK (kNum x.d) (h.kr (kNum x.a) &&& h.kr (kNum x.b))) ∧
   EndsRetired .knot (fun h x => h.setK (kNum x.d) (~~~h.kr (kNum x.a))) ∧ EndsRetired .mrel (fun h x => h.kill (48 + accTile x.d))) ∧
  (∀ (s : State) n x f pc, let h := s.hart n
    let g := h.goesOn x f pc
    let t := s.retire n x f pc
    (isSys n = true →
      (h.watchHit = none → h.stepArmed = false → s.Turns t n g) ∧
      (∀ kind a, h.watchHit = some (kind, a) → ∃ u, s.Turns u n { g with watchHit := none, stepArmed := false } ∧
        t = u.syncTrap n (BitVec.ofNat 64 Cause.watch.code) (BitVec.ofNat 64 a) (BitVec.ofNat 64 kind) pc) ∧
      (h.watchHit = none → h.stepArmed = true → ∃ u, s.Turns u n { g with stepArmed := false } ∧
        t = u.syncTrap n (BitVec.ofNat 64 Cause.step.code) 0 0 pc)) ∧
    (isSys n = false → h.parity = none →
      (s.hasReport n = false → x.yield = false → h.victim = false → s.Turns t n g) ∧
      (s.hasReport n = false → x.yield = true → s.Turns t n { g with mode := .saving .yield, victim := false }) ∧
      (s.hasReport n = false → x.yield = false → h.victim = true → s.Turns t n { g with mode := .saving .preempt, victim := false }) ∧
      (∀ u k r rs, s.taskOf n = some (u, k) → k.reports = r :: rs → ∃ q, (∀ m, (s.hart m).stopSeq < q) ∧ (∀ e ∈ s.held, e.seq < q) ∧
        t.task u = some { k with reports := rs } ∧ t.mem = s.mem ∧ (∀ m, m ≠ n → t.hart m = s.hart m) ∧
        t.hart n = { g with
          cause := BitVec.ofNat 64 r.cause.code, faddr := (r.faddr.setWidth 52).setWidth 64, finfo := BitVec.ofNat 64 (5 + 256 * r.field)
          epc := pc, mode := .saving .stop, victim := false, stopSeq := q })))

/-- R52, R61, R79, R80, R393: before an instruction does anything: where ESTART is not 0 one that is not long, and a long one of which ESTART
leaves no unit, stops with RESUME_STATE, whatever else stands against it; then one that Table 4-5 denies a system core stops there with ILL_OP,
and one of group 0x0D stops a task with PRIV, ELEM 0; while a peg is set, an instruction that names its register, as an operand or as the index of
a tile, leaves the core BLOCKED on port 8 with the register and its field, and holding the instruction. Nothing else happens. (RESUME_STATE before the
other checks, for a word that does not decode too, and what a stop at unit 0 leaves in ESTART and ELEM: log 24.) -/
def Obligations.InstructionChecks : Prop :=
  let units := fun (d : Desc) (x : Ops) (h : Hart) => if opGroup d.op = 7 then grpSize (if d.op = 0x1C1 then x.a else x.d)
    else if d.op = 0x183 then (h.gr (gNum x.a)).toNat / 2 ^ 52 else if opGroup d.op = 6 then 256 else h.vlen
  let begun := fun (s : State) n (i : Instr) (d : Desc) x => i.parts = some (d, x) ∧ opGroup d.op ≠ 0x10 ∧ s.turn = .hart n ∧
    (d.op = 0x30F → sregCheck (isSys n) false (sNum x.a) = none) ∧ (d.op = 0x310 → sregCheck (isSys n) true (sNum x.d) = none)
  let fits := fun (s : State) n (d : Desc) x => (s.hart n).estart = 0 ∨ (longOn d x = true ∧ (s.hart n).estart.toNat < units d x (s.hart n))
  (∀ (s : State) n i d x, begun s n i d x → ¬ fits s n d x → exec i s = .next (s.stopHart n ⟨.resumeState, 0, 0, 0, 0, 0⟩)) ∧
  (∀ (s : State) n i d x, begun s n i d x → fits s n d x →
     let stops := fun (c : Cause) => exec i s = .next (State.stopHart (s.setHart n { s.hart n with estart := 0 }) n ⟨c, 0, 0, 0, 0, 0⟩) ∨
       ((s.hart n).estart = 0 ∧ exec i s = .next (s.stopHart n ⟨c, 0, 0, 0, 0, 0⟩))
     (isSys n = true → d.sys = false → stops .illOp) ∧ (isSys n = false → opGroup d.op = 0x0D → stops .priv)) ∧
  (∀ (s : State) n i d x f r, begun s n i d x → fits s n d x → (isSys n = true → d.sys = true) → (opGroup d.op = 0x0D → isSys n = true) →
     s.badTile n x = none → (s.hart n).victim = false → (s.hart n).pegField x = some (f, r) →
     exec i s = .next (s.setHart n { s.hart n with mode := .blocked ⟨8, 0, f, BitVec.ofNat 64 r⟩, held := some ⟨i, .again⟩ }) ∧
       gNamed (x.field f) = some r ∧ r ≠ 0 ∧ (s.hart n).pegmask.getLsbD r = true) ∧
  (∀ (h : Hart) (x : Ops) (f : Nat) (r : Fin 32), f ∈ [2, 3, 4] → r ≠ 0 → h.pegmask.getLsbD r.val = true →
     (x.field f = .g r ∨ ∃ t d i m, x.field f = .acc t d i true m ∧ i.val % 32 = r.val) →
     ∃ e q, h.pegField x = some (e, q) ∧ 2 ≤ e ∧ e ≤ f)

/-! Stops, traps and the return from them. -/

/-- R390, R391 step 1: a task that stops keeps every register, sets CAUSE with ELEM, FADDR, FINFO and EPC, holds the unit
boundary in ESTART where the stop falls at one, and begins to write its image back; nothing else changes, but that its stop takes the
next place in the order of the stops (R373). A restarted instruction that stops before any further unit keeps the ESTART that it had, and
RESUME_STATE names no boundary (log 24). -/
def Obligations.TaskStop : Prop :=
  ∀ (s : State) n e, isSys n = false →
    let b := if e.cause = .resumeState then 0 else if e.unit = 0 then (s.hart n).estart else BitVec.ofNat 64 e.unit
    ∃ q, (∀ m, (s.hart m).stopSeq < q) ∧ (∀ k ∈ s.held, k.seq < q) ∧ s.Turns (s.stopHart n e) n { s.hart n with
      cause := BitVec.ofNat 64 (e.cause.code + (if b = 0 then 0 else 64)), faddr := (e.faddr.setWidth 52).setWidth 64,
      finfo := BitVec.ofNat 64 (e.kind + 16 * e.port + 256 * e.field), epc := (s.hart n).pc,
      estart := b, mode := .saving .stop, victim := false, held := none, cut := none, stopSeq := q }

/-- R397: a stop of a system core's own instruction, with TSTAT.IN 0: CAUSE, FADDR, FINFO and EPC take the stop,
TSTAT.SESTART takes the unit boundary, ESTART clears, TSTAT.IN sets, the pc goes to TVEC; every other register and all
memory are as the stop left them. A word that does not decode or that cannot be fetched takes the same path. R398: the trap of a pending asynchronous
cause is taken as in R397, EPC the instruction not yet executed, FINFO 0, and
its TPEND bit cleared; the cause is the pending one of the highest code whose TMASK bit is 1, and none is taken while
TSTAT.IN is 1. ASYNC_TRAP_TAKE takes it, at a wait of its own kind too, or sets the unit boundary at which a long instruction lets it in (log 14). R399: a
synchronous trap taken while TSTAT.IN is 1 writes the record of 64 bytes at 0x8_0000_2FC0_0000 + 64n where post
0 can be reached, halts the core, and makes SELF_CHECK with FADDR bit n pending on system core 0, or on 4 while 0 is halted. (RESUME_STATE of a word that
does not decode where ESTART is not 0, and what a stop at unit 0 leaves in ESTART and ELEM: log 24.) -/
def Obligations.TrapEntry : Prop :=
  ((∀ (s : State) n e, isSys n = true → (s.hart n).tstat.getLsbD 0 = false →
     let b := if e.cause = .resumeState then 0 else if e.unit = 0 then (s.hart n).estart else BitVec.ofNat 64 e.unit
     ∃ h, s.Turns (s.stopHart n e) n h ∧
       h = { s.hart n with
         cause := BitVec.ofNat 64 (e.cause.code + (if b = 0 then 0 else 64)), faddr := (e.faddr.setWidth 52).setWidth 64,
         finfo := BitVec.ofNat 64 (e.kind + 16 * e.port + 256 * e.field), epc := (s.hart n).pc, tstat := h.tstat,
         estart := 0, pc := (s.hart n).tvec, mode := .running, held := none, cut := none, stepArmed := false, watchHit := none,
         watchKept := if b = 0 then none else (s.hart n).watchHit } ∧
       h.tstat.getLsbD 0 = true ∧ h.tstat.extractLsb' 32 32 = b.extractLsb' 0 32 ∧
       h.tstat.extractLsb' 1 31 = (s.hart n).tstat.extractLsb' 1 31) ∧
   (∀ (s s' : State) n, s.overfull = none → s.agenda = [] → s.turn = .hart n → n < 264 → isSys n = true → (s.hart n).mode = .running →
     s.taskOf n = none → (s.hart n).parity = none → (s.hart n).asyncReady = none → (s.hart n).held = none →
     (∀ w c f, s.fetchBytes n = (s', .ok w) → decode true w = .error (c, f) →
       step s = .next (s'.stopHart n (if (s.hart n).estart = 0 then ⟨c, 0, 0, 0, f, 0⟩ else ⟨.resumeState, 0, 0, 0, 0, 0⟩))) ∧
     (∀ c a, s.fetchBytes n = (s', .error (c, a)) → step s = .next (s'.stopHart n ⟨c, BitVec.ofNat 64 a, 2, 0, 0, 0⟩)))) ∧
  ((∀ (s : State) n c, (s.hart n).asyncReady = some c → ∃ h, s.Turns (s.takeAsync n) n h ∧ h.pc = (s.hart n).tvec ∧
     h.epc = (s.hart n).pc ∧ h.finfo = 0 ∧ h.cause = BitVec.ofNat 64 (c + if (s.hart n).estart = 0 then 0 else 64) ∧
     h.faddr = Table.get 0 (s.hart n).pendAddr c ∧ h.tpend.getLsbD c = false ∧
     (∀ b, b ≠ c → h.tpend.getLsbD b = (s.hart n).tpend.getLsbD b) ∧ h.estart = 0 ∧ h.tstat.getLsbD 0 = true ∧
     h.tstat.extractLsb' 32 32 = (s.hart n).estart.setWidth 32 ∧ (h.g, h.v, h.k) = ((s.hart n).g, (s.hart n).v, (s.hart n).k) ∧
     (h.fflags, h.fmode, h.vl, h.pegmask, h.mode, h.held) = ((s.hart n).fflags, (s.hart n).fmode, (s.hart n).vl, (s.hart n).pegmask, .running, none)) ∧
   (∀ (s : State) core, core < 8 → (s.hart (256 + core)).parity = none → let h := s.hart (256 + core)
     ((h.mode = .running ∨ (h.mode = .idle ∧ s.phase = 8) ∨ ∃ p, h.mode = .blocked p ∧ p.port ≠ 0) → h.asyncReady ≠ none →
       exec (.asyncTrapTake core 0) s = .next (s.takeAsync (256 + core))) ∧
     (∀ unit, h.mode = .running → h.asyncReady ≠ none → unit ≠ 0 →
       Completes (.asyncTrapTake core unit) s (256 + core) { h with cut := some ⟨unit, none⟩ }) ∧
     (∀ unit, h.asyncReady = none → exec (.asyncTrapTake core unit) s = .next s)) ∧
   (∀ (h : Hart) c, h.asyncReady = some c → h.tstat.getLsbD 0 = false ∧ h.tpend.getLsbD c = true ∧ h.tmask.getLsbD c = true ∧
     ∀ b ∈ [63, 62, 61, 60, 52, 47, 46], c < b → (h.tpend.getLsbD b && h.tmask.getLsbD b) = false)) ∧
  (∀ (s : State) n c a f e, 256 ≤ n → n < 264 → (s.hart n).tstat.getLsbD 0 = true →
     let t := s.syncTrap n c a f e
     let rec_ := 0x8_0000_2FC0_0000 + 64 * (n - 256)
     (s.unreachable (postId n) rec_ = none →
       (t.memNat rec_ 8, t.memNat (rec_ + 8) 8, t.memNat (rec_ + 16) 8, t.memNat (rec_ + 24) 8) = (c.toNat, a.toNat, f.toNat, e.toNat) ∧
       (t.memNat (rec_ + 32) 8, t.memNat (rec_ + 40) 8, t.memNat (rec_ + 48) 8, t.memNat (rec_ + 56) 8) =
         ((s.hart n).cause.toNat, (s.hart n).epc.toNat, (s.hart n).tstat.toNat, 0) ∧
       (∀ b, (b < rec_ ∨ rec_ + 64 ≤ b) → t.memByte b = s.memByte b)) ∧
     (s.unreachable (postId n) rec_ ≠ none → t.mem = s.mem) ∧ (t.hart n).mode = .halted ∧
     (let chief := if n = 256 ∨ (s.hart 256).mode = .halted then 260 else 256
      (t.hart chief).tpend.getLsbD Cause.selfCheck.code = true ∧ (t.hart chief).mode = (if chief = n then .halted else (s.hart chief).mode) ∧
      ((s.hart chief).tpend.getLsbD Cause.selfCheck.code = false →
        Table.get 0 (t.hart chief).pendAddr Cause.selfCheck.code = BitVec.ofNat 64 (2 ^ (n - 256)))))

/-- R400: ERET in a handler puts TSTAT.SESTART into ESTART, clears SESTART and IN, and goes to EPC; outside a handler it
stops with RESUME_STATE; with an EPC that is no multiple of 4 it is a double trap with ALIGN. -/
def Obligations.EretReturns : Prop :=
  ∀ (s : State) n x, s.Ready n .eret x →
    ((s.hart n).tstat.getLsbD 0 = true → (s.hart n).epc.toNat % 4 = 0 →
      ∃ h, Completes (.eret x) s n h ∧ h.pc = (s.hart n).epc ∧ h.estart = (s.hart n).tstat >>> 32 ∧
        h.tstat.getLsbD 0 = false ∧ h.tstat.extractLsb' 32 32 = 0 ∧
        h.tstat.getLsbD 1 = false ∧ h = { s.hart n with
          pc := h.pc, estart := h.estart, tstat := h.tstat, stepArmed := (s.hart n).tstat.getLsbD 1,
          mode := .running, held := none, cut := none, watchHit := if (s.hart n).tstat >>> 32 = 0 then none else (s.hart n).watchKept, watchKept := none }) ∧
    ((s.hart n).tstat.getLsbD 0 = false → Stops (.eret x) s n ⟨.resumeState, 0, 0, 0, 0, 0⟩) ∧
    ((s.hart n).tstat.getLsbD 0 = true → (s.hart n).epc.toNat % 4 ≠ 0 →
      ∃ u, s.Turns u n (s.hart n) ∧ exec (.eret x) s = .next (u.doubleTrap n (BitVec.ofNat 64 Cause.align.code) (s.hart n).epc 0 (s.hart n).pc))

/-- R337, R338: TRAPS stops a task with SERVICE, FADDR its immediate, EPC the TRAPS and the pc the next instruction; BRK
stops a task, and traps on a system core, with BREAK, FADDR its immediate, EPC and pc the BRK, FINFO 0. -/
def Obligations.ServiceCalls : Prop :=
  (∀ (s : State) n x v, s.Ready n .traps x → isSys n = false → x.a = .i16 v →
    ∃ q, (∀ m, (s.hart m).stopSeq < q) ∧ (∀ k ∈ s.held, k.seq < q) ∧ Completes (.traps x) s n { s.hart n with
      cause := 41, faddr := v.setWidth 64, finfo := 0, epc := (s.hart n).pc, pc := (s.hart n).pc + 12, estart := 0,
      mode := .saving .stop, victim := false, held := none, cut := none, stopSeq := q }) ∧
  (∀ (s : State) n x v, s.Ready n .brk x → x.a = .i16 v →
    Stops (.brk x) s n ⟨.break_, v.setWidth 64, 0, 0, 0, 0⟩)

/-- R50, R51, R335, R336, R394, Tables 3-2 and 19-1: MFS writes the named register to gd; CYCLES never falls. MTS writes the
named register where no reserved bit is set, and otherwise stops and changes nothing (no field is named: log 33); of LIVEMASK it has the effect
of LIVE.SET, of ESTART, on a system core, it leaves the value for the next instruction. A number
that a task may not name stops with PRIV, one not assigned and a write of a read-only register with ILL_FIELD, at the
field of the number. -/
def Obligations.SregTransfers : Prop :=
  (∀ (s : State) n x num v, let h := s.hart n
    s.Ready n .mfs x → x.a = .s num →
    ((num.toNat, v) ∈ [(0x000, h.vl), (0x002, h.estart), (0x003, h.fflags), (0x004, h.fmode), (0x005, h.livemask), (0x006, h.pegmask),
       (0x001, BitVec.ofNat 64 (2048 * 2 ^ (h.vl.extractLsb' 20 2).toNat / (Ty.ofCode (h.vl.extractLsb' 16 4).toNat).width)),
       (0x013, BitVec.ofNat 64 (postId n)), (0x014, BitVec.ofNat 64 (if isSys n then n - 256 else n % 32)), (0x016, s.caps),
       (0x020, h.cause), (0x021, h.faddr), (0x022, h.finfo), (0x023, h.epc)] → Retires (.mfs x) x s n (h.setG (gNum x.d) v) 0) ∧
    (∀ u t gid g, s.taskOf n = some (u, t) → s.graphOf n = some (gid, g) →
      (num.toNat, v) ∈ [(0x010, BitVec.ofNat 64 t.id), (0x011, BitVec.ofNat 64 gid), (0x012, BitVec.ofNat 64 g.queue), (0x015, BitVec.ofNat 64 g.asid)] →
      Retires (.mfs x) x s n (h.setG (gNum x.d) v) 0) ∧
    (isSys n = true → (num.toNat, v) ∈ [(0x200, 0x8_0000_2F00_0000), (0x201, 0x8_0000_2FF0_0000), (0x202, 0x2FA0_0000), (0x210, h.tvec), (0x211, h.tstat),
       (0x212, h.tpend), (0x213, h.tmask), (0x214, h.tscr0), (0x215, h.tscr1), (0x216, h.waddr)] → Retires (.mfs x) x s n (h.setG (gNum x.d) v) 0) ∧
    (num = 0x017 → ∃ t v, exec (.mfs x) s = .next t ∧ s.Frame t x n (destG x.d) [] [] ∧ (∀ m, m ≠ n → t.hart m = s.hart m) ∧
      (gNum x.d ≠ 0 → (t.hart n).gr (gNum x.d) = v) ∧ Table.get 0 s.cycles (postId n) ≤ v ∧ Table.get 0 t.cycles (postId n) = v)) ∧
  (∀ (s : State) n x num, let h := s.hart n
    let v := h.gr (gNum x.a)
    let y := v.toNat
    let writes := fun (k : BitVec 10) (sys : Bool) (good : Prop) (put : Hart) => (num = k → (sys = true → isSys n = true) →
      (good → Retires (.mts x) x s n put 0) ∧ (¬ good → Stops (.mts x) s n ⟨.illField, 0, 0, 0, 0, 0⟩))
    s.Ready n .mts x → x.d = .s num →
    (num = 0x005 → (y < 2 ^ 52 → ∃ g, Retires (.mts x) x s n g 0 ∧ h.LiveTo g (s.tilesOf n) v) ∧ (2 ^ 52 ≤ y → Stops (.mts x) s n ⟨.illField, 0, 0, 0, 3, 0⟩)) ∧
    (num = 0x002 → isSys n = true → (y < 2 ^ 32 → Completes (.mts x) s n { h.goesOn x 0 (h.pc + 12) with estart := v }) ∧
      (2 ^ 32 ≤ y → Stops (.mts x) s n ⟨.illField, 0, 0, 0, 0, 0⟩)) ∧
    writes 0x003 false (y < 2 ^ 8) { h with fflags := v } ∧ writes 0x004 false (y < 2 ^ 13 ∧ y % 8 < 6) { h with fmode := v } ∧
    writes 0x020 true True { h with cause := v &&& 0x7F } ∧ writes 0x021 true True { h with faddr := (v.setWidth 52).setWidth 64 } ∧
    writes 0x022 true True { h with finfo := v &&& 0xFFFF } ∧ writes 0x023 true True { h with epc := v } ∧
    writes 0x210 true (y % 4 = 0 ∧ y < 2 ^ 52) { h with tvec := v } ∧ writes 0x211 true (y % 2 ^ 32 < 4) { h with tstat := v } ∧
    writes 0x213 true True { h with tmask := v &&& 0xF010C00000000000 } ∧ writes 0x214 true True { h with tscr0 := v } ∧
    writes 0x215 true True { h with tscr1 := v } ∧ writes 0x216 true (y.testBit 2 = false ∧ y < 2 ^ 52) { h with waddr := v } ∧
    (num = 0x000 → let max := 2048 * 2 ^ (v.extractLsb' 20 2).toNat / (Ty.ofCode (v.extractLsb' 16 4).toNat).width
      let good := y < 2 ^ 22 ∧ v.extractLsb' 14 2 = 0
      (good → y % 2 ^ 14 ≤ max → Retires (.mts x) x s n { h with vl := v } 0) ∧
      (good → max < y % 2 ^ 14 → Stops (.mts x) s n ⟨.vlRange, 0, 0, 0, 0, 0⟩) ∧ (¬ good → Stops (.mts x) s n ⟨.illField, 0, 0, 0, 0, 0⟩))) ∧
  (∀ (s : State) n x, s.turn = .hart n → (s.hart n).estart = 0 →
    let ro := [0x001, 0x006, 0x010, 0x011, 0x012, 0x013, 0x014, 0x015, 0x016, 0x017, 0x200, 0x201, 0x202, 0x212]
    let rs := [0x002, 0x020, 0x021, 0x022, 0x023]
    let rw := [0x000, 0x003, 0x004, 0x005, 0x210, 0x211, 0x213, 0x214, 0x215, 0x216]
    (∀ num : BitVec 10, x.a = .s num →
      (isSys n = false → 0x200 ≤ num.toNat → exec (.mfs x) s = .next (s.stopHart n ⟨.priv, 0, 0, 0, 3, 0⟩)) ∧
      ((isSys n = true ∨ num.toNat < 0x200) → num.toNat ∉ ro → num.toNat ∉ rs → num.toNat ∉ rw →
        exec (.mfs x) s = .next (s.stopHart n ⟨.illField, 0, 0, 0, 3, 0⟩))) ∧
    (∀ num : BitVec 10, x.d = .s num →
      (isSys n = false → (0x200 ≤ num.toNat ∨ num.toNat ∈ rs) → exec (.mts x) s = .next (s.stopHart n ⟨.priv, 0, 0, 0, 2, 0⟩)) ∧
      ((isSys n = true ∨ num.toNat < 0x200) → num.toNat ∉ rw → num.toNat ∉ rs →
        exec (.mts x) s = .next (s.stopHart n ⟨.illField, 0, 0, 0, 2, 0⟩))))

/-! Scalar instructions. -/

/-- R128 to R132, Tables 7-1 to 7-3: each scalar integer instruction writes its word to gd, which g0 discards, and changes nothing
else. SEL and LIH read gd before they write it; LEA `.pc` adds its own address. DIV and REM truncate toward zero; for a zero
divisor the quotient is all ones and the remainder the dividend, unless FMODE.DIVEN is 1: then the instruction stops with
INT_DIVZERO and writes nothing. -/
def Obligations.ScalarInteger : Prop :=
  (WritesInt .add (fun a b => a + b) ∧ WritesInt .sub (fun a b => a - b) ∧ WritesInt .mul (fun a b => a * b) ∧
   WritesInt .mulh (fun a b => ((a.signExtend 128 * b.signExtend 128) >>> 64).setWidth 64) ∧
   WritesInt .mulhu (fun a b => ((a.setWidth 128 * b.setWidth 128) >>> 64).setWidth 64) ∧
   WritesInt .and (fun a b => a &&& b) ∧ WritesInt .or (fun a b => a ||| b) ∧ WritesInt .xor (fun a b => a ^^^ b) ∧
   WritesInt .andn (fun a b => a &&& ~~~b) ∧
   WritesInt .shl (fun a b => a <<< (b.toNat % 64)) ∧ WritesInt .shr (fun a b => a >>> (b.toNat % 64)) ∧
   WritesInt .sra (fun a b => a.sshiftRight (b.toNat % 64)) ∧ WritesInt .rol (fun a b => a.rotateLeft (b.toNat % 64)) ∧
   WritesInt .min (fun a b => if a.sle b then a else b) ∧ WritesInt .max (fun a b => if b.sle a then a else b) ∧
   WritesInt .minu (fun a b => if a.ule b then a else b) ∧ WritesInt .maxu (fun a b => if b.ule a then a else b) ∧
   WritesInt .slt (fun a b => if a.slt b then 1 else 0) ∧ WritesInt .sltu (fun a b => if a.ult b then 1 else 0) ∧
   WritesInt .seq (fun a b => if a = b then 1 else 0)) ∧
  (WritesInt .mov (fun a _ => a) ∧ WritesInt .lea (fun a b => a + b) ∧
   WritesHart .li (fun h x => h.setG (gNum x.d) (if x.a.cls = 7 then (BitVec.ofNat 32 (imm32 x)).signExtend 64 else h.src x.a)) ∧
   WritesHart .lih (fun h x => h.setG (gNum x.d) (BitVec.ofNat 32 (imm32 x) ++ (h.gr (gNum x.d)).setWidth 32)) ∧
   WritesHart .leaPc (fun h x => h.setG (gNum x.d) (h.pc + (BitVec.ofNat 32 (imm32 x)).signExtend 64)) ∧
   WritesHart .sext (fun h x => h.setG (gNum x.d) (((h.src x.a).setWidth x.ts.width).signExtend 64)) ∧
   WritesHart .zext (fun h x => h.setG (gNum x.d) (((h.src x.a).setWidth x.ts.width).setWidth 64)) ∧
   WritesHart .sel (fun h x => h.setG (gNum x.d) (if h.gr (gNum x.d) ≠ 0 then h.src x.a else h.src x.b)) ∧
   WritesHart .clz (fun h x => h.setG (gNum x.d) (h.src x.a).clz) ∧
   WritesHart .ctz (fun h x => h.setG (gNum x.d) (h.src x.a).ctz) ∧
   WritesHart .popc (fun h x => h.setG (gNum x.d) (BitVec.ofNat 64 ((List.range 64).countP (fun i => (h.src x.a).getLsbD i))))) ∧
  (∀ s n x, let h := s.hart n
     let a := h.src x.a
     let b := h.src x.b
     (b ≠ 0 → 
       (s.Ready n .div x → Retires (.div x) x s n (h.setG (gNum x.d) (a.sdiv b)) 0) ∧
       (s.Ready n .divu x → Retires (.divu x) x s n (h.setG (gNum x.d) (a.udiv b)) 0) ∧
       (s.Ready n .rem x → Retires (.rem x) x s n (h.setG (gNum x.d) (a.srem b)) 0) ∧
       (s.Ready n .remu x → Retires (.remu x) x s n (h.setG (gNum x.d) (a.umod b)) 0)) ∧
     (b = 0 → h.fmode.getLsbD 12 = false →
       (s.Ready n .div x → Retires (.div x) x s n (h.setG (gNum x.d) (BitVec.allOnes 64)) 0) ∧
       (s.Ready n .divu x → Retires (.divu x) x s n (h.setG (gNum x.d) (BitVec.allOnes 64)) 0) ∧
       (s.Ready n .rem x → Retires (.rem x) x s n (h.setG (gNum x.d) a) 0) ∧
       (s.Ready n .remu x → Retires (.remu x) x s n (h.setG (gNum x.d) a) 0)) ∧
     (b = 0 → h.fmode.getLsbD 12 = true →
       (s.Ready n .div x → Stops (.div x) s n ⟨.intDivzero, 0, 0, 0, 0, 0⟩) ∧
       (s.Ready n .divu x → Stops (.divu x) s n ⟨.intDivzero, 0, 0, 0, 0, 0⟩) ∧
       (s.Ready n .rem x → Stops (.rem x) s n ⟨.intDivzero, 0, 0, 0, 0, 0⟩) ∧
       (s.Ready n .remu x → Stops (.remu x) s n ⟨.intDivzero, 0, 0, 0, 0, 0⟩)))

/-- R134 to R139: a scalar floating-point instruction forms the exact value of its operands, rounds it once in its mode and
writes the encoding to gd with the flags ORed into FFLAGS; with one of its flags enabled it stops with FP_ENABLED instead.
FCLASS raises nothing. -/
def Obligations.ScalarFloat : Prop :=
  let val := fun (h : Hart) (x : Ops) (o : Operand) => x.td.value ((h.src o).toNat % 2 ^ x.td.width)
  let arith := fun (reads : Ops → List Operand) (f : Hart → Ops → RM → XReal × Flags) (h : Hart) (x : Ops) =>
    let v := f h x (h.modeN x)
    let e := v.1.round x.td (h.modeN x) (satBit x || h.sat8) 0
    (e.1, (reads x).foldl (fun g o => g ||| x.td.readFlags ((h.src o).toNat % 2 ^ x.td.width)) 0 ||| v.2 ||| e.2)
  WritesFp .fadd (arith (fun x => [x.a, x.b]) (fun h x rm => (val h x x.a).add (val h x x.b) rm)) ∧
  WritesFp .fsub (arith (fun x => [x.a, x.b]) (fun h x rm => (val h x x.a).add (val h x x.b).neg rm)) ∧
  WritesFp .fmul (arith (fun x => [x.a, x.b]) (fun h x _ => (val h x x.a).mul (val h x x.b))) ∧
  WritesFp .fma (arith (fun x => [x.a, x.b, x.d]) (fun h x rm => fusedAdd (val h x x.a) (val h x x.b) (val h x x.d) rm)) ∧
  WritesFp .fdiv (arith (fun x => [x.a, x.b]) (fun h x _ => (val h x x.a).div (val h x x.b))) ∧
  WritesFp .fsqrt (arith (fun x => [x.a]) (fun h x _ => (val h x x.a).sqrt)) ∧
  WritesFp .fmin (fun h x => minMax x.td false ((h.src x.a).toNat % 2 ^ x.td.width) ((h.src x.b).toNat % 2 ^ x.td.width)) ∧
  WritesFp .fmax (fun h x => minMax x.td true ((h.src x.a).toNat % 2 ^ x.td.width) ((h.src x.b).toNat % 2 ^ x.td.width)) ∧
  WritesFp .fcmp (fun h x =>
    let c := fpCompare x.ts x.var.val ((h.src x.a).toNat % 2 ^ x.ts.width) ((h.src x.b).toNat % 2 ^ x.ts.width)
    (c.1.toNat, c.2)) ∧
  WritesFp .fcvt (fun h x =>
    let c := convert x.td x.ts ((h.src x.a).toNat % 2 ^ x.ts.width) (h.modeC x) (satBit x) h.sat8 (drawAt 0 (h.src x.b).toNat)
    (if x.td.isSigned then encN (sextN c.1 x.td.width) 64 else c.1, c.2)) ∧
  WritesHart .fclass (fun h x => h.setG (gNum x.d) (BitVec.ofNat 64 (2 ^ fpClass x.ts ((h.src x.a).toNat % 2 ^ x.ts.width))))

/-! Vector and predicate instructions. -/

/-- R54, R139, R143 to R147, R150, R151, R153 to R156, R161 to R163, Table 8-1: each element-wise instruction, dot product, conversion, block
scaling and lookup writes, for every active element below VL, its function of the source elements, leaves every other element of D as it was,
makes D live and ORs its flags in. Begun at an element of ESTART it writes those from there on; a stop chosen for a boundary of its element groups
falls there; where a group raises an enabled flag it stops with FP_ENABLED at the start of that group, FADDR that group's flags, the groups
below written. (The capacity of VLUT's table and of the scales is not checked: log 57. Where a conversion's D is its A group and the widths
differ, the order of the elements shows; the spec leaves it open, log 23, and that form is in VectorCompletes. What chooses a stop: log 14.) -/
def Obligations.VectorElementwise : Prop :=
  (let fp := fun (g : XReal → XReal → RM → XReal × Flags) (k : Int → Int → Int) (h : Hart) (x : Ops) (a b _c : Nat) =>
     arith x.td (h.modeN x) (satBit x) h.sat8 g k a b
   let fn := fun (g : XReal → XReal × Flags) (_ : Hart) (x : Ops) (a _b _c : Nat) =>
     let v := g (x.td.value a)
     let e := v.1.round x.td .rne false 0
     (e.1, orFlags [x.td.readFlags a, v.2, e.2])
   let bits := fun (g : Nat → Nat → Nat → Nat) (_ : Hart) (x : Ops) (a b _c : Nat) => (g x.td.width a b, (0 : Flags))
   Elementwise .vadd [3, 4] (fp XReal.add (fun a b => a + b)) ∧
   Elementwise .vsub [3, 4] (fp (fun a b rm => a.add b.neg rm) (fun a b => a - b)) ∧
   Elementwise .vmul [3, 4] (fp (fun a b _ => a.mul b) (fun a b => a * b)) ∧
   Elementwise .vdiv [3, 4] (fp (fun a b _ => a.div b) (fun a _ => a)) ∧
   Elementwise .vmulh [3, 4] (fun _ x a b _ => (encN (x.td.int a * x.td.int b / (2 ^ x.td.width : Nat)) x.td.width, 0)) ∧
   Elementwise .vfma [2, 3, 4] (fun h x a b c =>
     let v := fusedAdd (x.td.value a) (x.td.value b) (x.td.value c) (h.modeN x)
     let e := v.1.round x.td (h.modeN x) (satBit x || h.sat8) 0
     (e.1, orFlags [x.td.readFlags a, x.td.readFlags b, x.td.readFlags c, v.2, e.2])) ∧
   Elementwise .vsqrt [3, 4] (fun h x a _ _ =>
     let v := (x.td.value a).sqrt
     let e := v.1.round x.td (h.modeN x) (satBit x || h.sat8) 0
     (e.1, orFlags [x.td.readFlags a, v.2, e.2])) ∧
   Elementwise .vmin [3, 4] (fun _ x a b _ => pick x.td false a b) ∧
   Elementwise .vmax [3, 4] (fun _ x a b _ => pick x.td true a b) ∧
   Elementwise .vabs [3, 4] (fun _ x a _ _ =>
     if x.td.isFp then (a % 2 ^ (x.td.width - 1), 0) else fitInt x.td (x.td.int a).natAbs (satBit x)) ∧
   Elementwise .vand [3, 4] (bits (fun _ a b => a &&& b)) ∧ Elementwise .vor [3, 4] (bits (fun _ a b => a ||| b)) ∧
   Elementwise .vxor [3, 4] (bits (fun _ a b => a ^^^ b)) ∧
   Elementwise .vandn [3, 4] (bits (fun w a b => a &&& (2 ^ w - 1 - b))) ∧
   Elementwise .vshl [3, 4] (bits (fun w a b => a <<< (b % w))) ∧
   Elementwise .vshr [3, 4] (bits (fun w a b => a >>> (b % w))) ∧
   Elementwise .vsra [3, 4] (bits (fun w a b => ((BitVec.ofNat w a).sshiftRight (b % w)).toNat)) ∧
   Elementwise .vmov [3] (bits (fun _ a _ => a)) ∧
   Elementwise .vexp2 [3, 4] (fn XReal.exp2) ∧ Elementwise .vlog2 [3, 4] (fn XReal.log2) ∧
   Elementwise .vrcp [3, 4] (fn XReal.rcp) ∧ Elementwise .vrsq [3, 4] (fn XReal.rsq) ∧
   GroupWise .vsel (fun h x => h.vecCheck x [(2, x.td.width), (3, x.td.width), (4, x.td.width)] [3, 4] = none) false (fun x => x.td.width) (fun x => x.td.width)
     (fun h x k => (if h.pred x k x.td.width then h.vsrc x x.a k x.td.width else h.vsrc x x.b k x.td.width, 0)) ∧
   GroupWise .vrng (fun h x => h.vecCheck x [(2, 32)] [] = none) true (fun _ => 32) (fun _ => 32)
     (fun h x k => (philox (((h.src x.a).toNat + k) % 2 ^ 64) (h.src x.b).toNat, 0)) ∧
   GroupWise .vdot (fun h x => h.vecCheck x [(2, 32), (3, 32), (4, 32)] [2, 3, 4] = none) true (fun _ => 32) (fun _ => 32) (fun h x k =>
     let w := x.ts.width
     let part := fun (o : Operand) q => h.vsrc x o k 32 / 2 ^ (w * q) % 2 ^ w
     let c := h.elem (firstReg x.d) k 32
     let lanes := List.range (32 / w)
     if x.td.isFp then
       let mul := fun q => (x.ts.value (part x.a q)).mul (x.ts.value (part x.b q))
       let sum := sumAll (h.modeN x) (x.td.value c :: lanes.map (fun q => (mul q).1))
       let e := sum.1.round x.td (h.modeN x) (satBit x || h.sat8) 0
       (e.1, orFlags (x.td.readFlags c :: sum.2 :: e.2 :: lanes.flatMap (fun q =>
         [x.ts.readFlags (part x.a q), x.ts.readFlags (part x.b q), (mul q).2])))
     else fitInt x.td (x.td.int c + (lanes.map (fun q => x.ts.int (part x.a q) * x.ts.int (part x.b q))).sum) (satBit x))) ∧
  (let mixed := fun (d : Desc) (dead : List Nat) (f : Hart → Ops → Nat → Nat → Nat × Flags) => GroupWise d
     (fun h x => x.d.identical x.a = false ∧ x.d.identical x.b = false ∧ h.vecCheck x [(2, x.td.width), (3, x.ts.width)] dead = none) true
     (fun x => x.td.width) (fun x => x.ts.width) (fun h x k => f h x k (h.vsrc x x.a k x.ts.width))
   mixed .vcvt [3] (fun h x k a => convert x.td x.ts a (h.modeC x) (satBit x) h.sat8 (drawAt k (h.src x.b).toNat)) ∧
   mixed .vbscl [3, 4] (fun h x k a =>
     let sc := h.elem (firstReg x.b) (k / 32) 8
     (if sc = 0xFF then XReal.nan else (x.ts.value a).scale ((sc : Int) - 127)).round x.td (h.modeN x) (satBit x || h.sat8) 0) ∧
   mixed .vbqntQuant [3, 4] (fun h x k a =>
     let sc := h.elem (firstReg x.b) (k / 32) 8
     if sc = 0xFF then (if x.td = .i8 then (0, fNV) else (x.td.nan, 0))
     else
       let q := quantise x.td ((x.ts.value a).scale (127 - (sc : Int)))
       (q.1, x.ts.readFlags a ||| q.2)) ∧
   mixed .vlut [3, 4] (fun h x _ a => (h.elem (firstReg x.b) (a % 16) x.td.width, 0)))

/-- R54, R139, R152, Table 7-5: a vector compare writes the predicate bits of every active element below VL with the truth of its
comparison, for each byte lane of the element, and leaves every other bit; k0 discards the write; with one of its flags enabled it stops with
FP_ENABLED instead. R159, Table 8-3: each permute writes, for every active element below VL, the source element that its index names, or 0
where the index is not below VL; the sources are read as they were before. -/
def Obligations.VectorCompareAndPermute : Prop :=
  (let cmp := fun (d : Desc) (kind : Nat) (int : Int → Int → Bool) => ∀ s n x, let h := s.hart n
     let w := x.ts.width
     let raised := orFlags ((h.activeBelow x w h.vlen).map (fun k =>
       if x.ts.isFp then (fpCompare x.ts kind (h.vsrc x x.a k w) (h.vsrc x x.b k w)).2 else 0))
     s.Starts n d x → d.okOps x = true → h.vecCheck x [(2, w), (3, w), (4, w)] [3, 4] = none → FpEnds (d.ctor x) s n raised
     (∃ t, exec (d.ctor x) s = .next t ∧ s.OnlyHart t n ∧ s.Frame t x n [] (destK x.d) [] ∧ (t.hart n).fflags = h.fflags ||| raised.setWidth 64 ∧
       ∀ b, b < 256 → kNum x.d ≠ 0 → ((t.hart n).kr (kNum x.d)).getLsbD b =
         let k := b * 8 / w
         if k < h.vlen && h.pred x k w then
           (if x.ts.isFp then (fpCompare x.ts kind (h.vsrc x x.a k w) (h.vsrc x x.b k w)).1
            else int (x.ts.int (h.vsrc x x.a k w)) (x.ts.int (h.vsrc x x.b k w)))
         else (h.kr (kNum x.d)).getLsbD b)
   cmp .vcmpeq 0 (fun a b => a = b) ∧ cmp .vcmpne 4 (fun a b => a ≠ b) ∧ cmp .vcmplt 1 (fun a b => a < b) ∧ cmp .vcmple 2 (fun a b => a ≤ b)) ∧
  (let perm := fun (d : Desc) (caps : Nat → List (Nat × Nat)) (dead : List Nat) (src : Hart → Ops → Nat → Option Nat) =>
     ∀ s n x, let h := s.hart n
     let w := x.td.width
     s.Starts n d x → d.okOps x = true → h.vecCheck x (caps w) dead = none →
     WritesElems (d.ctor x) x s n w (fun k => h.pred x k w) (fun k =>
       match src h x k with | some j => if j < h.vlen then h.vsrc x x.a j w else 0 | none => 0)
   perm .vperm (fun w => [(2, w), (3, w), (4, w)]) [3, 4] (fun h x k => some (h.vsrc x x.b k x.td.width)) ∧
   perm .vslideUp (fun w => [(2, w), (3, w)]) [3] (fun h x k => if (h.src x.b).toNat ≤ k then some (k - (h.src x.b).toNat) else none) ∧
   perm .vslideDown (fun w => [(2, w), (3, w)]) [3] (fun h x k => some (k + (h.src x.b).toNat)) ∧
   perm .vbcast (fun w => [(2, w), (3, w)]) [3] (fun h x _ => some (h.src x.b).toNat) ∧
   (∀ s n x, let h := s.hart n
     let w := x.td.width
     s.Ready n .vext x → h.vecCheck x [(3, w)] [3] = none →
     Retires (.vext x) x s n (h.setG (gNum x.d)
       (scalarOf x.td (if (h.src x.b).toNat < h.vlen then h.vsrc x x.a (h.src x.b).toNat w else 0))) 0))

/-- R54, R139, R153 to R160: the other vector instructions complete where VL fits, the sources are live or DEADEN is 0 and no flag is
enabled, and change nothing but their destination: VDOT, in-place conversions, VBQNT `.scale`, the reductions, the scans, VCOMPRESS, VIOTA and
VHAD; a reduction, a scan, VHAD and VBQNT `.scale` of which a flag is enabled stop with FP_ENABLED and write nothing. VREDSUM writes the integer sum of the active elements fitted to Td, or the floating-point sum in the pairwise tree of R124; VREDMIN and VREDMAX the pick
of that tree, or the extreme where no element is active; VSCAN each running sum and VSCANMAX each running maximum; VCOMPRESS the active
elements in front; VIOTA the number of active elements below each; VHAD its stages in ascending order; VBQNT `.scale` the scale of each block. (The
capacity checks: log 57; the canonical NaN of VREDMIN, VREDMAX and VSCANMAX: log 39; VHAD makes D live at VL 0: log 40.) -/
def Obligations.VectorCompletes : Prop :=
  let ok := fun (caps : Ops → List (Nat × Nat)) (dead : List Nat) (h : Hart) (x : Ops) => h.vecCheck x (caps x) dead = none ∧ h.NoTraps
  let none_ := fun (_ : Ops) => ([] : List Nat)
  let dv := fun (x : Ops) => liveBits x.d
  let dg := fun (x : Ops) => destG x.d
  let ds := fun (x : Ops) => [(2, x.td.width), (3, x.ts.width)]
  let dd := fun (x : Ops) => [(2, x.td.width), (3, x.td.width)]
  RowCompletes .vdot (fun h x => h.vecCheck x [(2, 32), (3, 32), (4, 32)] [2, 3, 4] = none ∧ h.NoTraps) none_ none_ dv ∧
  RowCompletes .vcvt (ok ds [3]) none_ none_ dv ∧ RowCompletes .vbscl (ok ds [3, 4]) none_ none_ dv ∧
  RowCompletes .vbqntQuant (ok ds [3, 4]) none_ none_ dv ∧ RowCompletes .vlut (ok ds [3, 4]) none_ none_ dv ∧
  RowCompletes .vscan (ok ds [3]) none_ none_ dv ∧ RowCompletes .vscanmax (ok dd [3]) none_ none_ dv ∧
  RowCompletes .vcompress (ok dd [3]) none_ none_ dv ∧ RowCompletes .viota (ok (fun x => [(2, x.td.width)]) []) none_ none_ dv ∧
  RowCompletes .vhad (fun h x => h.vecCheck x (dd x) [3] = none ∧ h.NoTraps ∧
    (h.vlen = 0 ∨ ∃ k, bitsN x.b.imm 7 4 < k ∧ h.vlen = 2 ^ k)) none_ none_ dv ∧
  RowCompletes .vredsum (ok (fun x => [(3, x.ts.width)]) [3]) dg none_ none_ ∧
  RowCompletes .vredmin (ok (fun x => [(3, x.td.width)]) [3]) dg none_ none_ ∧
  RowCompletes .vredmax (ok (fun x => [(3, x.td.width)]) [3]) dg none_ none_ ∧
  RowCompletes .vbqntScale (ok (fun x => [(3, x.ts.width)]) [3]) none_ none_ dv ∧
  (∀ s n x, let h := s.hart n
    let leaf := fun k => if k < h.vlen && h.pred x k x.ts.width then some (h.vsrc x x.a k x.ts.width) else none
    (s.Starts n .vredsum x → h.vecCheck x [(3, x.ts.width)] [3] = none →
      (x.td.isFp = false →
        let sum := ((List.range h.vlen).map (fun k => if h.pred x k x.ts.width then x.ts.int (h.vsrc x x.a k x.ts.width) else 0)).sum
        let r := fitInt x.td sum (satBit x)
        Retires (.vredsum x) x s n (h.setG (gNum x.d) (scalarOf x.td r.1)) r.2) ∧
      (x.td.isFp = true →
        let rnd := fun (v : XReal) => (v.round x.td (h.modeN x) h.sat8 0).1
        let root := pairTree (fun a b => x.td.value (rnd (a.add b (h.modeN x)).1)) (fun k => (leaf k).map x.ts.value) 14 0
        ∃ f, FpEnds (.vredsum x) s n f (Retires (.vredsum x) x s n (h.setG (gNum x.d) (BitVec.ofNat 64 (rnd (root.getD (.zero false))))) f))) ∧
    (let picks := fun (d : Desc) (greater : Bool) => s.Starts n d x → d.okOps x = true → h.vecCheck x [(3, x.td.width)] [3] = none →
       let empty := if x.td.isFp then x.td.nan else encN (if greater then x.td.lo else x.td.hi) x.td.width
       let e := (pairTree (fun a b => (pick x.td greater a b).1) leaf 14 0).getD empty
       ∃ f, FpEnds (d.ctor x) s n f (Retires (d.ctor x) x s n (h.setG (gNum x.d) (scalarOf x.td (if x.td.isFp && x.td.isNaN e then x.td.nan else e))) f)
     picks .vredmin false ∧ picks .vredmax true)) ∧
  (∀ s n x, let h := s.hart n
    let elem := fun k => h.vsrc x x.a k x.ts.width
    let upTo := fun k => (h.activeBelow x x.ts.width (k + 1)).map elem
    (s.Starts n .vscan x → Desc.vscan.okOps x = true → h.vecCheck x (ds x) [3] = none → ∃ f, FpEnds (.vscan x) s n f (
      WritesElems (.vscan x) x s n x.td.width (fun k => h.pred x k x.ts.width) (fun k =>
        if x.td.isFp then
          let rnd := fun (v : XReal) (sat : Bool) => (v.round x.td (h.modeN x) sat 0).1
          let vs := (upTo k).map x.ts.value
          rnd (vs.tail.foldl (fun a b => x.td.value (rnd (a.add b (h.modeN x)).1 h.sat8)) (vs.headD (.zero false))) (satBit x || h.sat8)
        else (fitInt x.td ((upTo k).map x.ts.int).sum (satBit x)).1))) ∧
    (s.Starts n .vscanmax x → Desc.vscanmax.okOps x = true → h.vecCheck x (dd x) [3] = none → ∃ f, FpEnds (.vscanmax x) s n f (
      WritesElems (.vscanmax x) x s n x.td.width (fun k => h.pred x k x.ts.width) (fun k =>
        let e := (upTo k).tail.foldl (fun a b => (pick x.td true a b).1) ((upTo k).headD 0)
        if x.td.isNaN e then x.td.nan else e)))) ∧
  (∀ s n x, let h := s.hart n
    let w := x.td.width
    let act := h.activeBelow x w h.vlen
    (s.Starts n .vcompress x → Desc.vcompress.okOps x = true → ok dd [3] h x →
      WritesElems (.vcompress x) x s n w (fun k => k < act.length) (fun k => h.vsrc x x.a (act.getD k 0) w)) ∧
    (s.Starts n .viota x → Desc.viota.okOps x = true → ok (fun x => [(2, x.td.width)]) [] h x →
      WritesElems (.viota x) x s n w (fun _ => true) (fun k => (h.activeBelow x w k).length)) ∧
    (s.Ready n .vhad x → Desc.vhad.okOps x = true → h.vecCheck x (dd x) [3] = none →
      (h.vlen = 0 ∨ ∃ k, bitsN x.b.imm 7 4 < k ∧ h.vlen = 2 ^ k) →
      let first := x.b.imm % 16
      ∃ f, FpEnds (.vhad x) s n f (WritesElems (.vhad x) x s n w (fun _ => true)
        ((List.range (bitsN x.b.imm 7 4 + 1 - first)).foldl (fun xs k => butterfly x.td (h.modeN x) (satBit x) xs (first + k)) (fun i => h.vsrc x x.a i w))))) ∧
  (∀ s n x, let h := s.hart n
    s.Starts n .vbqntScale x → Desc.vbqntScale.okOps x = true → h.vecCheck x [(3, x.ts.width)] [3] = none → ∃ f, FpEnds (.vbqntScale x) s n f (
    WritesElems (.vbqntScale x) x s n 8 (fun b => 32 * b < h.vlen) (fun b =>
      let m := ((h.activeBelow x x.ts.width h.vlen).filter (fun i => i / 32 = b)).map (fun i => x.ts.value (h.vsrc x x.a i x.ts.width))
      let logs := m.filterMap (fun v => match v with | .fin _ a e _ => some (e + Nat.log2 a) | _ => none)
      if m.any (fun v => match v with | .nan => true | .inf _ => true | _ => false) then 0xFF
      else match logs.max? with
        | none => 0
        | some l => (max 0 (min 254 (l - (if x.td = .e4m3 then 8 else if x.td = .e5m2 then 15 else 6) + 127))).toNat)))

/-- R51, R149, R164, Table 8-5: SETVL writes the lesser of its request and the capacity to gd and to VL with the type and the
group; GETVL gives VL.LEN or the capacity. KAND, KOR, KXOR and KNOT act on all 256 bits; KCNT counts and KFIRST finds the
elements below VL whose governing bit is 1; KWHILE sets the lanes of the elements `i` with a + i < b. -/
def Obligations.PredicatesAndLength : Prop :=
  ((∀ s n x, let h := s.hart n
     s.Ready n .setvl x → let len := min (h.src x.a).toNat (2048 * 2 ^ x.var.val / x.td.width)
     Retires (.setvl x) x s n
       { h.setG (gNum x.d) (BitVec.ofNat 64 len) with vl := BitVec.ofNat 64 (len + x.td.code * 2 ^ 16 + x.var.val * 2 ^ 20) } 0) ∧
   WritesHart .getvlLen (fun h x => h.setG (gNum x.d) ((h.vl.extractLsb' 0 14).setWidth 64)) ∧
   WritesHart .getvlMax (fun h x => h.setG (gNum x.d)
     (BitVec.ofNat 64 (2048 * 2 ^ (h.vl.extractLsb' 20 2).toNat / (Ty.ofCode (h.vl.extractLsb' 16 4).toNat).width)))) ∧
  (WritesHart .kand (fun h x => h.setK (kNum x.d) (h.kr (kNum x.a) &&& h.kr (kNum x.b))) ∧
   WritesHart .kor (fun h x => h.setK (kNum x.d) (h.kr (kNum x.a) ||| h.kr (kNum x.b))) ∧
   WritesHart .kxor (fun h x => h.setK (kNum x.d) (h.kr (kNum x.a) ^^^ h.kr (kNum x.b))) ∧
   WritesHart .knot (fun h x => h.setK (kNum x.d) (~~~h.kr (kNum x.a))) ∧
   (∀ s n x, let h := s.hart n
     let on := fun k => (h.kr (kNum x.a)).getLsbD (k * x.td.width / 8)
     h.vlRange x [(3, x.td.width)] = none →
     (s.Ready n .kcnt x → Retires (.kcnt x) x s n (h.setG (gNum x.d) (BitVec.ofNat 64 ((List.range h.vlen).countP on))) 0) ∧
     (s.Ready n .kfirst x → Retires (.kfirst x) x s n (h.setG (gNum x.d) (BitVec.ofNat 64 ((List.range h.vlen).findIdx on))) 0)) ∧
   (∀ s n x, let h := s.hart n
     s.Ready n .kwhile x → 8 ≤ x.td.width → ∃ k : BitVec 256, Retires (.kwhile x) x s n (h.setK (kNum x.d) k) 0 ∧
       ∀ b, b < 256 → k.getLsbD b =
         (if x.td.isSigned then decide ((h.src x.a).toInt + ((b * 8 / x.td.width : Nat) : Int) < (h.src x.b).toInt)
          else decide ((h.src x.a).toNat + b * 8 / x.td.width < (h.src x.b).toNat))))

/-! Matrix instructions. -/

/-- R54, R173 to R179: MOP adds the product of A's element i and B's element j to cell (i, j), MOPS the exact sum of two such products; with
one of their flags enabled they stop with FP_ENABLED and write nothing. MOPK adds the products of its panels' k-th elements in ascending k, every
step rounded before the next, from the step of ESTART on; a stop chosen for a later step falls before it; an access that fails, and a step that
raises an enabled flag, stop it at their step with the steps below added. With K = 0 it changes nothing, neither liveness nor FFLAGS. A sum
rounds once in an FP32 cell and wraps or saturates in an I32 cell. A misaligned panel or set upper bits of gb stop MOPK. (FINFO of ALIGN and
ADDR_RANGE, and ga first where both panels are misaligned: log 58; A's field where both fail at one address: log 40; what chooses a stop:
log 14.) -/
def Obligations.OuterProducts : Prop :=
  ((∀ s n x, let h := s.hart n
     s.Ready n .mop x → h.deadStop x [2, 3, 4] = none → h.TilesWf →
     let a := fun r => h.elem (firstReg x.a) r x.ts.width
     let b := fun c => h.elem (firstReg x.b) c x.ts.width
     let mul := fun r c => (x.ts.value (a r)).mul (x.ts.value (b c))
     let sum := fun r c => accAdd x.td (h.modeN x) (satBit x) (h.cell (accTile x.d) r c) (mul r c).1
     let fl := orFlags ((List.range 256).flatMap (fun r => (List.range 256).flatMap (fun c =>
       [x.ts.readFlags (a r), x.ts.readFlags (b c), (mul r c).2, (sum r c).2])))
     FpEnds (.mop x) s n fl (WritesCells (.mop x) x s n (fun r c => BitVec.ofNat 32 (sum r c).1) ∧
       ∀ t, exec (.mop x) s = .next t → (t.hart n).fflags = h.fflags ||| fl.setWidth 64)) ∧
   (∀ s n x, let h := s.hart n
     s.Ready n .mops x → h.deadStop x [2, 3, 4] = none → h.TilesWf →
     let e := fun k => h.elem (firstReg x.a) k 2
     let b := fun q c => Ty.i8.int (h.elem (firstReg x.b + q) c 8)
     let sum := fun r c => fitInt .i32 (Ty.i32.int (h.cell (accTile x.d) r c).toNat + (Ty.t2.int (e r) * b 0 c + Ty.t2.int (e (256 + r)) * b 1 c)) (satBit x)
     let fl := orFlags ((List.range 256).flatMap (fun r => (List.range 256).flatMap (fun c =>
       [Ty.t2.readFlags (e r), Ty.t2.readFlags (e (256 + r)), (sum r c).2])))
     FpEnds (.mops x) s n fl (WritesCells (.mops x) x s n (fun r c => BitVec.ofNat 32 (sum r c).1) ∧
       ∀ t, exec (.mops x) s = .next t → (t.hart n).fflags = h.fflags ||| fl.setWidth 64)) ∧
   (∀ (rm : RM) (old : BitVec 32) (p : XReal), (accAdd .fp32 rm false old p).1 = ((((Ty.fp32.value old.toNat).add p rm).1.round .fp32 rm false 0).1) ∧
     ∀ sat, (accAdd .i32 rm sat old p).1 = (fitInt .i32 (Ty.i32.int old.toNat + (p.toInt .rne 0).1) sat).1)) ∧
  (∀ s n x b, let h := s.hart n
     let ga := (h.gr (gNum x.a)).toNat
     let gb := (h.gr (gNum x.b)).toNat
     let steps := ga / 2 ^ 52
     let wb := x.ts.width / 8
     let tile := accTile x.d
     s.StartsAt n .mopk x b → h.guardOn x = true → (b = 0 ∨ b < steps) → gb / 2 ^ 52 = 0 → ga % 64 = 0 → gb % 64 = 0 → h.TilesWf → s.Quiet n → 8 ≤ x.ts.width →
     (steps = 0 → h.cut = none → Completes (.mopk x) s n (h.goesOn x 0 (h.pc + 12))) ∧
     (0 < steps → h.deadStop x [2] = none → ∀ pa ca pb cb : Nat → Nat → Nat,
       let va := fun k i => ga % 2 ^ 52 + k * (256 * wb) + i * wb
       let vb := fun k i => gb + k * (256 * wb) + i * wb
       let answers := fun k => ∀ i, i < 256 → s.Answers n .read (va k i) (pa k i) (ca k i) ∧ s.Answers n .read (vb k i) (pb k i) (cb k i)
       let ea := fun k i => s.seenNat n (pa k i) wb (ca k i)
       let eb := fun k j => s.seenNat n (pb k j) wb (cb k j)
       let mul := fun k i j => (x.ts.value (ea k i)).mul (x.ts.value (eb k j))
       let add := fun k i j old => accAdd x.td (h.modeN x) (satBit x) old (mul k i j).1
       let cell := fun top i j => ((List.range top).filter (fun k => b ≤ k)).foldl (fun old k => BitVec.ofNat 32 (add k i j old).1) (h.cell tile i j)
       let flags := fun k => orFlags ((List.range 256).flatMap (fun i => (List.range 256).flatMap (fun j =>
         [x.ts.readFlags (ea k i), x.ts.readFlags (eb k j), (mul k i j).2, (add k i j (cell k i j)).2])))
       let passes := fun top => ∀ k, b ≤ k → k < top → answers k ∧ h.fpTraps (flags k) = false
       let done := fun (g : Hart) top => (∀ i j, i < 256 → j < 256 → g.cell tile i j = cell top i j) ∧
         g.fflags = h.fflags ||| (orFlags (((List.range top).filter (fun k => b ≤ k)).map flags)).setWidth 64
       let part := fun (u : State) top => s.SameMemory u ∧ (∀ m, m ≠ n → u.hart m = s.hart m) ∧ h.Same (u.hart n) [] [] [48 + tile] ∧
         (u.hart n).pc = h.pc ∧ (b < top → (u.hart n).isLive (48 + tile) = true) ∧ done (u.hart n) top
       let stops := fun k (e : Stop) => ∃ u, exec (.mopk x) s = .next (u.stopHart n { e with unit := k }) ∧ part u k
       (h.cut = none → passes steps → ReadsMemory (.mopk x) x s n [] [] [48 + tile] (fun g => g.isLive (48 + tile) = true ∧ done g steps)) ∧
       (∀ c dog, h.cut = some ⟨c, dog⟩ → b < c → c < steps → passes c → ∃ u t, exec (.mopk x) s = .next t ∧ u.CutsTo t n c dog ∧ part u c) ∧
       (∀ k, h.cut = none → b ≤ k → k < steps → passes k →
         (answers k → h.fpTraps (flags k) = true → stops k ⟨.fpEnabled, (flags k).setWidth 64, 0, 0, 0, 0⟩) ∧
         (∀ i c, i < 256 → (∀ q, q < i → s.Answers n .read (va k q) (pa k q) (ca k q)) → s.Fails n .read (va k i) c →
           (∀ q, q < 256 → s.Answers n .read (vb k q) (pb k q) (cb k q)) → stops k ⟨c, BitVec.ofNat 64 (va k i), 0, 0, 3, 0⟩) ∧
         (∀ i c, i < 256 → (∀ q, q < 256 → s.Answers n .read (va k q) (pa k q) (ca k q)) →
           (∀ q, q < i → s.Answers n .read (vb k q) (pb k q) (cb k q)) → s.Fails n .read (vb k i) c → stops k ⟨c, BitVec.ofNat 64 (vb k i), 0, 0, 4, 0⟩) ∧
         (∀ i j c e, i < 256 → j < 256 → (∀ q, q < i → s.Answers n .read (va k q) (pa k q) (ca k q)) → s.Fails n .read (va k i) c →
           (∀ q, q < j → s.Answers n .read (vb k q) (pb k q) (cb k q)) → s.Fails n .read (vb k j) e →
           stops k (if vb k j < va k i then ⟨e, BitVec.ofNat 64 (vb k j), 0, 0, 4, 0⟩ else ⟨c, BitVec.ofNat 64 (va k i), 0, 0, 3, 0⟩))))) ∧
  (∀ s n x, let h := s.hart n
     let ga := (h.gr (gNum x.a)).toNat
     let gb := (h.gr (gNum x.b)).toNat
     s.Ready n .mopk x → (ga / 2 ^ 52 = 0 ∨ h.deadStop x [2] = none) →
     (gb / 2 ^ 52 = 0 → ga % 64 ≠ 0 → Stops (.mopk x) s n ⟨.align, BitVec.ofNat 64 (ga % 2 ^ 52), 0, 0, 3, 0⟩) ∧
     (gb / 2 ^ 52 = 0 → ga % 64 = 0 → gb % 64 ≠ 0 → Stops (.mopk x) s n ⟨.align, BitVec.ofNat 64 gb, 0, 0, 4, 0⟩) ∧
     (gb / 2 ^ 52 ≠ 0 → Stops (.mopk x) s n ⟨.addrRange, BitVec.ofNat 64 (gb % 2 ^ 52), 0, 0, 4, 0⟩))

/-- R54, R170, R183 to R188: MZERO zeroes the tile or a slice, MMOVA and MMOVV move a slice bit for bit, MSCL scales each cell with one rounding,
MCVT converts each cell, MREL makes the tile dead. MSCL and MCVT go row by row from the row of ESTART: a stop chosen for a row falls before it, and
a row that raises an enabled flag stops them with FP_ENABLED there, the rows below written. (What chooses a stop: log 14; a tile that is dead and
of which no row was written stays dead: log 56.) -/
def Obligations.TileMoves : Prop :=
  ((∀ s n x, let h := s.hart n
     s.Ready n .mzero x → h.sliceStop x 2 = none → h.TilesWf →
     WritesCells (.mzero x) x s n (fun r c =>
       if accDirOf x.d = 0 ∨ (placeIn (accDirOf x.d) (h.sliceIdx x.d) r c).isSome then 0 else h.cell (accTile x.d) r c)) ∧
   (∀ s n x, let h := s.hart n
     s.Ready n .mmova x → h.sliceStop x 2 = none → h.deadStop x [3] = none →
     WritesCells (.mmova x) x s n (fun r c => match placeIn (accDirOf x.d) (h.sliceIdx x.d) r c with
       | some k => BitVec.ofNat 32 (h.elem (firstReg x.a) k 32)
       | none => h.cell (accTile x.d) r c)) ∧
   (∀ s n x, let h := s.hart n
     s.Ready n .mmovv x → Desc.mmovv.okOps x = true → h.sliceStop x 3 = none → h.deadStop x [3] = none →
     ∃ t, exec (.mmovv x) s = .next t ∧ s.OnlyHart t n ∧ s.Frame t x n [] [] (liveBits x.d) ∧
       (∀ b ∈ liveBits x.d, (t.hart n).isLive b = true) ∧
       ∀ r c k, r < 256 → c < 256 → placeIn (accDirOf x.a) (h.sliceIdx x.a) r c = some k →
         (t.hart n).elem (firstReg x.d) k 32 = (h.cell (accTile x.a) r c).toNat) ∧
   RowWise .mscl [2, 3, 4] (fun h x r c old =>
     let es := [old.toNat, h.vsrc x x.a r 32, h.vsrc x x.b c 32]
     let v := fun k => Ty.fp32.value (es.getD k 0)
     let p := (v 0).mul (v 1)
     let q := p.1.mul (v 2)
     let e := q.1.round .fp32 (h.modeN x) false 0
     (e.1, orFlags (es.map Ty.fp32.readFlags ++ [p.2, q.2, e.2]))) ∧
   RowWise .mcvt [2] (fun h x _ _ old => convert x.td x.ts old.toNat (h.modeN x) false false 0)) ∧
  ((∀ s n x, s.Ready n .mrel x → Retires (.mrel x) x s n ((s.hart n).kill (48 + accTile x.d)) 0) ∧
   (∀ (h : Hart) t, t < 4 → (h.kill (48 + t)).isLive (48 + t) = false ∧
     (∀ b, b ≠ 48 + t → (h.kill (48 + t)).isLive b = h.isLive b) ∧
     ∀ r c, r < 256 → c < 256 → (h.kill (48 + t)).cell t r c = 0))

/-- R52, R170, R180 to R182: MLD and MLDT write the words that they read to the cells of a slice or of a tile by rows or columns, MST and MSTT
store cells, and nothing else changes; a misaligned address stops with ALIGN. MLDT and MSTT begin at the line of ESTART; a stop chosen for a later
line falls before it, and a line that is refused or not answered stops them there, FADDR the lowest such address: the lines below are moved, no
part of others. (FINFO of ALIGN: log 58; what chooses a stop: log 14.) -/
def Obligations.MatrixMemory : Prop :=
  ((∀ s n x, let h := s.hart n
     let ea := (h.gr (gNum x.a) + h.src x.b).toNat
     s.Ready n .mld x → h.sliceStop x 2 = none →
     (∀ pa c : Nat → Nat, ea % 4 = 0 → s.Quiet n → (∀ k, k < 256 → s.Answers n .read (ea + 4 * k) (pa k) (c k)) →
       ReadsMemory (.mld x) x s n [] [] [48 + accTile x.d] (fun g => ∀ i j, i < 256 → j < 256 →
         g.cell (accTile x.d) i j = match placeIn (accDirOf x.d) (h.sliceIdx x.d) i j with
           | some k => BitVec.ofNat 32 (s.seenNat n (pa k) 4 (c k))
           | none => h.cell (accTile x.d) i j)) ∧
     (ea % 4 ≠ 0 → Stops (.mld x) s n ⟨.align, BitVec.ofNat 64 ea, 0, 0, 3, 0⟩)) ∧
   (∀ s n x, let h := s.hart n
     let base := (h.gr (gNum x.a)).toNat
     let tile := accTile x.d
     let line := fun k => (h.gr (gNum x.a) + BitVec.ofNat 64 k * h.src x.b).toNat
     (s.Ready n .mldt x → base % 4 ≠ 0 ∨ (h.src x.b).toNat % 4 ≠ 0 → Stops (.mldt x) s n ⟨.align, BitVec.ofNat 64 base, 0, 0, 3, 0⟩) ∧
     (∀ b, s.StartsAt n .mldt x b → h.guardOn x = true → b < 256 → base % 4 = 0 → (h.src x.b).toNat % 4 = 0 → s.Quiet n → ∀ pa c : Nat → Nat → Nat,
       let answers := fun k => ∀ q, q < 256 → s.Answers n .read (line k + 4 * q) (pa k q) (c k q)
       let done := fun (g : Hart) top => (b < top → g.isLive (48 + tile) = true) ∧ ∀ k q, k < 256 → q < 256 →
         let r := if x.var.val = 0 then k else q
         let l := if x.var.val = 0 then q else k
         g.cell tile r l = if b ≤ k ∧ k < top then BitVec.ofNat 32 (s.seenNat n (pa k q) 4 (c k q)) else h.cell tile r l
       let part := fun (u : State) top => s.SameMemory u ∧ (∀ m, m ≠ n → u.hart m = s.hart m) ∧ h.Same (u.hart n) [] [] [48 + tile] ∧ (u.hart n).pc = h.pc ∧ done (u.hart n) top
       (h.cut = none → (∀ k, b ≤ k → k < 256 → answers k) → ReadsMemory (.mldt x) x s n [] [] [48 + tile] (fun g => done g 256)) ∧
       (∀ e dog, h.cut = some ⟨e, dog⟩ → b < e → e < 256 → (∀ k, b ≤ k → k < e → answers k) → ∃ u t, exec (.mldt x) s = .next t ∧ u.CutsTo t n e dog ∧ part u e) ∧
       (∀ k q e, h.cut = none → b ≤ k → k < 256 → q < 256 → (∀ j, b ≤ j → j < k → answers j) →
         (∀ j, j < q → s.Answers n .read (line k + 4 * j) (pa k j) (c k j)) → s.reach n .read (line k + 4 * q) = .error e →
         ∃ u, exec (.mldt x) s = .next (u.stopHart n ⟨e, BitVec.ofNat 64 (line k + 4 * q), 0, 0, 3, k⟩) ∧ part u k)))) ∧
  ((∀ s n x, let h := s.hart n
     let ea := (h.gr (gNum x.d) + h.src x.b).toNat
     s.Ready n .mst x → h.sliceStop x 3 = none → h.deadStop x [3] = none →
     (ea % 4 = 0 → ∀ cellAt : Nat → Nat × Nat,
       (∀ k, k < 256 → (cellAt k).1 < 256 ∧ (cellAt k).2 < 256 ∧ placeIn (accDirOf x.a) (h.sliceIdx x.a) (cellAt k).1 (cellAt k).2 = some k) →
       WritesMemory (.mst x) x s n 4 (List.range 256) (fun k => ea + 4 * k)
         (fun k => (h.cell (accTile x.a) (cellAt k).1 (cellAt k).2).toNat)) ∧
     (ea % 4 ≠ 0 → Stops (.mst x) s n ⟨.align, BitVec.ofNat 64 ea, 1, 0, 2, 0⟩)) ∧
   (∀ s n x, let h := s.hart n
     let base := (h.gr (gNum x.d)).toNat
     let va := fun m => (h.gr (gNum x.d) + BitVec.ofNat 64 (m / 256) * h.src x.b).toNat + 4 * (m % 256)
     let data := fun m => (if x.var.val = 0 then h.cell (accTile x.a) (m / 256) (m % 256) else h.cell (accTile x.a) (m % 256) (m / 256)).toNat
     let from_ := fun b top => (List.range (256 * top)).filter (fun m => 256 * b ≤ m)
     (s.Ready n .mstt x → h.deadStop x [3] = none → base % 4 ≠ 0 ∨ (h.src x.b).toNat % 4 ≠ 0 → Stops (.mstt x) s n ⟨.align, BitVec.ofNat 64 base, 1, 0, 2, 0⟩) ∧
     (∀ b, s.StartsAt n .mstt x b → h.guardOn x = true → b < 256 → h.deadStop x [3] = none → base % 4 = 0 → (h.src x.b).toNat % 4 = 0 →
       (h.cut = none → WritesMemory (.mstt x) x s n 4 (from_ b 256) va data) ∧
       (∀ (pa c : Nat → Nat), s.Quiet n → let answers := fun top => ∀ m, 256 * b ≤ m → m < top → s.Answers n .write (va m) (pa m) (c m) ∧ window (pa m) ≠ 14
         let part := fun (u : State) top => (∀ m, u.hart m = s.hart m) ∧ s.StoresAt u n 4 (from_ b top) pa data
         (∀ e dog, h.cut = some ⟨e, dog⟩ → b < e → e < 256 → answers (256 * e) → ∃ u t, exec (.mstt x) s = .next t ∧ u.CutsTo t n e dog ∧ part u e) ∧
         (∀ m e, h.cut = none → 256 * b ≤ m → m < 65536 → answers m → s.reach n .write (va m) = .error e →
           ∃ u, exec (.mstt x) s = .next (u.stopHart n ⟨e, BitVec.ofNat 64 (va m), 1, 0, 2, m / 256⟩) ∧ part u (m / 256))))))

/-! Directional instructions. -/

/-- R199 to R202, R207 to R209, R213: DNORM, DSCL, DADD, DSUB, DPROJ and DSETN write their pair, its group becomes live, and
nothing else changes; one that raises a flag that is enabled stops with FP_ENABLED, and one that meets the zero vector stops with DIR_ZERO where
DIREN is 1 and raises DZERO where it is 0. The long ones begin at the component group of ESTART and stop before a later one that is chosen, the norms
unwritten. DSCL `.val` negates the components for a negative factor and adds the logarithm of a finite one to the norm, rounded as
R194 rounds it. (What chooses a stop: log 14; the liveness that it leaves: log 56; A's field where both pairs are zero: log 59.) -/
def Obligations.DirectionalPairs : Prop :=
  (let normed := fun (h : Hart) (x : Ops) => (renorm ((List.range (256 * grpSize x.d)).map (fun j => x.ts.value (h.elem (firstReg x.a) j x.ts.width)))).1
   let sum := fun (h : Hart) (x : Ops) => addPairs (h.pair x.a) (h.pair x.b) false
   let diff := fun (h : Hart) (x : Ops) => addPairs (h.pair x.a) (h.pair x.b) true
   let par := fun (h : Hart) (x : Ops) => projPair (h.pair x.a) (h.pair x.b) true
   let perp := fun (h : Hart) (x : Ops) => projPair (h.pair x.a) (h.pair x.b) false
   PairRow .dnorm [3] normed (fun h x => if (List.range (256 * grpSize x.d)).all (fun j =>
     match x.ts.value (h.elem (firstReg x.a) j x.ts.width) with | .zero _ => true | _ => false) then some 2 else none) ∧
   PairFrom .dnorm [3] normed ∧
   PairRow .dadd [3, 4] (fun h x => (sum h x).pair) (fun h x => (sum h x).dz) ∧ PairFrom .dadd [3, 4] (fun h x => (sum h x).pair) ∧
   PairRow .dsub [3, 4] (fun h x => (diff h x).pair) (fun h x => (diff h x).dz) ∧ PairFrom .dsub [3, 4] (fun h x => (diff h x).pair) ∧
   PairRow .dprojPar [3, 4] (fun h x => (par h x).pair) (fun h x => (par h x).dz) ∧ PairFrom .dprojPar [3, 4] (fun h x => (par h x).pair) ∧
   PairRow .dprojPerp [3, 4] (fun h x => (perp h x).pair) (fun h x => (perp h x).dz) ∧ PairFrom .dprojPerp [3, 4] (fun h x => (perp h x).pair)) ∧
  (∀ (a b : Pair) (sub : Bool), a.norm ≠ normNaN → b.norm ≠ normNaN → a.comps.length = b.comps.length →
    (a.norm = normZero → b.norm = normZero → (addPairs a b sub).dz = some 3 ∧ (addPairs a b sub).pair = .flat a.comps.length normZero) ∧
    (a.norm ≠ normZero → a.norm ≠ normSat → (addPairs a a true).dz = some 2 ∧ (addPairs a a true).pair = .flat a.comps.length normZero) ∧
    (∀ par, b.norm = normZero → (projPair a b par).dz = some 4 ∧ (projPair a b par).pair = .flat a.comps.length normZero)) ∧
  PairRow .dsclLog [3] (fun h x =>
    let p := h.pair x.a
    if p.norm = normZero ∨ p.norm = normNaN ∨ p.norm = normSat then p
    else
      let l := p.norm.toInt + ((h.gr (gNum x.b)).setWidth 32).toInt
      if 2 ^ 31 - 2 < l then { p with norm := normSat } else if l < -(2 ^ 31) + 2 then .flat p.comps.length normZero
      else { p with norm := BitVec.ofInt 32 l }) (fun _ _ => none) ∧
  PairRow .dsclVal [3] (fun h x =>
    let p := h.pair x.a
    let e := (h.gr (gNum x.b)).toNat % 2 ^ 32
    let flat := fun m => Pair.flat p.comps.length m
    let cs := if 2 ^ 31 ≤ e then p.comps.map (fun c => if c = -32768 then 32767 else -c) else p.comps
    if p.norm = normNaN ∨ Ty.fp32.isNaN e = true then flat normNaN
    else if p.norm = normZero then flat normZero
    else match Ty.fp32.value e with
    | .fin _ m k _ =>
      if p.norm = normSat then ⟨cs, normSat⟩
      else
        let l := Mixed.logNorm (.ofInts [(m : Int)] (p.norm.toInt + k * 2 ^ 23) 1)
        if 2 ^ 31 - 2 < l then ⟨cs, normSat⟩ else if l < -(2 ^ 31) + 2 then flat normZero else ⟨cs, BitVec.ofInt 32 l⟩
    | .zero _ => if p.norm = normSat then flat normNaN else flat normZero
    | _ => ⟨cs, normSat⟩) (fun h x =>
    let e := (h.gr (gNum x.b)).toNat % 2 ^ 32
    let m := (h.pair x.a).norm
    if e % 2 ^ 31 = 0 ∧ m ≠ normNaN ∧ m ≠ normZero ∧ m ≠ normSat then some 4 else none) ∧
  (∀ s n x, let h := s.hart n
    let p := h.pair x.d
    let c := (h.gr (gNum x.a)).setWidth 32
    s.Ready n .dsetn x → h.deadStop x [2] = none → Desc.dsetn.okOps x = true →
    (c = normZero → WritesPair (.dsetn x) x s n (.flat p.comps.length normZero)) ∧
    (c = normNaN ∨ (c ≠ normZero ∧ unitOk p.comps = true) → WritesPair (.dsetn x) x s n { p with norm := c }) ∧
    (c ≠ normZero → c ≠ normNaN → unitOk p.comps = false → Stops (.dsetn x) s n ⟨.dirCode, 0, 0, 0, 2, 0⟩))

/-- R54, R199, R201, R203 to R206, R212: DDOT, DDOTF, DCMP and DGETN write their word to gd; DEXP writes each component as a number of Td: the
raw bits for I16, else the component over 2^14 times two to the norm, rounded once; it begins at the component group of ESTART, stops before a later
one that is chosen, and stops with FP_ENABLED at the lowest group that raises an enabled flag. The others, with an enabled flag, stop with FP_ENABLED and write nothing.
With DIREN 0 DDOT and DCMP `.ge` and `.gt` of a zero pair raise DZERO; with DIREN 1 they stop with DIR_ZERO at the field of the first zero
operand, A's where both are zero (log 59). (What chooses a stop of DEXP: log 14; the liveness that it leaves: log 56.) -/
def Obligations.DirectionalReads : Prop :=
  (let nan := fun (a b : Pair) => a.norm = normNaN ∨ b.norm = normNaN
   let zero := fun (a b : Pair) => a.norm = normZero ∨ b.norm = normZero
   let sum := fun (a b : Pair) => (List.zipWith (fun x y => x * y) a.comps b.comps).sum
   let cosine := fun (a b : Pair) => (XReal.ofInt (sum a b)).scale (-28)
   let never := fun (_ : Hart) (_ : Ops) => (none : Option Nat)
   let first := fun (a b : Pair) => if nan a b then none else if a.norm = normZero then some 3 else if b.norm = normZero then some 4 else none
   let meets := fun (h : Hart) (x : Ops) => if Ty.fp32.isNaN ((h.gr (gNum x.d)).toNat % 2 ^ 32) then none else first (h.pair x.a) (h.pair x.b)
   PairWord .ddot [3, 4] (fun h x =>
     let a := h.pair x.a
     let b := h.pair x.b
     if nan a b then 0x7FC00000 else if zero a b then 0 else BitVec.ofNat 64 ((cosine a b).round .fp32 (h.modeN x) false 0).1)
     (fun h x => first (h.pair x.a) (h.pair x.b)) ∧
   PairWord .ddotf [3, 4] (fun h x =>
     let a := h.pair x.a
     let b := h.pair x.b
     if nan a b then 0x7FC00000 else if zero a b ∨ sum a b = 0 then 0
     else if a.norm = normSat ∨ b.norm = normSat then BitVec.ofNat 64 (overflowTo .fp32 (sum a b < 0) (h.modeN x) false)
     else BitVec.ofNat 64 (((scaledPow (sum a b) (a.norm.toInt + b.norm.toInt)).scale (-28)).round .fp32 (h.modeN x) false 0).1) never ∧
   PairWord .dcmpGe [3, 4] (fun h x =>
     let t := (h.gr (gNum x.d)).toNat % 2 ^ 32
     if nan (h.pair x.a) (h.pair x.b) ∨ Ty.fp32.isNaN t ∨ zero (h.pair x.a) (h.pair x.b) then 0
     else if 0 ≤ (cosine (h.pair x.a) (h.pair x.b)).order (Ty.fp32.value t) then 1 else 0) meets ∧
   PairWord .dcmpGt [3, 4] (fun h x =>
     let t := (h.gr (gNum x.d)).toNat % 2 ^ 32
     if nan (h.pair x.a) (h.pair x.b) ∨ Ty.fp32.isNaN t ∨ zero (h.pair x.a) (h.pair x.b) then 0
     else if 0 < (cosine (h.pair x.a) (h.pair x.b)).order (Ty.fp32.value t) then 1 else 0) meets ∧
   PairWord .dcmpSame [3, 4] (fun h x => if h.pair x.a = h.pair x.b then 1 else 0) never ∧
   PairWord .dgetnLog [3] (fun h x => (h.mr (firstReg x.a)).setWidth 64) never ∧
   PairWord .dgetnLen [3] (fun h x =>
     let m := h.mr (firstReg x.a)
     if m = normNaN then 0x7FC00000 else if m = normZero then 0 else if m = normSat then 0x7F800000
     else BitVec.ofNat 64 ((scaledPow 1 m.toInt).round .fp32 .rne false 0).1) never) ∧
  (∀ s n x, let h := s.hart n
     let a := (h.pair x.a).norm
     let b := (h.pair x.b).norm
     s.Ready n .ddot x → h.deadStop x [3, 4] = none → h.NoTraps → a ≠ normNaN → b ≠ normNaN → (a = normZero ∨ b = normZero) →
     (h.diren = false → Retires (.ddot x) x s n (h.setG (gNum x.d) 0) fDZERO) ∧
     (h.diren = true → Stops (.ddot x) s n ⟨.dirZero, 0, 0, 0, if a = normZero then 3 else 4, 0⟩)) ∧
  (∀ s n x b, let h := s.hart n
     let w := x.td.width
     let size := grpSize x.a
     let m := h.mr (firstReg x.a)
     let new := fun j =>
       let c := h.comp (firstReg x.a) j
       if x.td = .i16 then ((BitVec.ofInt 16 c).toNat, (0 : Flags))
       else if m = normNaN then (x.td.nan, 0)
       else if m = normZero ∨ (m = normSat ∧ c = 0) then (0, 0)
       else if m = normSat then (overflowTo x.td (c < 0) (h.modeN x) false, fOF ||| fNX)
       else ((scaledPow c m.toInt).scale (-14)).round x.td (h.modeN x) false 0
     let flags := fun lo hi => orFlags (((List.range (256 * hi)).filter (fun j => 256 * lo ≤ j)).map (fun j => (new j).2))
     let passes := fun top => ∀ q, b ≤ q → q < top → h.fpTraps (flags q (q + 1)) = false
     let done := fun (g : Hart) top => g.fflags = h.fflags ||| (flags b top).setWidth 64 ∧ ∀ j, j < 256 * size →
       g.elem (firstReg x.d) j w = if 256 * b ≤ j ∧ j < 256 * top then (new j).1 else h.elem (firstReg x.d) j w
     let live := fun (g : Hart) => ∀ r ∈ liveBits x.d, g.isLive r = true
     let part := fun (u : State) top => s.OnlyHart u n ∧ h.Same (u.hart n) [] [] (liveBits x.d) ∧ (u.hart n).pc = h.pc ∧ (top ≠ 0 → live (u.hart n)) ∧ done (u.hart n) top
     h.guardOn x = true → Desc.dexp.okOps x = true → h.deadStop x [3] = none → (size = 1 → s.Ready n .dexp x ∧ b = 0) → (size ≠ 1 → s.StartsAt n .dexp x b ∧ b < size) →
     (h.cut = none → passes size → ∃ t, exec (.dexp x) s = .next t ∧ s.OnlyHart t n ∧ s.Frame t x n [] [] (liveBits x.d) ∧ live (t.hart n) ∧ done (t.hart n) size) ∧
     (∀ c dog, h.cut = some ⟨c, dog⟩ → b < c → c < size → passes c → ∃ u t, exec (.dexp x) s = .next t ∧ u.CutsTo t n c dog ∧ part u c) ∧
     (∀ q, h.cut = none → b ≤ q → q < size → passes q → h.fpTraps (flags q (q + 1)) = true →
       ∃ u, exec (.dexp x) s = .next (u.stopHart n ⟨.fpEnabled, (flags q (q + 1)).setWidth 64, 0, 0, 0, q⟩) ∧ part u q))

/-- R210: DMOV copies all components and all m registers of the group bit for bit, member codes included, and raises no
flag; with D identical to A nothing changes but that the group becomes live. -/
def Obligations.DmovCopies : Prop :=
  ∀ s n x, let h := s.hart n
    s.Ready n .dmov x → Desc.dmov.okOps x = true → h.deadStop x [3] = none →
    ∃ t, exec (.dmov x) s = .next t ∧ s.OnlyHart t n ∧ s.Frame t x n [] [] (liveBits x.d) ∧ (t.hart n).fflags = h.fflags ∧
      (∀ b ∈ liveBits x.d, (t.hart n).isLive b = true) ∧
      ∀ k, k < grpSize x.d → (t.hart n).dr (firstReg x.d + k) = h.dr (firstReg x.a + k) ∧
        (t.hart n).mr (firstReg x.d + k) = h.mr (firstReg x.a + k)

/-- R211, R390: DLD writes the pair of the record that it reads at ea where that keeps R193, and stops with DIR_CODE where it does not; DST stores
the record of its pair at ea; an ea that is no multiple of 64 stops with ALIGN; FADDR is ea and FINFO 0 for both, as the rule gives them no other. A
word of the record that does not translate stops with its cause, FADDR its address, the access kind and the field of the base in FINFO, and nothing is
written. -/
def Obligations.DirectionalRecords : Prop :=
  (∀ s n x, let h := s.hart n
    let ea := (h.gr (gNum x.a) + h.src x.b).toNat
    let g := grpSize x.d
    s.Ready n .dld x → Desc.dld.okOps x = true →
    (∀ pa c : Nat → Nat, ea % 64 = 0 → s.Quiet n → (∀ k, k ≤ 128 * g → s.Answers n .read (ea + 4 * k) (pa k) (c k)) →
      ∀ p : Pair, p.comps.length = 256 * g → (∀ j, j < 256 * g →
        p.comps.getD j 0 = (BitVec.ofNat 16 (s.seenNat n (pa (j / 2)) 4 (c (j / 2)) / 2 ^ (16 * (j % 2)))).toInt) →
      p.norm = BitVec.ofNat 32 (s.seenNat n (pa (128 * g)) 4 (c (128 * g))) → p.ok = true →
      ReadsMemory (.dld x) x s n [] [] (liveBits x.d) (fun t => t.pair x.d = p)) ∧
    (∀ pa c : Nat → Nat, ea % 64 = 0 → s.Quiet n → (∀ k, k ≤ 128 * g → s.Answers n .read (ea + 4 * k) (pa k) (c k)) →
      ∀ p : Pair, p.comps.length = 256 * g → (∀ j, j < 256 * g →
        p.comps.getD j 0 = (BitVec.ofNat 16 (s.seenNat n (pa (j / 2)) 4 (c (j / 2)) / 2 ^ (16 * (j % 2)))).toInt) →
      p.norm = BitVec.ofNat 32 (s.seenNat n (pa (128 * g)) 4 (c (128 * g))) → p.ok = false →
      ∃ u, exec (.dld x) s = .next (u.stopHart n ⟨.dirCode, BitVec.ofNat 64 ea, 0, 0, 0, 0⟩) ∧ s.SameMemory u ∧ ∀ m, u.hart m = s.hart m) ∧
    (∀ k c, ea % 64 = 0 → s.Quiet n → k ≤ 128 * g → (∀ j, j < k → ∃ p, s.reach n .read (ea + 4 * j) = .ok p) → s.reach n .read (ea + 4 * k) = .error c →
      StopsAt (.dld x) s n ⟨c, BitVec.ofNat 64 (ea + 4 * k), 0, 0, 3, 0⟩) ∧
    (ea % 64 ≠ 0 → Stops (.dld x) s n ⟨.align, BitVec.ofNat 64 ea, 0, 0, 0, 0⟩)) ∧
  (∀ s n x, let h := s.hart n
    let ea := (h.gr (gNum x.d) + h.src x.b).toNat
    let g := grpSize x.a
    let p := h.pair x.a
    s.Ready n .dst x → Desc.dst.okOps x = true → h.deadStop x [3] = none →
    (ea % 64 = 0 → WritesMemory (.dst x) x s n 4 (List.range (128 * g + 1)) (fun k => ea + 4 * k)
      (fun k => if k = 128 * g then p.norm.toNat
        else (BitVec.ofInt 16 (p.comps.getD (2 * k) 0)).toNat + 65536 * (BitVec.ofInt 16 (p.comps.getD (2 * k + 1) 0)).toNat)) ∧
    (∀ k c, ea % 64 = 0 → s.Quiet n → k ≤ 128 * g → (∀ j, j < k → ∃ p, s.reach n .write (ea + 4 * j) = .ok p) → s.reach n .write (ea + 4 * k) = .error c →
      StopsAt (.dst x) s n ⟨c, BitVec.ofNat 64 (ea + 4 * k), 1, 0, 2, 0⟩) ∧
    (ea % 64 ≠ 0 → Stops (.dst x) s n ⟨.align, BitVec.ofNat 64 ea, 0, 0, 0, 0⟩))

/-! Memory instructions. -/

/-- R48, R271, R273, R310, R311: LD and LDA put the bytes that the core reads at ea, extended as their kind says, into gd, and change
nothing else; with g0 the value is dropped. R273, R310, R312, R315, R318: ST and STL put the low bytes of their source on their way to ea,
which the core reads back at once and no other agent sees until they are performed. STL above core scope has first performed the earlier
stores of its core: each byte at its home point is then the last that they wrote there; at core scope nothing is performed, and no later task
of its core misses the earlier stores. A misaligned ea stops with ALIGN, and an access that is refused or that no home point answers with its
cause, FADDR ea, at the field of the base; nothing has been read or written then. R396: on a system core, LD and ST of bytes of the doubleword
that WADDR watches retire and then trap with WATCH, EPC the next instruction, FADDR the lowest such byte. (That STL performs the earlier stores at once,
and the mark of core scope: log 18.) -/
def Obligations.LoadsAndStores : Prop :=
  (let size := fun k => if k = 0 then 8 else if k ≤ 2 then 4 else if k ≤ 4 then 2 else 1
   let signed := fun k => k = 1 ∨ k = 3 ∨ k = 5
   let loads := fun (d : Desc) (mk : Ops → Instr) (kind : Ops → Nat) (disp : Hart → Ops → Word) => ∀ s n x, let h := s.hart n
     let k := kind x
     let ea := (h.gr (gNum x.a) + disp h x).toNat
     s.Ready n d x → k ≤ 6 →
     (∀ pa c, ea % size k = 0 → s.Quiet n → s.Answers n .read ea pa c →
       ReadsMemory (mk x) x s n (destG x.d) [] [] (fun t =>
         gNum x.d ≠ 0 → t.gr (gNum x.d) = if signed k then (BitVec.ofNat (8 * size k) (s.seenNat n pa (size k) c)).signExtend 64
           else BitVec.ofNat 64 (s.seenNat n pa (size k) c))) ∧
     (ea % size k ≠ 0 → Stops (mk x) s n ⟨.align, BitVec.ofNat 64 ea, 0, 0, 3, 0⟩) ∧
     (∀ c, ea % size k = 0 → s.Quiet n → s.Fails n .read ea c → StopsAt (mk x) s n ⟨c, BitVec.ofNat 64 ea, 0, 0, 3, 0⟩)
   loads .ld .ld (fun x => x.var.val) (fun h x => h.src x.b) ∧ loads .lda .lda (fun x => x.var.val / 4) (fun _ _ => 0) ∧
   ∀ s n x pa c, let h := s.hart n
     let k := x.var.val
     let ea := (h.gr (gNum x.a) + h.src x.b).toNat
     let wa := h.waddr.toNat / 8 * 8
     isSys n = true → s.Begins n .ld x → h.guardOn x = true → k ≤ 6 → ea % size k = 0 → s.Quiet n → s.Answers n .read ea pa c →
     h.watchHit = none → h.waddr.toNat < 2 ^ 52 → h.waddr.getLsbD 0 = true → wa < pa + size k → pa < wa + 8 →
     ∃ u, exec (.ld x) s = .next (u.syncTrap n (BitVec.ofNat 64 Cause.watch.code) (BitVec.ofNat 64 (max wa pa)) 0 (h.pc + 12)) ∧ s.SameMemory u ∧
       (∀ m, m ≠ n → u.hart m = s.hart m) ∧ (u.hart n).pc = h.pc + 12 ∧ h.Same (u.hart n) (destG x.d) [] (markedBits x) ∧
       (gNum x.d ≠ 0 → (u.hart n).gr (gNum x.d) = if signed k then (BitVec.ofNat (8 * size k) (s.seenNat n pa (size k) c)).signExtend 64
         else BitVec.ofNat 64 (s.seenNat n pa (size k) c))) ∧
  (∀ s n x pa c, let h := s.hart n
    let nb := 8 / 2 ^ x.var.val
    let ea := (h.gr (gNum x.d) + h.src x.b).toNat
    let wa := h.waddr.toNat / 8 * 8
    isSys n = true → s.Begins n .st x → h.guardOn x = true → x.var.val ≤ 3 → ea % nb = 0 → s.Quiet n → s.Answers n .write ea pa c → window pa ≠ 14 →
    h.watchHit = none → h.waddr.toNat < 2 ^ 52 → h.waddr.getLsbD 1 = true → wa < pa + nb → pa < wa + 8 →
    ∃ u, exec (.st x) s = .next (u.syncTrap n (BitVec.ofNat 64 Cause.watch.code) (BitVec.ofNat 64 (max wa pa)) 1 (h.pc + 12)) ∧
      s.StoresAt u n nb [0] (fun _ => pa) (fun _ => (h.src x.a).toNat) ∧ (∀ m, m ≠ n → u.hart m = s.hart m) ∧ (u.hart n).pc = h.pc + 12) ∧
  (let stops := fun (d : Desc) (mk : Ops → Instr) (size : Ops → Nat) (disp : Hart → Ops → Word) => ∀ s n x, let h := s.hart n
     let ea := (h.gr (gNum x.d) + disp h x).toNat
     s.Ready n d x → size x ∈ [1, 2, 4, 8] →
     (ea % size x ≠ 0 → Stops (mk x) s n ⟨.align, BitVec.ofNat 64 ea, 1, 0, 2, 0⟩) ∧
     (∀ c, ea % size x = 0 → s.Quiet n → s.Fails n .write ea c → StopsAt (mk x) s n ⟨c, BitVec.ofNat 64 ea, 1, 0, 2, 0⟩)
   stops .st .st (fun x => 8 / 2 ^ x.var.val) (fun h x => h.src x.b) ∧ stops .stl .stl (fun x => 8 / 2 ^ (x.var.val / 4)) (fun _ _ => 0)) ∧
  (∀ s n x, let h := s.hart n
    let nb := 8 / 2 ^ x.var.val
    let ea := (h.gr (gNum x.d) + h.src x.b).toNat
    s.Ready n .st x → x.var.val ≤ 3 → ea % nb = 0 → WritesMemory (.st x) x s n nb [0] (fun _ => ea) (fun _ => (h.src x.a).toNat)) ∧
  (∀ s n x pa c, let h := s.hart n
    let nb := 8 / 2 ^ (x.var.val / 4)
    let ea := (h.gr (gNum x.d)).toNat
    let scope := x.var.val % 4
    s.Ready n .stl x → ea % nb = 0 → s.Quiet n → s.Answers n .write ea pa c → window pa ≠ 14 →
    ∃ t w, exec (.stl x) s = .next t ∧ (∀ m, m ≠ n → t.hart m = s.hart m) ∧ s.Frame t x n [] [] [] ∧
      (w.hart = n ∧ w.addr = pa ∧ w.data.length = nb ∧ ∀ i c, i < nb → t.storeLands (some n) (pa + i) = true →
        t.seenByte n (pa + i) c = BitVec.ofNat 8 ((h.src x.a).toNat / 2 ^ (8 * i)) &&& t.keptMask (pa + i)) ∧
      (scope ≠ 0 → s.Performs t n scope [w]) ∧
      (scope = 0 → s.StoresAt t n nb [0] (fun _ => pa) (fun _ => (h.src x.a).toNat) ∧
        t.stores = s.stores.map (fun y => if y.hart = n then { y with fenced := true } else y) ++ [w]))

/-- R52, R269, R271, R274 to R277: LDV, LDS, LDG and LDFF load every active element from its address, under `.skew` from the address that the
rotation gives it, and leave the other elements of D as they were, and D becomes live; elements narrower than a byte move by whole bytes.
STV, STS and STG store every active element at its address, and of a byte that several write the highest element stands. All but LDFF begin at the
element of ESTART, and stop before a later boundary of the element groups that is chosen. An access that is
refused or not answered stops a load at its element with the elements below it loaded and D live, and a store with those below it stored; a skewed
address outside the bench stops with ADDR_RANGE at the address before the rotation; LDFF, where
the element is not the lowest active one, loads those below it, sets VL.LEN to its index and retires. A misaligned active element stops
each with ALIGN before any is moved, a VL.TYPE that the rule does not take with ILL_TYPE, bits that fill no whole byte with VL_RANGE, a length above a
group's capacity with VL_RANGE at its field, a dead source with LIVE_DEAD; each has the access kind in FINFO, and the field of the base where it is not
an operand's. (The order of these checks and the field of ILL_TYPE: log 40; what chooses a stop: log 14.) -/
def Obligations.VectorMemory : Prop :=
  let nb := fun (h : Hart) => max 1 (h.vtype.width / 8)
  let count := fun (h : Hart) => h.vlen * h.vtype.width / (8 * nb h)
  let index := fun (h : Hart) (j : Nat) => j * (8 * nb h) / h.vtype.width
  let fits := fun (bytes skew : Bool) (h : Hart) =>
    (bytes = true ∨ 8 ≤ h.vtype.width) ∧ (skew = true → h.vtype.width = 32) ∧ h.vlen * h.vtype.width % (8 * nb h) = 0
  let moved := fun (skew : Bool) (va : Nat) => if skew then skewAddr va else va
  let vt := fun (h : Hart) (_ : Ops) => h.vtype.width
  let skewed := fun (x : Ops) => decide (x.var = 1)
  let plain := fun (_ : Ops) => false
  let seq := fun (r : Ops → Operand) (h : Hart) (x : Ops) j => (h.gr (gNum (r x)) + h.src x.b + BitVec.ofNat 64 (j * h.vtype.width / 8)).toNat
  let stride := fun (r : Ops → Operand) (h : Hart) (x : Ops) (j : Nat) => (h.gr (gNum (r x)) + BitVec.ofInt 64 (j * (h.src x.b).toInt)).toNat
  let offset := fun (r : Ops → Operand) (h : Hart) (x : Ops) j => (h.gr (gNum (r x)) + BitVec.ofInt 64 (x.ts.int (h.elem (firstReg x.b) j x.ts.width))).toNat
  let free := fun (_ : Hart) (_ : Ops) => True
  let begun := fun (s : State) n (d : Desc) x b => if d.op = 0x20A then s.Starts n d x ∧ b = 0 else s.StartsAt n d x b ∧ (b = 0 ∨ b < (s.hart n).vlen)
  let bad := fun (s : State) n (kind : Acc) (skew : Bool) (va fa : Nat) (cause : Cause) =>
    (s.Fails n kind (moved skew va) cause ∧ fa = moved skew va ∧ (skew = true → cause ≠ .addrRange ∧ cause ≠ .imageAccess ∧
      ∀ p, s.reach n kind (skewAddr va) = .ok p → window p.pa = 9)) ∨
    (skew = true ∧ cause = .addrRange ∧ fa = va ∧ ∃ p, s.reach n kind (skewAddr va) = .ok p ∧ window p.pa ≠ 9)
  let loads := fun (d : Desc) (mk : Ops → Instr) (bytes : Bool) (skew : Ops → Bool) (pre : Hart → Ops → Prop) (wg : Hart → Ops → Nat)
      (addr : Hart → Ops → Nat → Nat) => ∀ s n x b, let h := s.hart n
    let w := h.vtype.width
    let on := fun j => b ≤ index h j ∧ j < count h ∧ h.pred x (index h j) (wg h x) = true
    let va := fun j => addr h x (index h j)
    begun s n d x b → d.okOps x = true → h.vlRange x [(2, w)] = none → pre h x → fits bytes (skew x) h →
    (∀ j, on j → va j % nb h = 0) → ∀ pa c : Nat → Nat, s.Quiet n →
    let answers := fun j => s.Answers n .read (moved (skew x) (va j)) (pa j) (c j) ∧ (skew x = true → window (pa j) = 9)
    let loaded := fun (g : Hart) (top : Nat) => (∀ r ∈ liveBits x.d, g.isLive r = true) ∧ ∀ k, k < 2048 * grpSize x.d / (8 * nb h) →
      (on k → index h k < top → g.elem (firstReg x.d) k (8 * nb h) = s.seenNat n (pa k) (nb h) (c k)) ∧
      (¬ (on k ∧ index h k < top) → g.elem (firstReg x.d) k (8 * nb h) = h.elem (firstReg x.d) k (8 * nb h))
    let part := fun (u : State) (top : Nat) => s.SameMemory u ∧ (∀ m, m ≠ n → u.hart m = s.hart m) ∧ h.Same (u.hart n) [] [] (liveBits x.d) ∧
      (u.hart n).pc = h.pc ∧ loaded (u.hart n) top
    (h.cut = none → (∀ j, on j → answers j) → ReadsMemory (mk x) x s n [] [] (liveBits x.d) (fun t => loaded t h.vlen)) ∧
    (d.op ≠ 0x20A → (∀ e dog, h.cut = some ⟨e, dog⟩ → b < e → e < h.vlen → e % (2048 / w) = 0 → (∀ j, on j → index h j < e → answers j) →
        ∃ u t, exec (mk x) s = .next t ∧ u.CutsTo t n e dog ∧ part u e) ∧
      ∀ f fa cause, h.cut = none → on f → (∀ j, j < f → on j → answers j) → bad s n .read (skew x) (va f) fa cause →
        ∃ u, exec (mk x) s = .next (u.stopHart n ⟨cause, BitVec.ofNat 64 fa, 0, 0, 3, index h f⟩) ∧ part u (index h f))
  let stores := fun (d : Desc) (mk : Ops → Instr) (bytes : Bool) (skew : Ops → Bool) (pre : Hart → Ops → Prop) (dead : List Nat) (wg : Hart → Ops → Nat)
      (addr : Hart → Ops → Nat → Nat) => ∀ s n x b, let h := s.hart n
    let on := fun j => decide (b ≤ index h j) && h.pred x (index h j) (wg h x)
    let va := fun j => addr h x (index h j)
    let data := fun j => h.elem (firstReg x.a) j (8 * nb h)
    begun s n d x b → d.okOps x = true → h.vlRange x [(3, h.vtype.width)] = none → h.deadStop x dead = none → pre h x → fits bytes (skew x) h →
    (∀ j, j < count h → on j = true → va j % nb h = 0) →
    let part := fun (u : State) (pa : Nat → Nat) (top : Nat) => (∀ m, u.hart m = s.hart m) ∧
      s.StoresAt u n (nb h) ((List.range (count h)).filter (fun j => on j && decide (index h j < top))) pa data
    (h.cut = none → (skew x = true → ∀ j p, j < count h → on j = true → s.reach n .write (skewAddr (va j)) = .ok p → window p.pa = 9) →
      WritesMemory (mk x) x s n (nb h) ((List.range (count h)).filter on) (fun j => moved (skew x) (va j)) data) ∧
    (∀ (pa c : Nat → Nat), s.Quiet n →
      let answers := fun j => s.Answers n .write (moved (skew x) (va j)) (pa j) (c j) ∧ window (pa j) ≠ 14 ∧ (skew x = true → window (pa j) = 9)
      (∀ e dog, h.cut = some ⟨e, dog⟩ → b < e → e < h.vlen → e % (2048 / h.vtype.width) = 0 →
        (∀ j, j < count h → index h j < e → on j = true → answers j) → ∃ u t, exec (mk x) s = .next t ∧ u.CutsTo t n e dog ∧ part u pa e) ∧
      ∀ f fa cause, h.cut = none → f < count h → on f = true → (∀ j, j < f → on j = true → answers j) → bad s n .write (skew x) (va f) fa cause →
        ∃ u, exec (mk x) s = .next (u.stopHart n ⟨cause, BitVec.ofNat 64 fa, 1, 0, 2, index h f⟩) ∧ part u pa (index h f))
  let refused := fun (d : Desc) (mk : Ops → Instr) (field : Nat) (base : Nat) (bytes : Bool) (skew : Ops → Bool) (caps : Ops → List (Nat × Nat)) (dead : List Nat)
      (wg : Hart → Ops → Nat) (addr : Hart → Ops → Nat → Nat) => ∀ s n x, let h := s.hart n
    let w := h.vtype.width
    let kind := if base = 2 then 1 else 0
    let on := fun j => j < count h ∧ h.pred x (index h j) (wg h x) = true
    let va := fun j => addr h x (index h j)
    let range := h.vlRange x ((field, w) :: caps x)
    s.Starts n d x → d.okOps x = true →
    (∀ e, range = some e → Stops (mk x) s n { e with kind := kind }) ∧
    (range = none → (bytes = false ∧ w < 8) ∨ (skew x = true ∧ w ≠ 32) → Stops (mk x) s n ⟨.illType, 0, kind, 0, base, 0⟩) ∧
    (range = none → bytes = true → skew x = false → w < 8 → h.vlen * w % 8 ≠ 0 → Stops (mk x) s n ⟨.vlRange, 0, kind, 0, base, 0⟩) ∧
    (∀ e, range = none → fits bytes (skew x) h → h.deadStop x dead = some e → Stops (mk x) s n { e with kind := kind }) ∧
    (range = none → h.deadStop x dead = none → fits bytes (skew x) h → d.op ≠ 0x20A → ∀ f, on f → va f % nb h ≠ 0 → (∀ j, j < f → on j → va j % nb h = 0) →
      Stops (mk x) s n ⟨.align, BitVec.ofNat 64 (va f), kind, 0, base, 0⟩)
  let inG := fun (h : Hart) (x : Ops) => h.vlRange x [(4, x.ts.width)] = none
  let inL := fun (h : Hart) (x : Ops) => h.vlRange x [(4, x.ts.width)] = none ∧ h.deadStop x [4] = none
  let tw := fun (_ : Hart) (x : Ops) => x.ts.width
  (loads .ldv .ldv true skewed free vt (seq (fun x => x.a)) ∧ loads .lds .lds false skewed free vt (stride (fun x => x.a)) ∧
    loads .ldg .ldg false plain inL tw (offset (fun x => x.a)) ∧ loads .ldff .ldff true plain free vt (seq (fun x => x.a))) ∧
  (stores .stv .stv true skewed free [3] vt (seq (fun x => x.d)) ∧ stores .sts .sts false skewed free [3] vt (stride (fun x => x.d)) ∧
    stores .stg .stg false plain inG [3, 4] tw (offset (fun x => x.d))) ∧
  (let noCaps := fun (_ : Ops) => ([] : List (Nat × Nat))
   let indexCap := fun (x : Ops) => [(4, x.ts.width)]
   refused .ldv .ldv 2 3 true skewed noCaps [] vt (seq (fun x => x.a)) ∧ refused .lds .lds 2 3 false skewed noCaps [] vt (stride (fun x => x.a)) ∧
    refused .ldg .ldg 2 3 false plain indexCap [4] tw (offset (fun x => x.a)) ∧ refused .ldff .ldff 2 3 true plain noCaps [] vt (seq (fun x => x.a)) ∧
    refused .stv .stv 3 2 true skewed noCaps [3] vt (seq (fun x => x.d)) ∧ refused .sts .sts 3 2 false skewed noCaps [3] vt (stride (fun x => x.d)) ∧
    refused .stg .stg 3 2 false plain indexCap [3, 4] tw (offset (fun x => x.d))) ∧
  (∀ s n x, let h := s.hart n
     let w := h.vtype.width
     let on := fun j => j < count h ∧ h.pred x (index h j) w = true
     let va := fun j => seq (fun x => x.a) h x (index h j)
     s.Starts n .ldff x → Desc.ldff.okOps x = true → h.vlRange x [(2, w)] = none → h.vlen * w % (8 * nb h) = 0 →
     ∀ (pa c : Nat → Nat) f cause, s.Quiet n → on f →
       (∀ j, j < f → on j → va j % nb h = 0 ∧ s.Answers n .read (va j) (pa j) (c j)) →
       (va f % nb h ≠ 0 ∧ cause = .align) ∨ (va f % nb h = 0 ∧ s.Fails n .read (va f) cause) →
       ((∀ j, j < f → ¬ on j) → StopsAt (.ldff x) s n ⟨cause, BitVec.ofNat 64 (va f), 0, 0, 3, 0⟩) ∧
       ((∃ j, j < f ∧ on j) → ∃ t, exec (.ldff x) s = .next t ∧ s.SameMemory t ∧ (∀ m, m ≠ n → t.hart m = s.hart m) ∧ (t.hart n).pc = h.pc + 12 ∧
         (t.hart n).vl = BitVec.ofNat 64 (h.vl.toNat - h.vlen + index h f) ∧ h.Same (t.hart n) [] [] (liveBits x.d ++ markedBits x) ∧
         (∀ b ∈ liveBits x.d, (t.hart n).isLive b = true) ∧
         ∀ k, k < 2048 * grpSize x.d / (8 * nb h) → (on k → k < f → (t.hart n).elem (firstReg x.d) k (8 * nb h) = s.seenNat n (pa k) (nb h) (c k)) ∧
           (¬ (on k ∧ k < f) → (t.hart n).elem (firstReg x.d) k (8 * nb h) = h.elem (firstReg x.d) k (8 * nb h))))

/-- R48, R271, R276, R278 to R281: AMO and CAS read their place and write it at one instant, and give the old value in gd; AMO's floating-point
flags are ORed in and no enable applies. VAMO does so for each active element from that of ESTART on, before a later boundary of its element groups
that is chosen for a stop, and where every element names one place each is applied to it once. No other byte changes. A misaligned place stops with ALIGN, one that is refused or not answered with its cause, and the control window
with ADDR_RANGE; of VAMO every element below the one that failed has been applied then, and D is live. (That no other access falls between two elements: log 5;
what chooses a stop: log 14.) -/
def Obligations.Atomics : Prop :=
  let scalar := fun (t : Ty) (v : Nat) => if t.isSigned then (BitVec.ofNat t.width v).signExtend 64 else BitVec.ofNat 64 v
  let new := fun (t : Ty) (kind m b : Nat) =>
    if kind = 0 then arith t .rne false false XReal.add (fun p q => p + q) m b else if kind = 1 then (m &&& b, 0)
    else if kind = 2 then (m ||| b, 0) else if kind = 3 then (m ^^^ b, 0) else if kind = 4 then pick t false m b
    else if kind = 5 then pick t true m b else (b, 0)
  let ends := fun (i : Instr) (x : Ops) (s : State) (n pa nb old v : Nat) (fl : Flags) =>
    ∃ t, exec i s = .next t ∧ s.MemoryBut t pa nb v ∧ (∀ m, m ≠ n → t.hart m = s.hart m) ∧ s.Frame t x n (destG x.d) [] [] ∧
      (t.hart n).fflags = (s.hart n).fflags ||| fl.setWidth 64 ∧ (gNum x.d ≠ 0 → (t.hart n).gr (gNum x.d) = scalar x.td old)
  let stops := fun (i : Instr) (s : State) n (ea nb : Nat) =>
    (ea % nb ≠ 0 → Stops i s n ⟨.align, BitVec.ofNat 64 ea, 3, 0, 3, 0⟩) ∧
    (∀ c, ea % nb = 0 → s.Quiet n → s.Fails n .atomic ea c → StopsAt i s n ⟨c, BitVec.ofNat 64 ea, 3, 0, 3, 0⟩) ∧
    (∀ p, ea % nb = 0 → s.Quiet n → s.reach n .atomic ea = .ok p → window p.pa = 14 → StopsAt i s n ⟨.addrRange, BitVec.ofNat 64 ea, 3, 0, 3, 0⟩)
  (∀ s n x, let h := s.hart n
    let nb := x.td.width / 8
    let ea := (h.gr (gNum x.a)).toNat
    s.Ready n .amo x → Desc.amo.okOps x = true → stops (.amo x) s n ea nb ∧
    ∀ pa c, s.Quiet n → ea % nb = 0 → s.Answers n .atomic ea pa c → s.AtomicPlace n pa nb →
      let old := s.seenNat n pa nb c
      let r := new x.td x.var.val old ((h.src x.b).toNat % 2 ^ x.td.width)
      ends (.amo x) x s n pa nb old r.1 r.2) ∧
  (∀ s n x, let h := s.hart n
    let nb := x.td.width / 8
    let ea := (h.gr (gNum x.a)).toNat
    s.Ready n .cas x → Desc.cas.okOps x = true → stops (.cas x) s n ea nb ∧
    ∀ pa c, s.Quiet n → ea % nb = 0 → s.Answers n .atomic ea pa c → s.AtomicPlace n pa nb →
      let old := s.seenNat n pa nb c
      ends (.cas x) x s n pa nb old (if old = (h.gr (gNum x.d)).toNat % 2 ^ x.td.width then (h.src x.b).toNat % 2 ^ x.td.width else old) 0) ∧
  (∀ s n x b, let h := s.hart n
    let w := x.td.width
    let nb := w / 8
    let addr := fun k => (h.gr (gNum x.a) + BitVec.ofInt 64 (x.ts.int (h.elem (firstReg x.b) k x.ts.width))).toNat
    let on := fun k => b ≤ k ∧ k < h.vlen ∧ h.pred x k x.ts.width = true
    s.StartsAt n .vamo x b → (b = 0 ∨ b < h.vlen) → Desc.vamo.okOps x = true → h.vecCheck x [(2, w), (4, x.ts.width)] [2, 4] = none →
    (∀ f, on f → addr f % nb ≠ 0 → (∀ k, k < f → on k → addr k % nb = 0) → Stops (.vamo x) s n ⟨.align, BitVec.ofNat 64 (addr f), 3, 0, 3, b⟩) ∧
    ∀ pa c : Nat → Nat, s.Quiet n → (∀ k, on k → addr k % nb = 0) →
      let answers := fun k => s.Answers n .atomic (addr k) (pa k) (c k) ∧ s.AtomicPlace n (pa k) nb
      let old := fun k => s.seenNat n (pa k) nb (c k)
      let applied := fun (t : State) (top : Nat) =>
        (∀ m, m ≠ n → t.hart m = s.hart m) ∧ t.stores = s.stores ∧
        (∀ place a c, (∀ k, k < top → on k → a < pa k ∨ pa k + nb ≤ a) → t.homeByte place a c = s.homeByte place a c) ∧
        (∀ k, k < 2048 * grpSize x.d / w → ¬ (on k ∧ k < top) → (t.hart n).elem (firstReg x.d) k w = h.elem (firstReg x.d) k w) ∧
        ((∀ j k, j < top → k < top → on j → on k → j ≠ k → pa j + nb ≤ pa k ∨ pa k + nb ≤ pa j) → ∀ k, k < top → on k →
          (t.hart n).elem (firstReg x.d) k w = old k ∧ ∀ place i c, i < nb → t.homeByte place (pa k + i) c =
            BitVec.ofNat 8 ((new x.td x.var.val (old k) (h.elem (firstReg x.d) k w)).1 / 2 ^ (8 * i))) ∧
        (x.var = 0 → x.td.isFp = false → ∀ p e, (∀ k, k < top → on k → pa k = p ∧ c k = e) → (∃ k, k < top ∧ on k) → ∀ place i c, i < nb →
          t.homeByte place (p + i) c = BitVec.ofNat 8 ((s.seenNat n p nb e +
            (((List.range top).filter (fun k => b ≤ k && k < h.vlen && h.pred x k x.ts.width)).map (fun k => h.elem (firstReg x.d) k w)).sum) % 2 ^ w / 2 ^ (8 * i)))
      (h.cut = none → (∀ k, on k → answers k) → ∃ t, exec (.vamo x) s = .next t ∧ s.Frame t x n [] [] (liveBits x.d) ∧
        (∀ r ∈ liveBits x.d, (t.hart n).isLive r = true) ∧ applied t h.vlen) ∧
      (∀ e dog, h.cut = some ⟨e, dog⟩ → b < e → e < h.vlen → e % (2048 / w) = 0 → (∀ k, on k → k < e → answers k) →
        ∃ u t, exec (.vamo x) s = .next t ∧ u.CutsTo t n e dog ∧ h.Same (u.hart n) [] [] (liveBits x.d) ∧ (u.hart n).pc = h.pc ∧
          (∀ r ∈ liveBits x.d, (u.hart n).isLive r = true) ∧ applied u e) ∧
      (∀ f cause, h.cut = none → on f → (∀ k, k < f → on k → answers k) → s.Fails n .atomic (addr f) cause →
        ∃ u, exec (.vamo x) s = .next (u.stopHart n ⟨cause, BitVec.ofNat 64 (addr f), 3, 0, 3, f⟩) ∧
          h.Same (u.hart n) [] [] (liveBits x.d) ∧ (u.hart n).pc = h.pc ∧ (∀ r ∈ liveBits x.d, (u.hart n).isLive r = true) ∧ applied u f))

/-- R282, R283, R285, R315, R318, R319, R66, Table 13-11: CLEAN, FLUSH and INVAL act on every sector of which the range holds a byte, in DRAM
at any scope and in CXL memory at sys scope: CLEAN and FLUSH write a dirty one to memory, FLUSH and INVAL hold it no longer, and INVAL gives up
what was not yet written of the sectors that the range covers whole. Nothing else changes what is read; at sys scope CLEAN and FLUSH have each
write that this side of host memory holds in such a sector stand at the host. A range above 2^21 bytes stops with ADDR_RANGE, FADDR ga, and one
of which a byte does not translate with its cause, and nothing is acted on. PF changes no value that any agent reads. FENCE and FENCE.SC above
core scope perform every earlier store of their core, so that each byte at its home point is the last that they wrote there; at core scope
nothing is performed, and no later task of the core misses them; either way the next fetch finds every such store. FENCE.SC takes the next place
in the total order, and from pkg scope on its task's writes to host memory stand at both sides and at the host. (That a fence performs the stores at
once, what core scope marks, and where FENCE.SC has writes stand: log 18; that maintenance is done at its retirement: log 77.) -/
def Obligations.MaintenanceAndFences : Prop :=
  (let maint := fun (d : Desc) (mk : Ops → Instr) (kind : Acc) (fin : State → State → (Nat → Prop) → (Nat → Prop) → Prop) => ∀ s n x, let h := s.hart n
     let ga := (h.gr (gNum x.a)).toNat
     let len := (h.src x.b).toNat
     s.Ready n d x →
     (2 ^ 21 < len → Stops (mk x) s n ⟨.addrRange, BitVec.ofNat 64 ga, kind.code, 0, 3, 0⟩) ∧
     (∀ k c, len ≤ 2 ^ 21 → s.Quiet n → k < len → (∀ j, j < k → ∃ p, s.reach n kind (ga + j) = .ok p) → s.reach n kind (ga + k) = .error c →
       StopsAt (mk x) s n ⟨c, BitVec.ofNat 64 (ga + k), kind.code, 0, 3, 0⟩) ∧
     (∀ pa c : Nat → Nat, len ≤ 2 ^ 21 → s.Quiet n → (∀ w ∈ s.stores, w.hart ≠ n) → (∀ k, k < len → s.Answers n kind (ga + k) (pa k) (c k)) →
       let met := fun a => ∃ k, k < len ∧ pa k / 32 = a / 32
       let acted := fun a => met a ∧ (window a < 8 ∨ (window a = 11 ∧ x.var = 3))
       let whole := fun a => ∀ i, i < 32 → ∃ k, k < len ∧ pa k = a / 32 * 32 + i
       ∃ t, exec (mk x) s = .next t ∧ (∀ m, m ≠ n → t.hart m = s.hart m) ∧ s.Frame t x n [] [] [] ∧ t.stores = s.stores ∧
         (((∀ k, k < len → window (pa k) ≠ 10) ∨ x.var ≠ 3 ∨ s.hostWrites = []) → t.hostWrites = s.hostWrites ∧ fin s t acted whole) ∧
         (d.op ≠ 0x20F → x.var = 3 → s.hostAt (fun _ => []) = s → ∀ w ∈ t.hostWrites, w.at (sideOf (postId n)) = true →
           (∃ a, met a ∧ window a = 10 ∧ w.addr ≤ a ∧ a < w.addr + w.data.length) → w.atHost = true))
   let dirty := fun (s : State) (a : Nat) => ∃ y, s.sector a = some y ∧ y.dirty = true
   maint .clean .clean .read (fun s t acted _ => ∀ place a, t.homeByte place a 0 = s.homeByte place a 0 ∧ (¬ acted a → t.memByte a = s.memByte a) ∧
     (acted a → (dirty s a → t.memByte a = s.homeByte place a 0) ∧ (¬ dirty s a → t.memByte a = s.memByte a) ∧ ¬ dirty t a)) ∧
   maint .flush .flush .maint (fun s t acted _ => ∀ place a, ((¬ acted a ∨ dirty s a) → t.homeByte place a 0 = s.homeByte place a 0) ∧
     (acted a → t.sector a = none ∧ (¬ dirty s a → t.homeByte place a 0 = s.memByte a))) ∧
   maint .inval .inval .maint (fun s t acted whole => ∀ place a, (¬ acted a → t.homeByte place a 0 = s.homeByte place a 0) ∧
     (acted a → t.sector a = none ∧ ((whole a ∨ ¬ dirty s a) → t.homeByte place a 0 = s.memByte a) ∧
       (¬ whole a → dirty s a → t.homeByte place a 0 = s.homeByte place a 0)))) ∧
  (∀ s n x, s.Ready n .pf x → s.Quiet n → ReadsMemory (.pf x) x s n [] [] [] (fun _ => True)) ∧
  (let passed := fun (s t : State) (n scope : Nat) (x : Ops) => (∀ m, m ≠ n → t.hart m = s.hart m) ∧ s.Frame t x n [] [] [] ∧ (t.hart n).fetched = [] ∧
     (scope ≠ 0 → s.Performs t n scope []) ∧
     (scope = 0 → (∀ place a c, t.homeByte place a c = s.homeByte place a c) ∧
       t.stores = s.stores.map (fun y => if y.hart = n then { y with fenced := true, synced := true } else y))
   (∀ s n x, s.Ready n .fence x → ∃ t, exec (.fence x) s = .next t ∧ passed s t n x.var.val x ∧ t.scCount = s.scCount) ∧
   (∀ s n x, s.Ready n .fenceSc x → ∃ t, exec (.fenceSc x) s = .next t ∧ passed s t n x.var.val x ∧ t.scCount = s.scCount + 1 ∧
     (2 ≤ x.var.val → ∀ w ∈ t.hostWrites, w.owner = some (s.logHart n) → w.atWest = true ∧ w.atHost = true ∧ w.atEast = true)))

/-! Control flow and tasks. -/

/-- R325, Table 16-2: a transfer whose target is a multiple of 4 below 2^52 goes there, CALL's link in gd; BRZ and BRNZ
that do not transfer go on; a bad target stops with ALIGN or ADDR_RANGE, and neither pc nor gd changes. -/
def Obligations.Transfers : Prop :=
  let goes := fun (d : Desc) (link : Bool) (taken : Hart → Ops → Prop) (target : Hart → Ops → Word) => ∀ s n x, let h := s.hart n
    let t := target h x
    s.Ready n d x →
    (taken h x → t.toNat % 4 = 0 → t.toNat < 2 ^ 52 →
      Completes (d.ctor x) s n ((if link then h.setG (gNum x.d) (h.pc + 12) else h).goesOn x 0 t)) ∧
    (¬ taken h x → Retires (d.ctor x) x s n h 0) ∧
    (taken h x → t.toNat % 4 ≠ 0 → Stops (d.ctor x) s n ⟨.align, t, 0, 0, 0, 0⟩) ∧
    (taken h x → t.toNat % 4 = 0 → 2 ^ 52 ≤ t.toNat → Stops (d.ctor x) s n ⟨.addrRange, t, 0, 0, 0, 0⟩)
  let always := fun (_ : Hart) (_ : Ops) => True
  let words := fun (h : Hart) (off : Int) => h.pc + BitVec.ofInt 64 (12 * off)
  let rel := fun (x : Ops) => if x.a.cls = 7 then (BitVec.ofNat 32 (imm32 x)).toInt else (BitVec.ofNat 16 x.a.imm).toInt
  goes .br false always (fun h x => words h (rel x)) ∧
  goes .brz false (fun h x => h.gr (gNum x.a) = 0) (fun h x => words h (BitVec.ofNat 16 x.b.imm).toInt) ∧
  goes .brnz false (fun h x => h.gr (gNum x.a) ≠ 0) (fun h x => words h (BitVec.ofNat 16 x.b.imm).toInt) ∧
  goes .jmp false always (fun h x => h.gr (gNum x.a) + h.src x.b) ∧
  goes .jr false always (fun h x => words h (h.gr (gNum x.a)).toInt) ∧
  goes .call true always (fun h x => words h (rel x)) ∧
  goes .callReg true always (fun h x => h.gr (gNum x.a) + h.src x.b) ∧
  goes .ret false always (fun h x => h.gr (gNum x.a))

/-- R292: DONE and END executed while PEGMASK is not zero stop with PEG_BUSY, FADDR PEGMASK and FINFO 0. -/
def Obligations.PegBusy : Prop :=
  ∀ s n x, (s.hart n).pegmask ≠ 0 →
    (s.Ready n .done x → Stops (.done x) s n ⟨.pegBusy, (s.hart n).pegmask, 0, 0, 0, 0⟩) ∧
    (s.Ready n .endTask x → Stops (.endTask x) s n ⟨.pegBusy, (s.hart n).pegmask, 0, 0, 0, 0⟩)

/-- R328 to R330, R34, R35: with no peg and no command outstanding, DONE and END retire their task: it is no longer listed, its core is
free and holds nothing, and no other core changes. DONE first performs its earlier accesses at pkg scope and decrements the WAIT of each record
that its list names; a list of more than 255 entries, and an entry outside the graph's pool, stop it with SPAWN_RECORD, FADDR the address of the
offending word, with nothing decremented. With a command outstanding both wait. A decrement that takes WAIT from 1 to 0 makes the record READY;
one of a WAIT of 0, or of a free slot, sets UNDERFLOW. (That DONE performs its earlier accesses as an act of its own: log 18; what the fetch unit of the
freed core holds: log 13.) -/
def Obligations.TaskEnd : Prop :=
  let ready := fun (s : State) (n : Nat) (d : Desc) (x : Ops) (u : Nat) (t : Task) (gid : Nat) (g : Graph) =>
    s.Ready n d x ∧ (s.hart n).pegmask = 0 ∧ s.taskOf n = some (u, t) ∧ s.graphOf n = some (gid, g) ∧ s.hartOf u = some n
  let gone := fun (s t : State) (n u : Nat) => t.task u = none ∧ (t.hart n) = { Hart.blank with fetched := (s.hart n).fetched } ∧ ∀ m, m ≠ n → t.hart m = s.hart m
  let clear := fun (s : State) (n : Nat) (g : Graph) (t : Task) => s.Quiet n ∧ (∀ w ∈ s.stores, w.hart ≠ n) ∧ window g.pool = 8 ∧
    s.validAddr (g.slotAddr t.slot + 24) = true ∧ s.unreachable (postId n) (g.slotAddr t.slot + 24) = none ∧ s.plainPlace (g.slotAddr t.slot) 64 = true ∧ window (g.slotAddr t.slot) = 8
  (∀ s n x u t gid g, ready s n .endTask x u t gid g → t.copies + t.banks + t.rows = 0 →
    ∃ s', exec (.endTask x) s = .next s' ∧ gone s s' n u) ∧
  (∀ s n x u t gid g, ready s n .done x u t gid g → clear s n g t → t.copies + t.banks + t.rows = 0 → s.memNat (g.slotAddr t.slot + 24) 8 = 0 →
    ∃ s', exec (.done x) s = .next s' ∧ gone s s' n u) ∧
  (∀ s n x u t gid g (es : List Nat), let list := s.memNat (g.slotAddr t.slot + 24) 8
    ready s n .done x u t gid g → clear s n g t → t.copies + t.banks + t.rows = 0 → list ≠ 0 → list % 8 = 0 → window list = 8 →
    s.unreachable (postId n) list = none → s.plainPlace list (8 + 8 * es.length) = true → homePost (list + 8 * es.length) = homePost list →
    (∀ i, i ≤ es.length → s.validAddr (list + 8 * i) = true) →
    (∀ i e, es[i]? = some e → s.memNat (list + 8 + 8 * i) 8 = e) →
    let inPool := fun e => e % 64 = 0 ∧ g.pool ≤ e ∧ e < g.pool + 64 * 2 ^ g.poolLog
    (s.memNat list 8 = es.length → es.length ≤ 255 → (∀ e ∈ es, inPool e) →
      exec (.done x) s = .next ((es.foldl (fun s e => s.decrement gid e (postId n)) (s.release n 2)).retireTask u)) ∧
    (255 < s.memNat list 8 → Stops (.done x) s n ⟨.spawnRecord, BitVec.ofNat 64 list, 0, 0, 0, 0⟩) ∧
    (∀ i e, s.memNat list 8 = es.length → es.length ≤ 255 → es[i]? = some e → ¬ inPool e → (∀ j f, j < i → es[j]? = some f → inPool f) →
      Stops (.done x) s n ⟨.spawnRecord, BitVec.ofNat 64 (list + 8 + 8 * i), 0, 0, 0, 0⟩)) ∧
  (∀ s n x u t gid g, let waits := fun i => exec i s = .next (s.setHart n { s.hart n with
        mode := .blocked ⟨9, 0, 0, BitVec.ofNat 64 (t.copies + t.banks + t.rows)⟩, held := some ⟨i, .again⟩ })
    t.copies + t.banks + t.rows ≠ 0 →
    (ready s n .done x u t gid g → waits (.done x)) ∧ (ready s n .endTask x u t gid g → waits (.endTask x))) ∧
  (∀ (s : State) gid g post slot, s.graph gid = some g → s.Clean → window slot = 8 →
    let under := ((s.decrement gid slot post).graph gid) = some { g with underflow := true }
    let wait := s.memNat (slot + 16) 4
    (s.taskList.find? (fun p => p.2.graph = gid && g.slotAddr p.2.slot = slot) = none → under) ∧
    (∀ u t, s.taskList.find? (fun p => p.2.graph = gid && g.slotAddr p.2.slot = slot) = some (u, t) →
      (1 < wait → (s.decrement gid slot post).memNat (slot + 16) 4 = wait - 1 ∧ (s.decrement gid slot post).tasks = s.tasks) ∧
      (wait = 1 → t.status = .waiting → s.task u = some t →
        (s.decrement gid slot post).memNat (slot + 16) 4 = 0 ∧ ((s.decrement gid slot post).task u).map (fun t => t.status) = some .ready) ∧
      (wait = 0 → under)))

/-- R32, R38, R326, R327, R342, R349: SPAWN of a valid record into a pool with room publishes it in the lowest free slot under the next
TASKID, READY at once where WAIT is 0, with the slot's address in gd, and changes no other byte and no other core but by choosing a victim; a
record that breaks its checks, a full pool, a misaligned record and one that cannot be read stop it with nothing published. LAUNCH to a device
queue of its own ASID with room appends the entry at TAIL, which gd receives; to any other queue it stops with PRIV, a misaligned entry and one
that cannot be read stop it, and a full queue makes it wait with the entry that it has read, which it appends once there is room; FINFO of LAUNCH's stops is 0, as its rule gives none (R390). (Which task becomes the victim: log 43.) -/
def Obligations.SpawnAndLaunch : Prop :=
  let bad := fun (g : Graph) (r : List Byte) =>
    let f := fun off k => natOfBytes ((r.drop off).take k)
    let aff := f 20 4
    f 0 8 % 4 ≠ 0 ∨ 4 < aff / 512 % 8 ∨ aff / 4096 ≠ 0 ∨ (if aff % 256 = 0 then g.posts else g.posts &&& aff % 256) = 0 ∨ f 24 8 % 8 ≠ 0 ∨
      (f 32 8 ≠ 0 ∧ (2 ^ 32 ≤ f 32 8 ∨ 255 < f 32 8 / 256 % 256 + f 32 8 % 256)) ∨
      (f 24 8 ≠ 0 ∧ ¬ (window (f 24 8) = 8 ∧ homePost (f 24 8) = homePost g.pool))
  let taken := fun (s : State) gid k => ∃ u t, (u, t) ∈ s.taskList ∧ t.graph = gid ∧ t.slot = k
  (∀ s n x gid g slot pa c, let h := s.hart n
     let ga := (h.gr (gNum x.a)).toNat
     let rec_ := (List.range 64).map (fun k => s.seenByte n (pa + k) c)
     s.Ready n .spawn x → ga % 64 = 0 → s.Quiet n → (∀ w ∈ s.stores, w.hart ≠ n) → s.MemWf → s.Answers n .read ga pa c → window pa ≠ 14 →
     s.graphOf n = some (gid, g) → s.unreachable (postId n) (g.pool + 64 * slot) = none → ¬ bad g rec_ → slot < 2 ^ g.poolLog → ¬ taken s gid slot → (∀ k, k < slot → taken s gid k) →
     let waits := natOfBytes ((rec_.drop 16).take 4) ≠ 0
     ∃ t, exec (.spawn x) s = .next t ∧ (t.hart n).pc = h.pc + 12 ∧ (gNum x.d ≠ 0 → (t.hart n).gr (gNum x.d) = BitVec.ofNat 64 (g.pool + 64 * slot)) ∧
       t.memNat (g.pool + 64 * slot) 64 = natOfBytes rec_ ∧ (∀ a, (a < g.pool + 64 * slot ∨ g.pool + 64 * slot + 64 ≤ a) → t.memByte a = s.memByte a) ∧
       t.nextUid = s.nextUid + 1 ∧ (∀ m, m ≠ n → t.hart m = { s.hart m with victim := (t.hart m).victim }) ∧
       (t.graph gid) = some { g with nextId := if g.nextId = 2 ^ 32 - 1 then 1 else g.nextId + 1 } ∧
       (∃ k, t.task s.nextUid = some k ∧ k.graph = gid ∧ k.id = g.nextId ∧ k.slot = slot ∧ k.started = false ∧ k.image = none ∧
         (waits → k.status = .waiting) ∧ (¬ waits → k.status = .ready)) ∧
       (waits → s.Frame t x n (destG x.d) [] [])) ∧
  (∀ s n x, let h := s.hart n
     let ga := (h.gr (gNum x.a)).toNat
     let stops := fun (c : Cause) => ∃ u, exec (.spawn x) s = .next (u.stopHart n ⟨c, BitVec.ofNat 64 ga, 0, 0, 3, 0⟩) ∧ s.SameMemory u ∧
       (∀ m, u.hart m = s.hart m) ∧ (u.tasks, u.graphs, u.ready, u.nextUid) = (s.tasks, s.graphs, s.ready, s.nextUid)
     s.Ready n .spawn x →
     (ga % 64 ≠ 0 → stops .align) ∧ (∀ c, ga % 64 = 0 → s.Quiet n → s.Fails n .read ga c → stops c) ∧
     (∀ pa c gid g, ga % 64 = 0 → s.Quiet n → s.Answers n .read ga pa c → window pa ≠ 14 → s.graphOf n = some (gid, g) →
       let rec_ := (List.range 64).map (fun k => s.seenByte n (pa + k) c)
       (bad g rec_ → stops .spawnRecord) ∧ (¬ bad g rec_ → (∀ k, k < 2 ^ g.poolLog → taken s gid k) → stops .spawnFull))) ∧
  (∀ s n x, let h := s.hart n
     let q := (h.gr (gNum x.a)).toNat
     let gb := (h.gr (gNum x.b)).toNat
     let may := q < 8192 ∧ (s.qword q 8).testBit 5 = true ∧ s.qword q 8 / 2 ^ 48 % 2 ^ 16 = s.asidOf n
     let size := 2 ^ s.qLogSize q
     let used := (s.qTail q + 2 ^ 32 - s.qDone q) % 2 ^ 32
     let slot := s.qword q 0 + 64 * (s.qTail q % size)
     let toRing := (s.plainPlace slot 64 = true ∨ (window slot = 10 ∧ s.hostWrites = [])) ∧ s.validAddr slot = true ∧ s.scrapped = 0 ∧ slot % 64 = 0
     let appended := fun (t : State) (entry : Nat → Byte) => s.Frame t x n (destG x.d) [] [] ∧ (∀ m, m ≠ n → t.hart m = s.hart m) ∧
       (gNum x.d ≠ 0 → (t.hart n).gr (gNum x.d) = BitVec.ofNat 64 (s.qTail q)) ∧ t.qTail q = (s.qTail q + 1) % 2 ^ 32 ∧ t.qDone q = s.qDone q ∧
       ∀ k place, k < 64 → t.homeByte place (slot + k) 0 = entry k
     (s.Ready n .launch x →
       (¬ may → Stops (.launch x) s n ⟨.priv, BitVec.ofNat 64 q, 0, 0, 0, 0⟩) ∧
       (may → gb % 64 ≠ 0 → Stops (.launch x) s n ⟨.align, BitVec.ofNat 64 gb, 0, 0, 0, 0⟩) ∧
       (∀ c, may → gb % 64 = 0 → s.Quiet n → s.Fails n .read gb c → StopsAt (.launch x) s n ⟨c, BitVec.ofNat 64 gb, 0, 0, 0, 0⟩) ∧
       (∀ pa c, may → gb % 64 = 0 → s.Quiet n → (∀ w ∈ s.stores, w.hart ≠ n) → s.Answers n .read gb pa c → window pa ≠ 14 →
         let entry := fun k => s.seenByte n (pa + k) c
         (size ≤ used → ∃ t, exec (.launch x) s = .next t ∧ s.SameMemory t ∧ (∀ m, m ≠ n → t.hart m = s.hart m) ∧
           t.hart n = { h with mode := .blocked ⟨14, 0, 3, BitVec.ofNat 64 q⟩, held := some ⟨.launch x, .launch ((List.range 64).map entry)⟩ }) ∧
         (used < size → toRing → ∃ t, exec (.launch x) s = .next t ∧ appended t entry))) ∧
     (∀ entry, entry.length = 64 → State.Ready { s with harts := (s.setHart n { h with held := none }).harts } n .launch x →
       h.held = some ⟨.launch x, .launch entry⟩ → s.Clean → (∀ w ∈ s.stores, w.hart ≠ n) → used < size → toRing →
       ∃ t, exec (.launch x) s = .next t ∧ appended t (fun k => entry.getD k 0)))

/-- R41, R60, R290, R331 to R333: YIELD retires and begins to save the image; WAITC retires while the count of its class is not above its
operand and waits at port 9 otherwise; WAITA retires with the word where it differs from gb and waits at port 11 while it
is equal, and retires with the word that it then finds once that differs; a misaligned word, one in window 0x9 or from 0xB up, and one that
cannot be read stop it, with FINFO 0, as the rule gives none (R390). -/
def Obligations.Waits : Prop :=
  (∀ s n x, s.Ready n .yield x → isSys n = false →
     Completes (.yield x) s n { (s.hart n).goesOn x 0 ((s.hart n).pc + 12) with mode := .saving .yield, victim := false }) ∧
  (∀ s n x, s.Ready n .waitc x →
     let counts := match s.taskOf n with
       | some (_, t) => (t.copies, t.banks, t.rows)
       | none => ((s.hart n).copies, 0, 0)
     let count := if x.var = 0 then counts.1 else if x.var = 1 then counts.2.1 else if x.var = 2 then counts.2.2
       else counts.1 + counts.2.1 + counts.2.2
     (count ≤ ((s.hart n).src x.a).toNat → Retires (.waitc x) x s n (s.hart n) 0) ∧
     (((s.hart n).src x.a).toNat < count →
       exec (.waitc x) s = .next (s.setHart n { s.hart n with mode := .blocked ⟨9, 0, 3, BitVec.ofNat 64 count⟩, held := some ⟨.waitc x, .again⟩ }))) ∧
  (∀ s n x pa c, let h := s.hart n
     let ga := (h.gr (gNum x.a)).toNat
     let refused := fun pa => window pa = 9 ∨ 11 ≤ window pa
     let v := BitVec.ofNat 64 (s.seenNat n pa 8 c)
     let blocked := { h with mode := .blocked ⟨11, 0, 3, BitVec.ofNat 64 ga⟩, held := some ⟨.waita x, .word pa c⟩ }
     (s.Ready n .waita x →
       (ga % 8 ≠ 0 → Stops (.waita x) s n ⟨.align, BitVec.ofNat 64 ga, 0, 0, 0, 0⟩) ∧
       (ga % 8 = 0 → s.Quiet n → s.xlateOn n .read ga = .ok ⟨pa, c⟩ → refused pa → StopsAt (.waita x) s n ⟨.addrRange, BitVec.ofNat 64 ga, 0, 0, 0, 0⟩) ∧
       (∀ e, ga % 8 = 0 → s.Quiet n → s.Fails n .read ga e → (∀ p, s.xlateOn n .read ga = .ok p → ¬ refused p.pa) →
         StopsAt (.waita x) s n ⟨e, BitVec.ofNat 64 ga, 0, 0, 0, 0⟩) ∧
       (ga % 8 = 0 → s.Quiet n → s.Answers n .read ga pa c → ¬ refused pa →
         (v ≠ h.gr (gNum x.b) → ReadsMemory (.waita x) x s n (destG x.d) [] [] (fun t => gNum x.d ≠ 0 → t.gr (gNum x.d) = v)) ∧
         (v = h.gr (gNum x.b) → ∃ t, exec (.waita x) s = .next t ∧ s.SameMemory t ∧ (∀ m, m ≠ n → t.hart m = s.hart m) ∧ t.hart n = blocked))) ∧
     (State.Ready { s with harts := (s.setHart n { h with held := none }).harts } n .waita x → h.held = some ⟨.waita x, .word pa c⟩ →
       s.Quiet n → s.unreachable (postId n) pa = none →
       (v ≠ h.gr (gNum x.b) → ReadsMemory (.waita x) x s n (destG x.d) [] [] (fun t => gNum x.d ≠ 0 → t.gr (gNum x.d) = v)) ∧
       (v = h.gr (gNum x.b) → ∃ t, exec (.waita x) s = .next t ∧ s.SameMemory t ∧ (∀ m, m ≠ n → t.hart m = s.hart m) ∧ t.hart n = blocked)))

/-- R55, R334: LIVE sets LIVEMASK; a register whose bit falls is dropped, one whose bit rises holds zeros, one whose bit stays keeps
what it held. A value with a bit above 51 stops with ILL_FIELD at field 3. A register that is made dead reads zero, a d register as the zero
direction with the zero norm. -/
def Obligations.LiveSets : Prop :=
  (∀ s n x, let h := s.hart n
    let v := h.gr (gNum x.a)
    s.Ready n .liveSet x →
    (v.toNat < 2 ^ 52 → ∃ t g, exec (.liveSet x) s = .next t ∧ s.Turns t n (g.goesOn x 0 (h.pc + 12)) ∧ h.LiveTo g (s.tilesOf n) v) ∧
    (2 ^ 52 ≤ v.toNat → Stops (.liveSet x) s n ⟨.illField, 0, 0, 0, 3, 0⟩)) ∧
  (∀ s n x, let h := s.hart n
    let v := h.livemask &&& ~~~(h.gr (gNum x.a))
    s.Ready n .liveDrop x →
    (v.toNat < 2 ^ 52 → ∃ t g, exec (.liveDrop x) s = .next t ∧ s.Turns t n (g.goesOn x 0 (h.pc + 12)) ∧ h.LiveTo g (s.tilesOf n) v) ∧
    (2 ^ 52 ≤ v.toNat → Stops (.liveDrop x) s n ⟨.illField, 0, 0, 0, 3, 0⟩)) ∧
  (∀ (h : Hart) b, b < 52 → (h.kill b).isLive b = false ∧ (∀ c, c ≠ b → (h.kill b).isLive c = h.isLive c) ∧
    (b < 32 → (h.kill b).vr b = 0) ∧ (32 ≤ b → b < 48 → (h.kill b).dr (b - 32) = 0 ∧ (h.kill b).mr (b - 32) = normZero) ∧
    (48 ≤ b → ∀ i j, i < 256 → j < 256 → (h.kill b).cell (b - 48) i j = 0))

/-! Engine commands and row programs. -/

/-- R286, R287, R289, R296, R305: a copy instruction whose block reads, whose fields are in range, whose addresses translate and
whose engine has room enters the engine's queue, and its region's list, with its peg set and its count raised, nothing of it yet done; with a
full queue a task waits with the copy that it has prepared, and a system core stops with ENGINE_FULL. A misaligned or unreadable block, a field
out of range (BANK_PARAM), a range that does not translate, a handle that is not valid or holds too few lanes, an engine out of reach and a region in
compute mode (REGION_MODE) stop it with nothing queued. (That a copy keeps its queue entry until it completes: log 47; an engine out of reach: log
66.) -/
def Obligations.CopyIssue : Prop :=
  let issues := fun (d : Desc) (mk : Ops → Instr) (kind : Nat) => ∀ s n x, let h := s.hart n
    let ga := (h.gr (gNum x.a)).toNat
    let gb := (h.gr (gNum x.b)).toNat
    let named := gNum x.b ≠ 0
    let stops := fun (c : Cause) (at_ : Nat) => ∃ u, exec (mk x) s = .next (u.stopHart n ⟨c, BitVec.ofNat 64 at_, 4, 0, 3, 0⟩) ∧ s.SameMemory u ∧
      (∀ m, u.hart m = s.hart m) ∧ (u.copies, u.tasks, u.regions) = (s.copies, s.tasks, s.regions)
    s.Ready n d x →
    (ga % 64 ≠ 0 → stops .align ga) ∧
    (∀ c, ga % 64 = 0 → s.Quiet n → s.Fails n .read ga c → stops c ga) ∧
    (∀ s1 s2 bs r post subs, ga % 64 = 0 → s.Quiet n → (∀ w ∈ s.stores, w.hart ≠ n) → s.hostWrites = [] →
      s.loadBlock n ga 64 x.hint.val = (s1, .ok bs) →
      let p := copyParam bs gb
      (copyBlockOk bs p kind named = false → stops .bankParam ga) ∧
      (copyBlockOk bs p kind named = true → named → gb % 8 ≠ 0 → stops .align gb) ∧
      (copyBlockOk bs p kind named = true → (named → gb % 8 = 0) →
       (∀ c a, s1.copyRanges n (s.asidOf n) h.task kind p ga named = .error (c, a) → stops c a) ∧
       (s1.copyRanges n (s.asidOf n) h.task kind p ga named = .ok r →
       let s1' := if isSys n then s1 else s1.copyWalks (s.asidOf n) (postId n) (s1.logHart n) kind p
       ((kind = 1 ∨ kind = 2) → (isSys n = true → stops .regionHandle ga) ∧ (isSys n = false →
         (∀ c, s1'.validRegion (postId n) (s.asidOf n) p.handle = (s2, .error c) → stops c ga) ∧
         (s1'.validRegion (postId n) (s.asidOf n) p.handle = (s2, .ok (post, subs)) → 8192 * subs.length < p.lane + p.len / 2 ^ p.esize →
           stops .bankParam ga))) ∧
       ((if kind = 1 ∨ kind = 2 then isSys n = false ∧ s1'.validRegion (postId n) (s.asidOf n) p.handle = (s2, .ok (post, subs)) ∧
         p.lane + p.len / 2 ^ p.esize ≤ 8192 * subs.length else s2 = s1' ∧ post = 0 ∧ subs = []) →
       let e := copyEngine n kind post r
       let total := if kind = 1 ∨ kind = 2 then p.len / 2 ^ p.esize else if kind = 3 then (if p.len = 0 then 0 else p.outlen) else p.len
       let queued := (s.copiesAt e).length
       let reach := s.unreachable (postId n) (if e < 8 then e * 2 ^ 48 else 10 * 2 ^ 48)
       let made := fun (c : Copy) => (c.kind, c.par, c.src, c.dst, c.fp, c.bar) = (kind, p, r.src, r.dst, r.fp, r.bar) ∧
         (c.issuer, c.task, c.peg, c.started, c.landed, c.cause) = (n, h.task, gNum x.d, false, 0, none) ∧ (c.early, c.owed) = ([], (0, 0)) ∧ c.left = if total = 0 then [] else [(0, total)]
       (∀ f, queued < engineSize e → reach = some f → stops f ga) ∧
       (queued < engineSize e → reach = none → (kind = 1 ∨ kind = 2) → s2.tailMode (s.asidOf n) p.handle = true → stops .regionMode ga) ∧
       (queued < engineSize e → reach = none → ((kind = 1 ∨ kind = 2) → s2.tailMode (s.asidOf n) p.handle = false) →
         ∃ t c, exec (mk x) s = .next t ∧ s.Issues t x n (gNum x.d) 0 e ∧
          t.copiesAt e = s.copiesAt e ++ [c] ∧ (∀ q, q ≠ e → t.copiesAt q = s.copiesAt q) ∧ c.seq = Table.get 0 s.accepts e ∧ made c ∧
          (s.taskOf n = none → h.task = none → (t.hart n).copies = h.copies + 1) ∧
          ((kind = 1 ∨ kind = 2) → ∃ q, t.region (s.asidOf n) p.handle = some q ∧ q.items.getLast? = some (.copy e c.seq))) ∧
       (engineSize e ≤ queued → (isSys n = true → stops .engineFull 0) ∧
         (isSys n = false → ∃ t c sc, exec (mk x) s = .next t ∧ s.SameMemory t ∧ t.copies = s.copies ∧ (∀ m, m ≠ n → t.hart m = s.hart m) ∧ made c ∧
           t.hart n = { h with mode := .blocked ⟨12, 0, 3, BitVec.ofNat 64 ga⟩, held := some ⟨mk x, .copy e sc ga subs c⟩ }))))))
  issues .cpyByte .cpyByte 0 ∧ issues .cpyTin .cpyTin 1 ∧ issues .cpyTout .cpyTout 2 ∧
  issues .cpyBloom .cpyBloom 3 ∧ issues .cpyf .cpyf 4 ∧ issues .cpyc .cpyc 5

/-- R218 to R223: a bank command whose block and entries read, whose fields and places are in range, whose operand vector
reads and whose pages lie in one post enters that post's queue with its peg set and its count raised; with a full queue it waits with the command
that it has prepared. A misaligned or unreadable block, list or operand vector, a field or a place out of range, a page that does not translate with
the permission that its bytes need, one outside the posts' DRAM, of another post than the first, smaller than 2 MiB or not of the byte layout, a range
outside the pages, a bank with more than 262,144 bytes to move, and a post out of reach stop it with nothing queued. (That a started command keeps its
queue entry until it completes: log 47; a page no byte of which is touched: log 83; a post out of reach: log 66.) -/
def Obligations.BankIssue : Prop :=
  let issues := fun (d : Desc) (mk : Ops → Instr) (op : BkOp) => ∀ s n x, let h := s.hart n
    let ga := (h.gr (gNum x.a)).toNat
    let hint := x.hint.val
    let stops := fun (c : Cause) (at_ : Nat) => ∃ u, exec (mk x) s = .next (u.stopHart n ⟨c, BitVec.ofNat 64 at_, 4, 0, 3, 0⟩) ∧ s.SameMemory u ∧
      (∀ m, u.hart m = s.hart m) ∧ (u.banks, u.tasks) = (s.banks, s.tasks)
    s.Ready n d x →
    (ga % 64 ≠ 0 → stops .align ga) ∧
    (∀ c, ga % 64 = 0 → s.Quiet n → s.Fails n .read ga c → stops c ga) ∧
    (∀ s1 s2 bs c a, ga % 64 = 0 → s.Quiet n → (∀ w ∈ s.stores, w.hart ≠ n) → s.load n ga 64 .read hint = (s1, .ok bs) →
      s1.loadWords n (ga + 64) hint (bankParam bs h.fmodeRm).npage = (s2, .error (c, a)) → stops c a) ∧
    (∀ s1 s2 s3 bs entries, ga % 64 = 0 → s.Quiet n → (∀ w ∈ s.stores, w.hart ≠ n) →
      s.load n ga 64 .read hint = (s1, .ok bs) →
      let p := bankParam bs h.fmodeRm
      s1.loadWords n (ga + 64) hint p.npage = (s2, .ok entries) →
      (bankFieldsOk op bs p entries = false ∨ bankPlacesOk op x.td p = false → stops .bankParam ga) ∧
      (∀ c a, bankFieldsOk op bs p entries = true → bankPlacesOk op x.td p = true → s2.operandVector n op p hint = (s3, .error (c, a)) → stops c a) ∧
      (∀ opv, bankFieldsOk op bs p entries = true → bankPlacesOk op x.td p = true → s2.operandVector n op p hint = (s3, .ok opv) →
       let place := postId n
       let rs := bankRanges op x.td p
       let page := fun (e : Nat) => s3.xlate (s.asidOf n) place (if pieceWritten rs e then .write else .read) e
       (∀ before e after c, entries = before ++ e :: after → (∀ f ∈ before, ∃ y, page f = .ok y) → page e = .error c → stops c e) ∧
       (∀ ps, s3.translatePieces (s.asidOf n) place rs entries = .ok ps →
        let post := if p.count = 0 then place else match ps with | q :: _ => window q.2.1 | [] => place
        let good := fun (q : Nat × Nat × Nat) => window q.2.1 ≤ 7 ∧ window q.2.1 = post ∧ s3.bytePiece q.2.1 = true ∧
          ∃ v size, (s3.walkVa (s.asidOf n) q.1 place).leaf = .ok (v, size) ∧ (size = 21 ∨ size = 30)
        let inside := ∀ r ∈ rs, ∀ k, k < r.len → ∃ q ∈ ps, q.1 = pieceBase (r.va + k)
        (∀ before q after, ps = before ++ q :: after → (∀ y ∈ before, good y ∧ s3.unreachable place y.2.1 = none) →
          (¬ good q → stops .bankParam q.1) ∧ (∀ f, good q → s3.unreachable place q.2.1 = some f → stops f q.1)) ∧
        ((∀ q ∈ ps, good q ∧ s3.unreachable place q.2.1 = none) → (¬ inside ∨ loadOk ps rs = false) → stops .bankParam ga))) ∧
      (∀ opv post ps, bankFieldsOk op bs p entries = true → bankPlacesOk op x.td p = true → s2.operandVector n op p hint = (s3, .ok opv) →
       s3.bankList (s.asidOf n) (postId n) (if p.count = 0 then some (postId n) else none) (bankRanges op x.td p) entries ga = .ok (post, ps) →
       let made := fun (c : BankCmd) => (c.op, c.td, c.ts, c.par, c.pieces, c.opv) = (op.code, x.td, x.ts, p, ps, opv) ∧
         (c.task, c.peg, c.started, c.early, c.ran, c.result) = (h.task, gNum x.d, false, [], [], none)
       (∀ f, (s.bankQueue post).length < 256 → s.unreachable (postId n) (post * 2 ^ 48) = some f → stops f ga) ∧
       ((s.bankQueue post).length < 256 → s.unreachable (postId n) (post * 2 ^ 48) = none → ∃ t c, exec (mk x) s = .next t ∧ s.Issues t x n (gNum x.d) 1 (16 + post) ∧
         t.bankQueue post = s.bankQueue post ++ [c] ∧ (∀ r, r ≠ post → t.bankQueue r = s.bankQueue r) ∧ c.seq = Table.get 0 s.accepts (16 + post) ∧ made c) ∧
       (256 ≤ (s.bankQueue post).length → ∃ t c, exec (mk x) s = .next t ∧ s.SameMemory t ∧ t.banks = s.banks ∧ (∀ m, m ≠ n → t.hart m = s.hart m) ∧ made c ∧
         t.hart n = { h with mode := .blocked ⟨12, 0, 3, BitVec.ofNat 64 ga⟩, held := some ⟨mk x, .bank post c⟩ })))
  issues .bkadd .bkadd .add ∧ issues .bkmul .bkmul .mul ∧ issues .bkfma .bkfma .fma ∧ issues .bkdot8 .bkdot8 .dot8 ∧ issues .bklut4 .bklut4 .lut4 ∧
  issues .bksum .bksum .sum ∧ issues .bkfill .bkfill .fill ∧ issues .bkacc .bkacc .acc ∧ issues .bkclr .bkclr .clr

/-- R120, R122, R225 to R231: what the work of a bank command leaves. Where no sector in its way is poisoned or uncorrectable, the elements of Z
lie at addresses of their own and no element reads what another writes, element `i` of Z takes the value of its command's rule, computed from the
elements as they stood before: the rounded sum, product or fused sum (BKADD, BKMUL, BKFMA), the sum of the slices in ascending order (BKSUM), the
accumulator after a unit of the row's products or of a record's terms (BKDOT8, BKACC), the rounded exact sum of a row's codebook products (BKLUT4),
SCALAR (BKFILL), zero (BKCLR). The flags of the elements are joined, no cause is met, and no byte outside Z changes. A record that breaks R120, read
by BKDOT8 or BKACC, is left as it is, and the lowest such index carries BANK_PARAM. A unit adds its finite terms exactly, clamps, keeps OVF or sets
it with ACCOV, and takes its state by Table 6-7; the terms of a row of BKDOT8 are the products of its bytes with the operand vector. -/
def Obligations.BankFill : Prop :=
  (∀ (s : State) (c : BankCmd),
    let p := c.par
    let n := p.count
    let e := c.size
    let op := BkOp.ofCode c.op
    let at_ := fun (va : Nat) => (pieceAt c.pieces va).1
    let num := fun (va len : Nat) => natOfBytes ((List.range len).map (fun j => s.memByte (at_ (va + j))))
    s.Clean → c.early = [] → 8 ≤ c.td.width →
    (∀ q ∈ c.pieces, q.1 % 2 ^ 21 = 0 ∧ q.2.1 % 2 ^ 21 = 0 ∧ window q.2.1 < 8) →
    (∀ i r k, i < n → r ∈ (p.z + i * e, e) :: c.sources i → k < r.2 → ∃ q ∈ c.pieces, q.1 = pieceBase (r.1 + k)) →
    (∀ i j, i < n * e → j < n * e → at_ (p.z + i) = at_ (p.z + j) → i = j) →
    (∀ i j r k m, i < n → j < n → i ≠ j → r ∈ c.sources i → k < r.2 → m < e → at_ (r.1 + k) ≠ at_ (p.z + j * e + m)) →
    let t := c.td
    let rm := RM.ofCode p.rm
    let x := fun (i : Nat) => num (p.x + i * e) e
    let y := fun (i : Nat) => if p.bcast then p.scalar % 2 ^ t.width else num (p.y + i * e) e
    let z := fun (i : Nat) => num (p.z + i * e) e
    let rounded := fun (v : XReal × Flags) (t : Ty) (read : Flags) => let (b, g) := v.1.round t rm false 0; some (b, v.2 ||| g ||| read)
    let slices := fun (i : Nat) => (List.range p.l).foldl (fun (r : Nat × Flags) k =>
      let u := num (p.x + k * p.stride + i * e) e
      let (v, f) := if k = 0 then (t.value u, (0 : Flags)) else (t.value r.1).add (t.value u) rm
      let (b, g) := v.round t rm false 0
      (b, r.2 ||| f ||| g ||| t.readFlags u)) (0, 0)
    let lut := fun (i : Nat) =>
      let row := num (p.x + i * p.stride) (p.l / 2)
      let half := fun (k : Nat) => natOfBytes ((c.opv.drop (2 * k)).take 2)
      let pairs := (List.range p.l).map (fun l => (half (16 + l), half (row / 2 ^ (4 * l) % 16)))
      let products := pairs.map (fun q => XReal.mul (c.ts.value q.1) (c.ts.value q.2))
      let (v, f) := sumAll rm (Ty.fp32.value (z i) :: products.map (fun q => q.1))
      rounded (v, products.foldl (fun g q => g ||| q.2) f) .fp32
        (pairs.foldl (fun g q => g ||| c.ts.readFlags q.1 ||| c.ts.readFlags q.2) (Ty.fp32.readFlags (z i)))
    let elem : Nat → Option (Nat × Flags) := fun i => match op with
      | .add => rounded ((t.value (x i)).add (t.value (y i)) rm) t (t.readFlags (x i) ||| t.readFlags (y i))
      | .mul => rounded ((t.value (x i)).mul (t.value (y i))) t (t.readFlags (x i) ||| t.readFlags (y i))
      | .fma => rounded (fusedAdd (t.value (x i)) (t.value (y i)) (t.value (z i)) rm) t (t.readFlags (x i) ||| t.readFlags (y i) ||| t.readFlags (z i))
      | .sum => some (slices i)
      | .dot8 => if accOk (z i) then (let (q, f) := dotTerms c (num (p.x + i * p.stride) p.l); let (v, g) := accUnit (z i) q; some (v, f ||| g)) else none
      | .acc => if accOk (z i) ∧ accOk (x i) then
            (let (v, g) := accUnit (z i) (recordTerms (x i)); some (if (x i).testBit 99 ∧ v.testBit 99 = false then v + 2 ^ 99 else v, g))
          else none
      | .lut4 => lut i
      | .fill => some (p.scalar % 2 ^ t.width, 0)
      | .clr => some (0, 0)
    let out := fun (i : Nat) => (elem i).getD (z i, 0)
    let r := s.bankWork c
    r.2.flags = (List.range n).foldl (fun f i => f ||| (out i).2) 0 ∧
    r.2.cause = ((List.range n).find? (fun i => (elem i).isNone)).map (fun i => (i, 0, .bankParam)) ∧
    (∀ i j, i < n → j < e → r.1.memByte (at_ (p.z + i * e + j)) = BitVec.ofNat 8 ((out i).1 / 2 ^ (8 * j))) ∧
    (∀ a, (∀ i, i < n * e → a ≠ at_ (p.z + i)) → r.1.memByte a = s.memByte a)) ∧
  (∀ (r : Nat) (q : AccTerms), accOk r = true → let u := accUnit r q
    let exact := sextN r 96 + q.fin
    let clamped := max (-2 ^ 95) (min exact (2 ^ 95 - 1))
    let plus := r.testBit 97 ∨ q.pinf
    let minus := r.testBit 98 ∨ q.ninf
    let clash := r.testBit 96 = false ∧ q.nan = false ∧ plus ∧ minus
    let nan := r.testBit 96 ∨ q.nan ∨ clash
    accOk u.1 = true ∧ sextN u.1 96 = clamped ∧ (u.1.testBit 96 ↔ nan) ∧ (u.1.testBit 97 ↔ ¬ nan ∧ plus) ∧ (u.1.testBit 98 ↔ ¬ nan ∧ minus) ∧
    (u.1.testBit 99 ↔ r.testBit 99 ∨ clamped ≠ exact) ∧ (u.2 &&& fACCOV = fACCOV ↔ clamped ≠ exact) ∧ (u.2 &&& fNV = fNV ↔ clash) ∧
    u.2 &&& ~~~(fACCOV ||| fNV) = 0) ∧
  (∀ (c : BankCmd) (row : Nat), let prod := fun l => XReal.mul (c.ts.value (row / 2 ^ (8 * l) % 256)) (c.td.value (c.opv.getD l 0).toNat)
    let any := fun (v : XReal) => ∃ l, l < c.par.l ∧ (prod l).1 = v
    let q := dotTerms c row
    q.1.fin = ((List.range c.par.l).map (fun l => (prod l).1.scaled (-32))).sum ∧ (q.1.nan = true ↔ any .nan) ∧ (q.1.pinf = true ↔ any (.inf false)) ∧
    (q.1.ninf = true ↔ any (.inf true)) ∧ q.2 = (List.range c.par.l).foldl (fun f l => f ||| (prod l).2) 0)

/-- R240, R241, R243, R245, R259: RPMODE of a valid handle sets the mode at tail, and the mode now where the list is empty; behind a list that is
not empty a change of mode takes its place at the end. RPGO of a valid block on a region whose mode at tail is compute puts its program, with its
words and its slots as it has read them, at the end of its sequencer's queue and of the region's list. A handle that is not valid stops either
(REGION_HANDLE, or why its tables cannot be read), a misaligned or unreadable block and a field out of range (BANK_PARAM) and a region in copy mode
(REGION_MODE) stop RPGO with nothing queued, a post out of reach stops either, and a full queue makes either wait with what it has prepared. (That a
request holds its place in the queue until its program ends or its mode applies, and that an RPMODE to the mode at tail takes a number and no item:
log 47; a post out of reach: log 66.) -/
def Obligations.RowIssue : Prop :=
  let mode := fun (d : Desc) (mk : Ops → Instr) (compute : Bool) => ∀ s n x, let h := s.hart n
    let ga := (h.gr (gNum x.a)).toNat
    let asid := s.asidOf n
    let now := fun (s : State) => s.region asid ga
    s.Ready n d x →
    (2 ^ 32 ≤ ga → Stops (mk x) s n ⟨.regionHandle, 0, 5, 0, 3, 0⟩) ∧
    (∀ s1 c, ga < 2 ^ 32 → s.validRegion (postId n) asid ga = (s1, .error c) → exec (mk x) s = .next (s1.stopHart n ⟨c, 0, 5, 0, 3, 0⟩)) ∧
    (∀ s1 post subs, ga < 2 ^ 32 → s.validRegion (postId n) asid ga = (s1, .ok (post, subs)) →
      (s.seqFull post = true → ∃ t, exec (mk x) s = .next t ∧ (∀ m, m ≠ n → t.hart m = s.hart m) ∧ t.regions = s.regions ∧
        t.hart n = { h with mode := .blocked ⟨12, 0, 3, 0⟩, held := some ⟨mk x, .mode post subs⟩ }) ∧
      (∀ f, s.seqFull post = false → s.unreachable (postId n) (post * 2 ^ 48) = some f → exec (mk x) s = .next (s1.stopHart n ⟨f, 0, 5, 0, 3, 0⟩)) ∧
      (s.seqFull post = false → s.unreachable (postId n) (post * 2 ^ 48) = none →
       ∃ t, exec (mk x) s = .next t ∧ (∀ m, m ≠ n → t.hart m = s.hart m) ∧ s.Frame t x n [] [] [] ∧ t.tailMode asid ga = compute ∧
        (now s = none ∨ (now s).map (fun r => r.items) = some [] → (now t).map (fun r => (r.now, r.items)) = some (compute, [])) ∧
        (∀ r, now s = some r → r.items ≠ [] → ∃ q, now t = some q ∧ q.now = r.now ∧ (r.tail = compute → q.items = r.items) ∧
          (r.tail ≠ compute → ∃ g, q.items = r.items ++ [.mode compute g]))))
  (mode .rpmodeCopy .rpmodeCopy false ∧ mode .rpmodeCompute .rpmodeCompute true) ∧
  (∀ s n x, let h := s.hart n
    let ga := (h.gr (gNum x.a)).toNat
    let asid := s.asidOf n
    let hint := x.hint.val
    let stops := fun (c : Cause) => ∃ u : State, exec (.rpgo x) s = .next (u.stopHart n ⟨c, BitVec.ofNat 64 ga, 5, 0, 3, 0⟩) ∧ (∀ m, u.hart m = s.hart m) ∧
      (u.progs, u.regions, u.tasks) = (s.progs, s.regions, s.tasks)
    s.Ready n .rpgo x →
    (ga % 64 ≠ 0 → stops .align) ∧ (∀ c, ga % 64 = 0 → s.Quiet n → s.Fails n .read ga c → stops c) ∧
    (∀ s1 bs, ga % 64 = 0 → s.Quiet n → (∀ w ∈ s.stores, w.hart ≠ n) → s.load n ga 64 .read hint = (s1, .ok bs) →
      let nword := fieldAt bs 4 2
      let prog := fieldAt bs 8 8
      let inva := fieldAt bs 0x10 8
      let outva := fieldAt bs 0x18 8
      let handle := fieldAt bs 0 4
      let ranges := rowRanges nword prog inva outva
      (rowBlockBad bs = true → stops .bankParam) ∧
      (∀ s2 c, rowBlockBad bs = false → s1.validRegion (postId n) asid handle = (s2, .error c) → stops c) ∧
      (∀ s2 s4 s5 code input post subs rs, rowBlockBad bs = false → s1.validRegion (postId n) asid handle = (s2, .ok (post, subs)) →
       s2.rowXlate asid (postId n) ranges = .ok rs → (∀ p ∈ (rs.drop 1).flatten, window p.addr ≤ 8) →
       let out := if outva = 0 then [] else rs.getLastD []
       (∀ p ∈ out, ∀ i, i < p.len → inImageArea (p.addr + i) = false) →
       (s2.rowWalks asid (postId n) (s2.logHart n) ranges).load n prog (12 * nword) .exec hint = (s4, .ok code) →
       (if inva = 0 then s5 = s4 ∧ input = [] else s4.load n inva 4096 .read hint = (s5, .ok input)) →
       let made := fun (p : RowProg) => (p.prog, p.handle, p.asid, p.task, p.peg, p.running) = (prog, handle, asid, h.task, gNum x.d, false) ∧
         (p.px, p.loops, p.ops, p.idx, p.sel) = ([0, 0, 0, 0], [], 0, 0, fieldAt bs 0x30 4) ∧ p.pb = (List.range 8).map (fun i => fieldAt bs (0x20 + 2 * i) 2) ∧
         p.words = (List.range nword).map (fun i => wordOfBytes ((code.drop (12 * i)).take 12)) ∧ p.out = out ∧
         ∀ k i, k < 4 → i < 1024 → (Table.get 0 p.slots k).extractLsb' (8 * i) 8 = input.getD (1024 * k + i) 0
       (s.seqFull post = true → ∃ t p, exec (.rpgo x) s = .next t ∧ (∀ m, m ≠ n → t.hart m = s.hart m) ∧ t.progs = s.progs ∧ t.regions = s.regions ∧ made p ∧
         t.hart n = { h with mode := .blocked ⟨12, 0, 3, BitVec.ofNat 64 ga⟩, held := some ⟨.rpgo x, .prog post ga subs p⟩ }) ∧
       (∀ f, s.seqFull post = false → s.unreachable (postId n) (post * 2 ^ 48) = some f → stops f) ∧
       (s.seqFull post = false → s.unreachable (postId n) (post * 2 ^ 48) = none → s.tailMode asid handle = false → stops .regionMode) ∧
       (s.seqFull post = false → s.unreachable (postId n) (post * 2 ^ 48) = none → s.tailMode asid handle = true → ∃ t p, exec (.rpgo x) s = .next t ∧ s.Issues t x n (gNum x.d) 2 (32 + post) ∧
         t.progsAt post = s.progsAt post ++ [p] ∧ p.pid = Table.get 0 s.accepts (32 + post) ∧ made p ∧
         (∃ r, t.region asid handle = some r ∧ r.items.getLast? = some (.prog p.pid))))))

/-- R41, R301, R308, R309: WAITB retires when the barrier reads 0 and waits at port 10 otherwise, and retires with what it then finds once that is
0; a misaligned barrier, one outside window 0x8 and one that cannot be read stop it, with FINFO 0, as the rule gives none (R390). GIVE performs its core's earlier stores and frees a buffer
that its task holds; TAKE takes a free one to its core, its bytes with it, has no effect on one that its task holds, and waits at port 13 for one
that another holds or that does not exist; TAKE `.new` makes one where nothing meets it. A handle with a reserved bit or beyond the bench, a handle
that is not its buffer's, a buffer that the giver does not hold, pages that lie in another buffer, and a system core stop with OWNER. (That GIVE performs the stores at once: log 18; what
the bytes left behind read as: log 25.) -/
def Obligations.Buffers : Prop :=
  let owner : Stop := ⟨.owner, 0, 0, 0, 0, 0⟩
  let others := fun (s t : State) (x : Ops) (n : Nat) => (∀ m, m ≠ n → t.hart m = s.hart m) ∧ s.Frame t x n [] [] []
  let key := fun (b : Buffer) g gh => b.graph = g ∧ b.tag = gh / 2 ^ 16
  let exact := fun (b : Buffer) (gh : Nat) => b.first = gh / 256 % 256 ∧ b.npg = gh % 256
  (∀ s n x pa c, let h := s.hart n
    let ga := (h.gr (gNum x.a)).toNat
    let v := s.seenNat n pa 8 c
    let blocked := { h with mode := .blocked ⟨10, 0, 3, BitVec.ofNat 64 ga⟩, held := some ⟨.waitb x, .word pa c⟩ }
    let goes := (v = 0 → ReadsMemory (.waitb x) x s n [] [] [] (fun _ => True)) ∧
      (v ≠ 0 → ∃ t, exec (.waitb x) s = .next t ∧ s.SameMemory t ∧ (∀ m, m ≠ n → t.hart m = s.hart m) ∧ t.hart n = blocked)
    (s.Ready n .waitb x →
      (ga % 8 ≠ 0 → Stops (.waitb x) s n ⟨.align, BitVec.ofNat 64 ga, 0, 0, 0, 0⟩) ∧
      (ga % 8 = 0 → s.Quiet n → s.xlateOn n .read ga = .ok ⟨pa, c⟩ → window pa ≠ 8 → StopsAt (.waitb x) s n ⟨.addrRange, BitVec.ofNat 64 ga, 0, 0, 0, 0⟩) ∧
      (∀ e, ga % 8 = 0 → s.Quiet n → s.Fails n .read ga e → (∀ p, s.xlateOn n .read ga = .ok p → window p.pa = 8) →
        StopsAt (.waitb x) s n ⟨e, BitVec.ofNat 64 ga, 0, 0, 0, 0⟩) ∧
      (ga % 8 = 0 → s.Quiet n → s.Answers n .read ga pa c → window pa = 8 → goes)) ∧
    (State.Ready { s with harts := (s.setHart n { h with held := none }).harts } n .waitb x → h.held = some ⟨.waitb x, .word pa c⟩ →
      s.Quiet n → s.unreachable (postId n) pa = none → goes)) ∧
  (∀ s n x, let gh := ((s.hart n).gr (gNum x.a)).toNat
    s.taskOf n = none ∨ 2 ^ 32 ≤ gh ∨ 255 < gh / 256 % 256 + gh % 256 →
    (s.Ready n .give x → Stops (.give x) s n owner) ∧ (s.Ready n .take x → Stops (.take x) s n owner) ∧ (s.Ready n .takeNew x → Stops (.takeNew x) s n owner)) ∧
  (∀ s n x u t, let h := s.hart n
    let gh := (h.gr (gNum x.a)).toNat
    let waits := exec (.take x) s = .next (s.setHart n { h with mode := .blocked ⟨13, 0, 3, BitVec.ofNat 64 gh⟩, held := some ⟨.take x, .again⟩ })
    s.taskOf n = some (u, t) → gh < 2 ^ 32 → gh / 256 % 256 + gh % 256 ≤ 255 →
    (∀ b, s.Ready n .give x → s.bufferOf t.graph gh = some b → b.holder = some u →
      ∃ s', exec (.give x) s = .next s' ∧ others s s' x n ∧ s.Performs s' n 2 [] ∧ s'.bufferOf t.graph gh = some { b with holder := none } ∧
        s'.buffers = s.buffers.map (fun c => if c = b then { b with holder := none } else c)) ∧
    (s.Ready n .give x → (∀ b, s.bufferOf t.graph gh = some b → b.holder ≠ some u) → Stops (.give x) s n owner) ∧
    (s.Ready n .take x → (∀ b ∈ s.buffers, ¬ key b t.graph gh) → waits) ∧
    (∀ b, s.Ready n .take x → s.buffers.find? (fun b => b.graph = t.graph && b.tag = gh / 2 ^ 16) = some b →
      (¬ exact b gh → Stops (.take x) s n owner) ∧
      (exact b gh →
        (b.holder = some u → Retires (.take x) x s n h 0) ∧
        (b.holder ≠ none → b.holder ≠ some u → waits) ∧
        (b.holder = none → s.pagesFree n b = false → Stops (.take x) s n owner) ∧
        (b.holder = none → s.pagesFree n b = true → s.MemWf →
          let moved := { b with hart := n, holder := some u }
          let old := benchAddr b.hart b.first
          let new := benchAddr n b.first
          let size := 4096 * (b.npg + 1)
          ∃ s', exec (.take x) s = .next s' ∧ others s s' x n ∧ s'.buffers = s.buffers.map (fun c => if c = b then moved else c) ∧
            (∀ k, k < size → s'.memByte (new + k) = s.memByte (old + k)) ∧
            ∀ a, (a < new ∨ new + size ≤ a) → (a < old ∨ old + size ≤ a) → s'.memByte a = s.memByte a))) ∧
    (let b : Buffer := ⟨n, gh / 256 % 256, gh % 256, gh / 2 ^ 16, t.graph, some u⟩
     let meets := ∃ c ∈ s.buffers, key c t.graph gh ∨ (c.hart = n ∧ ∃ p, b.first ≤ p ∧ p ≤ b.first + b.npg ∧ c.first ≤ p ∧ p ≤ c.first + c.npg)
     s.Ready n .takeNew x → (meets → Stops (.takeNew x) s n owner) ∧
      (¬ meets → ∃ s', exec (.takeNew x) s = .next s' ∧ others s s' x n ∧ s' = { s with harts := s'.harts, buffers := s.buffers ++ [b] })))

/-- R246 to R248, R251, R252, R256, R260: each row operation reads its source rows in every subarray of its region and then writes its
destination there; every other row keeps its bits, each distinct row named counts one activation, and each die of the region uses a wave a row
operation. A step above 16 row operations stops the program with JOINT_LONG before the instruction executes, a row above 511 with ADDR_RANGE; an
operation whose waves are not admitted, or are due to a program issued earlier, waits. (The admitted waves: log 20; ADDR_RANGE before the wait: log 48;
the wait behind an earlier program: log 71.) -/
def Obligations.RowOperations : Prop :=
  (let dst := fun (p : RowProg) (x : Ops) (d : Nat) => p.rowOf x.d = some d ∧ d < 520
   let src := fun (p : RowProg) (x : Ops) (a : Nat) => p.rowOf x.a = some a
   let old := fun (s : State) (post : Nat) (p : RowProg) (k r : Nat) => match (s.subsOf p)[k]? with
     | some b => s.row post b r
     | none => 0
   let only := fun (d : Nat) (v : Nat → BitVec 8192) (k r : Nat) => if r = d then some (v k) else none
   (∀ s post p x d a, dst p x d → src p x a → WritesRows (.rc x) s post p 1 [d, a] (only d (fun k => old s post p k a))) ∧
   (∀ s post p x d a b, p.rowOf x.d = some d → src p x a → p.rowOf x.b = some b → d < 520 → a < 520 → b < 520 → d ≠ a → d ≠ b → a ≠ b →
     WritesRows (.rm3 x) s post p 1 [d, a, b] (fun k r =>
       let u := old s post p k d
       let v := old s post p k a
       let w := old s post p k b
       if r = d ∨ r = a ∨ r = b then some ((u &&& v) ||| (u &&& w) ||| (v &&& w)) else none)) ∧
   (∀ s post p x d a, dst p x d → src p x a → x.var.val < 2 → WritesRows (.rnt x) s post p 2 [d, a, 520 + x.var.val] (fun k r =>
     if r = d then some (~~~old s post p k a) else if r = 520 + x.var.val then some (old s post p k a) else none)) ∧
   (∀ s post p x d a, dst p x d → src p x a → WritesRows (.rsl x) s post p 2 [d, a] (only d (fun k =>
     let next := if x.var.val = 0 then false else (old s post p (k + 1) a).getLsbD 0
     BitVec.ofNat 8192 ((old s post p k a).toNat / 2 + if next then 2 ^ 8191 else 0)))) ∧
   (∀ s post p x d a, dst p x d → src p x a → WritesRows (.rsr x) s post p 2 [d, a] (only d (fun k =>
     let prev := if x.var.val = 0 ∨ k = 0 then false else (old s post p (k - 1) a).getLsbD 8191
     BitVec.ofNat 8192 (2 * (old s post p k a).toNat + if prev then 1 else 0)))) ∧
   (∀ s post p x d, dst p x d → WritesRows (.rz x) s post p 1 [d] (only d (fun _ => 0))) ∧
   (∀ s post p x d, dst p x d → WritesRows (.ro x) s post p 1 [d] (only d (fun _ => BitVec.allOnes 8192))) ∧
   (∀ s post p x d, dst p x d → WritesRows (.rwr x) s post p 1 [d] (only d (fun _ => Table.get 0 p.slots x.a.imm))) ∧
   (∀ s post p x d a, dst p x d → src p x a →
     WritesRows (.rchk x) s post p 2 [d, a] (only d (fun k => old s post p k d ^^^ old s post p k a)))) ∧
  (let otherwise := fun (i : Ops → Instr) (cost : Nat) (named : Ops → List Operand) (ok : State → RowProg → Prop) => ∀ s post p x,
     s.turn = .seq post p.pid → s.prog post p.pid = some p → p.running = true →
     (16 < p.ops + cost → exec (i x) s = .next (s.stopProg post p .jointLong 0)) ∧
     (p.ops + cost ≤ 16 → (∃ o ∈ named x, p.rowOf o = none) → exec (i x) s = .next (s.stopProg post p .addrRange 0)) ∧
     (p.ops + cost ≤ 16 → (∀ o ∈ named x, p.rowOf o ≠ none) → ok s p →
       (s.behind post p = true ∨ ∃ die, die < 16 ∧ s.dieShare p die ≠ 0 ∧ Table.get 0 s.waves (waveKey post die) < cost) →
       exec (i x) s = .next s)
   let both := fun (x : Ops) => [x.d, x.a]
   let any := fun (_ : State) (_ : RowProg) => True
   otherwise .rc 1 both any ∧ otherwise .rm3 1 (fun x => [x.d, x.a, x.b]) any ∧ otherwise .rnt 2 both any ∧ otherwise .rsl 2 both any ∧
   otherwise .rsr 2 both any ∧ otherwise .rz 1 (fun x => [x.d]) any ∧ otherwise .ro 1 (fun x => [x.d]) any ∧
   otherwise .rrd 1 (fun x => [x.a]) (fun s p => (s.subsOf p)[p.sel]? ≠ none) ∧ otherwise .rwr 1 (fun x => [x.d]) any ∧ otherwise .rchk 2 both any)

/-- R250: RBASE and RPLANE set or add to a plane base (0 to 511) or a plane index (0 to 63), e read as a signed 16-bit
number in the `.add` forms; a result outside the register's range stops the program with ADDR_RANGE and leaves the
register unchanged. -/
def Obligations.PlaneRegisters : Prop :=
  let sets := fun (i : Ops → Instr) (reg : RowProg → Nat → Nat) (put : RowProg → Nat → Nat → RowProg) (add : Bool) (top : Nat) => ∀ s post p x, s.RowReady post p 0 →
    let e := (BitVec.ofNat 16 x.a.imm).toInt
    let v := if add then (reg p x.d.imm : Int) + e else e
    (0 ≤ v → v ≤ top → ∃ t, exec (i x) s = .next t ∧ s.RowGoes t post p { put p x.d.imm v.toNat with idx := p.idx + 1 } ∧ t.rows = s.rows) ∧
    (v < 0 ∨ top < v → exec (i x) s = .next (s.stopProg post p .addrRange 0))
  let pb := fun (p : RowProg) n => p.pb.getD n 0
  let setPb := fun (p : RowProg) n v => { p with pb := p.pb.set n v }
  let px := fun (p : RowProg) n => p.px.getD n 0
  let setPx := fun (p : RowProg) n v => { p with px := p.px.set n v }
  sets .rbaseSet pb setPb false 511 ∧ sets .rbaseAdd pb setPb true 511 ∧
  sets .rplaneSet px setPx false 63 ∧ sets .rplaneAdd px setPx true 63

/-- R244, R249, R251, R252, R254, R256, R258: RLOOP opens a loop, RNEXT repeats its body until its count is used up, adding 1 to its plane index; a
fifth level, an RNEXT without a loop and an RHALT inside one stop with SEQ_FETCH, a repeat with the index at 63 with
ADDR_RANGE. RSET sets SEL; RRD reads its row of subarray SEL into a slot, one activation of that row. At a joint with nothing else due (no kill, no
revoked translation, no alert, no refresh, no more urgent program) RJOINT goes on with a new step, and RHALT ends the
program: the peg of its running task takes the status of class 2, without a cause or with ROW_BUDGET, and the slots stand at OUTVA. -/
def Obligations.RowControl : Prop :=
  (let goes := fun (i : Instr) (s : State) (post : Nat) (p q : RowProg) => ∃ t, exec i s = .next t ∧ s.RowGoes t post p q ∧ t.rows = s.rows
   (∀ s post p x, s.RowReady post p 0 →
     (p.loops.length < 4 → x.a = .none → goes (.rloop x) s post p { p with loops := ⟨p.idx + 1, x.d.imm, none⟩ :: p.loops, idx := p.idx + 1 }) ∧
     (∀ m, p.loops.length < 4 → x.a = .i16 m → goes (.rloop x) s post p
       { p with loops := ⟨p.idx + 1, x.d.imm, some m.toNat⟩ :: p.loops, px := p.px.set m.toNat 0, idx := p.idx + 1 }) ∧
     (4 ≤ p.loops.length → exec (.rloop x) s = .next (s.stopProg post p .seqFetch 0)) ∧
     (p.loops = [] → exec (.rnext x) s = .next (s.stopProg post p .seqFetch 0)) ∧
     (∀ l ls, p.loops = l :: ls →
       (l.left ≤ 1 → goes (.rnext x) s post p { p with loops := ls, idx := p.idx + 1 }) ∧
       (1 < l.left → l.px = none → goes (.rnext x) s post p { p with loops := { l with left := l.left - 1 } :: ls, idx := l.start }) ∧
       (∀ m, 1 < l.left → l.px = some m → p.px.getD m 0 < 63 →
         goes (.rnext x) s post p { p with loops := { l with left := l.left - 1 } :: ls, idx := l.start, px := p.px.set m (p.px.getD m 0 + 1) }) ∧
       (∀ m, 1 < l.left → l.px = some m → 63 ≤ p.px.getD m 0 → exec (.rnext x) s = .next (s.stopProg post p .addrRange 0)) ∧
       exec (.rhalt x) s = .next (s.stopProg post p .seqFetch 0)) ∧
     goes (.rsetSel x) s post p { p with sel := imm32 x, idx := p.idx + 1 }) ∧
   (∀ s post p x, s.RowReady post p 1 →
     (∀ a b, p.rowOf x.a = some a → (s.subsOf p)[p.sel]? = some b → b < 196608 →
       ∃ t, exec (.rrd x) s = .next t ∧ t.rows = s.rows ∧
         s.RowGoes t post p { p with slots := Table.set 0 p.slots x.d.imm (s.row post b a), idx := p.idx + 1, ops := p.ops + 1 } ∧
         ∀ q c r, c < 196608 → r < 522 → Table.get 0 t.acts (rowKey q c r) = Table.get 0 s.acts (rowKey q c r) + if q = post ∧ c = b ∧ r = a then 1 else 0) ∧
     (p.rowOf x.a = none ∨ (s.subsOf p)[p.sel]? = none → exec (.rrd x) s = .next (s.stopProg post p .addrRange 0)))) ∧
  (∀ s post p x, s.RowReady post p 0 → s.isKilled p.graph = false → p.recheck = false → s.alertsDue post p = [] →
     (s.due.all (fun d => d.1 ≠ post || !(s.subsOf p).contains d.2)) = true → (∀ r, s.region p.asid p.handle = some r → r.checked = true) →
     ((∀ q ∈ s.progsAt post, q.running = true) →
       ∃ t, exec (.rjoint x) s = .next t ∧ t.rows = s.rows ∧ t.mem = s.mem ∧ t.harts = s.harts ∧ t.prog post p.pid = some
         { p with idx := p.idx + 1, ops := 0, alerts := [], throttled := if s.budget p.asid = 0 then p.throttled else false }) ∧
     (p.loops = [] →
       ∃ t, exec (.rhalt x) s = .next t ∧ t.prog post p.pid = none ∧ t.rows = s.rows ∧
         ∀ u k, p.task = some u → s.task u = some k → k.status = .running → s.isKilled k.graph = false → p.graph = k.graph →
           (t.task u).map (fun k => k.rows) = some (k.rows - 1) ∧
           (∀ n h, s.harts.find? (fun c => c.2.task = some u && c.2.holdsPinned) = some (n, h) → 1 ≤ p.peg → p.peg < 32 →
             (t.hart n).gr p.peg = BitVec.ofNat 64 ((if p.mark then Cause.rowBudget.code else 0) + 2 * 2 ^ 14) ∧
             (t.hart n).pegmask.getLsbD p.peg = false) ∧
           (let plain := fun (q : Piece) => q.addr % 64 = 0 ∧ q.len % 64 = 0 ∧ q.addr % 4096 + q.len ≤ 4096 ∧ s.plainPlace q.addr q.len = true ∧
              ∀ i, i < q.len → s.unreachable post (q.addr + i) = none
            p.wrote = [] → (∀ q ∈ p.out, plain q) → p.out.Pairwise (fun a b => a.addr + a.len ≤ b.addr ∨ b.addr + b.len ≤ a.addr) → s.Clean →
            ∀ before q after, p.out = before ++ q :: after → ∀ i place c, let o := (before.map (fun b => b.len)).sum + i
              i < q.len → o < 4096 → t.homeByte place (q.addr + i) c = BitVec.ofNat 8 ((Table.get 0 p.slots (o / 1024)).toNat / 2 ^ (8 * (o % 1024))))))

/-! System instructions. -/

/-- R366, R375, R376: TLBINV drops every remembered translation that it covers and keeps the others, and performs the stores of tasks of the ASIDs that it
covers; REVOKE has every covered region checked again; an instruction of another core that waits goes on waiting. With no command at work they retire at
once. A started bank command that holds a translation of the ASID stalls the core until it has ended; what has been remembered since is dropped then. An
operand with a bit or a count out of range stops with ILL_FIELD, a misaligned address with ALIGN. (That every store of the ASID is performed: log
50; the stall shown as BLOCKED on port 0: log 29; what a waiting instruction has prepared: log 72; the FINFO and the order of the checks: log 33.) -/
def Obligations.Invalidation : Prop :=
  let quiet := fun (s : State) => s.banks = [] ∧ s.copies = [] ∧ s.progs = []
  let ends := fun (i : Instr) (x : Ops) (s : State) (n : Nat) (range : Walked → Bool) (asid : Nat → Bool) (handle : Region → Bool) =>
    let goes := fun (w : Pending) => w.who.kind = 0 ∧ asid w.who.asid = true
    ∃ t, exec i s = .next t ∧ s.Frame t x n [] [] [] ∧ t.walked = s.walked.filter (fun w => !range w) ∧
      (∀ m, m ≠ n → t.hart m = { s.hart m with held := (t.hart m).held } ∧ (t.hart m).held.map (fun w => w.instr) = (s.hart m).held.map (fun w => w.instr)) ∧
      t.stores = s.stores.filter (fun w => !(w.who.kind = 0 && asid w.who.asid)) ∧
      (∀ m, (∀ w ∈ s.stores, goes w → w.hart = m) → (∀ w ∈ s.stores, w.hart = m → goes w) → s.Clean → s.PlainStores m →
        ∀ place a c, t.homeByte place a c = s.performed m place a c) ∧
      (∀ r ∈ t.regions, handle r = true → r.checked = false) ∧ (∀ r ∈ s.regions, handle r = false → r ∈ t.regions)
  let bad := fun (i : Instr) (s : State) (n : Nat) => Stops i s n ⟨.illField, 0, 0, 0, 0, 0⟩
  (∀ s n x, let h := s.hart n
    let va := (h.gr (gNum x.a)).toNat
    let gb := (h.gr (gNum x.b)).toNat
    let pages := gb / 2 ^ 32
    s.SysReady n .tlbinvVa x →
    (quiet s → gb % 2 ^ 32 < 2 ^ 16 → pages ≤ 262144 → va % 4096 = 0 → ends (.tlbinvVa x) x s n
      (fun w => w.asid = gb % 2 ^ 16 && pages ≠ 0 && rangesMeet va (4096 * pages) (w.index <<< levelShift w.level) (2 ^ levelShift w.level))
      (fun a => a = gb % 2 ^ 16 && pages ≠ 0) (fun _ => false)) ∧
    ((2 ^ 16 ≤ gb % 2 ^ 32 ∨ 262144 < pages) → bad (.tlbinvVa x) s n) ∧
    (gb % 2 ^ 32 < 2 ^ 16 → pages ≤ 262144 → va % 4096 ≠ 0 → Stops (.tlbinvVa x) s n ⟨.align, BitVec.ofNat 64 va, 0, 0, 0, 0⟩)) ∧
  (∀ s n x, let h := s.hart n
    let gb := (h.gr (gNum x.b)).toNat
    (s.SysReady n .tlbinvAsid x →
      (quiet s → gb < 2 ^ 16 → ends (.tlbinvAsid x) x s n (fun w => w.asid = gb) (fun a => a = gb) (fun _ => false)) ∧
      (2 ^ 16 ≤ gb → bad (.tlbinvAsid x) s n) ∧
      (∀ post c, gb < 2 ^ 16 → post < 8 → s.banks = [(post, [c])] → s.copies = [] → s.progs = [] → c.started = true → c.asid = gb → c.pieces ≠ [] →
        ∃ t, exec (.tlbinvAsid x) s = .next t ∧ t.hart n = { h with mode := .blocked ⟨0, 0, 0, 0⟩, held := some ⟨.tlbinvAsid x, .again⟩ } ∧
          t.banks = [(post, [{ c with stale := true }])])) ∧
    (State.SysReady { s with harts := (s.setHart n { h with mode := .running, held := none }).harts } n .tlbinvAsid x → quiet s → gb < 2 ^ 16 →
      h.mode = .blocked ⟨0, 0, 0, 0⟩ → h.held = some ⟨.tlbinvAsid x, .again⟩ →
      ∃ t, exec (.tlbinvAsid x) s = .next t ∧ (∀ m, m ≠ n → t.hart m = s.hart m) ∧ t.hart n = h.goesOn x 0 (h.pc + 12) ∧
        t.walked = s.walked.filter (fun w => w.asid ≠ gb) ∧ (t.mem, t.stores, t.banks, t.copies, t.progs) = (s.mem, s.stores, s.banks, s.copies, s.progs))) ∧
  (∀ s n x, s.SysReady n .tlbinvAll x → quiet s → ends (.tlbinvAll x) x s n (fun _ => true) (fun _ => true) (fun _ => false)) ∧
  (∀ s n x, let ga := ((s.hart n).gr (gNum x.a)).toNat
    let gb := ((s.hart n).gr (gNum x.b)).toNat
    s.SysReady n .revokeRegion x →
    (quiet s → gb < 2 ^ 16 → ga < 2 ^ 32 →
      ends (.revokeRegion x) x s n (fun _ => false) (fun _ => false) (fun r => r.asid = gb && r.handle = ga)) ∧
    (2 ^ 16 ≤ gb ∨ 2 ^ 32 ≤ ga → bad (.revokeRegion x) s n)) ∧
  (∀ s n x, let gb := ((s.hart n).gr (gNum x.b)).toNat
    s.SysReady n .revokeAsid x →
    (quiet s → gb < 2 ^ 16 → ends (.revokeAsid x) x s n (fun w => w.asid = gb) (fun a => a = gb) (fun r => r.asid = gb)) ∧
    (2 ^ 16 ≤ gb → bad (.revokeAsid x) s n))

/-- R377, R378, R388, R413: RESUME makes a STOPPED task READY at the tail of its list and discards its held stop entry, KILL marks its graph killed and
ends its tasks without a core, each with its answer in gd; ATTEST writes a
report of 420 bytes that carries the request and the SHA-512 digests of the firmware and of DEVPUB; SCRUB of memory without errors answers 0, and
poisons a word that it cannot correct. Misaligned addresses stop with ALIGN, a range that SCRUB may not reach with its cause; FINFO is 0, as their rules
give none (R390). (The report's layout and DEVPUB: log 16; the other FINFO values and the order of the checks: log 33.) -/
def Obligations.SystemServices : Prop :=
  (∀ s n x, let ga := ((s.hart n).gr (gNum x.a)).toNat
    let found := s.taskList.find? (fun p => p.2.image = some ga)
    s.SysReady n .resume x →
    (ga % 65536 ≠ 0 → Stops (.resume x) s n ⟨.align, BitVec.ofNat 64 ga, 0, 0, 0, 0⟩) ∧
    (ga % 65536 = 0 → found = none → Answers (.resume x) x s n 2 (fun t => t.tasks = s.tasks)) ∧
    (∀ u k, ga % 65536 = 0 → found = some (u, k) → k.status ≠ .stopped → Answers (.resume x) x s n 1 (fun t => t.tasks = s.tasks)) ∧
    (∀ u k g, ga % 65536 = 0 → found = some (u, k) → k.status = .stopped → s.task u = some k → s.graph k.graph = some g →
      (∀ p, g.harts p = (g.harts p).filter (fun m => !isSys m)) →
      Answers (.resume x) x s n 0 (fun t => (t.task u).map (fun k => (k.status, k.post)) = some (.ready, k.post) ∧
        t.ready = s.ready ++ [⟨k.post, g.prio, g.queue, u⟩] ∧ t.held = s.held.filter (fun e => e.task ≠ u || e.advice)))) ∧
  (∀ s n x, let ga := ((s.hart n).gr (gNum x.a)).toNat
    let gid := ga % 2 ^ 32
    s.SysReady n .kill x →
    ((s.graph gid = none ∨ ∃ g, s.graph gid = some g ∧ g.asid ≠ ga / 2 ^ 32) → Answers (.kill x) x s n 2 (fun t => t.graphs = s.graphs)) ∧
    (∀ g, s.graph gid = some g → g.asid = ga / 2 ^ 32 → g.killed = true → Answers (.kill x) x s n 1 (fun t => t.graphs = s.graphs)) ∧
    (∀ g, s.graph gid = some g → g.asid = ga / 2 ^ 32 → g.killed = false → s.banks = [] → s.copies = [] → s.progs = [] →
      (∃ u k, s.task u = some k ∧ k.graph = gid ∧ k.status = .running ∧ (s.hartOf u).isSome) →
      Answers (.kill x) x s n 0 (fun t => t.graph gid = some { g with killed := true } ∧
        (∀ u k, s.task u = some k → k.graph = gid → s.hartOf u = none → t.task u = none) ∧
        (Table.wf none s.tasks = true → ∀ u k, s.task u = some k → (k.graph ≠ gid ∨ (s.hartOf u).isSome) → t.task u = some k)))) ∧
  (∀ s n x, let ga := ((s.hart n).gr (gNum x.a)).toNat
    let gb := ((s.hart n).gr (gNum x.b)).toNat
    s.SysReady n .attest x →
    (ga % 64 ≠ 0 → Stops (.attest x) s n ⟨.align, BitVec.ofNat 64 ga, 0, 0, 0, 0⟩) ∧
    (ga % 64 = 0 → gb % 64 ≠ 0 → Stops (.attest x) s n ⟨.align, BitVec.ofNat 64 gb, 0, 0, 0, 0⟩) ∧
    (ga % 64 = 0 → gb % 64 = 0 → s.Quiet n → (∀ k, k < 128 → s.Answers n .read (ga + k) (ga + k) 0) →
      (∀ k, k < 512 → s.Answers n .write (gb + k) (gb + k) 0) → window ga < 10 → window gb < 10 →
      Answers (.attest x) x s n 420 (fun t => t.seenNat n gb 8 0 = 1 + 420 * 2 ^ 16 ∧ t.seenNat n (gb + 8) 8 0 = s.caps.toNat ∧
        (∀ k, k < 64 → t.seenByte n (gb + 16 + k) 0 = s.seenByte n (ga + k) 0 ∧ t.seenByte n (gb + 224 + k) 0 = s.seenByte n (ga + 64 + k) 0 ∧
          t.seenByte n (gb + 80 + k) 0 = (sha512 (imageBody s.firmware)).getD k 0 ∧ t.seenByte n (gb + 144 + k) 0 = (sha512 devPub).getD k 0) ∧
        (∀ k, 420 ≤ k → k < 512 → t.seenByte n (gb + k) 0 = 0) ∧ ∀ a, (a < gb ∨ gb + 512 ≤ a) → t.seenByte n a 0 = s.seenByte n a 0))) ∧
  (∀ s n x, let ga := ((s.hart n).gr (gNum x.a)).toNat
    let gb := ((s.hart n).gr (gNum x.b)).toNat
    s.SysReady n .scrub x →
    (ga % 32 ≠ 0 → Stops (.scrub x) s n ⟨.align, BitVec.ofNat 64 ga, 0, 0, 0, 0⟩) ∧
    (ga % 32 = 0 → 2 ^ 24 < gb → Stops (.scrub x) s n ⟨.addrRange, BitVec.ofNat 64 ga, 0, 0, 0, 0⟩) ∧
    (∀ c a, ga % 32 = 0 → gb ≤ 2 ^ 24 → mapRange (s.scrubReach n) ga gb = .error (c, a) → Stops (.scrub x) s n ⟨c, BitVec.ofNat 64 a, 0, 0, 0, 0⟩) ∧
    (∀ ps, ga % 32 = 0 → gb ≤ 2 ^ 24 → mapRange (s.scrubReach n) ga gb = .ok ps →
      (s.Quiet n → Retires (.scrub x) x s n ((s.hart n).setG (gNum x.d) 0) 0) ∧
      (∀ pa f, s.l2 = [] → s.err = [(pa, ⟨false, true, f⟩)] → ga ≤ pa → pa + 8 ≤ ga + gb → window pa = 8 → pa % 8 = 0 →
        (pa % 2 ^ 44 < 0x2FD00000 ∨ 0x2FD20040 ≤ pa % 2 ^ 44) →
        Answers (.scrub x) x s n (2 ^ 32) (fun t => t.errAt pa = ⟨true, false, 0⟩))))

/-- R432 to R438: the beam instructions on a beam of the package. BEAMSTAT answers its value, `.events` clearing
the sticky bits 0 to 2; BEAMRATE sets FLOOR, CEIL or OWNER, answers 0 for the present rate and otherwise begins a change
and waits, to answer its result; BEAMRETIRE puts the lowest unused spare in the place of a data lane, marks an unused spare, and removes a module without
one. While a rate change is in progress they wait. Bad fields stop with ILL_FIELD. (The wait as BLOCKED on port 0, its work done once: log 29; FINFO 0
of ILL_FIELD: log 33; that a retired spare retrains nothing: log 49; that the lowest spare is taken: log 79.) -/
def Obligations.BeamInstructions : Prop :=
  let num := fun (s : State) (n : Nat) (x : Ops) => ((s.hart n).gr (gNum x.a)).toNat
  let beam := fun (s : State) (n : Nat) (x : Ops) => s.beam (num s n x % 16)
  let dir := fun (s : State) (n : Nat) (x : Ops) => (beam s n x).dir (num s n x / 16 % 2)
  let fields := fun (s : State) (n : Nat) (x : Ops) (d m : Bool) => let ga := num s n x
    ga < 2 ^ 12 ∧ ga % 16 ≤ 13 ∧ (d = false → ga.testBit 4 = false) ∧ (m = false → ga / 32 = 0)
  let ready := fun (d : Desc) (hasDir hasMod : Bool) (s : State) (n : Nat) (x : Ops) =>
    s.SysReady n d x ∧ fields s n x hasDir hasMod ∧ (beam s n x).change = none
  let begins := fun (i : Ops → Instr) (d : Desc) (hasDir hasMod : Bool) (ok : Nat → Prop) => ∀ s n x, s.SysReady n d x →
    let v := ((s.hart n).gr (gNum x.b)).toNat
    (¬ (fields s n x hasDir hasMod ∧ ok v) → Stops (i x) s n ⟨.illField, 0, 0, 0, 0, 0⟩) ∧
    (fields s n x hasDir hasMod → ok v → (beam s n x).change ≠ none →
      Completes (i x) s n { s.hart n with mode := .blocked ⟨0, 0, 0, 0⟩, held := some ⟨i x, .again⟩ })
  let stat := fun (i : Ops → Instr) (d : Desc) (m : Bool) (f : State → Nat → Ops → Nat) =>
    (∀ s n x, ready d true m s n x → Retires (i x) x s n ((s.hart n).setG (gNum x.d) (BitVec.ofNat 64 (f s n x))) 0) ∧
    begins i d true m (fun _ => True)
  let keeps := fun (s t : State) (n : Nat) (x : Ops) (b : Beam) =>
    (∀ k, t.beam k = if k = num s n x % 16 then b else s.beam k) ∧ t.mem = s.mem ∧ t.tasks = s.tasks
  let setting := fun (i : Ops → Instr) (d : Desc) (lo hi : Nat) (put : Beam → Nat → Beam) => (∀ s n x, ready d false false s n x →
    let v := ((s.hart n).gr (gNum x.b)).toNat
    lo ≤ v → v ≤ hi → Answers (i x) x s n (if (beam s n x).lost then 2 else 0) (fun t => keeps s t n x (put (beam s n x) v))) ∧
    begins i d false false (fun v => lo ≤ v ∧ v ≤ hi)
  stat .beamstatRate .beamstatRate false (fun s n x => 32 + 4 * (beam s n x).rate) ∧
  stat .beamstatWidth .beamstatWidth false (fun s n x => if (beam s n x).lost then 0 else 128 - (dir s n x).removedCount) ∧
  stat .beamstatRetired .beamstatRetired false (fun s n x => (dir s n x).lanesRetired % 2 ^ 32 + (dir s n x).removedCount * 2 ^ 32) ∧
  stat .beamstatCrc .beamstatCrc false (fun s n x => (dir s n x).crc) ∧
  stat .beamstatReplay .beamstatReplay false (fun s n x => (dir s n x).replays) ∧
  stat .beamstatRrate .beamstatRrate false (fun s n x => (dir s n x).rrate) ∧
  stat .beamstatModule .beamstatModule true (fun s n x => let m := (dir s n x).mod (num s n x / 32 % 128)
    m.repair.length + if m.removed then 8 else 0) ∧
  stat .beamstatCfg .beamstatCfg false (fun s n x => let b := beam s n x
    b.floor + b.ceil * 2 ^ 8 + b.owner * 2 ^ 32 + b.rate * 2 ^ 35) ∧
  (∀ s n x, ready .beamstatEvents true false s n x → Answers (.beamstatEvents x) x s n (beam s n x).events
    (fun t => keeps s t n x { beam s n x with events := (beam s n x).events / 8 * 8 })) ∧
  begins .beamstatEvents .beamstatEvents true false (fun _ => True) ∧
  setting .beamrateFloor .beamrateFloor 1 128 (fun b v => { b with floor := v }) ∧
  setting .beamrateCeil .beamrateCeil 1 (2 ^ 20) (fun b v => { b with ceil := v }) ∧
  setting .beamrateOwner .beamrateOwner 0 7 (fun b v => { b with owner := v }) ∧
  begins .beamrateSet .beamrateSet false false (fun v => v ≤ 4) ∧
  (∀ s n x, ready .beamrateSet false false s n x → let b := beam s n x
    let v := ((s.hart n).gr (gNum x.b)).toNat
    b.results = [] → v ≤ 4 →
    (b.lost = true → Answers (.beamrateSet x) x s n 2 (fun t => keeps s t n x b)) ∧
    (b.lost = false → b.rate = v → Answers (.beamrateSet x) x s n 0 (fun t => keeps s t n x b)) ∧
    (b.lost = false → b.rate ≠ v → ∃ t, exec (.beamrateSet x) s = .next t ∧
      t.hart n = { s.hart n with mode := .blocked ⟨0, 0, 0, 0⟩, held := some ⟨.beamrateSet x, .again⟩ } ∧
      keeps s t n x { b with change := some ⟨v, false, false, some n⟩ })) ∧
  (∀ s n x r, let h := s.hart n
    ready .beamrateSet false false { s with harts := (s.setHart n { h with mode := .running, held := none }).harts } n x →
    h.mode = .blocked ⟨0, 0, 0, 0⟩ → h.held = some ⟨.beamrateSet x, .again⟩ → (h.gr (gNum x.b)).toNat ≤ 4 → (beam s n x).results = [(n, r)] →
    Answers (.beamrateSet x) x s n r (fun t => keeps s t n x { beam s n x with results := [] })) ∧
  begins .beamretire .beamretire true true (fun v => v ≤ 67) ∧
  (∀ s n x, ready .beamretire true true s n x → let b := beam s n x
    let lane := ((s.hart n).gr (gNum x.b)).toNat
    let m := (dir s n x).mod (num s n x / 32 % 128)
    let becomes := fun (y : Module) (t : State) =>
      let e := (t.beam (num s n x % 16)).dir (num s n x / 16 % 2)
      e.mod (num s n x / 32 % 128) = y ∧ e.lanesRetired = (dir s n x).lanesRetired + 1
    lane ≤ 67 →
    (b.lost = true → Answers (.beamretire x) x s n 3 (fun t => keeps s t n x b)) ∧
    (b.lost = false → (m.removed = true ∨ lane ∈ m.retired) → Answers (.beamretire x) x s n 2 (fun t => keeps s t n x b)) ∧
    (b.lost = false → b.dirs.length = 2 → m.removed = false → lane ∉ m.retired →
      (lane ≤ 63 → m.retired = [] → m.repair = [] →
        Answers (.beamretire x) x s n 0 (becomes { m with retired := [lane], repair := [(lane, 64)], training := true })) ∧
      (64 ≤ lane → (∀ r ∈ m.repair, r.2 ≠ lane) → Answers (.beamretire x) x s n 0 (becomes { m with retired := m.retired ++ [lane] })) ∧
      (lane ≤ 63 → (∀ p, 64 ≤ p → p ≤ 67 → p ∈ m.retired ∨ ∃ r ∈ m.repair, r.2 = p) → (dir s n x).removedCount + b.floor + 1 < 128 →
        Answers (.beamretire x) x s n 1 (becomes { m with retired := m.retired ++ [lane], removed := true, training := false }))))

/-! Events: start-up, the host, the dispatchers, the engines, the beams, the reports. -/

/-- R18, R370: POWER_GOOD and the end of PERST# leave phase 0 where power is good and no PERST# is asserted; a drop of the
power, PERST# and a write of 0x5253_544C to DEVRESET put the whole device into phase 0, with nothing of it kept but what
stands outside (host and CXL memory, the inputs). Another value, and a hot reset of a port, leave the device alone. (What a reset keeps, and that
DEVRESET enters and leaves phase 0 in one event: log 52; host and CXL memory kept: log 4; the registers' values: log 2.) -/
def Obligations.Resets : Prop :=
  let cold := fun (s t : State) => t = { State.reset with
      agenda := s.agenda, mem := t.mem, marked := s.marked, l6 := s.l6, power := t.power, perst := t.perst, phase := t.phase, tick := s.tick,
      hostReply := .abort } ∧
    (s.MemWf → s.hostWrites = [] → ∀ a, t.memByte a = if window a = 10 ∨ window a = 11 then s.memByte a else 0)
  let up := fun (s : State) => s.phase = 0 ∧ s.power = true ∧ s.perst = 0
  ∀ s : State,
  (∃ t, exec .powerGood s = .next t ∧ t = { s with power := true, phase := t.phase } ∧
    t.phase = if s.phase = 0 ∧ s.perst = 0 then 1 else s.phase) ∧
  (∃ t, exec .powerGoodDrop s = .next t ∧ cold s t ∧ (t.phase, t.power, t.perst) = (0, false, s.perst)) ∧
  (∀ port, port < 2 → ∃ t, exec (.perstAssert port) s = .next t ∧ cold s t ∧
    (t.phase, t.power, t.perst) = (0, s.power, s.perst ||| 2 ^ port)) ∧
  (∀ port, port < 2 → s.perst.testBit port = true → ∃ t, exec (.perstDeassert port) s = .next t ∧
    t = { s with perst := s.perst ^^^ 2 ^ port, phase := t.phase } ∧
    t.phase = if up { s with perst := s.perst ^^^ 2 ^ port } then 1 else s.phase) ∧
  (∀ v : Word, (v.toNat % 2 ^ 32 = 0x5253544C → s.phase ≠ 0 → ∃ t, exec (.devreset v) s = .next t ∧ cold s t ∧
      (t.phase, t.power, t.perst) = (if s.power = true ∧ s.perst = 0 then 1 else 0, s.power, s.perst)) ∧
    (v.toNat % 2 ^ 32 ≠ 0x5253544C → exec (.devreset v) s = .next s)) ∧
  (∀ port, port < 2 → exec (.portHotReset port) s = .next { s with hostReply := .none })

/-- R17, R18, R19, R387: each phase ends in the next; a failed check ends in phase 15 with its cause and, for SELF_CHECK, the posts that failed;
phase 2 accepts the image where its signature holds; phase 3 leaves DRAM, and phase 6 the SRAM tier and the benches, reading zero without error and the
L2 empty; phase 5 puts a spare in the place of a lane that training found bad; FWCTL with an image of a legal length in the FW_AUTH
halt takes the image from host memory and goes back to phase 2, and does nothing otherwise. ELAPSED never falls, and gains no more than the limit of the phase
that ends. (The signature and the flash that the event names: log 16; ELAPSED: log 35; that the lowest spare is taken: log 79.) -/
def Obligations.BootPhases : Prop :=
  let enters := fun (i : Instr) (s : State) (p : Nat) (f : State → State) =>
    ∃ t, exec i s = .next t ∧ s.elapsed ≤ t.elapsed ∧ t.elapsed.toNat ≤ s.elapsed.toNat + phaseLimit s.phase ∧
      t = f { s with phase := p, tick := t.tick, elapsed := t.elapsed }
  let same := fun (t : State) => t
  let halts := fun (i : Instr) (s : State) (c : Cause) (posts : Nat) => enters i s 15 (fun t => { t with bootCause := c, failPosts := posts })
  let fails := fun (i : Nat → Instr) (s : State) (p : Nat) => ∀ fail, s.phase = p → fail &&& s.posts ≠ 0 → halts (i fail) s .selfCheck (fail &&& s.posts)
  let zero := fun (s : State) (i : Instr) (lo hi : Nat) (f : State → State) => ∃ t, exec i s = .next t ∧
    t = { f { s with tick := t.tick, elapsed := t.elapsed } with mem := t.mem, err := t.err, l2 := t.l2 } ∧
    (∀ a, lo ≤ a → a < hi → t.memByte a = 0 ∧ t.errAt a = .clean ∧ t.sector a = none) ∧
    ∀ a, (a < lo ∨ hi ≤ a) → t.memByte a = s.memByte a ∧ t.errAt a = s.errAt a
  ∀ s : State,
  (s.phase = 1 → enters .phaseRomDone s 2 (fun t => { t with fwImage := none })) ∧
  (∀ flash, s.phase = 2 → let image := s.fwImage.getD flash
    (imageOk image = true → enters (.phaseAuthDone flash) s 3 (fun t => { t with fwImage := some image })) ∧
    (imageOk image = false → halts (.phaseAuthDone flash) s .fwAuth 0)) ∧
  (∀ fail, s.phase = 3 → fail &&& s.posts = 0 → zero s (.phaseDramDone fail) 0 (8 * 2 ^ 48) (fun t => { t with phase := 4, rows := [], acts := [] })) ∧
  fails .phaseDramDone s 3 ∧
  (∀ fail spares, s.phase = 4 → spares < 2 ^ 16 → (∀ p, p < 8 → (spares >>> (2 * p)) % 4 ≤ if s.posts.testBit p then 2 else 0) →
    (fail &&& s.posts = 0 → enters (.phaseCoresDone fail spares) s 5 (fun t => { t with spares := spares })) ∧
    (fail &&& s.posts ≠ 0 → enters (.phaseCoresDone fail spares) s 15
      (fun t => { t with bootCause := .selfCheck, failPosts := fail &&& s.posts, spares := spares }))) ∧
  (s.phase = 5 → enters (.phaseBeamsDone true []) s 6 (fun t => { t with beams := [] }) ∧ halts (.phaseBeamsDone false []) s .beamDown 0 ∧
    ∀ r : LaneRef, r.beam < 14 → r.dir < 2 → r.module < 128 → r.lane < 64 → ∃ t, exec (.phaseBeamsDone true [r]) s = .next t ∧ t.phase = 6 ∧
      ((t.beam r.beam).dir r.dir).mod r.module = { Module.fresh with retired := [r.lane], repair := [(r.lane, 64)] } ∧
      ∀ b d m, d < 2 → (b, d, m) ≠ (r.beam, r.dir, r.module) → ((t.beam b).dir d).mod m = .fresh) ∧
  (s.phase = 6 → zero s .phaseSramDone (8 * 2 ^ 48) (10 * 2 ^ 48) (fun t => { t with phase := 7 }) ∧
    ∀ t, exec .phaseSramDone s = .next t → t.l2 = []) ∧
  (∀ fail, s.phase = 7 → fail &&& s.posts = 0 → enters (.phaseCheckDone fail) s 8 same) ∧ fails .phaseCheckDone s 7 ∧
  (∀ v : Word, let go := v.getLsbD 0 = true ∧ s.phase = 15 ∧ s.bootCause = .fwAuth ∧ 133 ≤ s.fwlen.toNat ∧ s.fwlen.toNat ≤ 2 ^ 26
    let base := 10 * 2 ^ 48 + s.fwaddr.toNat / 4096 * 4096 % 2 ^ 48
    (go → s.MemWf → enters (.fwctlGo v) s 2 (fun t => { t with
      bootCause := .none
      fwImage := some ((List.range s.fwlen.toNat).map (fun i => s.hostByte HostWr.atHost (base + i))) })) ∧
    (¬ go → exec (.fwctlGo v) s = .next s))

/-- R341, R342, R344, R369, R272: a host write of a plain control register stores its defined bits; a doorbell moves TAIL where
the ring has room, setting PEND of a queue that is not resident, sets TAILERR where it has none, and does nothing where
the new TAIL lies behind; one of a queue whose HOME is absent or scrapped sets CFGERR besides; an answer of the outside stands until an access of its
kind fails with it. (That the answer is set by an event before the access that meets it: log 17.) -/
def Obligations.HostRegisters : Prop :=
  (∀ (s : State) v, s.barUp = true →
    exec (.controlRegisterWrite 0x40 v) s = .next { s with hostlim := v &&& 0x0000FFFFFFFFF000 } ∧
    exec (.controlRegisterWrite 0x48 v) s = .next { s with cxllim := v &&& 0x0000FFFFFFFFF000 } ∧
    exec (.controlRegisterWrite 0x50 v) s = .next { s with spancfg := BitVec.ofNat 64 (v.toNat % 2 ^ 25) } ∧
    exec (.controlRegisterWrite 0x100 v) s = .next { s with fwaddr := v } ∧
    exec (.controlRegisterWrite 0x108 v) s = .next { s with fwlen := BitVec.ofNat 64 (v.toNat % 2 ^ 27) } ∧
    exec (.controlRegisterWrite 0x10 v) s = .next s ∧ exec (.controlRegisterWrite 0x18 v) s = .next s) ∧
  (∀ (s : State) q (v : Word), q < 8192 → s.phase = 8 → s.homeOk q = true →
    let new := v.toNat % 2 ^ 32
    let ahead := (new + 2 ^ 32 - s.qTail q) % 2 ^ 32
    let used := (new + 2 ^ 32 - s.qDone q) % 2 ^ 32
    let same := fun (t : State) lo hi => ∀ a, (a < queueRec q + lo ∨ queueRec q + hi ≤ a) → t.memByte a = s.memByte a
    (2 ^ 31 ≤ ahead → exec (.doorbell q v) s = .next s) ∧
    (ahead < 2 ^ 31 → 2 ^ s.qLogSize q < used → ∃ t, exec (.doorbell q v) s = .next t ∧ t.qBit q 2 = true ∧ t.qTail q = s.qTail q ∧
      same t 0x20 0x28 ∧ t.pend = s.pend) ∧
    (ahead < 2 ^ 31 → used ≤ 2 ^ s.qLogSize q → ∃ t, exec (.doorbell q v) s = .next t ∧ t.qTail q = new ∧ same t 0x10 0x28 ∧
      t.qHead q = s.qHead q ∧ t.qDone q = s.qDone q ∧ t.qBit q 0 = s.qBit q 0 ∧
      (s.qBit q 0 = true → t.pend = s.pend ∧ t.qBit q 1 = s.qBit q 1) ∧
      (s.qBit q 0 = false → t.qBit q 1 = true ∧ t.pend = if s.qBit q 1 then s.pend else s.pend ++ [q]))) ∧
  (∀ (s : State) q (v : Word), q < 8192 → s.phase = 8 → s.homeOk q = false →
    let new := v.toNat % 2 ^ 32
    let moves := (new + 2 ^ 32 - s.qTail q) % 2 ^ 32 < 2 ^ 31 ∧ (new + 2 ^ 32 - s.qDone q) % 2 ^ 32 ≤ 2 ^ s.qLogSize q
    ∃ t, exec (.doorbell q v) s = .next t ∧ t.qBit q 3 = true ∧ t.qHead q = s.qHead q ∧ t.qDone q = s.qDone q ∧
      (moves → t.qTail q = new) ∧ (¬ moves → t.qTail q = s.qTail q) ∧
      ∀ a, (a < queueRec q + 0x10 ∨ queueRec q + 0x28 ≤ a) → t.memByte a = s.memByte a) ∧
  (∀ (s : State) n, (s.hart n).exposed = true →
    let answers := fun (i : Instr) (c : Option Cause) => Completes i s n { s.hart n with response := c }
    answers (.remoteTimeout (.hart n)) (some .remoteTimeout) ∧ answers (.hostCompletion (.hart n) .abort) (some .hostAbort) ∧
    answers (.hostCompletion (.hart n) .poisoned) (some .hostPoison) ∧ answers (.hostCompletion (.hart n) .normal) none ∧
    exec (.hostCompletion (.hart n) .peerAbort) s = .next s) ∧
  (∀ (s : State) e seq x, (s.copiesAt e).find? (fun y => y.seq = seq && y.started) = some x →
    let answers := fun (i : Instr) (c : Option Cause) => ∃ t, exec i s = .next t ∧ t = { s with copies := t.copies } ∧
      (t.copiesAt e).find? (fun y => y.seq = seq && y.started) = some { x with fail := c }
    answers (.remoteTimeout (.copy e seq)) (some .remoteTimeout) ∧ answers (.hostCompletion (.copy e seq) .abort) (some .hostAbort) ∧
    answers (.hostCompletion (.copy e seq) .poisoned) (some .hostPoison) ∧ answers (.hostCompletion (.copy e seq) .peerAbort) (some .peerAbort) ∧
    answers (.hostCompletion (.copy e seq) .normal) none) ∧
  (∀ (s : State) n (p : Piece) c, (s.hart n).response = some c → s.unreachable (postId n) p.addr = none →
    (c = .remoteTimeout ∨ window p.addr = 10 ∨ window p.addr = 11) →
    (s.readPiece n p).2 = some (c, p.addr) ∧ ((s.readPiece n p).1.hart n).response = none)

/-- R58, R310, R318, R368: a host load answers with the bytes at their home points and changes no byte; a host store to plain memory
puts its bytes there; what the host may not reach ends with an abort. A host write to its own memory is seen by the host
at once and by the device's sides later; a write to CXL memory is seen by all. Performing a store puts its bytes at their
home point and takes it off the list, in program order where bytes meet; a write to host memory is performed at the host and the other side, the host
first; evicting a sector writes a dirty one back, poisoned where it cannot be corrected. (The abort outside phase 8 and for places out of reach: log
32; the parts of a store: log 6; the places of a host write: log 18.) -/
def Obligations.MemoryEvents : Prop :=
  let inside := fun (a addr len : Nat) => addr ≤ a ∧ a < addr + len
  (∀ (s : State) port addr len, port < 2 → 0 < len → window addr ≠ 14 →
    let reach := s.phase = 8 ∧ ∀ k, k < len → s.hostReach (addr + k) = true ∧ s.unreachable (8 + port) (addr + k) = none
    (reach → s.Clean → ∃ t, exec (.hostAccess port addr len none) s = .next t ∧ s.SameMemory t ∧ t.harts = s.harts ∧
      t.hostReply = .data ((List.range len).map (fun k => s.homeByte (8 + port) (addr + k) 0))) ∧
    (∀ d, d.length = len → reach → s.Clean → s.plainPlace addr len = true → ∃ t, exec (.hostAccess port addr len (some d)) s = .next t ∧
      t.hostReply = .done ∧ t.harts = s.harts ∧ t.stores = s.stores ∧ ∀ place a, t.homeByte place a 0 =
        if inside a addr len then d.getD (a - addr) 0 else s.homeByte place a 0) ∧
    (∀ d, (∀ x, d = some x → x.length = len) → ¬ reach → exec (.hostAccess port addr len d) s = .next { s with hostReply := .abort })) ∧
  (∀ (s : State) addr data, data ≠ [] → window addr = 10 → window (addr + data.length - 1) = 10 → s.hostWrites = [] →
    ∃ t, exec (.hostWrite addr data) s = .next t ∧ t.harts = s.harts ∧ t.stores = s.stores ∧
      (∀ place a c, t.homeByte place a c = s.homeByte place a c) ∧
      ∀ a, t.hostByte HostWr.atHost a = if inside a addr data.length then data.getD (a - addr) 0 else s.memByte a) ∧
  (∀ (s : State) addr data, data ≠ [] → window addr = 11 → window (addr + data.length - 1) = 11 →
    ∃ t, exec (.hostWrite addr data) s = .next t ∧ t.harts = s.harts ∧ t.stores = s.stores ∧
      ∀ place a, (inside a addr data.length → t.homeByte place a 0 = data.getD (a - addr) 0) ∧
        ((a / 32 < addr / 32 ∨ (addr + data.length - 1) / 32 < a / 32) → t.homeByte place a 0 = s.homeByte place a 0)) ∧
  (∀ (s : State) k w, s.stores[k]? = some w → s.Clean → w.data ≠ [] → w.addr % unitSize w.addr + w.data.length ≤ unitSize w.addr →
    s.plainPlace w.addr w.data.length = true →
    let earlier := ∃ v ∈ s.stores.take k, v.hart = w.hart ∧ rangesMeet v.addr v.data.length w.addr w.data.length = true
    (earlier → exec (.accessPerform none k) s = .next s) ∧
    (¬ earlier → ∃ t, exec (.accessPerform none k) s = .next t ∧ t.harts = s.harts ∧ t.stores = s.stores.eraseIdx k ∧
      ∀ place a c, t.homeByte place a c = if inside a w.addr w.data.length then w.data.getD (a - w.addr) 0 else s.homeByte place a c)) ∧
  (∀ (s : State) w, s.hostWrites = [w] →
    (w.atHost = false → ∃ t, exec (.accessPerform (some 1) 0) s = .next t ∧ t.stores = s.stores ∧ t.harts = s.harts ∧
      ∀ i, i < w.data.length → t.hostByte HostWr.atHost (w.addr + i) = w.data.getD i 0) ∧
    (w.atWest = true → ∃ t, exec (.accessPerform (some 2) 0) s = .next t ∧ t.stores = s.stores ∧ t.harts = s.harts ∧
      t.hostWrites = [] ∧ ∀ i, i < w.data.length → t.memByte (w.addr + i) = w.data.getD i 0) ∧
    (w.atEast = true → ∃ t, exec (.accessPerform (some 0) 0) s = .next t ∧ t.stores = s.stores ∧ t.harts = s.harts ∧
      t.hostWrites = [] ∧ ∀ i, i < w.data.length → t.memByte (w.addr + i) = w.data.getD i 0)) ∧
  (∀ (s : State) addr x, s.sector addr = some x → x.bad = true → x.dirty = true → window addr < 8 →
    ∃ t, exec (.l2Eviction addr) s = .next t ∧ t.sector addr = none ∧ (t.errAt addr).poison = true) ∧
  (∀ (s : State) addr x, s.sector addr = some x → x.bad = false → ∃ t, exec (.l2Eviction addr) s = .next t ∧ t.harts = s.harts ∧
    t.stores = s.stores ∧ t.sector addr = none ∧ (x.dirty = true → window addr < 8 → t.errAt addr = ⟨x.poison, false, x.flip⟩) ∧
    ∀ place a, t.homeByte place a 0 = if a / 32 = addr / 32 ∧ x.dirty = false then s.memByte a else s.homeByte place a 0)

/-- R343, R344, R346, R348: the pending queue of the lowest QPRIO becomes resident, or takes CFGERR where its record fails the
check; a resident queue with HEAD = TAIL gives its place up; a launch entry taken from a queue becomes a graph whose root
record is READY in slot 0, or is refused in its COMPLETION word; HEAD counts it either way. (That a record that fails takes CFGERR where no place is
free too, and the order of the dispatcher's choices: log 43.) -/
def Obligations.Dispatching : Prop :=
  let same := fun (s t : State) q lo hi => ∀ a, (a < queueRec q + lo ∨ queueRec q + hi ≤ a) → t.memByte a = s.memByte a
  (∀ (s : State) post q, s.dispatches post = true →
    (s.entering post).find? (fun c => (s.entering post).all (fun d => s.qPrio c ≤ s.qPrio d)) = some q →
    (s.badQueue q = true → ∃ t, exec (.queueResident post) s = .next t ∧ t = { s with mem := t.mem } ∧ same s t q 0x20 0x28 ∧
      t.qBit q 3 = true ∧ t.qBit q 0 = s.qBit q 0 ∧ t.qBit q 1 = s.qBit q 1) ∧
    (s.badQueue q = false → (s.residents post).length < 128 → ∃ t, exec (.queueResident post) s = .next t ∧
      t = { s with mem := t.mem, pend := s.pend.filter (fun p => p ≠ q) } ∧ same s t q 0x20 0x28 ∧ t.qBit q 0 = true ∧ t.qBit q 1 = false) ∧
    (s.badQueue q = false → 128 ≤ (s.residents post).length → exec (.queueResident post) s = .next s)) ∧
  (∀ (s : State) post, s.dispatches post = true → s.entering post ≠ [] → 128 ≤ (s.residents post).length →
    (∀ q, s.residents post = q :: (s.residents post).tail → s.qHead q = s.qTail q → q ∉ s.recent →
      ∃ t, exec (.queueDormant post) s = .next t ∧ t = { s with mem := t.mem } ∧ same s t q 0x18 0x28 ∧ t.qBit q 0 = false ∧
        t.qHead q = s.qHead q) ∧
    ((∀ q ∈ s.residents post, s.qHead q ≠ s.qTail q) → exec (.queueDormant post) s = .next s)) ∧
  (∀ (s : State) q, q < 8192 → s.homeOk q = true → s.dispatches (s.qHome q) = true → s.qBit q 0 = true → (s.qword q 8).testBit 6 = true →
    s.qHead q ≠ s.qTail q → s.rungEntry q (s.qHead q) = false → s.Clean → s.scrapped = 0 → s.beams = [] →
    let place := s.qHome q
    let addr := s.qword q 0 + 64 * (s.qHead q % 2 ^ s.qLogSize q)
    let e := launchEntry (s.rawBytes place addr 64)
    let w := s.qword q 8
    let posts := e.posts &&& bitsN w 23 16 &&& s.posts &&& 0xFF
    let masks := s.launchMasks q (s.launchArray place e).2
    let counted := fun (t : State) => t.qHead q = (s.qHead q + 1) % 2 ^ 32
    (window addr < 8 ∨ (window addr = 8 ∧ s.plainPlace addr 64 = true) ∨ (window addr = 10 ∧ s.hostWrites = [])) →
    (∀ c, s.launchRefused q e posts masks = some c → ∃ t, exec (.dispatchBatch q 1) s = .next t ∧ counted t ∧ t.graphs = s.graphs ∧
      t.tasks = s.tasks ∧ ∀ k, k < 8 → t.homeByte place (addr + 0x30 + k) 0 = BitVec.ofNat 8 ((c.code + 128) / 2 ^ (8 * k))) ∧
    (let root := s.rawBytes place e.root 64
     s.launchRefused q e posts masks = none → fieldAt root 16 4 = 0 → fieldAt root 24 8 = 0 → badRecord posts root = false →
      s.graphs.length < 2 ^ 32 - 1 → s.MemWf →
      ∃ t gid, exec (.dispatchBatch q 1) s = .next t ∧ counted t ∧ s.graph gid = none ∧ 0 < gid ∧ gid < 2 ^ 32 ∧
        t.graph gid = some {
          queue := q, asid := e.asid, prio := e.prio, posts := posts, cores := masks, pool := e.pool, poolLog := e.logPool,
          faultq := e.faultq, fqlen := e.fqlen, quota := if e.quota = 0 then bitsN w 39 32 else min e.quota (bitsN w 39 32),
          wdog := bitsN w 47 40, entry := addr, number := s.qHead q, nextId := 1, underflow := false, killed := false } ∧
        t.memNat e.pool 64 = natOfBytes root ∧
        ∃ k, t.task s.nextUid = some k ∧ (k.graph, k.id, k.slot, k.status, k.started, k.image) = (gid, 0, 0, .ready, false, none)))

/-- R36, R37, R42, R47, R60, R258, R309, R350, R353, R356, R373, R391, R393, R408: a dispatcher binds its first task to a core, with the registers of its
record, in a new image that reads zero elsewhere, or with those of its image; an image that may not be restored stops the task again. A victim, a task whose
timer has run out and one with a report stop where they are; the end of a save leaves
the image as the core stood, frees the core, and puts the task back into its list or, for a stop, its entry into the fault
queue; the task of a killed graph ends. A parity error that the core has met is reported first. (The cut of a long instruction and what a running task
may be stalled on: log 14; stores ordered at core scope performed before a binding: log 18; the save at one instant: log 46; the dispatcher's order:
log 43; record fields that cannot be read: log 78.) -/
def Obligations.TaskEvents : Prop :=
  (∀ (s : State) post u n gid g t, s.dispatches post = true → s.nextOwn post = some u → s.coreFor u post = some (n, gid, g, t) →
    let s0 := s.drain n (fun w => w.fenced)
    let others := fun (s' : State) => ∀ m, m ≠ n → s'.hart m = { s0.hart m with victim := (s'.hart m).victim }
    let runs := { t with status := .running, post := n / 32, started := true, lastCore := n % 32 }
    (t.image = none → s0.slotField g t 32 = 0 → ∃ s' b h, exec (.taskBind post) s = .next s' ∧ s'.hart n = h ∧
      b ∈ s0.freeBases (n / 32) (imageLen t.tiles) ∧ others s' ∧ (∀ r ∈ s'.ready, r.task ≠ u) ∧ s'.task u = some { runs with image := some b } ∧
      h.pc = BitVec.ofNat 64 (s0.slotField g t 0) ∧ h.gr 1 = BitVec.ofNat 64 (s0.slotField g t 8) ∧ h.gr 2 = BitVec.ofNat 64 (s0.slotField g t 40) ∧
      h.gr 3 = BitVec.ofNat 64 (s0.slotField g t 48) ∧ h.gr 4 = BitVec.ofNat 64 (s0.slotField g t 56) ∧ h.gr 5 = BitVec.ofNat 64 (g.slotAddr t.slot) ∧
      (∀ r, 6 ≤ r → r < 32 → h.gr r = 0) ∧ (h.livemask, h.pegmask, h.estart, h.mode, h.task) = (0, 0, 0, .running, some u) ∧
      (s.MemWf → s'.imageWord b 0 = h.pc ∧ ∀ r, r < 32 → s'.imageWord b (0x100 + 8 * r) = h.gr r) ∧
      (∀ off, 0x400 ≤ off → off < imageLen t.tiles → s'.memByte (b + off) = 0) ∧
      (s0.Clean → ∀ a, (a < b ∨ b + imageLen t.tiles ≤ a) → s'.memByte a = s0.memByte a)) ∧
    (∀ c, t.image = none → s0.slotField g t 32 ≠ 0 → s0.bufferOf gid (s0.slotField g t 32) = some c → ∃ s', exec (.taskBind post) s = .next s' ∧
      (s'.hart n).task = some u ∧ { c with hart := n, holder := some u } ∈ s'.buffers) ∧
    (∀ b, t.image = some b → (s0.buffers.all (fun c => c.holder ≠ some u)) = true → let h := s0.loadImage b t.tiles
      let code := h.cause.toNat % 64
      let lost := code = Cause.coreParity.code ∨ (code = Cause.sramUncorr.code ∧ h.finfo.toNat / 16 % 16 = 15)
      ∃ s', exec (.taskBind post) s = .next s' ∧ others s' ∧ s'.task u = some runs ∧ (s'.hart n).task = some u ∧
        (lost → (s'.hart n).mode = .saving .refused ∧ s'.mem = s0.mem) ∧
        (∀ off, ¬ lost → s0.badLine b t.tiles = some off → (s'.hart n).mode = .saving .unfilled ∧ (s'.hart n).faddr = BitVec.ofNat 64 off ∧
          (s'.hart n).cause = BitVec.ofNat 64 (Cause.sramUncorr.code + if h.estart = 0 then 0 else 64) ∧ (s'.hart n).finfo = 15 * 16) ∧
        (¬ lost → s0.badLine b t.tiles = none → s'.mem = s0.mem ∧ s'.hart n = { h with
          task := some u, boundSeq := (s'.hart n).boundSeq, mode := .running, victim := (s'.hart n).victim,
          unfilled := s0.unfilledAt b t.tiles h.livemask, fetched := t.fetched }))) ∧
  (∀ (s : State) n f, isSys n = false → (s.hart n).parity = some f →
    (let h := (s.coreParity n f).hart n
     (h.mode, h.parity, h.faddr) = (.saving .stop, none, BitVec.ofNat 64 (f.toNat % 2 ^ 52)) ∧ h.cause.toNat % 64 = Cause.coreParity.code) ∧
    (∀ w unit, (s.hart n).mode = .blocked w →
      ((s.hart n).victim = true → exec (.preemptStop n unit) s = .next (s.coreParity n f)) ∧
      (s.hasReport n = true → exec (.rowReportStop n) s = .next (s.coreParity n f)) ∧
      ∀ port kind field addr, (s.hart n).task ≠ none → s.waitOver n w = false →
        exec (.watchdog n unit port kind field addr) s = .next (s.coreParity n f)) ∧
    ((s.hart n).mode = .running → (s.hart n).estart = 0 →
      ((s.hart n).victim = true → exec (.preemptStop n 0) s = .next (s.coreParity n f)) ∧
      (s.hasReport n = true → exec (.rowReportStop n) s = .next (s.coreParity n f)))) ∧
  (∀ (s : State) n, isSys n = false → (s.hart n).victim = true → s.hasReport n = false → (s.hart n).parity = none →
    let saves := { s.hart n with mode := .saving .preempt, victim := false, held := none, cut := none }
    (∀ w unit, (s.hart n).mode = .blocked w → Completes (.preemptStop n unit) s n saves) ∧
    ((s.hart n).mode = .running → (s.hart n).estart = 0 → Completes (.preemptStop n 0) s n saves) ∧
    (∀ unit, (s.hart n).mode = .running → unit ≠ 0 → Completes (.preemptStop n unit) s n { s.hart n with cut := some ⟨unit, none⟩ })) ∧
  (∀ (s : State) n u, isSys n = false → (s.hart n).task = some u → (s.hart n).parity = none →
    let stops := fun (i : Instr) (w : Wait) => Completes i s n { s.hart n with
      cause := BitVec.ofNat 64 (35 + if (s.hart n).estart = 0 then 0 else 64), faddr := BitVec.ofNat 64 (w.faddr.toNat % 2 ^ 52)
      finfo := BitVec.ofNat 64 (w.kind + 16 * w.port + 256 * w.field), epc := (s.hart n).pc
      mode := .saving .stop, victim := false, cut := none, held := none, stopSeq := s.nextStop }
    (∀ w unit port kind field addr, (s.hart n).mode = .blocked w →
      (s.waitOver n w = true → exec (.watchdog n unit port kind field addr) s = .next s) ∧
      (s.waitOver n w = false → stops (.watchdog n unit port kind field addr) w)) ∧
    (∀ unit port kind field addr, (s.hart n).mode = .running →
      let w : Wait := ⟨port, kind, field, addr⟩
      (s.stalledAt n unit w = false → exec (.watchdog n unit port kind field addr) s = .next s) ∧
      (s.stalledAt n unit w = true → unit = 0 → stops (.watchdog n unit port kind field addr) w) ∧
      (s.stalledAt n unit w = true → unit ≠ 0 → Completes (.watchdog n unit port kind field addr) s n { s.hart n with cut := some ⟨unit, some w⟩ }))) ∧
  (∀ (s : State) n u t r rs, isSys n = false → s.taskOf n = some (u, t) → t.reports = r :: rs → r.cause ≠ .resumeState → (s.hart n).parity = none →
    (((s.hart n).mode = .running ∧ (s.hart n).estart = 0) ∨ ∃ w, (s.hart n).mode = .blocked w) →
    ∃ s', exec (.rowReportStop n) s = .next s' ∧ s'.task u = some { t with reports := rs } ∧ (∀ m, m ≠ n → s'.hart m = s.hart m) ∧ s'.mem = s.mem ∧
      s'.hart n = { s.hart n with
        cause := BitVec.ofNat 64 r.cause.code, faddr := BitVec.ofNat 64 (r.faddr.toNat % 2 ^ 52), finfo := BitVec.ofNat 64 (5 + 256 * r.field), epc := (s.hart n).pc
        mode := .saving .stop, victim := false, cut := none, held := none, stopSeq := s.nextStop }) ∧
  (∀ (s : State) n u t g why, s.taskOf n = some (u, t) → s.graph t.graph = some g → g.killed = true → (s.hart n).mode = .saving why →
    ∃ t', exec (.imageSaveDone n) s = .next t' ∧ t'.task u = none) ∧
  (∀ (s : State) n u t g b why, s.taskOf n = some (u, t) → s.graph t.graph = some g → g.killed = false → t.image = some b →
    (s.hart n).mode = .saving why → (∀ w ∈ s.stores, w.hart ≠ n) → s.MemWf → (∀ o ∈ (s.hart n).unfilled, 0x2000 ≤ o) → t.tiles ≤ 4 →
    let h := s.hart n
    let saved := fun (t' : State) => t'.imageWord b 0 = h.pc ∧ t'.imageWord b 8 = h.estart ∧ t'.imageWord b 0x10 = h.pegmask ∧
      t'.imageWord b 0x18 = h.livemask ∧ t'.imageWord b 0x38 = h.cause ∧ t'.imageWord b 0x40 = h.faddr ∧ t'.imageWord b 0x50 = h.epc ∧
      (∀ r, r < 32 → t'.imageWord b (0x100 + 8 * r) = h.gr r) ∧
      ∀ r, r < 32 → h.isLive r = true → (∀ o ∈ h.unfilled, o / 256 ≠ 0x20 + r) → t'.memNat (b + 0x2000 + 256 * r) 256 = (h.vr r).toNat
    let ends := fun (t' : State) (st : TaskStatus) => t'.hart n = { Hart.blank with fetched := h.fetched } ∧ (t'.task u).map (fun k => (k.status, k.post)) = some (st, t.post)
    (why = .preempt → ∃ t', exec (.imageSaveDone n) s = .next t' ∧ saved t' ∧ ends t' .ready ∧
      t'.ready.head?.map (fun r => (r.task, r.post)) = some (u, t.post)) ∧
    (why = .yield → ∃ t', exec (.imageSaveDone n) s = .next t' ∧ saved t' ∧ ends t' .ready ∧
      t'.ready.getLast?.map (fun r => (r.task, r.post)) = some (u, t.post)) ∧
    (let size := 32 + 32 * g.fqlen
     let wr := s.memNat g.faultq 4
     let slot := g.faultq + 32 + 32 * (wr % g.fqlen)
     let entry := fun (t' : State) (cause faddr : Nat) => t'.memNat g.faultq 4 = (wr + 1) % 2 ^ 32 ∧ t'.memNat slot 8 = (t.id + t.graph * 2 ^ 32) % 2 ^ 64 ∧
       t'.memNat (slot + 16) 8 = faddr ∧ t'.memNat (slot + 24) 8 = b % 2 ^ 64 ∧ t'.memByte (slot + 8) = BitVec.ofNat 8 (cause % 128)
     0 < g.fqlen → window g.faultq = 8 → s.plainPlace g.faultq size = true → s.Clean → s.scrapped = 0 →
     (s.held.all (fun e => e.graph ≠ t.graph)) = true → s.earlierStop t.graph h.stopSeq = false →
     (g.faultq + size ≤ b ∨ b + imageLen t.tiles ≤ g.faultq) → s.faultFull g = false →
     (why = .stop → ∃ t', exec (.imageSaveDone n) s = .next t' ∧ saved t' ∧ ends t' .stopped ∧ entry t' h.cause.toNat h.faddr.toNat) ∧
     (why = .refused → ∃ t', exec (.imageSaveDone n) s = .next t' ∧ ends t' .stopped ∧ entry t' Cause.resumeState.code 0 ∧
       ∀ a, b ≤ a → a < b + imageLen t.tiles → t'.memByte a = s.memByte a)))

/-- R284, R373: PFH appends its advice where the fault queue has room, nothing is held and every earlier stop of its graph is written, lets it wait
for those stops, and does nothing for a length of 0 or a full queue; a held entry is written once its turn has come and the queue has room; the first that finds
none raises FAULTQ_FULL, advice is dropped. (How entries are held, and advice behind the stops before it: log 51; a header that cannot be read: log
78.) -/
def Obligations.FaultQueue : Prop :=
  let open_ := fun (s : State) (g : Graph) => 0 < g.fqlen ∧ window g.faultq = 8 ∧ s.plainPlace g.faultq (32 + 32 * g.fqlen) = true ∧ s.Clean ∧ s.scrapped = 0
  let slot := fun (s : State) (g : Graph) => g.faultq + 32 + 32 * (s.memNat g.faultq 4 % g.fqlen)
  let rest := fun (s t : State) (g : Graph) (len : Nat) => t.memNat g.faultq 4 = (s.memNat g.faultq 4 + 1) % 2 ^ 32 ∧
    ∀ a, (a < g.faultq ∨ g.faultq + 4 ≤ a) → (a < slot s g ∨ slot s g + len ≤ a) → t.memByte a = s.memByte a
  (∀ s n x u t gid g, let h := s.hart n
    let len := (h.gr (gNum x.b)).toNat % 2 ^ 32
    s.Ready n .pfh x → s.taskOf n = some (u, t) → s.graphOf n = some (gid, g) →
    (len = 0 → Retires (.pfh x) x s n h 0) ∧
    (s.faultFull g = true → s.Clean → Retires (.pfh x) x s n h 0) ∧
    (len ≠ 0 → (s.held.all (fun e => e.graph ≠ gid)) = true → s.faultFull g = false → s.earlierStop gid s.nextStop = true → ∃ t' e, exec (.pfh x) s = .next t' ∧ (∀ m, m ≠ n → t'.hart m = s.hart m) ∧
      s.Frame t' x n [] [] [] ∧ t'.held = s.held ++ [e] ∧ (e.graph, e.task, e.advice) = (gid, u, true) ∧ t'.mem = s.mem ∧ t'.stores = s.stores) ∧
    (len ≠ 0 → (s.held.all (fun e => e.graph ≠ gid)) = true → s.earlierStop gid s.nextStop = false → s.faultFull g = false → open_ s g →
      ∃ t', exec (.pfh x) s = .next t' ∧ (∀ m, m ≠ n → t'.hart m = s.hart m) ∧ s.Frame t' x n [] [] [] ∧
      t'.stores = s.stores ∧ t'.held = s.held ∧ rest s t' g 32 ∧ t'.memNat (slot s g) 8 = (t.id + gid * 2 ^ 32) % 2 ^ 64 ∧
      t'.memNat (slot s g + 8) 8 = (128 + t.post * 2 ^ 24 + len * 2 ^ 32) % 2 ^ 64 ∧ t'.memNat (slot s g + 16) 8 = (h.gr (gNum x.a)).toNat)) ∧
  (∀ (s : State) n x, s.Ready n .pfh x → isSys n = true → s.taskOf n = none → Retires (.pfh x) x s n (s.hart n) 0) ∧
  (∀ (s : State) gid g e, s.graph gid = some g → s.held.find? (fun e => e.graph = gid) = some e →
    (s.earlierStop gid e.seq = true → exec (.faultqHeldWrite gid) s = .next s) ∧
    (s.earlierStop gid e.seq = false → s.Clean →
      (s.faultFull g = true → e.advice = true → exec (.faultqHeldWrite gid) s = .next { s with held := s.held.erase e }) ∧
      (s.faultFull g = true → e.advice = false → e.told = true → exec (.faultqHeldWrite gid) s = .next s) ∧
      (s.faultFull g = true → e.advice = false → e.told = false → let m := 256 + s.memNat (g.faultq + 0x10) 1 % 8
        ∃ t, exec (.faultqHeldWrite gid) s = .next t ∧ (∀ k, k ≠ m → t.hart k = s.hart k) ∧ t.mem = s.mem ∧
          t.held = s.held.map (fun d => if d.graph = gid then { d with told := true } else d) ∧
          (t.hart m).tpend = (s.hart m).tpend ||| BitVec.ofNat 64 (2 ^ Cause.faultqFull.code) ∧
          ((s.hart m).tpend.getLsbD Cause.faultqFull.code = false →
            Table.get 0 (t.hart m).pendAddr Cause.faultqFull.code = BitVec.ofNat 64 g.faultq)) ∧
      (s.faultFull g = false → open_ s g → e.data.length = 32 → ∃ t, exec (.faultqHeldWrite gid) s = .next t ∧ t.held = s.held.erase e ∧ t.harts = s.harts ∧
        rest s t g 32 ∧ ∀ k, k < 32 → t.memByte (slot s g + k) = e.data.getD k 0)))

/-- R62, R218, R231, R287, R288, R290, R296, R299 to R306: commands start in order, at most four of a post's bank queue, a copy of a region where its
list holds its lanes; a started copy deals with the run of its bytes that a landing names, and one that lands whole within the posts' DRAM, where no
error stands, writes what its kind gives: the source's bytes; those and the fingerprints of their chunks; nothing, with the lowest byte that
differs; the decoded bytes, or none where they do not decode; the planes and the check plane of a region's lanes; the elements of those lanes, with
PLANE_CHECK at the lowest whose check plane disagrees; each byte landed counts once at the barrier, which stops at 0 with LANDING_UNDER. A command
whose work is done leaves its queue, its status goes to its peg, in the core or in the image, and its task's count of the class falls by one. (The
run that a landing names: log 26; what its completion still does: log 27; the queue's entry kept until then: log 47.) -/
def Obligations.EngineEvents : Prop :=
  let ends := fun (s t : State) (task : Option Nat) (graph peg cls : Nat) (status : Nat) => ∀ u k, task = some u → s.task u = some k →
    k.status ≠ .waiting → k.graph = graph → s.isKilled graph = false →
    t.task u = some (if cls = 0 then { k with copies := k.copies - 1 } else { k with banks := k.banks - 1 }) ∧
    (∀ n h, s.harts.find? (fun c => c.2.task = some u && c.2.holdsPinned) = some (n, h) → (∀ m, m ≠ n → t.hart m = s.hart m) ∧ t.mem = s.mem ∧
      (1 ≤ peg → peg < 32 → (t.hart n).gr peg = BitVec.ofNat 64 status ∧ (t.hart n).pegmask.getLsbD peg = false ∧
        (∀ r, r < 32 → r ≠ peg → (t.hart n).gr r = (s.hart n).gr r) ∧ ((t.hart n).pc, (t.hart n).mode) = ((s.hart n).pc, (s.hart n).mode)) ∧
      (peg = 0 → t.hart n = s.hart n)) ∧
    (∀ b, s.harts.find? (fun c => c.2.task = some u && c.2.holdsPinned) = none → k.image = some b → t.harts = s.harts ∧
      (1 ≤ peg → peg < 32 → t.memNat (b + 0x100 + 8 * peg) 8 = status % 2 ^ 64 ∧ (t.memNat (b + 0x10) 8).testBit peg = false))
  (∀ (s : State) post c, let q := s.bankQueue post
    q.find? (fun c => !c.started) = some c →
    ((q.filter (fun c => c.started)).length < 4 → ∃ t, exec (.bankCmdStart post) s = .next t ∧ t = { s with banks := t.banks } ∧
      (∀ r, r ≠ post → t.bankQueue r = s.bankQueue r) ∧ t.bankQueue post = q.map (fun d => if d.seq = c.seq then { c with started := true } else d)) ∧
    (4 ≤ (q.filter (fun c => c.started)).length → exec (.bankCmdStart post) s = .next s)) ∧
  (∀ (s : State) post seq c x f, let q := s.bankQueue post
    q.find? (fun c => c.seq = seq && c.started) = some c → q.find? (fun c => c.seq = seq) = some c →
    (∀ d ∈ q, d.seq ≤ seq → d.started = false ∨ d.result.isSome = true) → c.result = some (x, f) →
    ∃ t, exec (.bankCmdComplete post seq) s = .next t ∧ t.bankQueue post = q.filter (fun d => d.seq ≠ seq) ∧
      ends s t c.task c.graph c.peg 1 (x.code + f.toNat * 2 ^ 6 + 2 ^ 14)) ∧
  (∀ (s : State) post c, s.bankQueue post = [c] → c.started = true → c.result = none →
    exec (.bankCmdComplete post c.seq) s = exec (.bankCmdComplete post c.seq) (s.bankApply post c)) ∧
  (∀ (s : State) e c, (s.copiesAt e).find? (s.copyReady e) = some c →
    ((c.kind ≠ 1 ∧ c.kind ≠ 2) ∨ ∃ r, s.region c.asid c.par.handle = some r ∧ r.checked = true ∧ c.par.lane + c.total ≤ 8192 * r.subs.length) →
    ∃ t, exec (.copyStart e) s = .next t ∧ t = { s with copies := t.copies } ∧
      t.copiesAt e = (s.copiesAt e).map (fun d => if d.seq = c.seq then { c with started := true } else d)) ∧
  (∀ (s : State) e seq first count c a b, (s.copiesAt e).find? (fun c => c.seq = seq && c.started) = some c → 0 < count → (c.kind = 3 → c.buf ≠ []) →
    c.left.Pairwise (fun p q => p.2 ≤ q.1 ∨ q.2 ≤ p.1) → (a, b) ∈ c.left → a ≤ first → first < b →
    ∃ t d, exec (.copyLand e seq (first, count)) s = .next t ∧ (t.copiesAt e).find? (fun c => c.seq = seq && c.started) = some d ∧
      t.harts = s.harts ∧ t.tasks = s.tasks ∧ d.total = c.total ∧ d.fail = none ∧
      (∀ o, (∃ r ∈ d.left, r.1 ≤ o ∧ o < r.2) ↔ (∃ r ∈ c.left, r.1 ≤ o ∧ o < r.2) ∧ ¬ (first ≤ o ∧ o < min b (first + count))) ∧
      (d.kind, d.par, d.src, d.dst, d.peg, d.task) = (c.kind, c.par, c.src, c.dst, c.peg, c.task)) ∧
  (∀ (s : State) e c, s.copiesAt e = [c] → c.started = true → isSys c.issuer = false → c.left = [(0, c.total)] → 0 < c.total →
    (c.fail, c.cause, c.low) = (none, none, none) → (c.early, c.buf, c.owed) = ([], [], (0, 0)) → (c.tainted, c.spoiled) = (false, []) →
    s.Clean → s.scrapped = 0 → s.beams = [] →
    let place := fun (ps : List Piece) (i : Nat) => (byteAt ps i).1
    let size := fun (ps : List Piece) => (ps.map (fun p => p.len)).sum
    let byte := fun (ps : List Piece) (i : Nat) => s.homeByte e (byteAt ps i).1 (byteAt ps i).2
    let apart := fun (ps qs : List Piece) => ∀ i j, i < size ps → j < size qs → place ps i ≠ place qs j
    let single := fun (ps : List Piece) => ∀ i j, i < size ps → j < size ps → place ps i = place ps j → i = j
    let barWord := fun (b : Nat) => natOfBytes ((List.range 8).map (fun i => s.homeByte 0 (b + i) 0))
    (∀ p ∈ c.src ++ c.dst ++ c.fp, window p.addr < 8 ∧ p.addr % 2 ^ 48 + p.len ≤ 2 ^ 48 ∧ ∀ i, i < p.len → s.inPlane (p.addr + i) = false) →
    (∀ p ∈ c.fp, p.addr % 8 = 0 ∧ p.len % 8 = 0) → single c.dst → single c.fp → apart c.dst c.fp →
    (∀ b, c.bar = some b → window b = 8 ∧ b % 8 = 0 ∧ s.plainPlace b 8 = true) →
    let lands := fun (n : Nat) (out fps : Nat → Byte) (bad low : Option Nat) => ∃ t d, exec (.copyLand e c.seq (0, c.total)) s = .next t ∧
      t.copiesAt e = [d] ∧ (d.left, d.landed, d.low) = ([], c.landed + n, low) ∧ t.rows = s.rows ∧
      d.cause = (if bad = some 0 then some (0, 1, .planeCheck)
        else if 0 < n ∧ (∃ b, c.bar = some b ∧ barWord b < n) then some (0, 2, .landingUnder)
        else bad.map (fun i => (i * 2 ^ c.par.esize, 1, .planeCheck))) ∧
      (∀ q i k, i < n → t.homeByte q (place c.dst i) k = out i) ∧ (∀ q i k, i < size c.fp → t.homeByte q (place c.fp i) k = fps i) ∧
      (∀ b i q k, c.bar = some b → 0 < n → i < 8 → t.homeByte q (b + i) k = BitVec.ofNat 8 ((barWord b - n) / 2 ^ (8 * i))) ∧
      ∀ q a k, (∀ i, i < n → a ≠ place c.dst i) → (∀ i, i < size c.fp → a ≠ place c.fp i) →
        (∀ b, c.bar = some b → 0 < n → a < b ∨ b + 8 ≤ a) → t.homeByte q a k = s.homeByte q a k
    let none_ := fun (_ : Nat) => (0 : Byte)
    (c.kind = 0 → c.fp = [] → size c.src = c.total → size c.dst = c.total → lands c.total (byte c.src) none_ none none) ∧
    (c.kind = 4 → size c.src = c.total → (c.dst = [] ∨ size c.dst = c.total) → c.par.len = c.total →
      let chunk := if c.par.chunk = 0 then c.total else 2 ^ c.par.chunk
      c.total % chunk = 0 → size c.fp = 8 * (c.total / chunk) →
      let crc := fun (j : Nat) => ((List.range chunk).map (fun i => byte c.src (j * chunk + i))).foldl crcByte 0
      lands (size c.dst) (byte c.src) (fun i => BitVec.ofNat 8 (crc (i / 8) / 2 ^ (8 * (i % 8)))) none none) ∧
    (c.kind = 5 → c.fp = [] → c.bar = none → size c.src = c.total → size c.dst = c.total →
      lands 0 none_ none_ none ((List.range c.total).find? (fun i => byte c.src i ≠ byte c.dst i))) ∧
    (c.kind = 3 → c.fp = [] → size c.src = c.par.len → c.total = c.par.outlen → size c.dst = c.total → (c.par.psplit = true → c.par.outlen % 2 = 0) →
      (∀ out, bloomOutput c.par.outlen c.par.psplit ((List.range c.par.len).map (byte c.src)) = .ok out → lands c.total (fun i => out.getD i 0) none_ none none) ∧
      (∀ f, bloomOutput c.par.outlen c.par.psplit ((List.range c.par.len).map (byte c.src)) = .error f →
        ∃ t d, exec (.copyLand e c.seq (0, c.total)) s = .next t ∧ t.copiesAt e = [d] ∧ (d.left, d.landed, d.cause) = ([], c.landed, some (0, 0, f)) ∧
          t.rows = s.rows ∧ ∀ q a k, t.homeByte q a k = s.homeByte q a k)) ∧
    (∀ r, s.region c.asid c.par.handle = some r → r.subs.Nodup → (∀ b ∈ r.subs, b < 196608) → c.region < 8 → 1 ≤ c.par.w → c.par.w ≤ 64 →
      c.par.w ≤ 8 * 2 ^ c.par.esize → c.par.row + c.par.w ≤ 511 → c.region = e →
      let w := c.par.w
      let size1 := 2 ^ c.par.esize
      let sub := fun (i : Nat) => r.subs.getD ((c.par.lane + i) / 8192) 0
      let col := fun (i : Nat) => (c.par.lane + i) % 8192
      let odd := fun (x : Nat) => decide (((List.range w).filter x.testBit).length % 2 = 1)
      (c.kind = 1 → c.fp = [] → c.bar = none → size c.src = c.total * size1 → c.par.lane + c.total ≤ 8192 * r.subs.length →
        let x := fun (i : Nat) => natOfBytes ((List.range size1).map (fun k => byte c.src (i * size1 + k)))
        ∃ t d, exec (.copyLand e c.seq (0, c.total)) s = .next t ∧ t.copiesAt e = [d] ∧ (d.left, d.landed, d.cause) = ([], c.landed + c.total * size1, none) ∧
          (∀ q a k, t.homeByte q a k = s.homeByte q a k) ∧
          (∀ i, i < c.total → (∀ k, k < w → (t.row e (sub i) (c.par.row + k)).getLsbD (col i) = (x i).testBit k) ∧
            (t.row e (sub i) (c.par.row + w)).getLsbD (col i) = odd (x i)) ∧
          ∀ q b a k, q < 8 → b < 196608 → a < 522 →
            (∀ i, i < c.total → q = e → b = sub i → k = col i → a < c.par.row ∨ c.par.row + w < a) →
            (t.row q b a).getLsbD k = (s.row q b a).getLsbD k) ∧
      (c.kind = 2 → c.fp = [] → size c.dst = c.total → c.total % size1 = 0 → c.par.lane + c.total / size1 ≤ 8192 * r.subs.length →
        let bit := fun (i a : Nat) => (s.row e (sub i) a).getLsbD (col i)
        let x := fun (i : Nat) => ((List.range w).map (fun k => if bit i (c.par.row + k) then 2 ^ k else 0)).sum
        let v := fun (i : Nat) => if c.par.sign then encN (sextN (x i) w) 64 else x i
        let bad := (List.range (c.total / size1)).find? (fun i => odd (x i) ≠ bit i (c.par.row + w))
        lands c.total (fun o => BitVec.ofNat 8 (v (o / size1) / 2 ^ (8 * (o % size1)))) none_ bad bad))) ∧
  (([0x31, 0x32, 0x33, 0x34, 0x35, 0x36, 0x37, 0x38, 0x39] : List Byte).foldl crcByte 0 = 0x6C40DF5F0B497347) ∧
  (let src : List Byte := [0x11, 0x00, 0x01, 0x00, 0x60, 0x01, 0x02, 0x03, 0x04, 0x05, 0x06]
   bloomOutput 12 true src = .ok [1, 0, 2, 0, 3, 0, 4, 0, 5, 0, 6, 0] ∧ bloomOutput 14 true src = .error .bloomLength ∧
   bloomOutput 12 true (src.take 10) = .error .bloomFormat ∧ bloomOutput 12 true (src.set 2 2) = .error .bloomFormat) ∧
  (∀ (s : State) e seq c, (s.copiesAt e).find? (fun c => c.seq = seq && c.started && c.left.isEmpty) = some c →
    ∃ t, exec (.copyComplete e seq) s = .next t ∧
      t.copiesAt e = (s.copiesAt e).filter (fun d => d.seq ≠ seq) ∧
      ends s t c.task c.graph c.peg 0 ((match c.cause with | some (_, _, f) => f.code | none => 0) + c.detail * 2 ^ 32))

/-- R240, R245, R255, R256, R259, R260: a mode request at the front of its list takes effect; the most urgent of the programs
that may start runs; the governor admits waves one at a time, two at most; an alert is recorded at 2,048 activations; a
refresh resets a subarray's counts, or waits for the joint of the program that runs there. (That at most two waves stand admitted: log 20; what fits
a start: log 47; the order at a joint: log 48.) -/
def Obligations.SequencerEvents : Prop :=
  (∀ (s : State) post asid handle r m g rest, s.region asid handle = some r → r.items = .mode m g :: rest → r.post = post →
    ∃ t, exec (.modeChange post asid handle) s = .next t ∧ t = { s with regions := t.regions } ∧
      t.region asid handle = some { r with now := m, items := rest } ∧
      ∀ a h, (a, h) ≠ (asid, handle) → t.region a h = s.region a h) ∧
  (∀ (s : State) post p, let able := (s.progsAt post).filter (fun p => !p.running && s.atFront p && s.fits post p)
    able.find? (fun q => able.all (fun r => q.prio ≤ r.prio)) = some p →
    s.isKilled p.graph = false → p.recheck = false → s.alertsDue post p = [] → (s.due.all (fun d => d.1 ≠ post || !(s.subsOf p).contains d.2)) = true →
    (∀ r, s.region p.asid p.handle = some r → r.checked = true) → (∀ q ∈ s.progsAt post, q.pid = p.pid ∨ p.prio ≤ q.prio) →
    ∃ t q, exec (.rowprogStart post) s = .next t ∧ t.prog post p.pid = some q ∧ t.rows = s.rows ∧ t.mem = s.mem ∧ t.harts = s.harts ∧
      (q.running, q.begun, q.idx, q.ops, q.px, q.loops, q.pb) = (true, true, p.idx, 0, p.px, p.loops, p.pb)) ∧
  (∀ (s : State) post die, s.dieLoad post die ≠ 0 → ∃ t, exec (.waveAdmit post die) s = .next t ∧ t = { s with waves := t.waves } ∧
    ∀ k, Table.get 0 t.waves k = if k = 16 * post + die then min 2 (Table.get 0 s.waves k + 1) else Table.get 0 s.waves k) ∧
  (∀ (s : State) post sub row p, (s.progsAt post).find? (fun p => p.running && (s.subsOf p).contains sub) = some p → row < 522 →
    (2048 ≤ Table.get 0 s.acts (rowKey post sub row) → (sub, row) ∉ p.alerts → ∃ t, exec (.activationAlert post sub row) s = .next t ∧
      t = { s with progs := t.progs } ∧ t.prog post p.pid = some { p with alerts := p.alerts ++ [(sub, row)] }) ∧
    (Table.get 0 s.acts (rowKey post sub row) < 2048 → exec (.activationAlert post sub row) s = .next s)) ∧
  (∀ (s : State) post sub, let busy := ∃ p ∈ s.progsAt post, p.running = true ∧ sub ∈ s.subsOf p
    (busy → exec (.refresh post sub) s = .next (if (post, sub) ∈ s.due then s else { s with due := s.due ++ [(post, sub)] })) ∧
    (¬ busy → ∃ t, exec (.refresh post sub) s = .next t ∧ t = { s with acts := t.acts } ∧
      ∀ p b r, b < 196608 → r < 524 → sub < 196608 → Table.get 0 t.acts (rowKey p b r) = if p = post ∧ b = sub then 0 else Table.get 0 s.acts (rowKey p b r)))

/-- R420 to R424, R426, R427, R429, R431, R432: a direction sends a new flit or an idle one; a good flit with the number
expected passes on and is acknowledged, one with a bad CRC is counted and dropped; a replay sends the whole buffer again; a window with more replays than CEIL
begins a step down, or has one follow the change in progress; a rate change
drains, retrains and takes the new rate, or keeps the old one where a module fails, and loses the beam where all fail at the lowest; a lane with 16 errors is
retired where no rate change is in progress, and the flit that was on it fails its CRC; a flit that has gone out again 64 times without being accepted
loses its beam. (The replay window, the step due, what waits for what, and the count of replays: log 49; the flit on a retired lane: log 31; the
lowest unused spare: log 79.) -/
def Obligations.BeamEvents : Prop :=
  let up := fun (s : State) b d => s.phase = 8 ∧ b < 14 ∧ d < 2 ∧ (s.beam b).lost = false ∧ (s.beam b).dirs.length = 2
  let others := fun (s t : State) (b : Nat) => t = { s with beams := t.beams } ∧ ∀ k, k ≠ b → t.beam k = s.beam k
  let at_ := fun (s : State) b d => (s.beam b).dir d
  (∀ (s : State) b d m, up s b d → (s.beam b).change = none → (at_ s b d).nextModule = some m → (at_ s b d).resend = [] → (at_ s b d).waiting = [] →
    (at_ s b d).window < 2 ^ 20 → (at_ s b d).buffer.length < 1024 → let old := at_ s b d
    let ack := (at_ s b (1 - d)).ack
    (∃ t, exec (.flitSend b d none) s = .next t ∧ others s t b ∧ (at_ t b d).wire = old.wire ++ [⟨flitBits 0 none ack, m, false⟩] ∧ (at_ t b d).buffer = old.buffer ∧
      (at_ t b d).nextSeq = old.nextSeq ∧ (at_ t b (1 - d)).ack = none) ∧
    (∀ f : FlitData, f.vc < 4 → f.payload.length = 240 → ∃ t, exec (.flitSend b d (some f)) s = .next t ∧ others s t b ∧
      (at_ t b d).wire = old.wire ++ [⟨flitBits old.nextSeq (some f) ack, m, false⟩] ∧ (at_ t b d).buffer = old.buffer ++ [⟨old.nextSeq, f, 0⟩] ∧
      (at_ t b d).nextSeq = (old.nextSeq + 1) % 2 ^ 16 ∧ (at_ t b d).waiting = [] ∧ (at_ t b d).window = old.window + 1 ∧ (at_ t b (1 - d)).ack = none)) ∧
  (∀ (s : State) b d q f m rest, up s b d → (at_ s b d).wire = ⟨flitBits q (some f) none, m, false⟩ :: rest → q < 2 ^ 16 → (at_ s b d).expect = q → f.vc < 4 →
    f.payload.length = 240 → ∃ t, exec (.flitReceive b d []) s = .next t ∧ others s t b ∧ (at_ t b d).wire = rest ∧ (at_ t b d).expect = (q + 1) % 2 ^ 16 ∧
      (at_ t b d).ack = some (false, q) ∧ (at_ t b d).nakOut = false ∧ (at_ t b d).crc = (at_ s b d).crc ∧
      (at_ t b d).passed = (at_ s b d).passed ++ [f]) ∧
  (∀ (s : State) b d bits m spoilt rest errors, up s b d → (at_ s b d).wire = ⟨bits, m, spoilt⟩ :: rest → (spoilt = true ∨ errors = [] ∧ flitGood bits = false) →
    ∃ t, exec (.flitReceive b d errors) s = .next t ∧ others s t b ∧ (at_ t b d).wire = rest ∧ (at_ t b d).expect = (at_ s b d).expect ∧
      (at_ t b d).crc = (at_ s b d).crc + 1 ∧ (at_ t b d).passed = (at_ s b d).passed) ∧
  (∀ (s : State) b d, up s b d → (at_ s b d).buffer ≠ [] → let old := at_ s b d
    let worn := ∃ f ∈ old.buffer, 64 ≤ f.tries ∧ (f.seq + 2 ^ 16 - old.expect) % 2 ^ 16 < 2 ^ 15
    (¬ worn → ∃ t, exec (.replayTimeout b d) s = .next t ∧ others s t b ∧
      at_ t b d = { old with resend := old.buffer.map (fun f => f.seq), replays := old.replays + 1, windowReplays := old.windowReplays + 1 }) ∧
    (worn → ∃ t, exec (.replayTimeout b d) s = .next t ∧ (t.beam b).lost = true ∧ (t.beam b).events.testBit 3 = true ∧ (t.beam b).change = none ∧
      ∀ e, e < 2 → ((at_ t b e).waiting, (at_ t b e).buffer, (at_ t b e).resend, (at_ t b e).wire) = ([], [], [], []))) ∧
  (∀ (s : State) b d m q rest f, up s b d → (s.beam b).change = none → (at_ s b d).nextModule = some m → (at_ s b d).resend = q :: rest →
    (at_ s b d).buffer.find? (fun g => g.seq = q) = some f → (at_ s b d).window < 2 ^ 20 → let old := at_ s b d
    ∃ t, exec (.flitSend b d none) s = .next t ∧ others s t b ∧ (at_ t b d).resend = rest ∧ (at_ t b d).window = old.window + 1 ∧
      (at_ t b d).wire = old.wire ++ [⟨flitBits q (some f.data) (at_ s b (1 - d)).ack, m, false⟩] ∧
      (at_ t b d).buffer = old.buffer.map (fun g => if g.seq = q then { g with tries := g.tries + 1 } else g)) ∧
  (∀ (s : State) b d, up s b d → 2 ^ 20 ≤ (at_ s b d).window → (at_ s b d).windowReplays ≤ (s.beam b).ceil → (s.beam b).stepDue = 0 →
    let old := at_ s b d
    ∃ t, exec (.replayWindowEnd b d) s = .next t ∧ others s t b ∧ at_ t b d = { old with rrate := old.windowReplays, window := 0, windowReplays := 0 } ∧
      (t.beam b).rate = (s.beam b).rate) ∧
  (∀ (s : State) b d, up s b d → 2 ^ 20 ≤ (at_ s b d).window → (s.beam b).ceil < (at_ s b d).windowReplays → 0 < (s.beam b).rate →
    ∃ t, exec (.replayWindowEnd b d) s = .next t ∧ (t.beam b).events.testBit 1 = true ∧
      ((s.beam b).change = none → (t.beam b).change = some ⟨(s.beam b).rate - 1, true, false, none⟩ ∧ (t.beam b).stepDue = (s.beam b).stepDue) ∧
      ((s.beam b).change ≠ none → (t.beam b).change = (s.beam b).change ∧ (t.beam b).stepDue = (s.beam b).stepDue + 1)) ∧
  (∀ (s : State) r, up s r.beam r.dir → r.module < 128 → (s.beam r.beam).change = none → let m := (at_ s r.beam r.dir).mod r.module
    m.carried r.lane ≠ none → m.removed = false → m.retired = [] → m.repair = [] →
    (16 ≤ (m.errors.filter (fun e => e.1 = r.lane)).length → ∃ t, exec (.laneRetire r) s = .next t ∧ others s t r.beam ∧
      (at_ t r.beam r.dir).mod r.module = { m with retired := [r.lane], repair := [(r.lane, 64)], training := true } ∧
      (at_ t r.beam r.dir).lanesRetired = (at_ s r.beam r.dir).lanesRetired + 1 ∧
      ∀ before f after, (at_ s r.beam r.dir).wire = before ++ f :: after → f.module = r.module → (∀ g ∈ after, g.module ≠ r.module) →
        (at_ t r.beam r.dir).wire = before ++ { f with spoilt := true } :: after) ∧
    ((m.errors.filter (fun e => e.1 = r.lane)).length < 16 → exec (.laneRetire r) s = .next s)) ∧
  (∀ (s : State) b d m, up s b d → m < 128 → ((at_ s b d).mod m).training = true → ∃ t, exec (.moduleRetrainDone b d m) s = .next t ∧ others s t b ∧
    ∀ e k, (at_ t b e).mod k = if e = d ∧ k = m then { (at_ s b d).mod m with training := false } else (at_ s b e).mod k) ∧
  (∀ (s : State) b c, up s b 0 → (s.beam b).change = some c → c.training = false →
    let drained := ∀ d ∈ (s.beam b).dirs, d.buffer = [] ∧ ∀ m ∈ d.modules, m.2.training = false
    (drained → ∃ t, exec (.rateChangeDrained b) s = .next t ∧ others s t b ∧ t.beam b = { s.beam b with change := some { c with training := true } }) ∧
    (¬ drained → exec (.rateChangeDrained b) s = .next s)) ∧
  (∀ (s : State) b c, up s b 0 → (s.beam b).change = some c → c.training = true → c.forced = false → (s.beam b).stepDue = 0 →
    let active := fun (m : ModRef) => m.dir < 2 ∧ m.module < 128 ∧ ((at_ s b m.dir).mod m.module).removed = false
    ((c.code ≠ 0 ∨ ∃ m k, active m ∧ active k ∧ m ≠ k) →
      (∃ t, exec (.rateRetrainDone b [] []) s = .next t ∧ (t.beam b).rate = c.code ∧ (t.beam b).change = none) ∧
      (∀ m, active m → ∃ t, exec (.rateRetrainDone b [m] []) s = .next t ∧ (t.beam b).rate = (s.beam b).rate ∧ (t.beam b).change = none ∧
        ∀ e, (at_ t b e).removedCount = (at_ s b e).removedCount)) ∧
    (∀ failed, c.code = 0 → (∀ m, active m → m ∈ failed) → ∃ t, exec (.rateRetrainDone b failed []) s = .next t ∧ (t.beam b).lost = true))

/-- R20, R402, R412, R414 to R416: POWER_LIMIT and THERMAL make their causes pending on the chief system core; a post whose fabric relays is
scrapped alone: it loses its cores and its queued work, the graphs with a task, work, a pool or a fault queue there are killed and lose every task
without a core, the others stay, and SCRAP is raised; with a fabric that relays no longer, as where the package's own state fails, the package loses
all work and halts in phase 15, with bit 8 of SCRAP's FADDR ORed to what is pending. An uncorrectable word or sector that the host reads, and a dirty
sector that the L2 loses, are logged in their post, in the next place of its ring, and WR counts them. (What scrapping leaves in the cores, and the
stores dropped: log 52; when a fabric relays: log 80; a log whose WR cannot be read: log 76.) -/
def Obligations.Reports : Prop :=
  let raised := fun (s t : State) (c : Cause) (addr : Nat) => let n := if (s.hart 256).mode = .halted then 260 else 256
    (t.hart n).tpend = (s.hart n).tpend ||| BitVec.ofNat 64 (2 ^ c.code) ∧
    ((s.hart n).tpend.getLsbD c.code = false → Table.get 0 (t.hart n).pendAddr c.code = BitVec.ofNat 64 addr) ∧
    ∀ m, m ≠ n → t.hart m = s.hart m
  (∀ (s : State) dom, s.phase = 8 → dom < 6 → ∃ t, exec (.powerLimit dom) s = .next t ∧ t = { s with harts := t.harts } ∧ raised s t .powerLimit dom) ∧
  (∀ (s : State) die, s.phase = 8 → die < 10 → s.throttledDies.testBit die = false → ∃ t, exec (.thermal die) s = .next t ∧
    t = { s with harts := t.harts, throttledDies := t.throttledDies } ∧ t.throttledDies = s.throttledDies ||| 2 ^ die ∧ raised s t .thermal die) ∧
  (∀ (s : State) die, s.throttledDies.testBit die = true → exec (.temperatureFall die) s = .next { s with throttledDies := s.throttledDies ^^^ 2 ^ die }) ∧
  (∀ (s : State) post, s.phase = 8 → s.posts.testBit post = true → s.scrapped.testBit post = false →
    let relays := ∃ b, b < 14 ∧ ((beamEnds b).1 = post ∨ (beamEnds b).2 = post) ∧ (s.beam b).lost = false
    let on := fun (gid : Nat) (g : Graph) => homePost g.pool = post ∨ homePost g.faultq = post ∨
      (∃ p ∈ s.taskList, p.2.graph = gid ∧ p.2.image ≠ none ∧ p.2.post = post) ∨ (∃ c ∈ s.bankQueue post, c.graph = gid) ∨
      (∃ c ∈ s.copiesAt post, c.graph = gid) ∨ ∃ p ∈ s.progsAt post, p.graph = gid
    (relays → ∃ t, exec (.postScrap post) s = .next t ∧ t.scrapped = s.scrapped ||| 2 ^ post ∧ t.phase = 8 ∧
      (∀ c, c < 32 → t.hart (32 * post + c) = .blank) ∧ t.bankQueue post = [] ∧ t.copiesAt post = [] ∧ t.progsAt post = [] ∧
      (let n := if (s.hart 256).mode = .halted then 260 else 256
       (t.hart n).tpend = (s.hart n).tpend ||| BitVec.ofNat 64 (2 ^ Cause.scrap.code) ∧
       Table.get 0 (t.hart n).pendAddr Cause.scrap.code = BitVec.ofNat 64 (2 ^ post) |||
         if (s.hart n).tpend.getLsbD Cause.scrap.code then Table.get 0 (s.hart n).pendAddr Cause.scrap.code else 0) ∧
      (∀ place a, window a ≤ 9 → homePost a = post → t.unreachable place a = some .remoteTimeout) ∧
      ((s.graphs.map (fun p => p.1)).Nodup → ∀ gid g, s.graph gid = some g →
        (¬ on gid g → t.graph gid = some g) ∧
        (on gid g → (t.graph gid = none ∨ t.graph gid = some { g with killed := true }) ∧
          ∀ u k, t.task u = some k → k.graph = gid → ∃ p ∈ t.harts, p.1 / 32 ≠ post ∧ p.2.task = some u))) ∧
    (¬ relays → exec (.postScrap post) s = exec (.packageScrap (2 ^ post)) s)) ∧
  (∀ (s : State) posts, s.phase = 8 → let n := if (s.hart 256).mode = .halted then 260 else 256
    ∃ t, exec (.packageScrap posts) s = .next t ∧ (t.phase, t.bootCause, t.failPosts) = (15, .scrap, posts &&& s.posts) ∧
    (t.tasks, t.graphs, t.stores, t.banks, t.copies, t.progs) = ([], [], [], [], [], []) ∧ t.mem = s.mem ∧ t.barUp = false ∧
    (∀ m, m ≠ n → t.hart m = .blank) ∧ (t.hart n).tpend = BitVec.ofNat 64 (2 ^ Cause.scrap.code) ∧
    Table.get 0 (t.hart n).pendAddr Cause.scrap.code = 0x100 |||
      if (s.hart n).tpend.getLsbD Cause.scrap.code then Table.get 0 (s.hart n).pendAddr Cause.scrap.code else 0) ∧
  (let logged := fun (s t : State) (pa kind : Nat) (who : LogAgent) =>
     let base := sramAddr (homePost pa) 0x2FD00000
     let wr := s.memNat base 8
     let e := base + 64 + 32 * (wr % 4096)
     t.memNat base 8 = (wr + 1) % 2 ^ 64 ∧ t.memNat e 8 = unitBase pa + kind * 2 ^ 52 ∧ t.memNat (e + 8) 8 = who.asid + who.graph * 2 ^ 32 ∧
       t.memNat (e + 16) 8 = who.task + who.kind * 2 ^ 32 + who.core * 2 ^ 36 ∧
       t.memNat (e + 24) 8 = (Table.get (0 : Word) t.cycles (homePost pa)).toNat ∧
       ∀ a, (a < base ∨ base + 8 ≤ a) → (a < e ∨ e + 32 ≤ a) → (a < unitBase pa ∨ unitBase pa + unitSize pa ≤ a) → t.memByte a = s.memByte a
   let counts := fun (s : State) (pa : Nat) => s.errAt (sramAddr (homePost pa) 0x2FD00000) = .clean
   (∀ (s : State) port pa, port < 2 → s.phase = 8 → pa % 8 = 0 → window pa ≤ 9 → pa < 2 ^ 52 → s.sector pa = none →
     (∀ k, k < 8 → s.hostReach (pa + k) = true ∧ s.unreachable (8 + port) (pa + k) = none) →
     (s.errAt pa).uncorr = true → (s.errAt pa).poison = false → counts s pa → (window pa < 8 → s.rebuilds pa = false) →
     ∃ t, exec (.hostAccess port pa 8 none) s = .next t ∧ t.hostReply = .abort ∧ t.harts = s.harts ∧
       logged s t pa (if window pa < 8 then 0 else 2) ⟨4, 0, 0, 0, 0⟩) ∧
   (∀ (s : State) pa x, window pa < 8 → pa < 2 ^ 52 → s.sector pa = some x → x.bad = true → x.dirty = true → counts s pa →
     ∃ t, exec (.l2Eviction pa) s = .next t ∧ t.harts = s.harts ∧ logged s t pa 4 ⟨5, 0, 0, 0, 0⟩))
end

