-- ==== Sys2Proof/Laws/Decode.lean ====
section
/-! SUPPORT. The table of descriptions has one row for an OP with a variant, and the fields of a packed word read back. -/
namespace Sys2Proof
open Sys2Proof

/-- Rows of one OP that follow a row share no variant with it. -/
def apartAt (p : Nat × Nat) : List (Nat × Nat) → Bool
  | [] => true
  | q :: t => if p.1 < q.1 then true else p.1 == q.1 && (p.2 &&& q.2) == 0 && apartAt p t
/-- `apartAt` of every row. -/
def apartAll : List (Nat × Nat) → Bool
  | [] => true
  | p :: t => apartAt p t && apartAll t
/-- The OPs do not fall. -/
def risingOps : Nat → List (Nat × Nat) → Bool
  | _, [] => true
  | lo, p :: t => lo ≤ p.1 && risingOps p.1 t
/-- The OP and the variants of a row. -/
def Desc.key (d : Desc) : Nat × Nat := (d.op, d.vars)

theorem descs_apart : apartAll (descs.map Desc.key) = true := by decide +kernel
theorem descs_rising : risingOps 0 (descs.map Desc.key) = true := by decide +kernel

theorem risingOps_mem {lo : Nat} {l : List (Nat × Nat)} (h : risingOps lo l = true) {p : Nat × Nat} (hp : p ∈ l) : lo ≤ p.1 := by
  induction l generalizing lo with
  | nil => simp at hp
  | cons q t ih =>
    simp only [risingOps, Bool.and_eq_true, decide_eq_true_eq] at h
    rcases List.mem_cons.1 hp with rfl | hp
    · exact h.1
    · exact h.1.trans (ih h.2 hp)

theorem apartAt_mem {p : Nat × Nat} {lo : Nat} {l : List (Nat × Nat)} (h : apartAt p l = true) (hr : risingOps lo l = true)
    {q : Nat × Nat} (hq : q ∈ l) (he : q.1 = p.1) : p.2 &&& q.2 = 0 := by
  induction l generalizing lo with
  | nil => simp at hq
  | cons r t ih =>
    simp only [risingOps, Bool.and_eq_true, decide_eq_true_eq] at hr
    simp only [apartAt] at h
    split at h
    · rcases List.mem_cons.1 hq with rfl | hq
      · omega
      · have := risingOps_mem hr.2 hq; omega
    · simp only [Bool.and_eq_true, beq_iff_eq] at h
      rcases List.mem_cons.1 hq with rfl | hq
      · exact h.1.2
      · exact ih h.2 hr.2 hq

theorem find_row {l : List Desc} {lo : Nat} (ha : apartAll (l.map Desc.key) = true) (hr : risingOps lo (l.map Desc.key) = true)
    {d : Desc} (hd : d ∈ l) {v : Nat} (hv : d.vars.testBit v = true) :
    l.find? (fun e => e.op = d.op && e.vars.testBit v) = some d := by
  induction l generalizing lo with
  | nil => simp at hd
  | cons e t ih =>
    simp only [List.map_cons, apartAll, Bool.and_eq_true] at ha
    simp only [List.map_cons, risingOps, Bool.and_eq_true] at hr
    rcases List.mem_cons.1 hd with rfl | hd
    · simp [List.find?, hv]
    · have hn : (decide (e.op = d.op) && e.vars.testBit v) = false := by
        by_contra hc
        simp only [Bool.not_eq_false, Bool.and_eq_true, decide_eq_true_eq] at hc
        have h0 := apartAt_mem ha.1 hr.2 (List.mem_map_of_mem (f := Desc.key) hd) hc.1.symm
        have h1 := congrArg (fun n => n.testBit v) h0
        simp [Desc.key, Nat.testBit_and, hc.2, hv] at h1
      rw [List.find?_cons, hn]
      exact ih ha.2 hr.2 hd

/-- The row that an OP and a variant select (R79 steps 1 and 2). -/
theorem rowOf_mem {d : Desc} (hd : d ∈ descs) {w : Nat} (ho : bitsN w 11 0 = d.op) (hv : d.vars.testBit (bitsN w 87 84) = true) :
    rowOf w = some d := by
  unfold rowOf
  simp only [ho]
  rw [find_row descs_apart descs_rising hd hv]

theorem Ty.ofCode_code (t : Ty) : Ty.ofCode t.code = t := by cases t <;> rfl
theorem Ty.code_lt (t : Ty) : t.code < 16 := by cases t <;> decide

theorem Operand.bits_lt (o : Operand) : o.bits < 2 ^ 20 := by
  cases o with
  | none => decide
  | g n => simp only [Operand.bits]; omega
  | v p n m => simp only [Operand.bits]; split <;> omega
  | k n => simp only [Operand.bits]; omega
  | d p n m => simp only [Operand.bits]; split <;> omega
  | acc t dir idx ind m => simp only [Operand.bits]; split <;> split <;> omega
  | i16 x => have := x.isLt; simp only [Operand.bits]; omega
  | s n => have := n.isLt; simp only [Operand.bits]; omega
  | i32 x => have := x.isLt; simp only [Operand.bits]; omega

/-- The fields of a packed word, one below the other, are the fields that went in. -/
theorem packWord_fields (op : Nat) (x : Ops) (ho : op < 4096) :
    bitsN (packWord op x) 11 0 = op ∧ bitsN (packWord op x) 14 12 = x.guard.val ∧
    bitsN (packWord op x) 35 16 = x.d.bits ∧ bitsN (packWord op x) 55 36 = x.a.bits ∧ bitsN (packWord op x) 75 56 = x.b.bits ∧
    bitsN (packWord op x) 79 76 = x.td.code ∧ bitsN (packWord op x) 83 80 = x.ts.code ∧
    bitsN (packWord op x) 87 84 = x.var.val ∧ bitsN (packWord op x) 89 88 = x.hint.val ∧ bitsN (packWord op x) 95 91 = 0 ∧
    packWord op x < 2 ^ 91 := by
  have h1 := x.d.bits_lt; have h2 := x.a.bits_lt; have h3 := x.b.bits_lt
  have h4 := x.td.code_lt; have h5 := x.ts.code_lt
  have h6 := x.var.isLt; have h7 := x.hint.isLt; have h8 := x.guard.isLt
  unfold packWord bitsN
  simp only [Nat.shiftRight_eq_div_pow]
  generalize x.d.bits = a at *; generalize x.a.bits = b at *; generalize x.b.bits = c at *
  generalize x.td.code = e at *; generalize x.ts.code = f at *; generalize x.var.val = g at *
  generalize x.hint.val = k at *; generalize x.guard.val = l at *
  cases x.inv <;> cases x.yield <;> simp <;> omega

end Sys2Proof
end

