-- ==== Sys2Proof/Laws/Table.lean ====
section
/-! SUPPORT. Sparse tables: reading after writing, and the canonical form kept by every operation. -/
namespace Sys2Proof.Machine

variable {β : Type}

@[simp] theorem Table.get_nil (d : β) (k : Nat) : Table.get d [] k = d := rfl

/-- Reading the key just inserted. -/
theorem Table.get_insert_self (d : β) (t : Table β) (k : Nat) (v : β) : Table.get d (Table.insert t k v) k = v := by
  induction t with
  | nil => simp [Table.insert, Table.get]
  | cons p t ih =>
    obtain ⟨a, x⟩ := p
    simp only [Table.insert]
    split
    · simp [Table.get]
    · split
      · simp [Table.get]
      · simp [Table.get, *]

/-- Reading another key after an insertion. -/
theorem Table.get_insert_ne (d : β) (t : Table β) {k j : Nat} (h : j ≠ k) (v : β) :
    Table.get d (Table.insert t k v) j = Table.get d t j := by
  induction t with
  | nil => simp [Table.insert, Table.get, Ne.symm h]
  | cons p t ih =>
    obtain ⟨a, x⟩ := p
    simp only [Table.insert]
    split
    · subst_vars; simp [Table.get, Ne.symm h]
    · split
      · simp [Table.get, Ne.symm h]
      · simp [Table.get, ih]

/-- Reading a key just removed. -/
theorem Table.get_erase_self (d : β) (t : Table β) (k : Nat) : Table.get d (Table.erase t k) k = d := by
  induction t with
  | nil => rfl
  | cons p t ih =>
    obtain ⟨a, x⟩ := p
    simp only [Table.erase, List.filter_cons]
    split
    · rename_i h
      have h : a ≠ k := by simpa using h
      simp only [Table.get, h, if_false]
      exact ih
    · exact ih

/-- Reading another key after a removal. -/
theorem Table.get_erase_ne (d : β) (t : Table β) {k j : Nat} (h : j ≠ k) :
    Table.get d (Table.erase t k) j = Table.get d t j := by
  induction t with
  | nil => rfl
  | cons p t ih =>
    obtain ⟨a, x⟩ := p
    simp only [Table.erase, List.filter_cons]
    split
    · simp only [Table.get]
      split
      · rfl
      · exact ih
    · rename_i hn
      have : a = k := by simpa using hn
      subst this
      simp only [Table.get, Ne.symm h, if_false]
      exact ih

/-- Reading the key just written. -/
@[simp] theorem Table.get_set_self [DecidableEq β] (d : β) (t : Table β) (k : Nat) (v : β) :
    Table.get d (Table.set d t k v) k = v := by
  unfold Table.set
  split
  · subst_vars; exact Table.get_erase_self _ _ _
  · exact Table.get_insert_self _ _ _ _

/-- Reading another key after a write. -/
theorem Table.get_set_ne [DecidableEq β] (d : β) (t : Table β) {k j : Nat} (h : j ≠ k) (v : β) :
    Table.get d (Table.set d t k v) j = Table.get d t j := by
  unfold Table.set
  split
  · exact Table.get_erase_ne _ _ h
  · exact Table.get_insert_ne _ _ h _

/-- A write changes one key. -/
theorem Table.get_set [DecidableEq β] (d : β) (t : Table β) (k j : Nat) (v : β) :
    Table.get d (Table.set d t k v) j = if j = k then v else Table.get d t j := by
  split
  · subst_vars; simp
  · exact Table.get_set_ne _ _ ‹_› _

/-! The canonical form. -/

variable [DecidableEq β]

@[simp] theorem Table.wf_nil (d : β) : Table.wf d [] = true := rfl

/-- A lower bound may fall. -/
theorem Table.wfFrom_mono {d : β} {t : Table β} {lo lo' : Nat} (hl : lo' ≤ lo) (h : Table.wfFrom d lo t = true) :
    Table.wfFrom d lo' t = true := by
  cases t with
  | nil => rfl
  | cons p t =>
    simp only [Table.wfFrom, Bool.and_eq_true, decide_eq_true_eq] at h ⊢
    exact ⟨⟨by omega, h.1.2⟩, h.2⟩

theorem Table.wfFrom_filter {d : β} {t : Table β} {lo : Nat} (p : Nat × β → Bool) (h : Table.wfFrom d lo t = true) :
    Table.wfFrom d lo (t.filter p) = true := by
  induction t generalizing lo with
  | nil => rfl
  | cons q t ih =>
    simp only [Table.wfFrom, Bool.and_eq_true, decide_eq_true_eq] at h
    simp only [List.filter_cons]
    split
    · simp only [Table.wfFrom, Bool.and_eq_true, decide_eq_true_eq]
      exact ⟨h.1, ih h.2⟩
    · exact Table.wfFrom_mono (by omega) (ih h.2)

theorem Table.wfFrom_insert {d : β} {t : Table β} {lo k : Nat} {v : β} (hv : v ≠ d) (hk : lo ≤ k)
    (h : Table.wfFrom d lo t = true) : Table.wfFrom d lo (Table.insert t k v) = true := by
  induction t generalizing lo with
  | nil => simp [Table.insert, Table.wfFrom, hv, hk]
  | cons q t ih =>
    obtain ⟨a, x⟩ := q
    simp only [Table.wfFrom, Bool.and_eq_true, decide_eq_true_eq] at h
    simp only [Table.insert]
    split
    · subst_vars
      simp only [Table.wfFrom, Bool.and_eq_true, decide_eq_true_eq]
      exact ⟨⟨hk, hv⟩, h.2⟩
    · split
      · simp only [Table.wfFrom, Bool.and_eq_true, decide_eq_true_eq]
        exact ⟨⟨hk, hv⟩, ⟨by omega, h.1.2⟩, h.2⟩
      · simp only [Table.wfFrom, Bool.and_eq_true, decide_eq_true_eq]
        exact ⟨h.1, ih (by omega) h.2⟩

/-- A removal keeps the canonical form. -/
theorem Table.wf_erase {d : β} {t : Table β} (k : Nat) (h : Table.wf d t = true) : Table.wf d (Table.erase t k) = true :=
  Table.wfFrom_filter _ h

/-- A write keeps the canonical form. -/
theorem Table.wf_set {d : β} {t : Table β} (k : Nat) (v : β) (h : Table.wf d t = true) :
    Table.wf d (Table.set d t k v) = true := by
  unfold Table.set
  split
  · exact Table.wf_erase k h
  · exact Table.wfFrom_insert ‹_› (Nat.zero_le _) h

/-- A part of a table keeps the canonical form. -/
theorem Table.wf_filter {d : β} {t : Table β} (p : Nat × β → Bool) (h : Table.wf d t = true) :
    Table.wf d (t.filter p) = true := Table.wfFrom_filter p h

/-- A run of keys keeps the canonical form. -/
theorem Table.wf_slice {d : β} {t : Table β} (lo hi : Nat) (h : Table.wf d t = true) :
    Table.wf d (Table.slice t lo hi) = true := Table.wfFrom_filter _ h

/-- The table of a list is canonical from its base on. -/
theorem Table.wfFrom_ofList (d : β) (l : List β) (base : Nat) : Table.wfFrom d base (Table.ofList d base l) = true := by
  induction l generalizing base with
  | nil => rfl
  | cons x l ih =>
    simp only [Table.ofList]
    split
    · exact Table.wfFrom_mono (by omega) (ih _)
    · simp only [Table.wfFrom, Bool.and_eq_true, decide_eq_true_eq]
      exact ⟨⟨Nat.le_refl _, ‹_›⟩, ih _⟩

/-- The keys of the table of a list lie within its run. -/
theorem Table.mem_ofList {d : β} {l : List β} {base : Nat} {p : Nat × β} (h : p ∈ Table.ofList d base l) :
    base ≤ p.1 ∧ p.1 < base + l.length := by
  induction l generalizing base with
  | nil => simp [Table.ofList] at h
  | cons x l ih =>
    simp only [Table.ofList] at h
    split at h
    · have := ih h; simp only [List.length_cons]; omega
    · rcases List.mem_cons.mp h with rfl | h
      · simp
      · have := ih h; simp only [List.length_cons]; omega

theorem Table.wfFrom_append {d : β} {t u : Table β} {lo mid : Nat} (ht : Table.wfFrom d lo t = true)
    (hb : ∀ p ∈ t, p.1 < mid) (hu : Table.wfFrom d mid u = true) (hl : lo ≤ mid) : Table.wfFrom d lo (t ++ u) = true := by
  induction t generalizing lo with
  | nil => exact Table.wfFrom_mono hl hu
  | cons q t ih =>
    simp only [Table.wfFrom, Bool.and_eq_true, decide_eq_true_eq, List.cons_append] at ht ⊢
    exact ⟨ht.1, ih ht.2 (fun p hp => hb p (List.mem_cons_of_mem _ hp)) (by have := hb q (List.mem_cons_self ..); omega)⟩

theorem Table.wfFrom_above {d : β} {t : Table β} {lo hi : Nat} (h : Table.wfFrom d lo t = true)
    (hb : ∀ p ∈ t, hi ≤ p.1) : Table.wfFrom d hi t = true := by
  cases t with
  | nil => rfl
  | cons q t =>
    simp only [Table.wfFrom, Bool.and_eq_true, decide_eq_true_eq] at h ⊢
    exact ⟨⟨hb q (List.mem_cons_self ..), h.1.2⟩, h.2⟩

/-- Replacing a run of keys keeps the canonical form. -/
theorem Table.wf_splice {d : β} {t u : Table β} {lo hi : Nat} (h : Table.wf d t = true) (hlh : lo ≤ hi)
    (hu : Table.wfFrom d lo u = true) (hb : ∀ p ∈ u, p.1 < hi) : Table.wf d (Table.splice t lo hi u) = true := by
  unfold Table.splice Table.wf
  have h1 := Table.wfFrom_filter (fun p => decide (p.1 < lo)) h
  have h3 : Table.wfFrom d hi (t.filter (fun p => decide (hi ≤ p.1))) = true :=
    Table.wfFrom_above (Table.wfFrom_filter _ h) (fun p hp => by simpa using (List.mem_filter.mp hp).2)
  refine Table.wfFrom_append (mid := hi) ?_ ?_ h3 (Nat.zero_le _)
  · refine Table.wfFrom_append (mid := lo) h1 ?_ hu (Nat.zero_le _)
    intro p hp; simpa using (List.mem_filter.mp hp).2
  · intro p hp
    rcases List.mem_append.mp hp with hp | hp
    · have := (List.mem_filter.mp hp).2; simp at this; omega
    · exact hb p hp

/-- Replacing a run of keys by the values of a list keeps the canonical form. -/
theorem Table.wf_splice_ofList {d : β} {t : Table β} {lo : Nat} {l : List β} (h : Table.wf d t = true) :
    Table.wf d (Table.splice t lo (lo + l.length) (Table.ofList d lo l)) = true :=
  Table.wf_splice h (by omega) (Table.wfFrom_ofList _ _ _) (fun _ hp => (Table.mem_ofList hp).2)

omit [DecidableEq β] in
/-- Reading a key outside a replaced run. -/
theorem Table.get_splice_out {d : β} {t u : Table β} {lo hi k : Nat} (hlh : lo ≤ hi) (hu : ∀ p ∈ u, lo ≤ p.1 ∧ p.1 < hi)
    (hk : k < lo ∨ hi ≤ k) : Table.get d (Table.splice t lo hi u) k = Table.get d t k := by
  have key : ∀ (a b : Table β), (∀ p ∈ a, p.1 ≠ k) → Table.get d (a ++ b) k = Table.get d b k := by
    intro a b ha
    induction a with
    | nil => rfl
    | cons q a ih =>
      simp only [List.cons_append, Table.get, ha q (List.mem_cons_self ..), if_false]
      exact ih (fun p hp => ha p (List.mem_cons_of_mem _ hp))
  have keep : ∀ (f : Nat × β → Bool) (t : Table β), (∀ x, f (k, x) = true) → Table.get d (t.filter f) k = Table.get d t k := by
    intro f t hf
    induction t with
    | nil => rfl
    | cons q t ih =>
      obtain ⟨a, x⟩ := q
      simp only [List.filter_cons]
      by_cases ha : a = k
      · subst ha; simp [hf, Table.get]
      · split
        · simp only [Table.get, ha, if_false]; exact ih
        · simp only [Table.get, ha, if_false]; exact ih
  have append : ∀ (a b : Table β), (∀ p ∈ b, p.1 ≠ k) → Table.get d (a ++ b) k = Table.get d a k := by
    intro a b hb
    induction a with
    | nil =>
      induction b with
      | nil => rfl
      | cons q b ih =>
        simp only [List.nil_append, Table.get, hb q (List.mem_cons_self ..), if_false] at ih ⊢
        exact ih (fun p hp => hb p (List.mem_cons_of_mem _ hp))
    | cons q a ih =>
      simp only [List.cons_append, Table.get]
      split
      · rfl
      · exact ih
  unfold Table.splice
  rcases hk with hk | hk
  · rw [append _ _ (fun p hp => by have := (List.mem_filter.mp hp).2; simp at this; omega)]
    rw [append _ _ (fun p hp => by have := hu p hp; omega)]
    exact keep _ _ (by simp [hk])
  · rw [List.append_assoc, key _ _ (fun p hp => by have := (List.mem_filter.mp hp).2; simp at this; omega)]
    rw [key _ _ (fun p hp => by have := hu p hp; omega)]
    exact keep _ _ (by simp [hk])

end Sys2Proof.Machine
end

