-- ==== Sys2Proof/Laws/State.lean ====
section
/-! SUPPORT. What each update of a state leaves alone, field by field, and reading back what was written. -/
namespace Sys2Proof.Machine
open Sys2Proof

/-! `State.setHart` writes `harts` alone. -/

@[simp] theorem State.setHart_agenda (s : State) (n : Nat) (h : Hart) : (s.setHart n h).agenda = s.agenda := rfl
@[simp] theorem State.setHart_turn (s : State) (n : Nat) (h : Hart) : (s.setHart n h).turn = s.turn := rfl
@[simp] theorem State.setHart_tasks (s : State) (n : Nat) (h : Hart) : (s.setHart n h).tasks = s.tasks := rfl
@[simp] theorem State.setHart_graphs (s : State) (n : Nat) (h : Hart) : (s.setHart n h).graphs = s.graphs := rfl
@[simp] theorem State.setHart_ready (s : State) (n : Nat) (h : Hart) : (s.setHart n h).ready = s.ready := rfl
@[simp] theorem State.setHart_rotation (s : State) (n : Nat) (h : Hart) : (s.setHart n h).rotation = s.rotation := rfl
@[simp] theorem State.setHart_pend (s : State) (n : Nat) (h : Hart) : (s.setHart n h).pend = s.pend := rfl
@[simp] theorem State.setHart_recent (s : State) (n : Nat) (h : Hart) : (s.setHart n h).recent = s.recent := rfl
@[simp] theorem State.setHart_rung (s : State) (n : Nat) (h : Hart) : (s.setHart n h).rung = s.rung := rfl
@[simp] theorem State.setHart_held (s : State) (n : Nat) (h : Hart) : (s.setHart n h).held = s.held := rfl
@[simp] theorem State.setHart_buffers (s : State) (n : Nat) (h : Hart) : (s.setHart n h).buffers = s.buffers := rfl
@[simp] theorem State.setHart_nextUid (s : State) (n : Nat) (h : Hart) : (s.setHart n h).nextUid = s.nextUid := rfl
@[simp] theorem State.setHart_mem (s : State) (n : Nat) (h : Hart) : (s.setHart n h).mem = s.mem := rfl
@[simp] theorem State.setHart_l2 (s : State) (n : Nat) (h : Hart) : (s.setHart n h).l2 = s.l2 := rfl
@[simp] theorem State.setHart_stores (s : State) (n : Nat) (h : Hart) : (s.setHart n h).stores = s.stores := rfl
@[simp] theorem State.setHart_hostWrites (s : State) (n : Nat) (h : Hart) : (s.setHart n h).hostWrites = s.hostWrites := rfl
@[simp] theorem State.setHart_err (s : State) (n : Nat) (h : Hart) : (s.setHart n h).err = s.err := rfl
@[simp] theorem State.setHart_marked (s : State) (n : Nat) (h : Hart) : (s.setHart n h).marked = s.marked := rfl
@[simp] theorem State.setHart_walked (s : State) (n : Nat) (h : Hart) : (s.setHart n h).walked = s.walked := rfl
@[simp] theorem State.setHart_rows (s : State) (n : Nat) (h : Hart) : (s.setHart n h).rows = s.rows := rfl
@[simp] theorem State.setHart_acts (s : State) (n : Nat) (h : Hart) : (s.setHart n h).acts = s.acts := rfl
@[simp] theorem State.setHart_due (s : State) (n : Nat) (h : Hart) : (s.setHart n h).due = s.due := rfl
@[simp] theorem State.setHart_waves (s : State) (n : Nat) (h : Hart) : (s.setHart n h).waves = s.waves := rfl
@[simp] theorem State.setHart_banks (s : State) (n : Nat) (h : Hart) : (s.setHart n h).banks = s.banks := rfl
@[simp] theorem State.setHart_copies (s : State) (n : Nat) (h : Hart) : (s.setHart n h).copies = s.copies := rfl
@[simp] theorem State.setHart_accepts (s : State) (n : Nat) (h : Hart) : (s.setHart n h).accepts = s.accepts := rfl
@[simp] theorem State.setHart_regions (s : State) (n : Nat) (h : Hart) : (s.setHart n h).regions = s.regions := rfl
@[simp] theorem State.setHart_progs (s : State) (n : Nat) (h : Hart) : (s.setHart n h).progs = s.progs := rfl
@[simp] theorem State.setHart_beams (s : State) (n : Nat) (h : Hart) : (s.setHart n h).beams = s.beams := rfl
@[simp] theorem State.setHart_l6 (s : State) (n : Nat) (h : Hart) : (s.setHart n h).l6 = s.l6 := rfl
@[simp] theorem State.setHart_phase (s : State) (n : Nat) (h : Hart) : (s.setHart n h).phase = s.phase := rfl
@[simp] theorem State.setHart_bootCause (s : State) (n : Nat) (h : Hart) : (s.setHart n h).bootCause = s.bootCause := rfl
@[simp] theorem State.setHart_failPosts (s : State) (n : Nat) (h : Hart) : (s.setHart n h).failPosts = s.failPosts := rfl
@[simp] theorem State.setHart_elapsed (s : State) (n : Nat) (h : Hart) : (s.setHart n h).elapsed = s.elapsed := rfl
@[simp] theorem State.setHart_hostlim (s : State) (n : Nat) (h : Hart) : (s.setHart n h).hostlim = s.hostlim := rfl
@[simp] theorem State.setHart_cxllim (s : State) (n : Nat) (h : Hart) : (s.setHart n h).cxllim = s.cxllim := rfl
@[simp] theorem State.setHart_spancfg (s : State) (n : Nat) (h : Hart) : (s.setHart n h).spancfg = s.spancfg := rfl
@[simp] theorem State.setHart_fwaddr (s : State) (n : Nat) (h : Hart) : (s.setHart n h).fwaddr = s.fwaddr := rfl
@[simp] theorem State.setHart_fwlen (s : State) (n : Nat) (h : Hart) : (s.setHart n h).fwlen = s.fwlen := rfl
@[simp] theorem State.setHart_fwImage (s : State) (n : Nat) (h : Hart) : (s.setHart n h).fwImage = s.fwImage := rfl
@[simp] theorem State.setHart_perst (s : State) (n : Nat) (h : Hart) : (s.setHart n h).perst = s.perst := rfl
@[simp] theorem State.setHart_power (s : State) (n : Nat) (h : Hart) : (s.setHart n h).power = s.power := rfl
@[simp] theorem State.setHart_scrapped (s : State) (n : Nat) (h : Hart) : (s.setHart n h).scrapped = s.scrapped := rfl
@[simp] theorem State.setHart_throttledDies (s : State) (n : Nat) (h : Hart) : (s.setHart n h).throttledDies = s.throttledDies := rfl
@[simp] theorem State.setHart_spares (s : State) (n : Nat) (h : Hart) : (s.setHart n h).spares = s.spares := rfl
@[simp] theorem State.setHart_cycles (s : State) (n : Nat) (h : Hart) : (s.setHart n h).cycles = s.cycles := rfl
@[simp] theorem State.setHart_scCount (s : State) (n : Nat) (h : Hart) : (s.setHart n h).scCount = s.scCount := rfl
@[simp] theorem State.setHart_tick (s : State) (n : Nat) (h : Hart) : (s.setHart n h).tick = s.tick := rfl
@[simp] theorem State.setHart_hostReply (s : State) (n : Nat) (h : Hart) : (s.setHart n h).hostReply = s.hostReply := rfl

/-! `State.setTask` writes `tasks` alone. -/

@[simp] theorem State.setTask_agenda (s : State) (u : Nat) (t : Option Task) : (s.setTask u t).agenda = s.agenda := rfl
@[simp] theorem State.setTask_turn (s : State) (u : Nat) (t : Option Task) : (s.setTask u t).turn = s.turn := rfl
@[simp] theorem State.setTask_harts (s : State) (u : Nat) (t : Option Task) : (s.setTask u t).harts = s.harts := rfl
@[simp] theorem State.setTask_graphs (s : State) (u : Nat) (t : Option Task) : (s.setTask u t).graphs = s.graphs := rfl
@[simp] theorem State.setTask_ready (s : State) (u : Nat) (t : Option Task) : (s.setTask u t).ready = s.ready := rfl
@[simp] theorem State.setTask_rotation (s : State) (u : Nat) (t : Option Task) : (s.setTask u t).rotation = s.rotation := rfl
@[simp] theorem State.setTask_pend (s : State) (u : Nat) (t : Option Task) : (s.setTask u t).pend = s.pend := rfl
@[simp] theorem State.setTask_recent (s : State) (u : Nat) (t : Option Task) : (s.setTask u t).recent = s.recent := rfl
@[simp] theorem State.setTask_rung (s : State) (u : Nat) (t : Option Task) : (s.setTask u t).rung = s.rung := rfl
@[simp] theorem State.setTask_held (s : State) (u : Nat) (t : Option Task) : (s.setTask u t).held = s.held := rfl
@[simp] theorem State.setTask_buffers (s : State) (u : Nat) (t : Option Task) : (s.setTask u t).buffers = s.buffers := rfl
@[simp] theorem State.setTask_nextUid (s : State) (u : Nat) (t : Option Task) : (s.setTask u t).nextUid = s.nextUid := rfl
@[simp] theorem State.setTask_mem (s : State) (u : Nat) (t : Option Task) : (s.setTask u t).mem = s.mem := rfl
@[simp] theorem State.setTask_l2 (s : State) (u : Nat) (t : Option Task) : (s.setTask u t).l2 = s.l2 := rfl
@[simp] theorem State.setTask_stores (s : State) (u : Nat) (t : Option Task) : (s.setTask u t).stores = s.stores := rfl
@[simp] theorem State.setTask_hostWrites (s : State) (u : Nat) (t : Option Task) : (s.setTask u t).hostWrites = s.hostWrites := rfl
@[simp] theorem State.setTask_err (s : State) (u : Nat) (t : Option Task) : (s.setTask u t).err = s.err := rfl
@[simp] theorem State.setTask_marked (s : State) (u : Nat) (t : Option Task) : (s.setTask u t).marked = s.marked := rfl
@[simp] theorem State.setTask_walked (s : State) (u : Nat) (t : Option Task) : (s.setTask u t).walked = s.walked := rfl
@[simp] theorem State.setTask_rows (s : State) (u : Nat) (t : Option Task) : (s.setTask u t).rows = s.rows := rfl
@[simp] theorem State.setTask_acts (s : State) (u : Nat) (t : Option Task) : (s.setTask u t).acts = s.acts := rfl
@[simp] theorem State.setTask_due (s : State) (u : Nat) (t : Option Task) : (s.setTask u t).due = s.due := rfl
@[simp] theorem State.setTask_waves (s : State) (u : Nat) (t : Option Task) : (s.setTask u t).waves = s.waves := rfl
@[simp] theorem State.setTask_banks (s : State) (u : Nat) (t : Option Task) : (s.setTask u t).banks = s.banks := rfl
@[simp] theorem State.setTask_copies (s : State) (u : Nat) (t : Option Task) : (s.setTask u t).copies = s.copies := rfl
@[simp] theorem State.setTask_accepts (s : State) (u : Nat) (t : Option Task) : (s.setTask u t).accepts = s.accepts := rfl
@[simp] theorem State.setTask_regions (s : State) (u : Nat) (t : Option Task) : (s.setTask u t).regions = s.regions := rfl
@[simp] theorem State.setTask_progs (s : State) (u : Nat) (t : Option Task) : (s.setTask u t).progs = s.progs := rfl
@[simp] theorem State.setTask_beams (s : State) (u : Nat) (t : Option Task) : (s.setTask u t).beams = s.beams := rfl
@[simp] theorem State.setTask_l6 (s : State) (u : Nat) (t : Option Task) : (s.setTask u t).l6 = s.l6 := rfl
@[simp] theorem State.setTask_phase (s : State) (u : Nat) (t : Option Task) : (s.setTask u t).phase = s.phase := rfl
@[simp] theorem State.setTask_bootCause (s : State) (u : Nat) (t : Option Task) : (s.setTask u t).bootCause = s.bootCause := rfl
@[simp] theorem State.setTask_failPosts (s : State) (u : Nat) (t : Option Task) : (s.setTask u t).failPosts = s.failPosts := rfl
@[simp] theorem State.setTask_elapsed (s : State) (u : Nat) (t : Option Task) : (s.setTask u t).elapsed = s.elapsed := rfl
@[simp] theorem State.setTask_hostlim (s : State) (u : Nat) (t : Option Task) : (s.setTask u t).hostlim = s.hostlim := rfl
@[simp] theorem State.setTask_cxllim (s : State) (u : Nat) (t : Option Task) : (s.setTask u t).cxllim = s.cxllim := rfl
@[simp] theorem State.setTask_spancfg (s : State) (u : Nat) (t : Option Task) : (s.setTask u t).spancfg = s.spancfg := rfl
@[simp] theorem State.setTask_fwaddr (s : State) (u : Nat) (t : Option Task) : (s.setTask u t).fwaddr = s.fwaddr := rfl
@[simp] theorem State.setTask_fwlen (s : State) (u : Nat) (t : Option Task) : (s.setTask u t).fwlen = s.fwlen := rfl
@[simp] theorem State.setTask_fwImage (s : State) (u : Nat) (t : Option Task) : (s.setTask u t).fwImage = s.fwImage := rfl
@[simp] theorem State.setTask_perst (s : State) (u : Nat) (t : Option Task) : (s.setTask u t).perst = s.perst := rfl
@[simp] theorem State.setTask_power (s : State) (u : Nat) (t : Option Task) : (s.setTask u t).power = s.power := rfl
@[simp] theorem State.setTask_scrapped (s : State) (u : Nat) (t : Option Task) : (s.setTask u t).scrapped = s.scrapped := rfl
@[simp] theorem State.setTask_throttledDies (s : State) (u : Nat) (t : Option Task) : (s.setTask u t).throttledDies = s.throttledDies := rfl
@[simp] theorem State.setTask_spares (s : State) (u : Nat) (t : Option Task) : (s.setTask u t).spares = s.spares := rfl
@[simp] theorem State.setTask_cycles (s : State) (u : Nat) (t : Option Task) : (s.setTask u t).cycles = s.cycles := rfl
@[simp] theorem State.setTask_scCount (s : State) (u : Nat) (t : Option Task) : (s.setTask u t).scCount = s.scCount := rfl
@[simp] theorem State.setTask_tick (s : State) (u : Nat) (t : Option Task) : (s.setTask u t).tick = s.tick := rfl
@[simp] theorem State.setTask_hostReply (s : State) (u : Nat) (t : Option Task) : (s.setTask u t).hostReply = s.hostReply := rfl

/-! `State.setGraph` writes `graphs` alone. -/

@[simp] theorem State.setGraph_agenda (s : State) (g : Nat) (x : Option Graph) : (s.setGraph g x).agenda = s.agenda := rfl
@[simp] theorem State.setGraph_turn (s : State) (g : Nat) (x : Option Graph) : (s.setGraph g x).turn = s.turn := rfl
@[simp] theorem State.setGraph_harts (s : State) (g : Nat) (x : Option Graph) : (s.setGraph g x).harts = s.harts := rfl
@[simp] theorem State.setGraph_tasks (s : State) (g : Nat) (x : Option Graph) : (s.setGraph g x).tasks = s.tasks := rfl
@[simp] theorem State.setGraph_ready (s : State) (g : Nat) (x : Option Graph) : (s.setGraph g x).ready = s.ready := rfl
@[simp] theorem State.setGraph_rotation (s : State) (g : Nat) (x : Option Graph) : (s.setGraph g x).rotation = s.rotation := rfl
@[simp] theorem State.setGraph_pend (s : State) (g : Nat) (x : Option Graph) : (s.setGraph g x).pend = s.pend := rfl
@[simp] theorem State.setGraph_recent (s : State) (g : Nat) (x : Option Graph) : (s.setGraph g x).recent = s.recent := rfl
@[simp] theorem State.setGraph_rung (s : State) (g : Nat) (x : Option Graph) : (s.setGraph g x).rung = s.rung := rfl
@[simp] theorem State.setGraph_held (s : State) (g : Nat) (x : Option Graph) : (s.setGraph g x).held = s.held := rfl
@[simp] theorem State.setGraph_buffers (s : State) (g : Nat) (x : Option Graph) : (s.setGraph g x).buffers = s.buffers := rfl
@[simp] theorem State.setGraph_nextUid (s : State) (g : Nat) (x : Option Graph) : (s.setGraph g x).nextUid = s.nextUid := rfl
@[simp] theorem State.setGraph_mem (s : State) (g : Nat) (x : Option Graph) : (s.setGraph g x).mem = s.mem := rfl
@[simp] theorem State.setGraph_l2 (s : State) (g : Nat) (x : Option Graph) : (s.setGraph g x).l2 = s.l2 := rfl
@[simp] theorem State.setGraph_stores (s : State) (g : Nat) (x : Option Graph) : (s.setGraph g x).stores = s.stores := rfl
@[simp] theorem State.setGraph_hostWrites (s : State) (g : Nat) (x : Option Graph) : (s.setGraph g x).hostWrites = s.hostWrites := rfl
@[simp] theorem State.setGraph_err (s : State) (g : Nat) (x : Option Graph) : (s.setGraph g x).err = s.err := rfl
@[simp] theorem State.setGraph_marked (s : State) (g : Nat) (x : Option Graph) : (s.setGraph g x).marked = s.marked := rfl
@[simp] theorem State.setGraph_walked (s : State) (g : Nat) (x : Option Graph) : (s.setGraph g x).walked = s.walked := rfl
@[simp] theorem State.setGraph_rows (s : State) (g : Nat) (x : Option Graph) : (s.setGraph g x).rows = s.rows := rfl
@[simp] theorem State.setGraph_acts (s : State) (g : Nat) (x : Option Graph) : (s.setGraph g x).acts = s.acts := rfl
@[simp] theorem State.setGraph_due (s : State) (g : Nat) (x : Option Graph) : (s.setGraph g x).due = s.due := rfl
@[simp] theorem State.setGraph_waves (s : State) (g : Nat) (x : Option Graph) : (s.setGraph g x).waves = s.waves := rfl
@[simp] theorem State.setGraph_banks (s : State) (g : Nat) (x : Option Graph) : (s.setGraph g x).banks = s.banks := rfl
@[simp] theorem State.setGraph_copies (s : State) (g : Nat) (x : Option Graph) : (s.setGraph g x).copies = s.copies := rfl
@[simp] theorem State.setGraph_accepts (s : State) (g : Nat) (x : Option Graph) : (s.setGraph g x).accepts = s.accepts := rfl
@[simp] theorem State.setGraph_regions (s : State) (g : Nat) (x : Option Graph) : (s.setGraph g x).regions = s.regions := rfl
@[simp] theorem State.setGraph_progs (s : State) (g : Nat) (x : Option Graph) : (s.setGraph g x).progs = s.progs := rfl
@[simp] theorem State.setGraph_beams (s : State) (g : Nat) (x : Option Graph) : (s.setGraph g x).beams = s.beams := rfl
@[simp] theorem State.setGraph_l6 (s : State) (g : Nat) (x : Option Graph) : (s.setGraph g x).l6 = s.l6 := rfl
@[simp] theorem State.setGraph_phase (s : State) (g : Nat) (x : Option Graph) : (s.setGraph g x).phase = s.phase := rfl
@[simp] theorem State.setGraph_bootCause (s : State) (g : Nat) (x : Option Graph) : (s.setGraph g x).bootCause = s.bootCause := rfl
@[simp] theorem State.setGraph_failPosts (s : State) (g : Nat) (x : Option Graph) : (s.setGraph g x).failPosts = s.failPosts := rfl
@[simp] theorem State.setGraph_elapsed (s : State) (g : Nat) (x : Option Graph) : (s.setGraph g x).elapsed = s.elapsed := rfl
@[simp] theorem State.setGraph_hostlim (s : State) (g : Nat) (x : Option Graph) : (s.setGraph g x).hostlim = s.hostlim := rfl
@[simp] theorem State.setGraph_cxllim (s : State) (g : Nat) (x : Option Graph) : (s.setGraph g x).cxllim = s.cxllim := rfl
@[simp] theorem State.setGraph_spancfg (s : State) (g : Nat) (x : Option Graph) : (s.setGraph g x).spancfg = s.spancfg := rfl
@[simp] theorem State.setGraph_fwaddr (s : State) (g : Nat) (x : Option Graph) : (s.setGraph g x).fwaddr = s.fwaddr := rfl
@[simp] theorem State.setGraph_fwlen (s : State) (g : Nat) (x : Option Graph) : (s.setGraph g x).fwlen = s.fwlen := rfl
@[simp] theorem State.setGraph_fwImage (s : State) (g : Nat) (x : Option Graph) : (s.setGraph g x).fwImage = s.fwImage := rfl
@[simp] theorem State.setGraph_perst (s : State) (g : Nat) (x : Option Graph) : (s.setGraph g x).perst = s.perst := rfl
@[simp] theorem State.setGraph_power (s : State) (g : Nat) (x : Option Graph) : (s.setGraph g x).power = s.power := rfl
@[simp] theorem State.setGraph_scrapped (s : State) (g : Nat) (x : Option Graph) : (s.setGraph g x).scrapped = s.scrapped := rfl
@[simp] theorem State.setGraph_throttledDies (s : State) (g : Nat) (x : Option Graph) : (s.setGraph g x).throttledDies = s.throttledDies := rfl
@[simp] theorem State.setGraph_spares (s : State) (g : Nat) (x : Option Graph) : (s.setGraph g x).spares = s.spares := rfl
@[simp] theorem State.setGraph_cycles (s : State) (g : Nat) (x : Option Graph) : (s.setGraph g x).cycles = s.cycles := rfl
@[simp] theorem State.setGraph_scCount (s : State) (g : Nat) (x : Option Graph) : (s.setGraph g x).scCount = s.scCount := rfl
@[simp] theorem State.setGraph_tick (s : State) (g : Nat) (x : Option Graph) : (s.setGraph g x).tick = s.tick := rfl
@[simp] theorem State.setGraph_hostReply (s : State) (g : Nat) (x : Option Graph) : (s.setGraph g x).hostReply = s.hostReply := rfl

/-! `State.putByte` writes `mem` alone. -/

@[simp] theorem State.putByte_agenda (s : State) (a : Nat) (x : Byte) : (s.putByte a x).agenda = s.agenda := rfl
@[simp] theorem State.putByte_turn (s : State) (a : Nat) (x : Byte) : (s.putByte a x).turn = s.turn := rfl
@[simp] theorem State.putByte_harts (s : State) (a : Nat) (x : Byte) : (s.putByte a x).harts = s.harts := rfl
@[simp] theorem State.putByte_tasks (s : State) (a : Nat) (x : Byte) : (s.putByte a x).tasks = s.tasks := rfl
@[simp] theorem State.putByte_graphs (s : State) (a : Nat) (x : Byte) : (s.putByte a x).graphs = s.graphs := rfl
@[simp] theorem State.putByte_ready (s : State) (a : Nat) (x : Byte) : (s.putByte a x).ready = s.ready := rfl
@[simp] theorem State.putByte_rotation (s : State) (a : Nat) (x : Byte) : (s.putByte a x).rotation = s.rotation := rfl
@[simp] theorem State.putByte_pend (s : State) (a : Nat) (x : Byte) : (s.putByte a x).pend = s.pend := rfl
@[simp] theorem State.putByte_recent (s : State) (a : Nat) (x : Byte) : (s.putByte a x).recent = s.recent := rfl
@[simp] theorem State.putByte_rung (s : State) (a : Nat) (x : Byte) : (s.putByte a x).rung = s.rung := rfl
@[simp] theorem State.putByte_held (s : State) (a : Nat) (x : Byte) : (s.putByte a x).held = s.held := rfl
@[simp] theorem State.putByte_buffers (s : State) (a : Nat) (x : Byte) : (s.putByte a x).buffers = s.buffers := rfl
@[simp] theorem State.putByte_nextUid (s : State) (a : Nat) (x : Byte) : (s.putByte a x).nextUid = s.nextUid := rfl
@[simp] theorem State.putByte_l2 (s : State) (a : Nat) (x : Byte) : (s.putByte a x).l2 = s.l2 := rfl
@[simp] theorem State.putByte_stores (s : State) (a : Nat) (x : Byte) : (s.putByte a x).stores = s.stores := rfl
@[simp] theorem State.putByte_hostWrites (s : State) (a : Nat) (x : Byte) : (s.putByte a x).hostWrites = s.hostWrites := rfl
@[simp] theorem State.putByte_err (s : State) (a : Nat) (x : Byte) : (s.putByte a x).err = s.err := rfl
@[simp] theorem State.putByte_marked (s : State) (a : Nat) (x : Byte) : (s.putByte a x).marked = s.marked := rfl
@[simp] theorem State.putByte_walked (s : State) (a : Nat) (x : Byte) : (s.putByte a x).walked = s.walked := rfl
@[simp] theorem State.putByte_rows (s : State) (a : Nat) (x : Byte) : (s.putByte a x).rows = s.rows := rfl
@[simp] theorem State.putByte_acts (s : State) (a : Nat) (x : Byte) : (s.putByte a x).acts = s.acts := rfl
@[simp] theorem State.putByte_due (s : State) (a : Nat) (x : Byte) : (s.putByte a x).due = s.due := rfl
@[simp] theorem State.putByte_waves (s : State) (a : Nat) (x : Byte) : (s.putByte a x).waves = s.waves := rfl
@[simp] theorem State.putByte_banks (s : State) (a : Nat) (x : Byte) : (s.putByte a x).banks = s.banks := rfl
@[simp] theorem State.putByte_copies (s : State) (a : Nat) (x : Byte) : (s.putByte a x).copies = s.copies := rfl
@[simp] theorem State.putByte_accepts (s : State) (a : Nat) (x : Byte) : (s.putByte a x).accepts = s.accepts := rfl
@[simp] theorem State.putByte_regions (s : State) (a : Nat) (x : Byte) : (s.putByte a x).regions = s.regions := rfl
@[simp] theorem State.putByte_progs (s : State) (a : Nat) (x : Byte) : (s.putByte a x).progs = s.progs := rfl
@[simp] theorem State.putByte_beams (s : State) (a : Nat) (x : Byte) : (s.putByte a x).beams = s.beams := rfl
@[simp] theorem State.putByte_l6 (s : State) (a : Nat) (x : Byte) : (s.putByte a x).l6 = s.l6 := rfl
@[simp] theorem State.putByte_phase (s : State) (a : Nat) (x : Byte) : (s.putByte a x).phase = s.phase := rfl
@[simp] theorem State.putByte_bootCause (s : State) (a : Nat) (x : Byte) : (s.putByte a x).bootCause = s.bootCause := rfl
@[simp] theorem State.putByte_failPosts (s : State) (a : Nat) (x : Byte) : (s.putByte a x).failPosts = s.failPosts := rfl
@[simp] theorem State.putByte_elapsed (s : State) (a : Nat) (x : Byte) : (s.putByte a x).elapsed = s.elapsed := rfl
@[simp] theorem State.putByte_hostlim (s : State) (a : Nat) (x : Byte) : (s.putByte a x).hostlim = s.hostlim := rfl
@[simp] theorem State.putByte_cxllim (s : State) (a : Nat) (x : Byte) : (s.putByte a x).cxllim = s.cxllim := rfl
@[simp] theorem State.putByte_spancfg (s : State) (a : Nat) (x : Byte) : (s.putByte a x).spancfg = s.spancfg := rfl
@[simp] theorem State.putByte_fwaddr (s : State) (a : Nat) (x : Byte) : (s.putByte a x).fwaddr = s.fwaddr := rfl
@[simp] theorem State.putByte_fwlen (s : State) (a : Nat) (x : Byte) : (s.putByte a x).fwlen = s.fwlen := rfl
@[simp] theorem State.putByte_fwImage (s : State) (a : Nat) (x : Byte) : (s.putByte a x).fwImage = s.fwImage := rfl
@[simp] theorem State.putByte_perst (s : State) (a : Nat) (x : Byte) : (s.putByte a x).perst = s.perst := rfl
@[simp] theorem State.putByte_power (s : State) (a : Nat) (x : Byte) : (s.putByte a x).power = s.power := rfl
@[simp] theorem State.putByte_scrapped (s : State) (a : Nat) (x : Byte) : (s.putByte a x).scrapped = s.scrapped := rfl
@[simp] theorem State.putByte_throttledDies (s : State) (a : Nat) (x : Byte) : (s.putByte a x).throttledDies = s.throttledDies := rfl
@[simp] theorem State.putByte_spares (s : State) (a : Nat) (x : Byte) : (s.putByte a x).spares = s.spares := rfl
@[simp] theorem State.putByte_cycles (s : State) (a : Nat) (x : Byte) : (s.putByte a x).cycles = s.cycles := rfl
@[simp] theorem State.putByte_scCount (s : State) (a : Nat) (x : Byte) : (s.putByte a x).scCount = s.scCount := rfl
@[simp] theorem State.putByte_tick (s : State) (a : Nat) (x : Byte) : (s.putByte a x).tick = s.tick := rfl
@[simp] theorem State.putByte_hostReply (s : State) (a : Nat) (x : Byte) : (s.putByte a x).hostReply = s.hostReply := rfl

/-! `State.setErr` writes `err` alone. -/

@[simp] theorem State.setErr_agenda (s : State) (a : Nat) (e : ErrMark) : (s.setErr a e).agenda = s.agenda := rfl
@[simp] theorem State.setErr_turn (s : State) (a : Nat) (e : ErrMark) : (s.setErr a e).turn = s.turn := rfl
@[simp] theorem State.setErr_harts (s : State) (a : Nat) (e : ErrMark) : (s.setErr a e).harts = s.harts := rfl
@[simp] theorem State.setErr_tasks (s : State) (a : Nat) (e : ErrMark) : (s.setErr a e).tasks = s.tasks := rfl
@[simp] theorem State.setErr_graphs (s : State) (a : Nat) (e : ErrMark) : (s.setErr a e).graphs = s.graphs := rfl
@[simp] theorem State.setErr_ready (s : State) (a : Nat) (e : ErrMark) : (s.setErr a e).ready = s.ready := rfl
@[simp] theorem State.setErr_rotation (s : State) (a : Nat) (e : ErrMark) : (s.setErr a e).rotation = s.rotation := rfl
@[simp] theorem State.setErr_pend (s : State) (a : Nat) (e : ErrMark) : (s.setErr a e).pend = s.pend := rfl
@[simp] theorem State.setErr_recent (s : State) (a : Nat) (e : ErrMark) : (s.setErr a e).recent = s.recent := rfl
@[simp] theorem State.setErr_rung (s : State) (a : Nat) (e : ErrMark) : (s.setErr a e).rung = s.rung := rfl
@[simp] theorem State.setErr_held (s : State) (a : Nat) (e : ErrMark) : (s.setErr a e).held = s.held := rfl
@[simp] theorem State.setErr_buffers (s : State) (a : Nat) (e : ErrMark) : (s.setErr a e).buffers = s.buffers := rfl
@[simp] theorem State.setErr_nextUid (s : State) (a : Nat) (e : ErrMark) : (s.setErr a e).nextUid = s.nextUid := rfl
@[simp] theorem State.setErr_mem (s : State) (a : Nat) (e : ErrMark) : (s.setErr a e).mem = s.mem := rfl
@[simp] theorem State.setErr_l2 (s : State) (a : Nat) (e : ErrMark) : (s.setErr a e).l2 = s.l2 := rfl
@[simp] theorem State.setErr_stores (s : State) (a : Nat) (e : ErrMark) : (s.setErr a e).stores = s.stores := rfl
@[simp] theorem State.setErr_hostWrites (s : State) (a : Nat) (e : ErrMark) : (s.setErr a e).hostWrites = s.hostWrites := rfl
@[simp] theorem State.setErr_marked (s : State) (a : Nat) (e : ErrMark) : (s.setErr a e).marked = s.marked := rfl
@[simp] theorem State.setErr_walked (s : State) (a : Nat) (e : ErrMark) : (s.setErr a e).walked = s.walked := rfl
@[simp] theorem State.setErr_rows (s : State) (a : Nat) (e : ErrMark) : (s.setErr a e).rows = s.rows := rfl
@[simp] theorem State.setErr_acts (s : State) (a : Nat) (e : ErrMark) : (s.setErr a e).acts = s.acts := rfl
@[simp] theorem State.setErr_due (s : State) (a : Nat) (e : ErrMark) : (s.setErr a e).due = s.due := rfl
@[simp] theorem State.setErr_waves (s : State) (a : Nat) (e : ErrMark) : (s.setErr a e).waves = s.waves := rfl
@[simp] theorem State.setErr_banks (s : State) (a : Nat) (e : ErrMark) : (s.setErr a e).banks = s.banks := rfl
@[simp] theorem State.setErr_copies (s : State) (a : Nat) (e : ErrMark) : (s.setErr a e).copies = s.copies := rfl
@[simp] theorem State.setErr_accepts (s : State) (a : Nat) (e : ErrMark) : (s.setErr a e).accepts = s.accepts := rfl
@[simp] theorem State.setErr_regions (s : State) (a : Nat) (e : ErrMark) : (s.setErr a e).regions = s.regions := rfl
@[simp] theorem State.setErr_progs (s : State) (a : Nat) (e : ErrMark) : (s.setErr a e).progs = s.progs := rfl
@[simp] theorem State.setErr_beams (s : State) (a : Nat) (e : ErrMark) : (s.setErr a e).beams = s.beams := rfl
@[simp] theorem State.setErr_l6 (s : State) (a : Nat) (e : ErrMark) : (s.setErr a e).l6 = s.l6 := rfl
@[simp] theorem State.setErr_phase (s : State) (a : Nat) (e : ErrMark) : (s.setErr a e).phase = s.phase := rfl
@[simp] theorem State.setErr_bootCause (s : State) (a : Nat) (e : ErrMark) : (s.setErr a e).bootCause = s.bootCause := rfl
@[simp] theorem State.setErr_failPosts (s : State) (a : Nat) (e : ErrMark) : (s.setErr a e).failPosts = s.failPosts := rfl
@[simp] theorem State.setErr_elapsed (s : State) (a : Nat) (e : ErrMark) : (s.setErr a e).elapsed = s.elapsed := rfl
@[simp] theorem State.setErr_hostlim (s : State) (a : Nat) (e : ErrMark) : (s.setErr a e).hostlim = s.hostlim := rfl
@[simp] theorem State.setErr_cxllim (s : State) (a : Nat) (e : ErrMark) : (s.setErr a e).cxllim = s.cxllim := rfl
@[simp] theorem State.setErr_spancfg (s : State) (a : Nat) (e : ErrMark) : (s.setErr a e).spancfg = s.spancfg := rfl
@[simp] theorem State.setErr_fwaddr (s : State) (a : Nat) (e : ErrMark) : (s.setErr a e).fwaddr = s.fwaddr := rfl
@[simp] theorem State.setErr_fwlen (s : State) (a : Nat) (e : ErrMark) : (s.setErr a e).fwlen = s.fwlen := rfl
@[simp] theorem State.setErr_fwImage (s : State) (a : Nat) (e : ErrMark) : (s.setErr a e).fwImage = s.fwImage := rfl
@[simp] theorem State.setErr_perst (s : State) (a : Nat) (e : ErrMark) : (s.setErr a e).perst = s.perst := rfl
@[simp] theorem State.setErr_power (s : State) (a : Nat) (e : ErrMark) : (s.setErr a e).power = s.power := rfl
@[simp] theorem State.setErr_scrapped (s : State) (a : Nat) (e : ErrMark) : (s.setErr a e).scrapped = s.scrapped := rfl
@[simp] theorem State.setErr_throttledDies (s : State) (a : Nat) (e : ErrMark) : (s.setErr a e).throttledDies = s.throttledDies := rfl
@[simp] theorem State.setErr_spares (s : State) (a : Nat) (e : ErrMark) : (s.setErr a e).spares = s.spares := rfl
@[simp] theorem State.setErr_cycles (s : State) (a : Nat) (e : ErrMark) : (s.setErr a e).cycles = s.cycles := rfl
@[simp] theorem State.setErr_scCount (s : State) (a : Nat) (e : ErrMark) : (s.setErr a e).scCount = s.scCount := rfl
@[simp] theorem State.setErr_tick (s : State) (a : Nat) (e : ErrMark) : (s.setErr a e).tick = s.tick := rfl
@[simp] theorem State.setErr_hostReply (s : State) (a : Nat) (e : ErrMark) : (s.setErr a e).hostReply = s.hostReply := rfl

/-! `State.setSector` writes `l2` alone. -/

@[simp] theorem State.setSector_agenda (s : State) (a : Nat) (x : Option Sector) : (s.setSector a x).agenda = s.agenda := rfl
@[simp] theorem State.setSector_turn (s : State) (a : Nat) (x : Option Sector) : (s.setSector a x).turn = s.turn := rfl
@[simp] theorem State.setSector_harts (s : State) (a : Nat) (x : Option Sector) : (s.setSector a x).harts = s.harts := rfl
@[simp] theorem State.setSector_tasks (s : State) (a : Nat) (x : Option Sector) : (s.setSector a x).tasks = s.tasks := rfl
@[simp] theorem State.setSector_graphs (s : State) (a : Nat) (x : Option Sector) : (s.setSector a x).graphs = s.graphs := rfl
@[simp] theorem State.setSector_ready (s : State) (a : Nat) (x : Option Sector) : (s.setSector a x).ready = s.ready := rfl
@[simp] theorem State.setSector_rotation (s : State) (a : Nat) (x : Option Sector) : (s.setSector a x).rotation = s.rotation := rfl
@[simp] theorem State.setSector_pend (s : State) (a : Nat) (x : Option Sector) : (s.setSector a x).pend = s.pend := rfl
@[simp] theorem State.setSector_recent (s : State) (a : Nat) (x : Option Sector) : (s.setSector a x).recent = s.recent := rfl
@[simp] theorem State.setSector_rung (s : State) (a : Nat) (x : Option Sector) : (s.setSector a x).rung = s.rung := rfl
@[simp] theorem State.setSector_held (s : State) (a : Nat) (x : Option Sector) : (s.setSector a x).held = s.held := rfl
@[simp] theorem State.setSector_buffers (s : State) (a : Nat) (x : Option Sector) : (s.setSector a x).buffers = s.buffers := rfl
@[simp] theorem State.setSector_nextUid (s : State) (a : Nat) (x : Option Sector) : (s.setSector a x).nextUid = s.nextUid := rfl
@[simp] theorem State.setSector_mem (s : State) (a : Nat) (x : Option Sector) : (s.setSector a x).mem = s.mem := rfl
@[simp] theorem State.setSector_stores (s : State) (a : Nat) (x : Option Sector) : (s.setSector a x).stores = s.stores := rfl
@[simp] theorem State.setSector_hostWrites (s : State) (a : Nat) (x : Option Sector) : (s.setSector a x).hostWrites = s.hostWrites := rfl
@[simp] theorem State.setSector_err (s : State) (a : Nat) (x : Option Sector) : (s.setSector a x).err = s.err := rfl
@[simp] theorem State.setSector_marked (s : State) (a : Nat) (x : Option Sector) : (s.setSector a x).marked = s.marked := rfl
@[simp] theorem State.setSector_walked (s : State) (a : Nat) (x : Option Sector) : (s.setSector a x).walked = s.walked := rfl
@[simp] theorem State.setSector_rows (s : State) (a : Nat) (x : Option Sector) : (s.setSector a x).rows = s.rows := rfl
@[simp] theorem State.setSector_acts (s : State) (a : Nat) (x : Option Sector) : (s.setSector a x).acts = s.acts := rfl
@[simp] theorem State.setSector_due (s : State) (a : Nat) (x : Option Sector) : (s.setSector a x).due = s.due := rfl
@[simp] theorem State.setSector_waves (s : State) (a : Nat) (x : Option Sector) : (s.setSector a x).waves = s.waves := rfl
@[simp] theorem State.setSector_banks (s : State) (a : Nat) (x : Option Sector) : (s.setSector a x).banks = s.banks := rfl
@[simp] theorem State.setSector_copies (s : State) (a : Nat) (x : Option Sector) : (s.setSector a x).copies = s.copies := rfl
@[simp] theorem State.setSector_accepts (s : State) (a : Nat) (x : Option Sector) : (s.setSector a x).accepts = s.accepts := rfl
@[simp] theorem State.setSector_regions (s : State) (a : Nat) (x : Option Sector) : (s.setSector a x).regions = s.regions := rfl
@[simp] theorem State.setSector_progs (s : State) (a : Nat) (x : Option Sector) : (s.setSector a x).progs = s.progs := rfl
@[simp] theorem State.setSector_beams (s : State) (a : Nat) (x : Option Sector) : (s.setSector a x).beams = s.beams := rfl
@[simp] theorem State.setSector_l6 (s : State) (a : Nat) (x : Option Sector) : (s.setSector a x).l6 = s.l6 := rfl
@[simp] theorem State.setSector_phase (s : State) (a : Nat) (x : Option Sector) : (s.setSector a x).phase = s.phase := rfl
@[simp] theorem State.setSector_bootCause (s : State) (a : Nat) (x : Option Sector) : (s.setSector a x).bootCause = s.bootCause := rfl
@[simp] theorem State.setSector_failPosts (s : State) (a : Nat) (x : Option Sector) : (s.setSector a x).failPosts = s.failPosts := rfl
@[simp] theorem State.setSector_elapsed (s : State) (a : Nat) (x : Option Sector) : (s.setSector a x).elapsed = s.elapsed := rfl
@[simp] theorem State.setSector_hostlim (s : State) (a : Nat) (x : Option Sector) : (s.setSector a x).hostlim = s.hostlim := rfl
@[simp] theorem State.setSector_cxllim (s : State) (a : Nat) (x : Option Sector) : (s.setSector a x).cxllim = s.cxllim := rfl
@[simp] theorem State.setSector_spancfg (s : State) (a : Nat) (x : Option Sector) : (s.setSector a x).spancfg = s.spancfg := rfl
@[simp] theorem State.setSector_fwaddr (s : State) (a : Nat) (x : Option Sector) : (s.setSector a x).fwaddr = s.fwaddr := rfl
@[simp] theorem State.setSector_fwlen (s : State) (a : Nat) (x : Option Sector) : (s.setSector a x).fwlen = s.fwlen := rfl
@[simp] theorem State.setSector_fwImage (s : State) (a : Nat) (x : Option Sector) : (s.setSector a x).fwImage = s.fwImage := rfl
@[simp] theorem State.setSector_perst (s : State) (a : Nat) (x : Option Sector) : (s.setSector a x).perst = s.perst := rfl
@[simp] theorem State.setSector_power (s : State) (a : Nat) (x : Option Sector) : (s.setSector a x).power = s.power := rfl
@[simp] theorem State.setSector_scrapped (s : State) (a : Nat) (x : Option Sector) : (s.setSector a x).scrapped = s.scrapped := rfl
@[simp] theorem State.setSector_throttledDies (s : State) (a : Nat) (x : Option Sector) : (s.setSector a x).throttledDies = s.throttledDies := rfl
@[simp] theorem State.setSector_spares (s : State) (a : Nat) (x : Option Sector) : (s.setSector a x).spares = s.spares := rfl
@[simp] theorem State.setSector_cycles (s : State) (a : Nat) (x : Option Sector) : (s.setSector a x).cycles = s.cycles := rfl
@[simp] theorem State.setSector_scCount (s : State) (a : Nat) (x : Option Sector) : (s.setSector a x).scCount = s.scCount := rfl
@[simp] theorem State.setSector_tick (s : State) (a : Nat) (x : Option Sector) : (s.setSector a x).tick = s.tick := rfl
@[simp] theorem State.setSector_hostReply (s : State) (a : Nat) (x : Option Sector) : (s.setSector a x).hostReply = s.hostReply := rfl

/-! `State.setBeam` writes `beams` alone. -/

@[simp] theorem State.setBeam_agenda (s : State) (b : Nat) (x : Beam) : (s.setBeam b x).agenda = s.agenda := rfl
@[simp] theorem State.setBeam_turn (s : State) (b : Nat) (x : Beam) : (s.setBeam b x).turn = s.turn := rfl
@[simp] theorem State.setBeam_harts (s : State) (b : Nat) (x : Beam) : (s.setBeam b x).harts = s.harts := rfl
@[simp] theorem State.setBeam_tasks (s : State) (b : Nat) (x : Beam) : (s.setBeam b x).tasks = s.tasks := rfl
@[simp] theorem State.setBeam_graphs (s : State) (b : Nat) (x : Beam) : (s.setBeam b x).graphs = s.graphs := rfl
@[simp] theorem State.setBeam_ready (s : State) (b : Nat) (x : Beam) : (s.setBeam b x).ready = s.ready := rfl
@[simp] theorem State.setBeam_rotation (s : State) (b : Nat) (x : Beam) : (s.setBeam b x).rotation = s.rotation := rfl
@[simp] theorem State.setBeam_pend (s : State) (b : Nat) (x : Beam) : (s.setBeam b x).pend = s.pend := rfl
@[simp] theorem State.setBeam_recent (s : State) (b : Nat) (x : Beam) : (s.setBeam b x).recent = s.recent := rfl
@[simp] theorem State.setBeam_rung (s : State) (b : Nat) (x : Beam) : (s.setBeam b x).rung = s.rung := rfl
@[simp] theorem State.setBeam_held (s : State) (b : Nat) (x : Beam) : (s.setBeam b x).held = s.held := rfl
@[simp] theorem State.setBeam_buffers (s : State) (b : Nat) (x : Beam) : (s.setBeam b x).buffers = s.buffers := rfl
@[simp] theorem State.setBeam_nextUid (s : State) (b : Nat) (x : Beam) : (s.setBeam b x).nextUid = s.nextUid := rfl
@[simp] theorem State.setBeam_mem (s : State) (b : Nat) (x : Beam) : (s.setBeam b x).mem = s.mem := rfl
@[simp] theorem State.setBeam_l2 (s : State) (b : Nat) (x : Beam) : (s.setBeam b x).l2 = s.l2 := rfl
@[simp] theorem State.setBeam_stores (s : State) (b : Nat) (x : Beam) : (s.setBeam b x).stores = s.stores := rfl
@[simp] theorem State.setBeam_hostWrites (s : State) (b : Nat) (x : Beam) : (s.setBeam b x).hostWrites = s.hostWrites := rfl
@[simp] theorem State.setBeam_err (s : State) (b : Nat) (x : Beam) : (s.setBeam b x).err = s.err := rfl
@[simp] theorem State.setBeam_marked (s : State) (b : Nat) (x : Beam) : (s.setBeam b x).marked = s.marked := rfl
@[simp] theorem State.setBeam_walked (s : State) (b : Nat) (x : Beam) : (s.setBeam b x).walked = s.walked := rfl
@[simp] theorem State.setBeam_rows (s : State) (b : Nat) (x : Beam) : (s.setBeam b x).rows = s.rows := rfl
@[simp] theorem State.setBeam_acts (s : State) (b : Nat) (x : Beam) : (s.setBeam b x).acts = s.acts := rfl
@[simp] theorem State.setBeam_due (s : State) (b : Nat) (x : Beam) : (s.setBeam b x).due = s.due := rfl
@[simp] theorem State.setBeam_waves (s : State) (b : Nat) (x : Beam) : (s.setBeam b x).waves = s.waves := rfl
@[simp] theorem State.setBeam_banks (s : State) (b : Nat) (x : Beam) : (s.setBeam b x).banks = s.banks := rfl
@[simp] theorem State.setBeam_copies (s : State) (b : Nat) (x : Beam) : (s.setBeam b x).copies = s.copies := rfl
@[simp] theorem State.setBeam_accepts (s : State) (b : Nat) (x : Beam) : (s.setBeam b x).accepts = s.accepts := rfl
@[simp] theorem State.setBeam_regions (s : State) (b : Nat) (x : Beam) : (s.setBeam b x).regions = s.regions := rfl
@[simp] theorem State.setBeam_progs (s : State) (b : Nat) (x : Beam) : (s.setBeam b x).progs = s.progs := rfl
@[simp] theorem State.setBeam_l6 (s : State) (b : Nat) (x : Beam) : (s.setBeam b x).l6 = s.l6 := rfl
@[simp] theorem State.setBeam_phase (s : State) (b : Nat) (x : Beam) : (s.setBeam b x).phase = s.phase := rfl
@[simp] theorem State.setBeam_bootCause (s : State) (b : Nat) (x : Beam) : (s.setBeam b x).bootCause = s.bootCause := rfl
@[simp] theorem State.setBeam_failPosts (s : State) (b : Nat) (x : Beam) : (s.setBeam b x).failPosts = s.failPosts := rfl
@[simp] theorem State.setBeam_elapsed (s : State) (b : Nat) (x : Beam) : (s.setBeam b x).elapsed = s.elapsed := rfl
@[simp] theorem State.setBeam_hostlim (s : State) (b : Nat) (x : Beam) : (s.setBeam b x).hostlim = s.hostlim := rfl
@[simp] theorem State.setBeam_cxllim (s : State) (b : Nat) (x : Beam) : (s.setBeam b x).cxllim = s.cxllim := rfl
@[simp] theorem State.setBeam_spancfg (s : State) (b : Nat) (x : Beam) : (s.setBeam b x).spancfg = s.spancfg := rfl
@[simp] theorem State.setBeam_fwaddr (s : State) (b : Nat) (x : Beam) : (s.setBeam b x).fwaddr = s.fwaddr := rfl
@[simp] theorem State.setBeam_fwlen (s : State) (b : Nat) (x : Beam) : (s.setBeam b x).fwlen = s.fwlen := rfl
@[simp] theorem State.setBeam_fwImage (s : State) (b : Nat) (x : Beam) : (s.setBeam b x).fwImage = s.fwImage := rfl
@[simp] theorem State.setBeam_perst (s : State) (b : Nat) (x : Beam) : (s.setBeam b x).perst = s.perst := rfl
@[simp] theorem State.setBeam_power (s : State) (b : Nat) (x : Beam) : (s.setBeam b x).power = s.power := rfl
@[simp] theorem State.setBeam_scrapped (s : State) (b : Nat) (x : Beam) : (s.setBeam b x).scrapped = s.scrapped := rfl
@[simp] theorem State.setBeam_throttledDies (s : State) (b : Nat) (x : Beam) : (s.setBeam b x).throttledDies = s.throttledDies := rfl
@[simp] theorem State.setBeam_spares (s : State) (b : Nat) (x : Beam) : (s.setBeam b x).spares = s.spares := rfl
@[simp] theorem State.setBeam_cycles (s : State) (b : Nat) (x : Beam) : (s.setBeam b x).cycles = s.cycles := rfl
@[simp] theorem State.setBeam_scCount (s : State) (b : Nat) (x : Beam) : (s.setBeam b x).scCount = s.scCount := rfl
@[simp] theorem State.setBeam_tick (s : State) (b : Nat) (x : Beam) : (s.setBeam b x).tick = s.tick := rfl
@[simp] theorem State.setBeam_hostReply (s : State) (b : Nat) (x : Beam) : (s.setBeam b x).hostReply = s.hostReply := rfl

/-! `State.setRow` writes `rows` alone. -/

@[simp] theorem State.setRow_agenda (s : State) (p b r : Nat) (x : BitVec 8192) : (s.setRow p b r x).agenda = s.agenda := rfl
@[simp] theorem State.setRow_turn (s : State) (p b r : Nat) (x : BitVec 8192) : (s.setRow p b r x).turn = s.turn := rfl
@[simp] theorem State.setRow_harts (s : State) (p b r : Nat) (x : BitVec 8192) : (s.setRow p b r x).harts = s.harts := rfl
@[simp] theorem State.setRow_tasks (s : State) (p b r : Nat) (x : BitVec 8192) : (s.setRow p b r x).tasks = s.tasks := rfl
@[simp] theorem State.setRow_graphs (s : State) (p b r : Nat) (x : BitVec 8192) : (s.setRow p b r x).graphs = s.graphs := rfl
@[simp] theorem State.setRow_ready (s : State) (p b r : Nat) (x : BitVec 8192) : (s.setRow p b r x).ready = s.ready := rfl
@[simp] theorem State.setRow_rotation (s : State) (p b r : Nat) (x : BitVec 8192) : (s.setRow p b r x).rotation = s.rotation := rfl
@[simp] theorem State.setRow_pend (s : State) (p b r : Nat) (x : BitVec 8192) : (s.setRow p b r x).pend = s.pend := rfl
@[simp] theorem State.setRow_recent (s : State) (p b r : Nat) (x : BitVec 8192) : (s.setRow p b r x).recent = s.recent := rfl
@[simp] theorem State.setRow_rung (s : State) (p b r : Nat) (x : BitVec 8192) : (s.setRow p b r x).rung = s.rung := rfl
@[simp] theorem State.setRow_held (s : State) (p b r : Nat) (x : BitVec 8192) : (s.setRow p b r x).held = s.held := rfl
@[simp] theorem State.setRow_buffers (s : State) (p b r : Nat) (x : BitVec 8192) : (s.setRow p b r x).buffers = s.buffers := rfl
@[simp] theorem State.setRow_nextUid (s : State) (p b r : Nat) (x : BitVec 8192) : (s.setRow p b r x).nextUid = s.nextUid := rfl
@[simp] theorem State.setRow_mem (s : State) (p b r : Nat) (x : BitVec 8192) : (s.setRow p b r x).mem = s.mem := rfl
@[simp] theorem State.setRow_l2 (s : State) (p b r : Nat) (x : BitVec 8192) : (s.setRow p b r x).l2 = s.l2 := rfl
@[simp] theorem State.setRow_stores (s : State) (p b r : Nat) (x : BitVec 8192) : (s.setRow p b r x).stores = s.stores := rfl
@[simp] theorem State.setRow_hostWrites (s : State) (p b r : Nat) (x : BitVec 8192) : (s.setRow p b r x).hostWrites = s.hostWrites := rfl
@[simp] theorem State.setRow_err (s : State) (p b r : Nat) (x : BitVec 8192) : (s.setRow p b r x).err = s.err := rfl
@[simp] theorem State.setRow_marked (s : State) (p b r : Nat) (x : BitVec 8192) : (s.setRow p b r x).marked = s.marked := rfl
@[simp] theorem State.setRow_walked (s : State) (p b r : Nat) (x : BitVec 8192) : (s.setRow p b r x).walked = s.walked := rfl
@[simp] theorem State.setRow_acts (s : State) (p b r : Nat) (x : BitVec 8192) : (s.setRow p b r x).acts = s.acts := rfl
@[simp] theorem State.setRow_due (s : State) (p b r : Nat) (x : BitVec 8192) : (s.setRow p b r x).due = s.due := rfl
@[simp] theorem State.setRow_waves (s : State) (p b r : Nat) (x : BitVec 8192) : (s.setRow p b r x).waves = s.waves := rfl
@[simp] theorem State.setRow_banks (s : State) (p b r : Nat) (x : BitVec 8192) : (s.setRow p b r x).banks = s.banks := rfl
@[simp] theorem State.setRow_copies (s : State) (p b r : Nat) (x : BitVec 8192) : (s.setRow p b r x).copies = s.copies := rfl
@[simp] theorem State.setRow_accepts (s : State) (p b r : Nat) (x : BitVec 8192) : (s.setRow p b r x).accepts = s.accepts := rfl
@[simp] theorem State.setRow_regions (s : State) (p b r : Nat) (x : BitVec 8192) : (s.setRow p b r x).regions = s.regions := rfl
@[simp] theorem State.setRow_progs (s : State) (p b r : Nat) (x : BitVec 8192) : (s.setRow p b r x).progs = s.progs := rfl
@[simp] theorem State.setRow_beams (s : State) (p b r : Nat) (x : BitVec 8192) : (s.setRow p b r x).beams = s.beams := rfl
@[simp] theorem State.setRow_l6 (s : State) (p b r : Nat) (x : BitVec 8192) : (s.setRow p b r x).l6 = s.l6 := rfl
@[simp] theorem State.setRow_phase (s : State) (p b r : Nat) (x : BitVec 8192) : (s.setRow p b r x).phase = s.phase := rfl
@[simp] theorem State.setRow_bootCause (s : State) (p b r : Nat) (x : BitVec 8192) : (s.setRow p b r x).bootCause = s.bootCause := rfl
@[simp] theorem State.setRow_failPosts (s : State) (p b r : Nat) (x : BitVec 8192) : (s.setRow p b r x).failPosts = s.failPosts := rfl
@[simp] theorem State.setRow_elapsed (s : State) (p b r : Nat) (x : BitVec 8192) : (s.setRow p b r x).elapsed = s.elapsed := rfl
@[simp] theorem State.setRow_hostlim (s : State) (p b r : Nat) (x : BitVec 8192) : (s.setRow p b r x).hostlim = s.hostlim := rfl
@[simp] theorem State.setRow_cxllim (s : State) (p b r : Nat) (x : BitVec 8192) : (s.setRow p b r x).cxllim = s.cxllim := rfl
@[simp] theorem State.setRow_spancfg (s : State) (p b r : Nat) (x : BitVec 8192) : (s.setRow p b r x).spancfg = s.spancfg := rfl
@[simp] theorem State.setRow_fwaddr (s : State) (p b r : Nat) (x : BitVec 8192) : (s.setRow p b r x).fwaddr = s.fwaddr := rfl
@[simp] theorem State.setRow_fwlen (s : State) (p b r : Nat) (x : BitVec 8192) : (s.setRow p b r x).fwlen = s.fwlen := rfl
@[simp] theorem State.setRow_fwImage (s : State) (p b r : Nat) (x : BitVec 8192) : (s.setRow p b r x).fwImage = s.fwImage := rfl
@[simp] theorem State.setRow_perst (s : State) (p b r : Nat) (x : BitVec 8192) : (s.setRow p b r x).perst = s.perst := rfl
@[simp] theorem State.setRow_power (s : State) (p b r : Nat) (x : BitVec 8192) : (s.setRow p b r x).power = s.power := rfl
@[simp] theorem State.setRow_scrapped (s : State) (p b r : Nat) (x : BitVec 8192) : (s.setRow p b r x).scrapped = s.scrapped := rfl
@[simp] theorem State.setRow_throttledDies (s : State) (p b r : Nat) (x : BitVec 8192) : (s.setRow p b r x).throttledDies = s.throttledDies := rfl
@[simp] theorem State.setRow_spares (s : State) (p b r : Nat) (x : BitVec 8192) : (s.setRow p b r x).spares = s.spares := rfl
@[simp] theorem State.setRow_cycles (s : State) (p b r : Nat) (x : BitVec 8192) : (s.setRow p b r x).cycles = s.cycles := rfl
@[simp] theorem State.setRow_scCount (s : State) (p b r : Nat) (x : BitVec 8192) : (s.setRow p b r x).scCount = s.scCount := rfl
@[simp] theorem State.setRow_tick (s : State) (p b r : Nat) (x : BitVec 8192) : (s.setRow p b r x).tick = s.tick := rfl
@[simp] theorem State.setRow_hostReply (s : State) (p b r : Nat) (x : BitVec 8192) : (s.setRow p b r x).hostReply = s.hostReply := rfl

/-! `State.setCopies` writes `copies` alone. -/

@[simp] theorem State.setCopies_agenda (s : State) (e : Nat) (q : List Copy) : (s.setCopies e q).agenda = s.agenda := rfl
@[simp] theorem State.setCopies_turn (s : State) (e : Nat) (q : List Copy) : (s.setCopies e q).turn = s.turn := rfl
@[simp] theorem State.setCopies_harts (s : State) (e : Nat) (q : List Copy) : (s.setCopies e q).harts = s.harts := rfl
@[simp] theorem State.setCopies_tasks (s : State) (e : Nat) (q : List Copy) : (s.setCopies e q).tasks = s.tasks := rfl
@[simp] theorem State.setCopies_graphs (s : State) (e : Nat) (q : List Copy) : (s.setCopies e q).graphs = s.graphs := rfl
@[simp] theorem State.setCopies_ready (s : State) (e : Nat) (q : List Copy) : (s.setCopies e q).ready = s.ready := rfl
@[simp] theorem State.setCopies_rotation (s : State) (e : Nat) (q : List Copy) : (s.setCopies e q).rotation = s.rotation := rfl
@[simp] theorem State.setCopies_pend (s : State) (e : Nat) (q : List Copy) : (s.setCopies e q).pend = s.pend := rfl
@[simp] theorem State.setCopies_recent (s : State) (e : Nat) (q : List Copy) : (s.setCopies e q).recent = s.recent := rfl
@[simp] theorem State.setCopies_rung (s : State) (e : Nat) (q : List Copy) : (s.setCopies e q).rung = s.rung := rfl
@[simp] theorem State.setCopies_held (s : State) (e : Nat) (q : List Copy) : (s.setCopies e q).held = s.held := rfl
@[simp] theorem State.setCopies_buffers (s : State) (e : Nat) (q : List Copy) : (s.setCopies e q).buffers = s.buffers := rfl
@[simp] theorem State.setCopies_nextUid (s : State) (e : Nat) (q : List Copy) : (s.setCopies e q).nextUid = s.nextUid := rfl
@[simp] theorem State.setCopies_mem (s : State) (e : Nat) (q : List Copy) : (s.setCopies e q).mem = s.mem := rfl
@[simp] theorem State.setCopies_l2 (s : State) (e : Nat) (q : List Copy) : (s.setCopies e q).l2 = s.l2 := rfl
@[simp] theorem State.setCopies_stores (s : State) (e : Nat) (q : List Copy) : (s.setCopies e q).stores = s.stores := rfl
@[simp] theorem State.setCopies_hostWrites (s : State) (e : Nat) (q : List Copy) : (s.setCopies e q).hostWrites = s.hostWrites := rfl
@[simp] theorem State.setCopies_err (s : State) (e : Nat) (q : List Copy) : (s.setCopies e q).err = s.err := rfl
@[simp] theorem State.setCopies_marked (s : State) (e : Nat) (q : List Copy) : (s.setCopies e q).marked = s.marked := rfl
@[simp] theorem State.setCopies_walked (s : State) (e : Nat) (q : List Copy) : (s.setCopies e q).walked = s.walked := rfl
@[simp] theorem State.setCopies_rows (s : State) (e : Nat) (q : List Copy) : (s.setCopies e q).rows = s.rows := rfl
@[simp] theorem State.setCopies_acts (s : State) (e : Nat) (q : List Copy) : (s.setCopies e q).acts = s.acts := rfl
@[simp] theorem State.setCopies_due (s : State) (e : Nat) (q : List Copy) : (s.setCopies e q).due = s.due := rfl
@[simp] theorem State.setCopies_waves (s : State) (e : Nat) (q : List Copy) : (s.setCopies e q).waves = s.waves := rfl
@[simp] theorem State.setCopies_banks (s : State) (e : Nat) (q : List Copy) : (s.setCopies e q).banks = s.banks := rfl
@[simp] theorem State.setCopies_accepts (s : State) (e : Nat) (q : List Copy) : (s.setCopies e q).accepts = s.accepts := rfl
@[simp] theorem State.setCopies_regions (s : State) (e : Nat) (q : List Copy) : (s.setCopies e q).regions = s.regions := rfl
@[simp] theorem State.setCopies_progs (s : State) (e : Nat) (q : List Copy) : (s.setCopies e q).progs = s.progs := rfl
@[simp] theorem State.setCopies_beams (s : State) (e : Nat) (q : List Copy) : (s.setCopies e q).beams = s.beams := rfl
@[simp] theorem State.setCopies_l6 (s : State) (e : Nat) (q : List Copy) : (s.setCopies e q).l6 = s.l6 := rfl
@[simp] theorem State.setCopies_phase (s : State) (e : Nat) (q : List Copy) : (s.setCopies e q).phase = s.phase := rfl
@[simp] theorem State.setCopies_bootCause (s : State) (e : Nat) (q : List Copy) : (s.setCopies e q).bootCause = s.bootCause := rfl
@[simp] theorem State.setCopies_failPosts (s : State) (e : Nat) (q : List Copy) : (s.setCopies e q).failPosts = s.failPosts := rfl
@[simp] theorem State.setCopies_elapsed (s : State) (e : Nat) (q : List Copy) : (s.setCopies e q).elapsed = s.elapsed := rfl
@[simp] theorem State.setCopies_hostlim (s : State) (e : Nat) (q : List Copy) : (s.setCopies e q).hostlim = s.hostlim := rfl
@[simp] theorem State.setCopies_cxllim (s : State) (e : Nat) (q : List Copy) : (s.setCopies e q).cxllim = s.cxllim := rfl
@[simp] theorem State.setCopies_spancfg (s : State) (e : Nat) (q : List Copy) : (s.setCopies e q).spancfg = s.spancfg := rfl
@[simp] theorem State.setCopies_fwaddr (s : State) (e : Nat) (q : List Copy) : (s.setCopies e q).fwaddr = s.fwaddr := rfl
@[simp] theorem State.setCopies_fwlen (s : State) (e : Nat) (q : List Copy) : (s.setCopies e q).fwlen = s.fwlen := rfl
@[simp] theorem State.setCopies_fwImage (s : State) (e : Nat) (q : List Copy) : (s.setCopies e q).fwImage = s.fwImage := rfl
@[simp] theorem State.setCopies_perst (s : State) (e : Nat) (q : List Copy) : (s.setCopies e q).perst = s.perst := rfl
@[simp] theorem State.setCopies_power (s : State) (e : Nat) (q : List Copy) : (s.setCopies e q).power = s.power := rfl
@[simp] theorem State.setCopies_scrapped (s : State) (e : Nat) (q : List Copy) : (s.setCopies e q).scrapped = s.scrapped := rfl
@[simp] theorem State.setCopies_throttledDies (s : State) (e : Nat) (q : List Copy) : (s.setCopies e q).throttledDies = s.throttledDies := rfl
@[simp] theorem State.setCopies_spares (s : State) (e : Nat) (q : List Copy) : (s.setCopies e q).spares = s.spares := rfl
@[simp] theorem State.setCopies_cycles (s : State) (e : Nat) (q : List Copy) : (s.setCopies e q).cycles = s.cycles := rfl
@[simp] theorem State.setCopies_scCount (s : State) (e : Nat) (q : List Copy) : (s.setCopies e q).scCount = s.scCount := rfl
@[simp] theorem State.setCopies_tick (s : State) (e : Nat) (q : List Copy) : (s.setCopies e q).tick = s.tick := rfl
@[simp] theorem State.setCopies_hostReply (s : State) (e : Nat) (q : List Copy) : (s.setCopies e q).hostReply = s.hostReply := rfl

/-! `State.setProgs` writes `progs` alone. -/

@[simp] theorem State.setProgs_agenda (s : State) (p : Nat) (q : List RowProg) : (s.setProgs p q).agenda = s.agenda := rfl
@[simp] theorem State.setProgs_turn (s : State) (p : Nat) (q : List RowProg) : (s.setProgs p q).turn = s.turn := rfl
@[simp] theorem State.setProgs_harts (s : State) (p : Nat) (q : List RowProg) : (s.setProgs p q).harts = s.harts := rfl
@[simp] theorem State.setProgs_tasks (s : State) (p : Nat) (q : List RowProg) : (s.setProgs p q).tasks = s.tasks := rfl
@[simp] theorem State.setProgs_graphs (s : State) (p : Nat) (q : List RowProg) : (s.setProgs p q).graphs = s.graphs := rfl
@[simp] theorem State.setProgs_ready (s : State) (p : Nat) (q : List RowProg) : (s.setProgs p q).ready = s.ready := rfl
@[simp] theorem State.setProgs_rotation (s : State) (p : Nat) (q : List RowProg) : (s.setProgs p q).rotation = s.rotation := rfl
@[simp] theorem State.setProgs_pend (s : State) (p : Nat) (q : List RowProg) : (s.setProgs p q).pend = s.pend := rfl
@[simp] theorem State.setProgs_recent (s : State) (p : Nat) (q : List RowProg) : (s.setProgs p q).recent = s.recent := rfl
@[simp] theorem State.setProgs_rung (s : State) (p : Nat) (q : List RowProg) : (s.setProgs p q).rung = s.rung := rfl
@[simp] theorem State.setProgs_held (s : State) (p : Nat) (q : List RowProg) : (s.setProgs p q).held = s.held := rfl
@[simp] theorem State.setProgs_buffers (s : State) (p : Nat) (q : List RowProg) : (s.setProgs p q).buffers = s.buffers := rfl
@[simp] theorem State.setProgs_nextUid (s : State) (p : Nat) (q : List RowProg) : (s.setProgs p q).nextUid = s.nextUid := rfl
@[simp] theorem State.setProgs_mem (s : State) (p : Nat) (q : List RowProg) : (s.setProgs p q).mem = s.mem := rfl
@[simp] theorem State.setProgs_l2 (s : State) (p : Nat) (q : List RowProg) : (s.setProgs p q).l2 = s.l2 := rfl
@[simp] theorem State.setProgs_stores (s : State) (p : Nat) (q : List RowProg) : (s.setProgs p q).stores = s.stores := rfl
@[simp] theorem State.setProgs_hostWrites (s : State) (p : Nat) (q : List RowProg) : (s.setProgs p q).hostWrites = s.hostWrites := rfl
@[simp] theorem State.setProgs_err (s : State) (p : Nat) (q : List RowProg) : (s.setProgs p q).err = s.err := rfl
@[simp] theorem State.setProgs_marked (s : State) (p : Nat) (q : List RowProg) : (s.setProgs p q).marked = s.marked := rfl
@[simp] theorem State.setProgs_walked (s : State) (p : Nat) (q : List RowProg) : (s.setProgs p q).walked = s.walked := rfl
@[simp] theorem State.setProgs_rows (s : State) (p : Nat) (q : List RowProg) : (s.setProgs p q).rows = s.rows := rfl
@[simp] theorem State.setProgs_acts (s : State) (p : Nat) (q : List RowProg) : (s.setProgs p q).acts = s.acts := rfl
@[simp] theorem State.setProgs_due (s : State) (p : Nat) (q : List RowProg) : (s.setProgs p q).due = s.due := rfl
@[simp] theorem State.setProgs_waves (s : State) (p : Nat) (q : List RowProg) : (s.setProgs p q).waves = s.waves := rfl
@[simp] theorem State.setProgs_banks (s : State) (p : Nat) (q : List RowProg) : (s.setProgs p q).banks = s.banks := rfl
@[simp] theorem State.setProgs_copies (s : State) (p : Nat) (q : List RowProg) : (s.setProgs p q).copies = s.copies := rfl
@[simp] theorem State.setProgs_accepts (s : State) (p : Nat) (q : List RowProg) : (s.setProgs p q).accepts = s.accepts := rfl
@[simp] theorem State.setProgs_regions (s : State) (p : Nat) (q : List RowProg) : (s.setProgs p q).regions = s.regions := rfl
@[simp] theorem State.setProgs_beams (s : State) (p : Nat) (q : List RowProg) : (s.setProgs p q).beams = s.beams := rfl
@[simp] theorem State.setProgs_l6 (s : State) (p : Nat) (q : List RowProg) : (s.setProgs p q).l6 = s.l6 := rfl
@[simp] theorem State.setProgs_phase (s : State) (p : Nat) (q : List RowProg) : (s.setProgs p q).phase = s.phase := rfl
@[simp] theorem State.setProgs_bootCause (s : State) (p : Nat) (q : List RowProg) : (s.setProgs p q).bootCause = s.bootCause := rfl
@[simp] theorem State.setProgs_failPosts (s : State) (p : Nat) (q : List RowProg) : (s.setProgs p q).failPosts = s.failPosts := rfl
@[simp] theorem State.setProgs_elapsed (s : State) (p : Nat) (q : List RowProg) : (s.setProgs p q).elapsed = s.elapsed := rfl
@[simp] theorem State.setProgs_hostlim (s : State) (p : Nat) (q : List RowProg) : (s.setProgs p q).hostlim = s.hostlim := rfl
@[simp] theorem State.setProgs_cxllim (s : State) (p : Nat) (q : List RowProg) : (s.setProgs p q).cxllim = s.cxllim := rfl
@[simp] theorem State.setProgs_spancfg (s : State) (p : Nat) (q : List RowProg) : (s.setProgs p q).spancfg = s.spancfg := rfl
@[simp] theorem State.setProgs_fwaddr (s : State) (p : Nat) (q : List RowProg) : (s.setProgs p q).fwaddr = s.fwaddr := rfl
@[simp] theorem State.setProgs_fwlen (s : State) (p : Nat) (q : List RowProg) : (s.setProgs p q).fwlen = s.fwlen := rfl
@[simp] theorem State.setProgs_fwImage (s : State) (p : Nat) (q : List RowProg) : (s.setProgs p q).fwImage = s.fwImage := rfl
@[simp] theorem State.setProgs_perst (s : State) (p : Nat) (q : List RowProg) : (s.setProgs p q).perst = s.perst := rfl
@[simp] theorem State.setProgs_power (s : State) (p : Nat) (q : List RowProg) : (s.setProgs p q).power = s.power := rfl
@[simp] theorem State.setProgs_scrapped (s : State) (p : Nat) (q : List RowProg) : (s.setProgs p q).scrapped = s.scrapped := rfl
@[simp] theorem State.setProgs_throttledDies (s : State) (p : Nat) (q : List RowProg) : (s.setProgs p q).throttledDies = s.throttledDies := rfl
@[simp] theorem State.setProgs_spares (s : State) (p : Nat) (q : List RowProg) : (s.setProgs p q).spares = s.spares := rfl
@[simp] theorem State.setProgs_cycles (s : State) (p : Nat) (q : List RowProg) : (s.setProgs p q).cycles = s.cycles := rfl
@[simp] theorem State.setProgs_scCount (s : State) (p : Nat) (q : List RowProg) : (s.setProgs p q).scCount = s.scCount := rfl
@[simp] theorem State.setProgs_tick (s : State) (p : Nat) (q : List RowProg) : (s.setProgs p q).tick = s.tick := rfl
@[simp] theorem State.setProgs_hostReply (s : State) (p : Nat) (q : List RowProg) : (s.setProgs p q).hostReply = s.hostReply := rfl

/-! `State.setBankQueue` writes `banks` alone. -/

@[simp] theorem State.setBankQueue_agenda (s : State) (p : Nat) (q : List BankCmd) : (s.setBankQueue p q).agenda = s.agenda := rfl
@[simp] theorem State.setBankQueue_turn (s : State) (p : Nat) (q : List BankCmd) : (s.setBankQueue p q).turn = s.turn := rfl
@[simp] theorem State.setBankQueue_harts (s : State) (p : Nat) (q : List BankCmd) : (s.setBankQueue p q).harts = s.harts := rfl
@[simp] theorem State.setBankQueue_tasks (s : State) (p : Nat) (q : List BankCmd) : (s.setBankQueue p q).tasks = s.tasks := rfl
@[simp] theorem State.setBankQueue_graphs (s : State) (p : Nat) (q : List BankCmd) : (s.setBankQueue p q).graphs = s.graphs := rfl
@[simp] theorem State.setBankQueue_ready (s : State) (p : Nat) (q : List BankCmd) : (s.setBankQueue p q).ready = s.ready := rfl
@[simp] theorem State.setBankQueue_rotation (s : State) (p : Nat) (q : List BankCmd) : (s.setBankQueue p q).rotation = s.rotation := rfl
@[simp] theorem State.setBankQueue_pend (s : State) (p : Nat) (q : List BankCmd) : (s.setBankQueue p q).pend = s.pend := rfl
@[simp] theorem State.setBankQueue_recent (s : State) (p : Nat) (q : List BankCmd) : (s.setBankQueue p q).recent = s.recent := rfl
@[simp] theorem State.setBankQueue_rung (s : State) (p : Nat) (q : List BankCmd) : (s.setBankQueue p q).rung = s.rung := rfl
@[simp] theorem State.setBankQueue_held (s : State) (p : Nat) (q : List BankCmd) : (s.setBankQueue p q).held = s.held := rfl
@[simp] theorem State.setBankQueue_buffers (s : State) (p : Nat) (q : List BankCmd) : (s.setBankQueue p q).buffers = s.buffers := rfl
@[simp] theorem State.setBankQueue_nextUid (s : State) (p : Nat) (q : List BankCmd) : (s.setBankQueue p q).nextUid = s.nextUid := rfl
@[simp] theorem State.setBankQueue_mem (s : State) (p : Nat) (q : List BankCmd) : (s.setBankQueue p q).mem = s.mem := rfl
@[simp] theorem State.setBankQueue_l2 (s : State) (p : Nat) (q : List BankCmd) : (s.setBankQueue p q).l2 = s.l2 := rfl
@[simp] theorem State.setBankQueue_stores (s : State) (p : Nat) (q : List BankCmd) : (s.setBankQueue p q).stores = s.stores := rfl
@[simp] theorem State.setBankQueue_hostWrites (s : State) (p : Nat) (q : List BankCmd) : (s.setBankQueue p q).hostWrites = s.hostWrites := rfl
@[simp] theorem State.setBankQueue_err (s : State) (p : Nat) (q : List BankCmd) : (s.setBankQueue p q).err = s.err := rfl
@[simp] theorem State.setBankQueue_marked (s : State) (p : Nat) (q : List BankCmd) : (s.setBankQueue p q).marked = s.marked := rfl
@[simp] theorem State.setBankQueue_walked (s : State) (p : Nat) (q : List BankCmd) : (s.setBankQueue p q).walked = s.walked := rfl
@[simp] theorem State.setBankQueue_rows (s : State) (p : Nat) (q : List BankCmd) : (s.setBankQueue p q).rows = s.rows := rfl
@[simp] theorem State.setBankQueue_acts (s : State) (p : Nat) (q : List BankCmd) : (s.setBankQueue p q).acts = s.acts := rfl
@[simp] theorem State.setBankQueue_due (s : State) (p : Nat) (q : List BankCmd) : (s.setBankQueue p q).due = s.due := rfl
@[simp] theorem State.setBankQueue_waves (s : State) (p : Nat) (q : List BankCmd) : (s.setBankQueue p q).waves = s.waves := rfl
@[simp] theorem State.setBankQueue_copies (s : State) (p : Nat) (q : List BankCmd) : (s.setBankQueue p q).copies = s.copies := rfl
@[simp] theorem State.setBankQueue_accepts (s : State) (p : Nat) (q : List BankCmd) : (s.setBankQueue p q).accepts = s.accepts := rfl
@[simp] theorem State.setBankQueue_regions (s : State) (p : Nat) (q : List BankCmd) : (s.setBankQueue p q).regions = s.regions := rfl
@[simp] theorem State.setBankQueue_progs (s : State) (p : Nat) (q : List BankCmd) : (s.setBankQueue p q).progs = s.progs := rfl
@[simp] theorem State.setBankQueue_beams (s : State) (p : Nat) (q : List BankCmd) : (s.setBankQueue p q).beams = s.beams := rfl
@[simp] theorem State.setBankQueue_l6 (s : State) (p : Nat) (q : List BankCmd) : (s.setBankQueue p q).l6 = s.l6 := rfl
@[simp] theorem State.setBankQueue_phase (s : State) (p : Nat) (q : List BankCmd) : (s.setBankQueue p q).phase = s.phase := rfl
@[simp] theorem State.setBankQueue_bootCause (s : State) (p : Nat) (q : List BankCmd) : (s.setBankQueue p q).bootCause = s.bootCause := rfl
@[simp] theorem State.setBankQueue_failPosts (s : State) (p : Nat) (q : List BankCmd) : (s.setBankQueue p q).failPosts = s.failPosts := rfl
@[simp] theorem State.setBankQueue_elapsed (s : State) (p : Nat) (q : List BankCmd) : (s.setBankQueue p q).elapsed = s.elapsed := rfl
@[simp] theorem State.setBankQueue_hostlim (s : State) (p : Nat) (q : List BankCmd) : (s.setBankQueue p q).hostlim = s.hostlim := rfl
@[simp] theorem State.setBankQueue_cxllim (s : State) (p : Nat) (q : List BankCmd) : (s.setBankQueue p q).cxllim = s.cxllim := rfl
@[simp] theorem State.setBankQueue_spancfg (s : State) (p : Nat) (q : List BankCmd) : (s.setBankQueue p q).spancfg = s.spancfg := rfl
@[simp] theorem State.setBankQueue_fwaddr (s : State) (p : Nat) (q : List BankCmd) : (s.setBankQueue p q).fwaddr = s.fwaddr := rfl
@[simp] theorem State.setBankQueue_fwlen (s : State) (p : Nat) (q : List BankCmd) : (s.setBankQueue p q).fwlen = s.fwlen := rfl
@[simp] theorem State.setBankQueue_fwImage (s : State) (p : Nat) (q : List BankCmd) : (s.setBankQueue p q).fwImage = s.fwImage := rfl
@[simp] theorem State.setBankQueue_perst (s : State) (p : Nat) (q : List BankCmd) : (s.setBankQueue p q).perst = s.perst := rfl
@[simp] theorem State.setBankQueue_power (s : State) (p : Nat) (q : List BankCmd) : (s.setBankQueue p q).power = s.power := rfl
@[simp] theorem State.setBankQueue_scrapped (s : State) (p : Nat) (q : List BankCmd) : (s.setBankQueue p q).scrapped = s.scrapped := rfl
@[simp] theorem State.setBankQueue_throttledDies (s : State) (p : Nat) (q : List BankCmd) : (s.setBankQueue p q).throttledDies = s.throttledDies := rfl
@[simp] theorem State.setBankQueue_spares (s : State) (p : Nat) (q : List BankCmd) : (s.setBankQueue p q).spares = s.spares := rfl
@[simp] theorem State.setBankQueue_cycles (s : State) (p : Nat) (q : List BankCmd) : (s.setBankQueue p q).cycles = s.cycles := rfl
@[simp] theorem State.setBankQueue_scCount (s : State) (p : Nat) (q : List BankCmd) : (s.setBankQueue p q).scCount = s.scCount := rfl
@[simp] theorem State.setBankQueue_tick (s : State) (p : Nat) (q : List BankCmd) : (s.setBankQueue p q).tick = s.tick := rfl
@[simp] theorem State.setBankQueue_hostReply (s : State) (p : Nat) (q : List BankCmd) : (s.setBankQueue p q).hostReply = s.hostReply := rfl

/-! Reading back. -/

@[simp] theorem State.hart_setHart_self (s : State) (n : Nat) (h : Hart) : (s.setHart n h).hart n = h := by
  simp [State.hart, State.setHart]
theorem State.hart_setHart_ne (s : State) {n m : Nat} (hm : m ≠ n) (h : Hart) : (s.setHart n h).hart m = s.hart m := by
  simp [State.hart, State.setHart, Table.get_set_ne _ _ hm]
@[simp] theorem State.task_setTask_self (s : State) (u : Nat) (t : Option Task) : (s.setTask u t).task u = t := by
  simp [State.task, State.setTask]
@[simp] theorem State.graph_setGraph_self (s : State) (g : Nat) (x : Option Graph) : (s.setGraph g x).graph g = x := by
  simp [State.graph, State.setGraph]
@[simp] theorem State.memByte_putByte_self (s : State) (a : Nat) (x : Byte) : (s.putByte a x).memByte a = x := by
  simp [State.memByte, State.putByte]
theorem State.memByte_putByte_ne (s : State) {a b : Nat} (hb : b ≠ a) (x : Byte) : (s.putByte a x).memByte b = s.memByte b := by
  simp [State.memByte, State.putByte, Table.get_set_ne _ _ hb]
@[simp] theorem State.task_setHart (s : State) (n : Nat) (h : Hart) (u : Nat) : (s.setHart n h).task u = s.task u := rfl
@[simp] theorem State.graph_setHart (s : State) (n : Nat) (h : Hart) (g : Nat) : (s.setHart n h).graph g = s.graph g := rfl
@[simp] theorem State.memByte_setHart (s : State) (n : Nat) (h : Hart) (a : Nat) : (s.setHart n h).memByte a = s.memByte a := rfl
@[simp] theorem State.beam_setHart (s : State) (n : Nat) (h : Hart) (b : Nat) : (s.setHart n h).beam b = s.beam b := rfl

/-! `Hart.setG` writes `g` alone. -/

@[simp] theorem Hart.setG_pc (h : Hart) (n : Nat) (x : Word) : (h.setG n x).pc = h.pc := by unfold Hart.setG; split <;> rfl
@[simp] theorem Hart.setG_v (h : Hart) (n : Nat) (x : Word) : (h.setG n x).v = h.v := by unfold Hart.setG; split <;> rfl
@[simp] theorem Hart.setG_k (h : Hart) (n : Nat) (x : Word) : (h.setG n x).k = h.k := by unfold Hart.setG; split <;> rfl
@[simp] theorem Hart.setG_d (h : Hart) (n : Nat) (x : Word) : (h.setG n x).d = h.d := by unfold Hart.setG; split <;> rfl
@[simp] theorem Hart.setG_m (h : Hart) (n : Nat) (x : Word) : (h.setG n x).m = h.m := by unfold Hart.setG; split <;> rfl
@[simp] theorem Hart.setG_acc (h : Hart) (n : Nat) (x : Word) : (h.setG n x).acc = h.acc := by unfold Hart.setG; split <;> rfl
@[simp] theorem Hart.setG_vl (h : Hart) (n : Nat) (x : Word) : (h.setG n x).vl = h.vl := by unfold Hart.setG; split <;> rfl
@[simp] theorem Hart.setG_estart (h : Hart) (n : Nat) (x : Word) : (h.setG n x).estart = h.estart := by unfold Hart.setG; split <;> rfl
@[simp] theorem Hart.setG_fflags (h : Hart) (n : Nat) (x : Word) : (h.setG n x).fflags = h.fflags := by unfold Hart.setG; split <;> rfl
@[simp] theorem Hart.setG_fmode (h : Hart) (n : Nat) (x : Word) : (h.setG n x).fmode = h.fmode := by unfold Hart.setG; split <;> rfl
@[simp] theorem Hart.setG_livemask (h : Hart) (n : Nat) (x : Word) : (h.setG n x).livemask = h.livemask := by unfold Hart.setG; split <;> rfl
@[simp] theorem Hart.setG_pegmask (h : Hart) (n : Nat) (x : Word) : (h.setG n x).pegmask = h.pegmask := by unfold Hart.setG; split <;> rfl
@[simp] theorem Hart.setG_cause (h : Hart) (n : Nat) (x : Word) : (h.setG n x).cause = h.cause := by unfold Hart.setG; split <;> rfl
@[simp] theorem Hart.setG_faddr (h : Hart) (n : Nat) (x : Word) : (h.setG n x).faddr = h.faddr := by unfold Hart.setG; split <;> rfl
@[simp] theorem Hart.setG_finfo (h : Hart) (n : Nat) (x : Word) : (h.setG n x).finfo = h.finfo := by unfold Hart.setG; split <;> rfl
@[simp] theorem Hart.setG_epc (h : Hart) (n : Nat) (x : Word) : (h.setG n x).epc = h.epc := by unfold Hart.setG; split <;> rfl
@[simp] theorem Hart.setG_tvec (h : Hart) (n : Nat) (x : Word) : (h.setG n x).tvec = h.tvec := by unfold Hart.setG; split <;> rfl
@[simp] theorem Hart.setG_tstat (h : Hart) (n : Nat) (x : Word) : (h.setG n x).tstat = h.tstat := by unfold Hart.setG; split <;> rfl
@[simp] theorem Hart.setG_tpend (h : Hart) (n : Nat) (x : Word) : (h.setG n x).tpend = h.tpend := by unfold Hart.setG; split <;> rfl
@[simp] theorem Hart.setG_tmask (h : Hart) (n : Nat) (x : Word) : (h.setG n x).tmask = h.tmask := by unfold Hart.setG; split <;> rfl
@[simp] theorem Hart.setG_tscr0 (h : Hart) (n : Nat) (x : Word) : (h.setG n x).tscr0 = h.tscr0 := by unfold Hart.setG; split <;> rfl
@[simp] theorem Hart.setG_tscr1 (h : Hart) (n : Nat) (x : Word) : (h.setG n x).tscr1 = h.tscr1 := by unfold Hart.setG; split <;> rfl
@[simp] theorem Hart.setG_waddr (h : Hart) (n : Nat) (x : Word) : (h.setG n x).waddr = h.waddr := by unfold Hart.setG; split <;> rfl
@[simp] theorem Hart.setG_pendAddr (h : Hart) (n : Nat) (x : Word) : (h.setG n x).pendAddr = h.pendAddr := by unfold Hart.setG; split <;> rfl
@[simp] theorem Hart.setG_stepArmed (h : Hart) (n : Nat) (x : Word) : (h.setG n x).stepArmed = h.stepArmed := by unfold Hart.setG; split <;> rfl
@[simp] theorem Hart.setG_watchHit (h : Hart) (n : Nat) (x : Word) : (h.setG n x).watchHit = h.watchHit := by unfold Hart.setG; split <;> rfl
@[simp] theorem Hart.setG_watchKept (h : Hart) (n : Nat) (x : Word) : (h.setG n x).watchKept = h.watchKept := by unfold Hart.setG; split <;> rfl
@[simp] theorem Hart.setG_task (h : Hart) (n : Nat) (x : Word) : (h.setG n x).task = h.task := by unfold Hart.setG; split <;> rfl
@[simp] theorem Hart.setG_mode (h : Hart) (n : Nat) (x : Word) : (h.setG n x).mode = h.mode := by unfold Hart.setG; split <;> rfl
@[simp] theorem Hart.setG_victim (h : Hart) (n : Nat) (x : Word) : (h.setG n x).victim = h.victim := by unfold Hart.setG; split <;> rfl
@[simp] theorem Hart.setG_cut (h : Hart) (n : Nat) (x : Word) : (h.setG n x).cut = h.cut := by unfold Hart.setG; split <;> rfl
@[simp] theorem Hart.setG_copies (h : Hart) (n : Nat) (x : Word) : (h.setG n x).copies = h.copies := by unfold Hart.setG; split <;> rfl
@[simp] theorem Hart.setG_boundSeq (h : Hart) (n : Nat) (x : Word) : (h.setG n x).boundSeq = h.boundSeq := by unfold Hart.setG; split <;> rfl
@[simp] theorem Hart.setG_response (h : Hart) (n : Nat) (x : Word) : (h.setG n x).response = h.response := by unfold Hart.setG; split <;> rfl
@[simp] theorem Hart.setG_parity (h : Hart) (n : Nat) (x : Word) : (h.setG n x).parity = h.parity := by unfold Hart.setG; split <;> rfl
@[simp] theorem Hart.setG_held (h : Hart) (n : Nat) (x : Word) : (h.setG n x).held = h.held := by unfold Hart.setG; split <;> rfl
@[simp] theorem Hart.setG_unfilled (h : Hart) (n : Nat) (x : Word) : (h.setG n x).unfilled = h.unfilled := by unfold Hart.setG; split <;> rfl
@[simp] theorem Hart.setG_fetched (h : Hart) (n : Nat) (x : Word) : (h.setG n x).fetched = h.fetched := by unfold Hart.setG; split <;> rfl
@[simp] theorem Hart.setG_stopSeq (h : Hart) (n : Nat) (x : Word) : (h.setG n x).stopSeq = h.stopSeq := by unfold Hart.setG; split <;> rfl

/-! `Hart.setK` writes `k` alone. -/

@[simp] theorem Hart.setK_pc (h : Hart) (n : Nat) (x : BitVec 256) : (h.setK n x).pc = h.pc := by unfold Hart.setK; split <;> rfl
@[simp] theorem Hart.setK_g (h : Hart) (n : Nat) (x : BitVec 256) : (h.setK n x).g = h.g := by unfold Hart.setK; split <;> rfl
@[simp] theorem Hart.setK_v (h : Hart) (n : Nat) (x : BitVec 256) : (h.setK n x).v = h.v := by unfold Hart.setK; split <;> rfl
@[simp] theorem Hart.setK_d (h : Hart) (n : Nat) (x : BitVec 256) : (h.setK n x).d = h.d := by unfold Hart.setK; split <;> rfl
@[simp] theorem Hart.setK_m (h : Hart) (n : Nat) (x : BitVec 256) : (h.setK n x).m = h.m := by unfold Hart.setK; split <;> rfl
@[simp] theorem Hart.setK_acc (h : Hart) (n : Nat) (x : BitVec 256) : (h.setK n x).acc = h.acc := by unfold Hart.setK; split <;> rfl
@[simp] theorem Hart.setK_vl (h : Hart) (n : Nat) (x : BitVec 256) : (h.setK n x).vl = h.vl := by unfold Hart.setK; split <;> rfl
@[simp] theorem Hart.setK_estart (h : Hart) (n : Nat) (x : BitVec 256) : (h.setK n x).estart = h.estart := by unfold Hart.setK; split <;> rfl
@[simp] theorem Hart.setK_fflags (h : Hart) (n : Nat) (x : BitVec 256) : (h.setK n x).fflags = h.fflags := by unfold Hart.setK; split <;> rfl
@[simp] theorem Hart.setK_fmode (h : Hart) (n : Nat) (x : BitVec 256) : (h.setK n x).fmode = h.fmode := by unfold Hart.setK; split <;> rfl
@[simp] theorem Hart.setK_livemask (h : Hart) (n : Nat) (x : BitVec 256) : (h.setK n x).livemask = h.livemask := by unfold Hart.setK; split <;> rfl
@[simp] theorem Hart.setK_pegmask (h : Hart) (n : Nat) (x : BitVec 256) : (h.setK n x).pegmask = h.pegmask := by unfold Hart.setK; split <;> rfl
@[simp] theorem Hart.setK_cause (h : Hart) (n : Nat) (x : BitVec 256) : (h.setK n x).cause = h.cause := by unfold Hart.setK; split <;> rfl
@[simp] theorem Hart.setK_faddr (h : Hart) (n : Nat) (x : BitVec 256) : (h.setK n x).faddr = h.faddr := by unfold Hart.setK; split <;> rfl
@[simp] theorem Hart.setK_finfo (h : Hart) (n : Nat) (x : BitVec 256) : (h.setK n x).finfo = h.finfo := by unfold Hart.setK; split <;> rfl
@[simp] theorem Hart.setK_epc (h : Hart) (n : Nat) (x : BitVec 256) : (h.setK n x).epc = h.epc := by unfold Hart.setK; split <;> rfl
@[simp] theorem Hart.setK_tvec (h : Hart) (n : Nat) (x : BitVec 256) : (h.setK n x).tvec = h.tvec := by unfold Hart.setK; split <;> rfl
@[simp] theorem Hart.setK_tstat (h : Hart) (n : Nat) (x : BitVec 256) : (h.setK n x).tstat = h.tstat := by unfold Hart.setK; split <;> rfl
@[simp] theorem Hart.setK_tpend (h : Hart) (n : Nat) (x : BitVec 256) : (h.setK n x).tpend = h.tpend := by unfold Hart.setK; split <;> rfl
@[simp] theorem Hart.setK_tmask (h : Hart) (n : Nat) (x : BitVec 256) : (h.setK n x).tmask = h.tmask := by unfold Hart.setK; split <;> rfl
@[simp] theorem Hart.setK_tscr0 (h : Hart) (n : Nat) (x : BitVec 256) : (h.setK n x).tscr0 = h.tscr0 := by unfold Hart.setK; split <;> rfl
@[simp] theorem Hart.setK_tscr1 (h : Hart) (n : Nat) (x : BitVec 256) : (h.setK n x).tscr1 = h.tscr1 := by unfold Hart.setK; split <;> rfl
@[simp] theorem Hart.setK_waddr (h : Hart) (n : Nat) (x : BitVec 256) : (h.setK n x).waddr = h.waddr := by unfold Hart.setK; split <;> rfl
@[simp] theorem Hart.setK_pendAddr (h : Hart) (n : Nat) (x : BitVec 256) : (h.setK n x).pendAddr = h.pendAddr := by unfold Hart.setK; split <;> rfl
@[simp] theorem Hart.setK_stepArmed (h : Hart) (n : Nat) (x : BitVec 256) : (h.setK n x).stepArmed = h.stepArmed := by unfold Hart.setK; split <;> rfl
@[simp] theorem Hart.setK_watchHit (h : Hart) (n : Nat) (x : BitVec 256) : (h.setK n x).watchHit = h.watchHit := by unfold Hart.setK; split <;> rfl
@[simp] theorem Hart.setK_watchKept (h : Hart) (n : Nat) (x : BitVec 256) : (h.setK n x).watchKept = h.watchKept := by unfold Hart.setK; split <;> rfl
@[simp] theorem Hart.setK_task (h : Hart) (n : Nat) (x : BitVec 256) : (h.setK n x).task = h.task := by unfold Hart.setK; split <;> rfl
@[simp] theorem Hart.setK_mode (h : Hart) (n : Nat) (x : BitVec 256) : (h.setK n x).mode = h.mode := by unfold Hart.setK; split <;> rfl
@[simp] theorem Hart.setK_victim (h : Hart) (n : Nat) (x : BitVec 256) : (h.setK n x).victim = h.victim := by unfold Hart.setK; split <;> rfl
@[simp] theorem Hart.setK_cut (h : Hart) (n : Nat) (x : BitVec 256) : (h.setK n x).cut = h.cut := by unfold Hart.setK; split <;> rfl
@[simp] theorem Hart.setK_copies (h : Hart) (n : Nat) (x : BitVec 256) : (h.setK n x).copies = h.copies := by unfold Hart.setK; split <;> rfl
@[simp] theorem Hart.setK_boundSeq (h : Hart) (n : Nat) (x : BitVec 256) : (h.setK n x).boundSeq = h.boundSeq := by unfold Hart.setK; split <;> rfl
@[simp] theorem Hart.setK_response (h : Hart) (n : Nat) (x : BitVec 256) : (h.setK n x).response = h.response := by unfold Hart.setK; split <;> rfl
@[simp] theorem Hart.setK_parity (h : Hart) (n : Nat) (x : BitVec 256) : (h.setK n x).parity = h.parity := by unfold Hart.setK; split <;> rfl
@[simp] theorem Hart.setK_held (h : Hart) (n : Nat) (x : BitVec 256) : (h.setK n x).held = h.held := by unfold Hart.setK; split <;> rfl
@[simp] theorem Hart.setK_unfilled (h : Hart) (n : Nat) (x : BitVec 256) : (h.setK n x).unfilled = h.unfilled := by unfold Hart.setK; split <;> rfl
@[simp] theorem Hart.setK_fetched (h : Hart) (n : Nat) (x : BitVec 256) : (h.setK n x).fetched = h.fetched := by unfold Hart.setK; split <;> rfl
@[simp] theorem Hart.setK_stopSeq (h : Hart) (n : Nat) (x : BitVec 256) : (h.setK n x).stopSeq = h.stopSeq := by unfold Hart.setK; split <;> rfl

/-! `Hart.setM` writes `m` alone. -/

@[simp] theorem Hart.setM_pc (h : Hart) (n : Nat) (x : BitVec 32) : (h.setM n x).pc = h.pc := rfl
@[simp] theorem Hart.setM_g (h : Hart) (n : Nat) (x : BitVec 32) : (h.setM n x).g = h.g := rfl
@[simp] theorem Hart.setM_v (h : Hart) (n : Nat) (x : BitVec 32) : (h.setM n x).v = h.v := rfl
@[simp] theorem Hart.setM_k (h : Hart) (n : Nat) (x : BitVec 32) : (h.setM n x).k = h.k := rfl
@[simp] theorem Hart.setM_d (h : Hart) (n : Nat) (x : BitVec 32) : (h.setM n x).d = h.d := rfl
@[simp] theorem Hart.setM_acc (h : Hart) (n : Nat) (x : BitVec 32) : (h.setM n x).acc = h.acc := rfl
@[simp] theorem Hart.setM_vl (h : Hart) (n : Nat) (x : BitVec 32) : (h.setM n x).vl = h.vl := rfl
@[simp] theorem Hart.setM_estart (h : Hart) (n : Nat) (x : BitVec 32) : (h.setM n x).estart = h.estart := rfl
@[simp] theorem Hart.setM_fflags (h : Hart) (n : Nat) (x : BitVec 32) : (h.setM n x).fflags = h.fflags := rfl
@[simp] theorem Hart.setM_fmode (h : Hart) (n : Nat) (x : BitVec 32) : (h.setM n x).fmode = h.fmode := rfl
@[simp] theorem Hart.setM_livemask (h : Hart) (n : Nat) (x : BitVec 32) : (h.setM n x).livemask = h.livemask := rfl
@[simp] theorem Hart.setM_pegmask (h : Hart) (n : Nat) (x : BitVec 32) : (h.setM n x).pegmask = h.pegmask := rfl
@[simp] theorem Hart.setM_cause (h : Hart) (n : Nat) (x : BitVec 32) : (h.setM n x).cause = h.cause := rfl
@[simp] theorem Hart.setM_faddr (h : Hart) (n : Nat) (x : BitVec 32) : (h.setM n x).faddr = h.faddr := rfl
@[simp] theorem Hart.setM_finfo (h : Hart) (n : Nat) (x : BitVec 32) : (h.setM n x).finfo = h.finfo := rfl
@[simp] theorem Hart.setM_epc (h : Hart) (n : Nat) (x : BitVec 32) : (h.setM n x).epc = h.epc := rfl
@[simp] theorem Hart.setM_tvec (h : Hart) (n : Nat) (x : BitVec 32) : (h.setM n x).tvec = h.tvec := rfl
@[simp] theorem Hart.setM_tstat (h : Hart) (n : Nat) (x : BitVec 32) : (h.setM n x).tstat = h.tstat := rfl
@[simp] theorem Hart.setM_tpend (h : Hart) (n : Nat) (x : BitVec 32) : (h.setM n x).tpend = h.tpend := rfl
@[simp] theorem Hart.setM_tmask (h : Hart) (n : Nat) (x : BitVec 32) : (h.setM n x).tmask = h.tmask := rfl
@[simp] theorem Hart.setM_tscr0 (h : Hart) (n : Nat) (x : BitVec 32) : (h.setM n x).tscr0 = h.tscr0 := rfl
@[simp] theorem Hart.setM_tscr1 (h : Hart) (n : Nat) (x : BitVec 32) : (h.setM n x).tscr1 = h.tscr1 := rfl
@[simp] theorem Hart.setM_waddr (h : Hart) (n : Nat) (x : BitVec 32) : (h.setM n x).waddr = h.waddr := rfl
@[simp] theorem Hart.setM_pendAddr (h : Hart) (n : Nat) (x : BitVec 32) : (h.setM n x).pendAddr = h.pendAddr := rfl
@[simp] theorem Hart.setM_stepArmed (h : Hart) (n : Nat) (x : BitVec 32) : (h.setM n x).stepArmed = h.stepArmed := rfl
@[simp] theorem Hart.setM_watchHit (h : Hart) (n : Nat) (x : BitVec 32) : (h.setM n x).watchHit = h.watchHit := rfl
@[simp] theorem Hart.setM_watchKept (h : Hart) (n : Nat) (x : BitVec 32) : (h.setM n x).watchKept = h.watchKept := rfl
@[simp] theorem Hart.setM_task (h : Hart) (n : Nat) (x : BitVec 32) : (h.setM n x).task = h.task := rfl
@[simp] theorem Hart.setM_mode (h : Hart) (n : Nat) (x : BitVec 32) : (h.setM n x).mode = h.mode := rfl
@[simp] theorem Hart.setM_victim (h : Hart) (n : Nat) (x : BitVec 32) : (h.setM n x).victim = h.victim := rfl
@[simp] theorem Hart.setM_cut (h : Hart) (n : Nat) (x : BitVec 32) : (h.setM n x).cut = h.cut := rfl
@[simp] theorem Hart.setM_copies (h : Hart) (n : Nat) (x : BitVec 32) : (h.setM n x).copies = h.copies := rfl
@[simp] theorem Hart.setM_boundSeq (h : Hart) (n : Nat) (x : BitVec 32) : (h.setM n x).boundSeq = h.boundSeq := rfl
@[simp] theorem Hart.setM_response (h : Hart) (n : Nat) (x : BitVec 32) : (h.setM n x).response = h.response := rfl
@[simp] theorem Hart.setM_parity (h : Hart) (n : Nat) (x : BitVec 32) : (h.setM n x).parity = h.parity := rfl
@[simp] theorem Hart.setM_held (h : Hart) (n : Nat) (x : BitVec 32) : (h.setM n x).held = h.held := rfl
@[simp] theorem Hart.setM_unfilled (h : Hart) (n : Nat) (x : BitVec 32) : (h.setM n x).unfilled = h.unfilled := rfl
@[simp] theorem Hart.setM_fetched (h : Hart) (n : Nat) (x : BitVec 32) : (h.setM n x).fetched = h.fetched := rfl
@[simp] theorem Hart.setM_stopSeq (h : Hart) (n : Nat) (x : BitVec 32) : (h.setM n x).stopSeq = h.stopSeq := rfl

/-! `Hart.addFlags` writes `fflags` alone. -/

@[simp] theorem Hart.addFlags_pc (h : Hart) (f : Flags) : (h.addFlags f).pc = h.pc := rfl
@[simp] theorem Hart.addFlags_g (h : Hart) (f : Flags) : (h.addFlags f).g = h.g := rfl
@[simp] theorem Hart.addFlags_v (h : Hart) (f : Flags) : (h.addFlags f).v = h.v := rfl
@[simp] theorem Hart.addFlags_k (h : Hart) (f : Flags) : (h.addFlags f).k = h.k := rfl
@[simp] theorem Hart.addFlags_d (h : Hart) (f : Flags) : (h.addFlags f).d = h.d := rfl
@[simp] theorem Hart.addFlags_m (h : Hart) (f : Flags) : (h.addFlags f).m = h.m := rfl
@[simp] theorem Hart.addFlags_acc (h : Hart) (f : Flags) : (h.addFlags f).acc = h.acc := rfl
@[simp] theorem Hart.addFlags_vl (h : Hart) (f : Flags) : (h.addFlags f).vl = h.vl := rfl
@[simp] theorem Hart.addFlags_estart (h : Hart) (f : Flags) : (h.addFlags f).estart = h.estart := rfl
@[simp] theorem Hart.addFlags_fmode (h : Hart) (f : Flags) : (h.addFlags f).fmode = h.fmode := rfl
@[simp] theorem Hart.addFlags_livemask (h : Hart) (f : Flags) : (h.addFlags f).livemask = h.livemask := rfl
@[simp] theorem Hart.addFlags_pegmask (h : Hart) (f : Flags) : (h.addFlags f).pegmask = h.pegmask := rfl
@[simp] theorem Hart.addFlags_cause (h : Hart) (f : Flags) : (h.addFlags f).cause = h.cause := rfl
@[simp] theorem Hart.addFlags_faddr (h : Hart) (f : Flags) : (h.addFlags f).faddr = h.faddr := rfl
@[simp] theorem Hart.addFlags_finfo (h : Hart) (f : Flags) : (h.addFlags f).finfo = h.finfo := rfl
@[simp] theorem Hart.addFlags_epc (h : Hart) (f : Flags) : (h.addFlags f).epc = h.epc := rfl
@[simp] theorem Hart.addFlags_tvec (h : Hart) (f : Flags) : (h.addFlags f).tvec = h.tvec := rfl
@[simp] theorem Hart.addFlags_tstat (h : Hart) (f : Flags) : (h.addFlags f).tstat = h.tstat := rfl
@[simp] theorem Hart.addFlags_tpend (h : Hart) (f : Flags) : (h.addFlags f).tpend = h.tpend := rfl
@[simp] theorem Hart.addFlags_tmask (h : Hart) (f : Flags) : (h.addFlags f).tmask = h.tmask := rfl
@[simp] theorem Hart.addFlags_tscr0 (h : Hart) (f : Flags) : (h.addFlags f).tscr0 = h.tscr0 := rfl
@[simp] theorem Hart.addFlags_tscr1 (h : Hart) (f : Flags) : (h.addFlags f).tscr1 = h.tscr1 := rfl
@[simp] theorem Hart.addFlags_waddr (h : Hart) (f : Flags) : (h.addFlags f).waddr = h.waddr := rfl
@[simp] theorem Hart.addFlags_pendAddr (h : Hart) (f : Flags) : (h.addFlags f).pendAddr = h.pendAddr := rfl
@[simp] theorem Hart.addFlags_stepArmed (h : Hart) (f : Flags) : (h.addFlags f).stepArmed = h.stepArmed := rfl
@[simp] theorem Hart.addFlags_watchHit (h : Hart) (f : Flags) : (h.addFlags f).watchHit = h.watchHit := rfl
@[simp] theorem Hart.addFlags_watchKept (h : Hart) (f : Flags) : (h.addFlags f).watchKept = h.watchKept := rfl
@[simp] theorem Hart.addFlags_task (h : Hart) (f : Flags) : (h.addFlags f).task = h.task := rfl
@[simp] theorem Hart.addFlags_mode (h : Hart) (f : Flags) : (h.addFlags f).mode = h.mode := rfl
@[simp] theorem Hart.addFlags_victim (h : Hart) (f : Flags) : (h.addFlags f).victim = h.victim := rfl
@[simp] theorem Hart.addFlags_cut (h : Hart) (f : Flags) : (h.addFlags f).cut = h.cut := rfl
@[simp] theorem Hart.addFlags_copies (h : Hart) (f : Flags) : (h.addFlags f).copies = h.copies := rfl
@[simp] theorem Hart.addFlags_boundSeq (h : Hart) (f : Flags) : (h.addFlags f).boundSeq = h.boundSeq := rfl
@[simp] theorem Hart.addFlags_response (h : Hart) (f : Flags) : (h.addFlags f).response = h.response := rfl
@[simp] theorem Hart.addFlags_parity (h : Hart) (f : Flags) : (h.addFlags f).parity = h.parity := rfl
@[simp] theorem Hart.addFlags_held (h : Hart) (f : Flags) : (h.addFlags f).held = h.held := rfl
@[simp] theorem Hart.addFlags_unfilled (h : Hart) (f : Flags) : (h.addFlags f).unfilled = h.unfilled := rfl
@[simp] theorem Hart.addFlags_fetched (h : Hart) (f : Flags) : (h.addFlags f).fetched = h.fetched := rfl
@[simp] theorem Hart.addFlags_stopSeq (h : Hart) (f : Flags) : (h.addFlags f).stopSeq = h.stopSeq := rfl

/-! `Hart.live` writes `livemask` alone. -/

@[simp] theorem Hart.live_pc (h : Hart) (b : Nat) : (h.live b).pc = h.pc := rfl
@[simp] theorem Hart.live_g (h : Hart) (b : Nat) : (h.live b).g = h.g := rfl
@[simp] theorem Hart.live_v (h : Hart) (b : Nat) : (h.live b).v = h.v := rfl
@[simp] theorem Hart.live_k (h : Hart) (b : Nat) : (h.live b).k = h.k := rfl
@[simp] theorem Hart.live_d (h : Hart) (b : Nat) : (h.live b).d = h.d := rfl
@[simp] theorem Hart.live_m (h : Hart) (b : Nat) : (h.live b).m = h.m := rfl
@[simp] theorem Hart.live_acc (h : Hart) (b : Nat) : (h.live b).acc = h.acc := rfl
@[simp] theorem Hart.live_vl (h : Hart) (b : Nat) : (h.live b).vl = h.vl := rfl
@[simp] theorem Hart.live_estart (h : Hart) (b : Nat) : (h.live b).estart = h.estart := rfl
@[simp] theorem Hart.live_fflags (h : Hart) (b : Nat) : (h.live b).fflags = h.fflags := rfl
@[simp] theorem Hart.live_fmode (h : Hart) (b : Nat) : (h.live b).fmode = h.fmode := rfl
@[simp] theorem Hart.live_pegmask (h : Hart) (b : Nat) : (h.live b).pegmask = h.pegmask := rfl
@[simp] theorem Hart.live_cause (h : Hart) (b : Nat) : (h.live b).cause = h.cause := rfl
@[simp] theorem Hart.live_faddr (h : Hart) (b : Nat) : (h.live b).faddr = h.faddr := rfl
@[simp] theorem Hart.live_finfo (h : Hart) (b : Nat) : (h.live b).finfo = h.finfo := rfl
@[simp] theorem Hart.live_epc (h : Hart) (b : Nat) : (h.live b).epc = h.epc := rfl
@[simp] theorem Hart.live_tvec (h : Hart) (b : Nat) : (h.live b).tvec = h.tvec := rfl
@[simp] theorem Hart.live_tstat (h : Hart) (b : Nat) : (h.live b).tstat = h.tstat := rfl
@[simp] theorem Hart.live_tpend (h : Hart) (b : Nat) : (h.live b).tpend = h.tpend := rfl
@[simp] theorem Hart.live_tmask (h : Hart) (b : Nat) : (h.live b).tmask = h.tmask := rfl
@[simp] theorem Hart.live_tscr0 (h : Hart) (b : Nat) : (h.live b).tscr0 = h.tscr0 := rfl
@[simp] theorem Hart.live_tscr1 (h : Hart) (b : Nat) : (h.live b).tscr1 = h.tscr1 := rfl
@[simp] theorem Hart.live_waddr (h : Hart) (b : Nat) : (h.live b).waddr = h.waddr := rfl
@[simp] theorem Hart.live_pendAddr (h : Hart) (b : Nat) : (h.live b).pendAddr = h.pendAddr := rfl
@[simp] theorem Hart.live_stepArmed (h : Hart) (b : Nat) : (h.live b).stepArmed = h.stepArmed := rfl
@[simp] theorem Hart.live_watchHit (h : Hart) (b : Nat) : (h.live b).watchHit = h.watchHit := rfl
@[simp] theorem Hart.live_watchKept (h : Hart) (b : Nat) : (h.live b).watchKept = h.watchKept := rfl
@[simp] theorem Hart.live_task (h : Hart) (b : Nat) : (h.live b).task = h.task := rfl
@[simp] theorem Hart.live_mode (h : Hart) (b : Nat) : (h.live b).mode = h.mode := rfl
@[simp] theorem Hart.live_victim (h : Hart) (b : Nat) : (h.live b).victim = h.victim := rfl
@[simp] theorem Hart.live_cut (h : Hart) (b : Nat) : (h.live b).cut = h.cut := rfl
@[simp] theorem Hart.live_copies (h : Hart) (b : Nat) : (h.live b).copies = h.copies := rfl
@[simp] theorem Hart.live_boundSeq (h : Hart) (b : Nat) : (h.live b).boundSeq = h.boundSeq := rfl
@[simp] theorem Hart.live_response (h : Hart) (b : Nat) : (h.live b).response = h.response := rfl
@[simp] theorem Hart.live_parity (h : Hart) (b : Nat) : (h.live b).parity = h.parity := rfl
@[simp] theorem Hart.live_held (h : Hart) (b : Nat) : (h.live b).held = h.held := rfl
@[simp] theorem Hart.live_unfilled (h : Hart) (b : Nat) : (h.live b).unfilled = h.unfilled := rfl
@[simp] theorem Hart.live_fetched (h : Hart) (b : Nat) : (h.live b).fetched = h.fetched := rfl
@[simp] theorem Hart.live_stopSeq (h : Hart) (b : Nat) : (h.live b).stopSeq = h.stopSeq := rfl

/-! Registers. -/

@[simp] theorem Hart.gr_zero (h : Hart) : h.gr 0 = 0 := rfl
@[simp] theorem Hart.setG_zero (h : Hart) (x : Word) : h.setG 0 x = h := rfl
@[simp] theorem Hart.kr_zero (h : Hart) : h.kr 0 = BitVec.allOnes 256 := rfl
@[simp] theorem Hart.setK_zero (h : Hart) (x : BitVec 256) : h.setK 0 x = h := rfl
/-- A g register holds what was written to it; g0 stays 0. -/
theorem Hart.gr_setG (h : Hart) (n m : Nat) (x : Word) :
    (h.setG n x).gr m = if m = n ∧ n ≠ 0 then x else h.gr m := by
  unfold Hart.setG Hart.gr
  by_cases hn : n = 0
  · simp [hn]
  · by_cases hm : m = 0
    · have : ¬ 0 = n := fun e => hn e.symm
      simp [hm, this]
    · simp only [hn, hm, if_false, Table.get_set, ne_eq, not_false_eq_true, and_true]
/-- A k register holds what was written to it; k0 stays all ones. -/
theorem Hart.kr_setK (h : Hart) (n m : Nat) (x : BitVec 256) :
    (h.setK n x).kr m = if m = n ∧ n ≠ 0 then x else h.kr m := by
  unfold Hart.setK Hart.kr
  by_cases hn : n = 0
  · simp [hn]
  · by_cases hm : m = 0
    · have : ¬ 0 = n := fun e => hn e.symm
      simp [hm, this]
    · simp only [hn, hm, if_false, Table.get_set, ne_eq, not_false_eq_true, and_true]
@[simp] theorem Hart.vr_setG (h : Hart) (n : Nat) (x : Word) (r : Nat) : (h.setG n x).vr r = h.vr r := by simp [Hart.vr]
@[simp] theorem Hart.kr_setG (h : Hart) (n : Nat) (x : Word) (r : Nat) : (h.setG n x).kr r = h.kr r := by simp [Hart.kr]
@[simp] theorem Hart.gr_setK (h : Hart) (n : Nat) (x : BitVec 256) (r : Nat) : (h.setK n x).gr r = h.gr r := by simp [Hart.gr]

end Sys2Proof.Machine
end

