-- ==== Sys2Proof/Laws/Exec.lean ====
section
/-! SUPPORT. The shared operations of execution, once and for all: what `runCore`, `runReg`, a retirement and a stop give. -/
namespace Sys2Proof.Machine
open Sys2Proof

/-- Making a register dead leaves a field that is none of its own. -/
theorem Hart.kill_keeps {α : Type} (p : Hart → α) (hl : ∀ (h : Hart) x, p { h with livemask := x } = p h)
    (hv : ∀ (h : Hart) x, p { h with v := x } = p h) (hd : ∀ (h : Hart) x y, p { h with d := x, m := y } = p h)
    (ha : ∀ (h : Hart) x, p { h with acc := x } = p h) (h : Hart) (b : Nat) : p (h.kill b) = p h := by
  unfold Hart.kill
  simp only
  split
  · exact (hv { h with livemask := h.livemask &&& ~~~(BitVec.ofNat 64 (2 ^ b)) } _).trans (hl h _)
  · split
    · exact (hd { h with livemask := h.livemask &&& ~~~(BitVec.ofNat 64 (2 ^ b)) } _ _).trans (hl h _)
    · exact (ha { h with livemask := h.livemask &&& ~~~(BitVec.ofNat 64 (2 ^ b)) } _).trans (hl h _)

theorem foldl_keeps {α β γ : Type} (p : α → γ) (f : α → β → α) (hf : ∀ a b, p (f a b) = p a) (l : List β) (a : α) :
    p (l.foldl f a) = p a := by
  induction l generalizing a with
  | nil => rfl
  | cons b l ih => simp only [List.foldl_cons]; rw [ih, hf]

/-- Releasing marked sources leaves a field that is none of theirs. -/
theorem Hart.release_keeps {α : Type} (p : Hart → α) (hl : ∀ (h : Hart) x, p { h with livemask := x } = p h)
    (hv : ∀ (h : Hart) x, p { h with v := x } = p h) (hd : ∀ (h : Hart) x y, p { h with d := x, m := y } = p h)
    (ha : ∀ (h : Hart) x, p { h with acc := x } = p h) (h : Hart) (x : Ops) : p (h.release x) = p h := by
  unfold Hart.release
  refine foldl_keeps p _ (fun g o => ?_) _ _
  split
  · exact foldl_keeps p _ (fun g b => Hart.kill_keeps p hl hv hd ha g b) _ _
  · rfl

@[simp] theorem Hart.release_task (h : Hart) (x : Ops) : (h.release x).task = h.task :=
  Hart.release_keeps (fun h => h.task) (fun _ _ => rfl) (fun _ _ => rfl) (fun _ _ _ => rfl) (fun _ _ => rfl) h x
@[simp] theorem Hart.release_victim (h : Hart) (x : Ops) : (h.release x).victim = h.victim :=
  Hart.release_keeps (fun h => h.victim) (fun _ _ => rfl) (fun _ _ => rfl) (fun _ _ _ => rfl) (fun _ _ => rfl) h x
@[simp] theorem Hart.release_watchHit (h : Hart) (x : Ops) : (h.release x).watchHit = h.watchHit :=
  Hart.release_keeps (fun h => h.watchHit) (fun _ _ => rfl) (fun _ _ => rfl) (fun _ _ _ => rfl) (fun _ _ => rfl) h x
@[simp] theorem Hart.release_stepArmed (h : Hart) (x : Ops) : (h.release x).stepArmed = h.stepArmed :=
  Hart.release_keeps (fun h => h.stepArmed) (fun _ _ => rfl) (fun _ _ => rfl) (fun _ _ _ => rfl) (fun _ _ => rfl) h x
@[simp] theorem Hart.release_g (h : Hart) (x : Ops) : (h.release x).g = h.g :=
  Hart.release_keeps (fun h => h.g) (fun _ _ => rfl) (fun _ _ => rfl) (fun _ _ _ => rfl) (fun _ _ => rfl) h x
@[simp] theorem Hart.release_k (h : Hart) (x : Ops) : (h.release x).k = h.k :=
  Hart.release_keeps (fun h => h.k) (fun _ _ => rfl) (fun _ _ => rfl) (fun _ _ _ => rfl) (fun _ _ => rfl) h x
@[simp] theorem Hart.release_fflags (h : Hart) (x : Ops) : (h.release x).fflags = h.fflags :=
  Hart.release_keeps (fun h => h.fflags) (fun _ _ => rfl) (fun _ _ => rfl) (fun _ _ _ => rfl) (fun _ _ => rfl) h x

/-- The task of a hart that keeps its task. -/
theorem State.taskOf_setHart (s : State) (n : Nat) (h : Hart) (ht : h.task = (s.hart n).task) :
    (s.setHart n h).taskOf n = s.taskOf n := by
  simp [State.taskOf, ht]

theorem State.hasReport_setHart (s : State) (n : Nat) (h : Hart) (ht : h.task = (s.hart n).task) :
    (s.setHart n h).hasReport n = s.hasReport n := by
  simp [State.hasReport, State.taskOf_setHart s n h ht]

/-- A retirement with nothing after it. -/
theorem State.retire_calm {s : State} {n : Nat} {x : Ops} (hy : x.yield = false) (hv : (s.hart n).victim = false)
    (hr : s.hasReport n = false) (hs : (s.hart n).stepArmed = false) (hw : (s.hart n).watchHit = none) (f : Flags) (pc : Word) :
    s.retire n x f pc = s.setHart n ((s.hart n).goesOn x f pc) := by
  show State.boundary (s.setHart n ((s.hart n).goesOn x f pc)) n x.yield (((s.hart n).addFlags f).release x).stepArmed = _
  have h1 : ((s.hart n).goesOn x f pc).watchHit = none := by simp [Hart.goesOn, hw]
  have h2 : ((s.hart n).goesOn x f pc).victim = false := by simp [Hart.goesOn, hv]
  have h3 : (((s.hart n).addFlags f).release x).stepArmed = false := by simp [hs]
  unfold State.boundary
  simp only [State.hart_setHart_self, h1, h2, h3, hy]
  rw [State.hasReport_setHart _ _ _ (by simp [Hart.goesOn]), hr]
  simp

/-- Beginning an instruction with nothing in its way (R79, R52, R61, R67). -/
theorem runCore_begins {d : Desc} {x : Ops} {s : State} {n : Nat} {whole : Bool} {long : Option (Hart → Nat)}
    {body : Nat → Hart → Done} (hb : s.Begins n d x) (hg : whole = true → (s.hart n).guardOn x = true) :
    runCore d x s whole long body = .next (State.conclude (d.ctor x) n x (body n (s.hart n))) := by
  obtain ⟨ht, hk, hl, htile, hu, hp, -⟩ := hb
  have hsys : (isSys n && !d.sys) = false := by
    cases h1 : isSys n <;> simp_all
  have hlev : (decide (opGroup d.op = 0x0D) && !isSys n) = false := by
    by_cases h1 : opGroup d.op = 0x0D
    · simp [hl h1]
    · simp [h1]
  have hwg : (whole && !(s.hart n).guardOn x) = false := by
    cases whole <;> simp_all
  have hr : (s.hart n).badRestart long = false := by simp [Hart.badRestart, hu]
  unfold runCore
  simp only [ht, hr, hsys, hlev, htile, hp, hwg]
  simp

/-- A register-only instruction with nothing in its way and nothing after it. -/
theorem runReg_ok {d : Desc} {x : Ops} {s : State} {n : Nat} {whole : Bool} {long : Option (Hart → Nat)}
    {body : Hart → RegDone} {h' : Hart} {f : Flags} (hb : s.Begins n d x) (hg : whole = true → (s.hart n).guardOn x = true)
    (hc : s.Calm n x) (he : body (s.hart n) = .ok h' f)
    (hk : h'.task = (s.hart n).task ∧ h'.victim = (s.hart n).victim ∧ h'.stepArmed = (s.hart n).stepArmed ∧
      h'.watchHit = (s.hart n).watchHit ∧ h'.pc = (s.hart n).pc) :
    ∃ t, runReg d x s whole long body = .next t ∧ s.Turns t n (h'.goesOn x f ((s.hart n).pc + 12)) := by
  obtain ⟨k1, k2, k3, k4, k5⟩ := hk
  unfold runReg
  rw [runCore_begins hb hg]
  simp only [he, RegDone.on, State.conclude]
  obtain ⟨c1, c2, c3, c4, c5, -, -⟩ := hc
  rw [State.retire_calm c1 (by simp [k2, c2]) (by rw [State.hasReport_setHart _ _ _ k1]; exact c3)
    (by simp [k3, c4]) (by simp [k4, c5])]
  refine ⟨_, rfl, ?_, ?_, rfl⟩
  · simp [k5]
  · intro m hm
    simp [State.hart_setHart_ne _ hm]

/-- A register-only instruction that stops (R390): the stop of its registers, with nothing retired. -/
theorem runReg_stop {d : Desc} {x : Ops} {s : State} {n : Nat} {whole : Bool} {long : Option (Hart → Nat)}
    {body : Hart → RegDone} {h' : Hart} {e : Stop} (hb : s.Begins n d x) (hg : whole = true → (s.hart n).guardOn x = true)
    (he : body (s.hart n) = .stop h' e) :
    runReg d x s whole long body = .next ((s.setHart n h').stopHart n e) := by
  unfold runReg
  rw [runCore_begins hb hg]
  simp only [he, RegDone.on, State.conclude]

/-- Without enabled flags a floating-point result is written (R54). -/
theorem Hart.fpDone_noTraps {h h' : Hart} {f : Flags} (hn : h.NoTraps) : h.fpDone h' f = .ok h' f := by
  unfold Hart.fpDone Hart.fpTraps
  simp [hn]

/-- An instruction always answers a next state: `runCore` stops by traps, never by a fault (R79, R390). -/
theorem runCore_next (d : Desc) (x : Ops) (s : State) (whole : Bool) (long : Option (Hart → Nat)) (body : Nat → Hart → Done) :
    ∃ t, runCore d x s whole long body = .next t := by
  unfold runCore
  split
  · exact ⟨_, rfl⟩
  · simp only
    repeat' split
    all_goals exact ⟨_, rfl⟩

/-- A stop of a task (R390, R391): the stop registers are set and its image goes back; nothing else changes. -/
theorem State.stopHart_task {s : State} {n : Nat} (hn : isSys n = false) (e : Stop) :
    ∃ h, s.stopHart n e = s.setHart n h ∧ h.cause = causeOf e.cause (h.estart ≠ 0) ∧ h.faddr = faddrOf e.faddr ∧
      h.finfo = finfoOf e.kind e.port e.field ∧ h.epc = (s.hart n).pc ∧ h.pc = (s.hart n).pc ∧ h.mode = .saving .stop := by
  unfold State.stopHart
  simp only [hn]
  exact ⟨_, rfl, rfl, rfl, rfl, rfl, rfl, rfl⟩

end Sys2Proof.Machine
end

