-- ==== Sys2Proof/Laws/Memory.lean ====
section
/-! SUPPORT. The operations over memory, once and for all: what they read back, and that they keep the canonical form. -/
namespace Sys2Proof.Machine
open Sys2Proof

theorem State.putByte_memWf {s : State} (h : s.MemWf) (a : Nat) (x : Byte) : (s.putByte a x).MemWf := Table.wf_set _ _ h

/-- The canonical form is a fact about `mem` alone. -/
theorem State.MemWf.of {s t : State} (h : s.MemWf) (e : t.mem = s.mem) : t.MemWf := by
  unfold State.MemWf; rw [e]; exact h

theorem foldl_inv {α β : Type} {P : α → Prop} (f : α → β → α) (hf : ∀ a b, P a → P (f a b)) (l : List β) (a : α) (h : P a) :
    P (l.foldl f a) := by
  induction l generalizing a with
  | nil => exact h
  | cons b l ih => exact ih _ (hf _ _ h)

theorem State.putBytes_memWf {s : State} (h : s.MemWf) (a : Nat) (bs : List Byte) : (s.putBytes a bs).MemWf := by
  unfold State.putBytes
  exact foldl_inv (P := State.MemWf) _ (fun s p hs => State.putByte_memWf hs _ _) _ _ h

theorem State.putNat_memWf {s : State} (h : s.MemWf) (a n x : Nat) : (s.putNat a n x).MemWf := State.putBytes_memWf h _ _

theorem State.putRange_memWf {s : State} (h : s.MemWf) (a : Nat) (bs : List Byte) : (s.putRange a bs).MemWf :=
  Table.wf_splice_ofList h

theorem State.setErr_memWf {s : State} (h : s.MemWf) (a : Nat) (e : ErrMark) : (s.setErr a e).MemWf := h.of rfl
theorem State.setSector_memWf {s : State} (h : s.MemWf) (a : Nat) (e : Option Sector) : (s.setSector a e).MemWf := h.of rfl
theorem State.setHart_memWf {s : State} (h : s.MemWf) (n : Nat) (e : Hart) : (s.setHart n e).MemWf := h.of rfl
theorem State.setTask_memWf {s : State} (h : s.MemWf) (n : Nat) (e : Option Task) : (s.setTask n e).MemWf := h.of rfl
theorem State.readCycles_memWf {s : State} (h : s.MemWf) (p : Nat) : (s.readCycles p).1.MemWf := h.of rfl

theorem State.writeBack_memWf {s : State} (h : s.MemWf) (a : Nat) (x : Sector) : (s.writeBack a x).MemWf := by
  unfold State.writeBack
  split
  · exact State.setErr_memWf (State.putNat_memWf h _ _ _) _ _
  · exact State.putNat_memWf h _ _ _

theorem State.putWord_memWf {s : State} (h : s.MemWf) (a x : Nat) : (s.putWord a x).MemWf :=
  State.setErr_memWf (State.putNat_memWf h _ _ _) _ _

theorem State.logError_memWf {s : State} (h : s.MemWf) (a k : Nat) (who : LogAgent) : (s.logError a k who).MemWf := by
  unfold State.logError
  dsimp only
  split
  · exact State.readCycles_memWf h _
  · refine State.putWord_memWf ?_ _ _
    refine State.putWord_memWf ?_ _ _
    refine State.putWord_memWf ?_ _ _
    refine State.putWord_memWf ?_ _ _
    exact State.putWord_memWf (State.readCycles_memWf h _) _ _

/-- A word of the SRAM tier changed in place keeps the form where its log does. -/
theorem State.changeWord_memWf {s : State} (h : s.MemWf) (a : Nat) (f : Nat → Nat) (log : State → State) (hl : (log s).MemWf) :
    (s.changeWord a f log).MemWf := by
  unfold State.changeWord
  refine State.setErr_memWf (State.putNat_memWf ?_ _ _ _) _ _
  split
  · exact hl
  · exact h

theorem State.loseSector_memWf {s : State} (h : s.MemWf) (a : Nat) (who : LogAgent) : (s.loseSector a who).MemWf := by
  unfold State.loseSector
  repeat' split
  all_goals first
    | exact h
    | exact State.logError_memWf (State.setSector_memWf (State.writeBack_memWf h _ _) _ _) _ _ _

theorem State.readUnit_memWf {s : State} (h : s.MemWf) (a c : Nat) (who : LogAgent) : (s.readUnit a c who).1.MemWf := by
  unfold State.readUnit
  dsimp only
  have h1 : ∀ k, (s.logError a k who).MemWf := fun k => State.logError_memWf h _ _ _
  have h2 : ∀ k, ((s.setSector a none).logError a k who).MemWf := fun k => State.logError_memWf (State.setSector_memWf h _ _) _ _ _
  split
  · exact h.of rfl
  · split
    · split
      · exact State.loseSector_memWf h _ _
      · split
        · repeat' split
          all_goals first | with_reducible exact h2 _ | exact h.of rfl
        · split <;> exact h.of rfl
    · repeat' split
      all_goals first | with_reducible exact h1 _ | exact h.of rfl

theorem State.writeUnit_memWf {s : State} (h : s.MemWf) (a : Nat) (d : List Byte) (hint c : Nat) (p : Bool) (who : LogAgent) :
    (s.writeUnit a d hint c p who).MemWf := by
  have h0 : (if d.length = unitSize a then s else s.loseSector a who).MemWf := by
    split
    · exact h
    · exact State.loseSector_memWf h _ _
  unfold State.writeUnit
  simp only
  generalize (if d.length = unitSize a then s else s.loseSector a who) = u at h0 ⊢
  split
  · split
    · exact State.setSector_memWf h0 _ _
    · have hl : ∀ (b c : Bool) k e, (if b = true then u.logError a k who else if c = true then u.setErr a e else u).MemWf := by
        intro b c k e; repeat' split
        · exact State.logError_memWf h0 _ _ _
        · exact State.setErr_memWf h0 _ _
        · exact h0
      split
      · exact State.writeBack_memWf (hl _ _ _ _) _ _
      · exact State.setSector_memWf (hl _ _ _ _) _ _
  · refine State.setErr_memWf (State.putNat_memWf ?_ _ _ _) _ _
    split
    · exact State.logError_memWf h0 _ _ _
    · exact h0

theorem State.foldHost_memWf {s : State} (h : s.MemWf) : s.foldHost.MemWf := by
  unfold State.foldHost
  have : ∀ (ws : List HostWr) (s : State) acc, s.MemWf → (State.foldHost.go ws s acc).MemWf := by
    intro ws
    induction ws with
    | nil => intro s acc h; exact h.of rfl
    | cons w ws ih =>
      intro s acc h
      unfold State.foldHost.go
      split
      · exact ih _ _ (State.putBytes_memWf h _ _)
      · exact ih _ _ h
  exact this _ _ _ h

theorem State.hostAt_memWf {s : State} (h : s.MemWf) (want : HostWr → List Nat) : (s.hostAt want).MemWf :=
  State.foldHost_memWf (s := { s with hostWrites := _ }) (h.of rfl)

theorem State.forceHost_memWf {s : State} (h : s.MemWf) (p : HostWr → Bool) : (s.forceHost p).MemWf := State.hostAt_memWf h _

theorem State.addHost_memWf {s : State} (h : s.MemWf) (w : HostWr) : (s.addHost w).MemWf := by
  unfold State.addHost
  exact State.hostAt_memWf (s := { s with hostWrites := s.hostWrites ++ [w] }) (h.of rfl) _

theorem State.agentWrite_memWf {s : State} (h : s.MemWf) (who : Option Nat) (a : Nat) (d : List Byte) (hint c : Nat) (p : Bool)
    (l : LogAgent) : (s.agentWrite who a d hint c p l).MemWf := by
  unfold State.agentWrite
  simp only
  split
  · exact h
  · split
    · exact State.putByte_memWf (State.writeUnit_memWf h _ _ _ _ _ _) _ _
    · exact State.writeUnit_memWf h _ _ _ _ _ _

theorem State.performStore_memWf {s : State} (h : s.MemWf) (p : Pending) : (s.performStore p).MemWf := by
  unfold State.performStore
  simp only
  split
  · exact State.addHost_memWf h _
  · split
    · exact State.writeUnit_memWf h _ _ _ _ _ _
    · split
      · exact State.agentWrite_memWf h _ _ _ _ _ _ _
      · split
        · exact State.setSector_memWf h _ _
        · exact State.putBytes_memWf h _ _

theorem State.drain_memWf {s : State} (h : s.MemWf) (n : Nat) (p : Pending → Bool) : (s.drain n p).MemWf := by
  unfold State.drain
  simp only
  exact foldl_inv (P := State.MemWf) State.performStore (fun s b hs => State.performStore_memWf hs b) _ _ h

theorem State.release_memWf {s : State} (h : s.MemWf) (n c : Nat) : (s.release n c).MemWf := by
  unfold State.release
  split
  · exact h.of rfl
  · simp only
    split
    · exact State.forceHost_memWf (State.drain_memWf h _ _) _
    · exact State.drain_memWf h _ _

theorem State.fillSector_memWf {s : State} (h : s.MemWf) (a k c : Nat) : (s.fillSector a k c).MemWf := by
  unfold State.fillSector
  split <;> exact h.of rfl

theorem State.noteHost_memWf {s : State} (h : s.MemWf) (n a k : Nat) : (s.noteHost n a k).MemWf := by
  unfold State.noteHost
  split <;> exact h.of rfl

theorem State.watch_memWf {s : State} (h : s.MemWf) (n : Nat) (k : Acc) (a l : Nat) : (s.watch n k a l).MemWf := by
  unfold State.watch
  simp only
  repeat' split
  all_goals exact h.of rfl

theorem State.remember_memWf {s : State} (h : s.MemWf) (a p v l : Nat) (who : LogAgent) : (s.remember a p v l who).MemWf := by
  unfold State.remember
  exact (foldl_inv (P := State.MemWf) _ (fun s b hs => State.readUnit_memWf hs _ _ _) _ _ h).of rfl

theorem State.noteWalks_memWf {s : State} (h : s.MemWf) (n v l : Nat) : (s.noteWalks n v l).MemWf := by
  unfold State.noteWalks
  split
  · exact h
  · exact State.remember_memWf h _ _ _ _ _

theorem State.settle_memWf {s : State} (h : s.MemWf) (n a : Nat) : (s.settle n a).MemWf := by
  unfold State.settle
  split
  · exact State.drain_memWf h _ _
  · exact h

theorem State.takeResponse_memWf {s : State} (h : s.MemWf) (n a : Nat) : (s.takeResponse n a).1.MemWf := by
  unfold State.takeResponse
  simp only
  repeat' split
  all_goals exact h.of rfl

theorem State.readPiece_memWf {s : State} (h : s.MemWf) (n : Nat) (p : Piece) : (s.readPiece n p).1.MemWf := by
  unfold State.readPiece
  split
  · exact h.of rfl
  · split
    · next heq => have := State.takeResponse_memWf h n p.addr; rw [heq] at this; exact this
    · next heq =>
      have h1 := State.takeResponse_memWf h n p.addr
      rw [heq] at h1
      refine foldl_inv (P := fun r : State × Option (Cause × Nat) => r.1.MemWf) _ (fun r i hr => ?_) _ _ h1
      split
      · exact hr
      · split
        · next h2 => exact (congrArg (fun q => q.1.MemWf) h2).mp (State.readUnit_memWf (State.settle_memWf hr _ _) _ _ _)
        · next h2 => exact (congrArg (fun q => q.1.MemWf) h2).mp (State.readUnit_memWf (State.settle_memWf hr _ _) _ _ _)

theorem State.readPieces_memWf {s : State} (h : s.MemWf) (n va : Nat) (ps : List Piece) : (s.readPieces n va ps).1.MemWf := by
  induction ps generalizing s va with
  | nil => exact h.of rfl
  | cons p ps ih =>
    unfold State.readPieces
    have h1 := State.readPiece_memWf h n p
    split
    · next heq => rw [heq] at h1; exact h1
    · next heq => rw [heq] at h1; exact ih h1 _

theorem State.load_memWf {s : State} (h : s.MemWf) (n va len : Nat) (k : Acc) (hint : Nat) : (s.load n va len k hint).1.MemWf := by
  unfold State.load
  split
  · exact State.noteWalks_memWf h _ _ _
  · have h1 := fun ps => State.readPieces_memWf (State.noteWalks_memWf h n va len) n va ps
    split
    · next heq => have := h1 ‹_›; rw [heq] at this; exact this
    · next heq =>
      have := h1 ‹_›
      rw [heq] at this
      simp only
      have h3 : ∀ (ps : List Piece) (s : State), s.MemWf → (ps.foldl (fun s p =>
          (splitUnits p.addr (List.replicate p.len 0)).foldl (fun s u => s.fillSector u.1 hint p.pclass) ((s.noteHost n p.addr p.len).watch n k p.addr p.len)) s).MemWf := by
        intro ps s hs
        refine foldl_inv (P := State.MemWf) _ (fun s p hs => ?_) _ _ hs
        exact foldl_inv (P := State.MemWf) _ (fun s u hs => State.fillSector_memWf hs _ _ _) _ _
          (State.watch_memWf (State.noteHost_memWf hs _ _ _) _ _ _ _)
      exact h3 _ _ this

theorem State.deliver_memWf {s : State} (h : s.MemWf) (u p : Nat) (w : Word) : (s.deliver u p w).MemWf := by
  unfold State.deliver
  repeat' split
  all_goals first
    | exact h
    | with_reducible exact State.setHart_memWf h _ _
    | exact State.changeWord_memWf (State.putRange_memWf h _ _) _ _ _ (State.logError_memWf (State.putRange_memWf h _ _) _ _ _)

theorem State.setPeg_memWf {s : State} (h : s.MemWf) (n p : Nat) (r : PegRec) : (s.setPeg n p r).MemWf := by
  unfold State.setPeg
  simp only
  split
  · exact h.of rfl
  · split
    · exact State.putRange_memWf (State.setHart_memWf h _ _) _ _
    · exact h.of rfl

theorem State.raiseAsync_memWf {s : State} (h : s.MemWf) (n : Nat) (c : Cause) (a : Word) : (s.raiseAsync n c a).MemWf := h.of rfl

theorem State.doubleTrap_memWf {s : State} (h : s.MemWf) (n : Nat) (a b c d : Word) : (s.doubleTrap n a b c d).MemWf := by
  unfold State.doubleTrap
  dsimp only
  refine State.raiseAsync_memWf (State.setHart_memWf ?_ _ _) _ _ _
  split
  · exact h
  · exact State.putRange_memWf h _ _

theorem State.syncTrap_memWf {s : State} (h : s.MemWf) (n : Nat) (a b c d : Word) : (s.syncTrap n a b c d).MemWf := by
  unfold State.syncTrap
  dsimp only
  split
  · exact State.doubleTrap_memWf h _ _ _ _ _
  · exact State.setHart_memWf h _ _

theorem State.stopHart_memWf {s : State} (h : s.MemWf) (n : Nat) (e : Stop) : (s.stopHart n e).MemWf := by
  unfold State.stopHart
  dsimp only
  split
  · exact State.syncTrap_memWf (State.setHart_memWf h _ _) _ _ _ _ _
  · exact State.setHart_memWf h _ _

theorem State.refuse_memWf {s : State} (h : s.MemWf) (n : Nat) (e : Stop) : (s.refuse n e).MemWf := by
  unfold State.refuse
  split
  · exact State.stopHart_memWf h _ _
  · exact State.stopHart_memWf (State.setHart_memWf h _ _) _ _

theorem State.takeAsync_memWf {s : State} (h : s.MemWf) (n : Nat) : (s.takeAsync n).MemWf := by
  unfold State.takeAsync
  dsimp only
  split
  · exact h
  · exact State.setHart_memWf h _ _

theorem State.reportStop_memWf {s : State} (h : s.MemWf) (n : Nat) : (s.reportStop n).MemWf := by
  unfold State.reportStop
  split
  · split
    · exact State.setHart_memWf (State.stopHart_memWf (State.setTask_memWf h _ _) _ _) _ _
    · exact h
  · exact h

theorem State.boundary_memWf {s : State} (h : s.MemWf) (n : Nat) (a b : Bool) : (s.boundary n a b).MemWf := by
  unfold State.boundary
  dsimp only
  split
  · split
    · exact State.syncTrap_memWf (State.setHart_memWf h _ _) _ _ _ _ _
    · split
      · exact State.syncTrap_memWf (State.setHart_memWf h _ _) _ _ _ _ _
      · exact h
  · repeat' split
    · exact h
    · exact State.reportStop_memWf h _
    · exact State.setHart_memWf h _ _
    · exact State.setHart_memWf h _ _
    · exact h

theorem State.retire_memWf {s : State} (h : s.MemWf) (n : Nat) (x : Ops) (f : Flags) (pc : Word) : (s.retire n x f pc).MemWf :=
  State.boundary_memWf (State.setHart_memWf h _ _) _ _ _

/-- The state inside what a meaning gives. -/
def Done.state : Done → State
  | .retire s _ | .jump s _ | .stop s _ | .cut s _ | .wait s _ _ | .final s => s

theorem State.conclude_memWf {i : Instr} {n : Nat} {x : Ops} {d : Done} (h : d.state.MemWf) : (State.conclude i n x d).MemWf := by
  cases d with
  | retire s f => exact State.retire_memWf h _ _ _ _
  | jump s t => exact State.retire_memWf h _ _ _ _
  | stop s e => exact State.stopHart_memWf h _ _
  | cut s b =>
    simp only [State.conclude]
    split
    · exact State.stopHart_memWf h _ _
    · split
      · exact State.takeAsync_memWf (State.setHart_memWf h _ _) _
      · exact h.of rfl
  | wait s w k =>
    simp only [State.conclude]
    split <;> exact h.of rfl
  | final s => exact h.of rfl

/-- An instruction keeps the canonical form of memory where its meaning does. -/
theorem runCore_memWf {d : Desc} {x : Ops} {s t : State} {whole : Bool} {long : Option (Hart → Nat)} {body : Nat → Hart → Done}
    (hs : s.MemWf) (hb : ∀ n h, (body n h).state.MemWf) (ht : runCore d x s whole long body = .next t) : t.MemWf := by
  unfold runCore at ht
  split at ht
  · cases ht; exact hs
  · simp only at ht
    repeat' split at ht
    all_goals cases ht
    all_goals first
      | exact State.stopHart_memWf hs _ _
      | exact State.refuse_memWf hs _ _
      | exact State.conclude_memWf hs
      | exact State.conclude_memWf (hb _ _)

end Sys2Proof.Machine
end

