-- ==== Sys2Proof/Laws/PerInstr.lean ====
section
/-! SUPPORT. One lemma per constructor of `Instr` about the instruction as syntax: its description is the row of the
table that its constructor names, and an instruction has at most one description. -/
namespace Sys2Proof.Laws.Row
open Sys2Proof

/-- The description of an instruction is a row of the table, and that row's constructor on the same fields gives the
instruction back. -/
def Statement (i : Instr) : Prop := ∀ p, i.parts = some p → p.1.ctor p.2 = i ∧ p.1 ∈ descs

theorem mem0 (n : Nat) {d : Desc} (h : descs0[n]? = some d) : d ∈ descs :=
  List.mem_append_left _ (List.mem_append_left _ (List.mem_append_left _ (List.mem_append_left _ (List.mem_append_left _ (List.mem_append_left _ (List.mem_of_getElem? h))))))

theorem mem1 (n : Nat) {d : Desc} (h : descs1[n]? = some d) : d ∈ descs :=
  List.mem_append_left _ (List.mem_append_left _ (List.mem_append_left _ (List.mem_append_left _ (List.mem_append_left _ (List.mem_append_right _ (List.mem_of_getElem? h))))))

theorem mem2 (n : Nat) {d : Desc} (h : descs2[n]? = some d) : d ∈ descs :=
  List.mem_append_left _ (List.mem_append_left _ (List.mem_append_left _ (List.mem_append_left _ (List.mem_append_right _ (List.mem_of_getElem? h)))))

theorem mem3 (n : Nat) {d : Desc} (h : descs3[n]? = some d) : d ∈ descs :=
  List.mem_append_left _ (List.mem_append_left _ (List.mem_append_left _ (List.mem_append_right _ (List.mem_of_getElem? h))))

theorem mem4 (n : Nat) {d : Desc} (h : descs4[n]? = some d) : d ∈ descs :=
  List.mem_append_left _ (List.mem_append_left _ (List.mem_append_right _ (List.mem_of_getElem? h)))

theorem mem5 (n : Nat) {d : Desc} (h : descs5[n]? = some d) : d ∈ descs :=
  List.mem_append_left _ (List.mem_append_right _ (List.mem_of_getElem? h))

theorem mem6 (n : Nat) {d : Desc} (h : descs6[n]? = some d) : d ∈ descs :=
  List.mem_append_right _ (List.mem_of_getElem? h)

theorem add (x : Ops) : Statement (.add x) := by
  rintro _ ⟨⟩; exact ⟨rfl, mem0 0 rfl⟩
theorem sub (x : Ops) : Statement (.sub x) := by
  rintro _ ⟨⟩; exact ⟨rfl, mem0 1 rfl⟩
theorem mul (x : Ops) : Statement (.mul x) := by
  rintro _ ⟨⟩; exact ⟨rfl, mem0 2 rfl⟩
theorem mulh (x : Ops) : Statement (.mulh x) := by
  rintro _ ⟨⟩; exact ⟨rfl, mem0 3 rfl⟩
theorem mulhu (x : Ops) : Statement (.mulhu x) := by
  rintro _ ⟨⟩; exact ⟨rfl, mem0 4 rfl⟩
theorem div (x : Ops) : Statement (.div x) := by
  rintro _ ⟨⟩; exact ⟨rfl, mem0 5 rfl⟩
theorem divu (x : Ops) : Statement (.divu x) := by
  rintro _ ⟨⟩; exact ⟨rfl, mem0 6 rfl⟩
theorem rem (x : Ops) : Statement (.rem x) := by
  rintro _ ⟨⟩; exact ⟨rfl, mem0 7 rfl⟩
theorem remu (x : Ops) : Statement (.remu x) := by
  rintro _ ⟨⟩; exact ⟨rfl, mem0 8 rfl⟩
theorem and (x : Ops) : Statement (.and x) := by
  rintro _ ⟨⟩; exact ⟨rfl, mem0 9 rfl⟩
theorem or (x : Ops) : Statement (.or x) := by
  rintro _ ⟨⟩; exact ⟨rfl, mem0 10 rfl⟩
theorem xor (x : Ops) : Statement (.xor x) := by
  rintro _ ⟨⟩; exact ⟨rfl, mem0 11 rfl⟩
theorem andn (x : Ops) : Statement (.andn x) := by
  rintro _ ⟨⟩; exact ⟨rfl, mem0 12 rfl⟩
theorem shl (x : Ops) : Statement (.shl x) := by
  rintro _ ⟨⟩; exact ⟨rfl, mem0 13 rfl⟩
theorem shr (x : Ops) : Statement (.shr x) := by
  rintro _ ⟨⟩; exact ⟨rfl, mem0 14 rfl⟩
theorem sra (x : Ops) : Statement (.sra x) := by
  rintro _ ⟨⟩; exact ⟨rfl, mem0 15 rfl⟩
theorem rol (x : Ops) : Statement (.rol x) := by
  rintro _ ⟨⟩; exact ⟨rfl, mem0 16 rfl⟩
theorem clz (x : Ops) : Statement (.clz x) := by
  rintro _ ⟨⟩; exact ⟨rfl, mem0 17 rfl⟩
theorem ctz (x : Ops) : Statement (.ctz x) := by
  rintro _ ⟨⟩; exact ⟨rfl, mem0 18 rfl⟩
theorem popc (x : Ops) : Statement (.popc x) := by
  rintro _ ⟨⟩; exact ⟨rfl, mem0 19 rfl⟩
theorem min (x : Ops) : Statement (.min x) := by
  rintro _ ⟨⟩; exact ⟨rfl, mem0 20 rfl⟩
theorem max (x : Ops) : Statement (.max x) := by
  rintro _ ⟨⟩; exact ⟨rfl, mem0 21 rfl⟩
theorem minu (x : Ops) : Statement (.minu x) := by
  rintro _ ⟨⟩; exact ⟨rfl, mem0 22 rfl⟩
theorem maxu (x : Ops) : Statement (.maxu x) := by
  rintro _ ⟨⟩; exact ⟨rfl, mem0 23 rfl⟩
theorem slt (x : Ops) : Statement (.slt x) := by
  rintro _ ⟨⟩; exact ⟨rfl, mem0 24 rfl⟩
theorem sltu (x : Ops) : Statement (.sltu x) := by
  rintro _ ⟨⟩; exact ⟨rfl, mem0 25 rfl⟩
theorem seq (x : Ops) : Statement (.seq x) := by
  rintro _ ⟨⟩; exact ⟨rfl, mem0 26 rfl⟩
theorem sel (x : Ops) : Statement (.sel x) := by
  rintro _ ⟨⟩; exact ⟨rfl, mem0 27 rfl⟩
theorem mov (x : Ops) : Statement (.mov x) := by
  rintro _ ⟨⟩; exact ⟨rfl, mem0 28 rfl⟩
theorem li (x : Ops) : Statement (.li x) := by
  rintro _ ⟨⟩; exact ⟨rfl, mem0 29 rfl⟩
theorem lih (x : Ops) : Statement (.lih x) := by
  rintro _ ⟨⟩; exact ⟨rfl, mem0 30 rfl⟩
theorem sext (x : Ops) : Statement (.sext x) := by
  rintro _ ⟨⟩; exact ⟨rfl, mem0 31 rfl⟩
theorem zext (x : Ops) : Statement (.zext x) := by
  rintro _ ⟨⟩; exact ⟨rfl, mem0 32 rfl⟩
theorem lea (x : Ops) : Statement (.lea x) := by
  rintro _ ⟨⟩; exact ⟨rfl, mem0 33 rfl⟩
theorem leaPc (x : Ops) : Statement (.leaPc x) := by
  rintro _ ⟨⟩; exact ⟨rfl, mem0 34 rfl⟩
theorem fadd (x : Ops) : Statement (.fadd x) := by
  rintro _ ⟨⟩; exact ⟨rfl, mem0 35 rfl⟩
theorem fsub (x : Ops) : Statement (.fsub x) := by
  rintro _ ⟨⟩; exact ⟨rfl, mem0 36 rfl⟩
theorem fmul (x : Ops) : Statement (.fmul x) := by
  rintro _ ⟨⟩; exact ⟨rfl, mem0 37 rfl⟩
theorem fma (x : Ops) : Statement (.fma x) := by
  rintro _ ⟨⟩; exact ⟨rfl, mem0 38 rfl⟩
theorem fdiv (x : Ops) : Statement (.fdiv x) := by
  rintro _ ⟨⟩; exact ⟨rfl, mem0 39 rfl⟩
theorem fsqrt (x : Ops) : Statement (.fsqrt x) := by
  rintro _ ⟨⟩; exact ⟨rfl, mem1 0 rfl⟩
theorem fmin (x : Ops) : Statement (.fmin x) := by
  rintro _ ⟨⟩; exact ⟨rfl, mem1 1 rfl⟩
theorem fmax (x : Ops) : Statement (.fmax x) := by
  rintro _ ⟨⟩; exact ⟨rfl, mem1 2 rfl⟩
theorem fcvt (x : Ops) : Statement (.fcvt x) := by
  rintro _ ⟨⟩; exact ⟨rfl, mem1 3 rfl⟩
theorem fcmp (x : Ops) : Statement (.fcmp x) := by
  rintro _ ⟨⟩; exact ⟨rfl, mem1 4 rfl⟩
theorem fclass (x : Ops) : Statement (.fclass x) := by
  rintro _ ⟨⟩; exact ⟨rfl, mem1 5 rfl⟩
theorem vadd (x : Ops) : Statement (.vadd x) := by
  rintro _ ⟨⟩; exact ⟨rfl, mem1 6 rfl⟩
theorem vsub (x : Ops) : Statement (.vsub x) := by
  rintro _ ⟨⟩; exact ⟨rfl, mem1 7 rfl⟩
theorem vmul (x : Ops) : Statement (.vmul x) := by
  rintro _ ⟨⟩; exact ⟨rfl, mem1 8 rfl⟩
theorem vmulh (x : Ops) : Statement (.vmulh x) := by
  rintro _ ⟨⟩; exact ⟨rfl, mem1 9 rfl⟩
theorem vfma (x : Ops) : Statement (.vfma x) := by
  rintro _ ⟨⟩; exact ⟨rfl, mem1 10 rfl⟩
theorem vdiv (x : Ops) : Statement (.vdiv x) := by
  rintro _ ⟨⟩; exact ⟨rfl, mem1 11 rfl⟩
theorem vsqrt (x : Ops) : Statement (.vsqrt x) := by
  rintro _ ⟨⟩; exact ⟨rfl, mem1 12 rfl⟩
theorem vmin (x : Ops) : Statement (.vmin x) := by
  rintro _ ⟨⟩; exact ⟨rfl, mem1 13 rfl⟩
theorem vmax (x : Ops) : Statement (.vmax x) := by
  rintro _ ⟨⟩; exact ⟨rfl, mem1 14 rfl⟩
theorem vabs (x : Ops) : Statement (.vabs x) := by
  rintro _ ⟨⟩; exact ⟨rfl, mem1 15 rfl⟩
theorem vand (x : Ops) : Statement (.vand x) := by
  rintro _ ⟨⟩; exact ⟨rfl, mem1 16 rfl⟩
theorem vor (x : Ops) : Statement (.vor x) := by
  rintro _ ⟨⟩; exact ⟨rfl, mem1 17 rfl⟩
theorem vxor (x : Ops) : Statement (.vxor x) := by
  rintro _ ⟨⟩; exact ⟨rfl, mem1 18 rfl⟩
theorem vandn (x : Ops) : Statement (.vandn x) := by
  rintro _ ⟨⟩; exact ⟨rfl, mem1 19 rfl⟩
theorem vshl (x : Ops) : Statement (.vshl x) := by
  rintro _ ⟨⟩; exact ⟨rfl, mem1 20 rfl⟩
theorem vshr (x : Ops) : Statement (.vshr x) := by
  rintro _ ⟨⟩; exact ⟨rfl, mem1 21 rfl⟩
theorem vsra (x : Ops) : Statement (.vsra x) := by
  rintro _ ⟨⟩; exact ⟨rfl, mem1 22 rfl⟩
theorem vcmpeq (x : Ops) : Statement (.vcmpeq x) := by
  rintro _ ⟨⟩; exact ⟨rfl, mem1 23 rfl⟩
theorem vcmpne (x : Ops) : Statement (.vcmpne x) := by
  rintro _ ⟨⟩; exact ⟨rfl, mem1 24 rfl⟩
theorem vcmplt (x : Ops) : Statement (.vcmplt x) := by
  rintro _ ⟨⟩; exact ⟨rfl, mem1 25 rfl⟩
theorem vcmple (x : Ops) : Statement (.vcmple x) := by
  rintro _ ⟨⟩; exact ⟨rfl, mem1 26 rfl⟩
theorem vsel (x : Ops) : Statement (.vsel x) := by
  rintro _ ⟨⟩; exact ⟨rfl, mem1 27 rfl⟩
theorem vmov (x : Ops) : Statement (.vmov x) := by
  rintro _ ⟨⟩; exact ⟨rfl, mem1 28 rfl⟩
theorem vdot (x : Ops) : Statement (.vdot x) := by
  rintro _ ⟨⟩; exact ⟨rfl, mem1 29 rfl⟩
theorem vcvt (x : Ops) : Statement (.vcvt x) := by
  rintro _ ⟨⟩; exact ⟨rfl, mem1 30 rfl⟩
theorem vbscl (x : Ops) : Statement (.vbscl x) := by
  rintro _ ⟨⟩; exact ⟨rfl, mem1 31 rfl⟩
theorem vbqntScale (x : Ops) : Statement (.vbqntScale x) := by
  rintro _ ⟨⟩; exact ⟨rfl, mem1 32 rfl⟩
theorem vbqntQuant (x : Ops) : Statement (.vbqntQuant x) := by
  rintro _ ⟨⟩; exact ⟨rfl, mem1 33 rfl⟩
theorem vredsum (x : Ops) : Statement (.vredsum x) := by
  rintro _ ⟨⟩; exact ⟨rfl, mem1 34 rfl⟩
theorem vredmin (x : Ops) : Statement (.vredmin x) := by
  rintro _ ⟨⟩; exact ⟨rfl, mem1 35 rfl⟩
theorem vredmax (x : Ops) : Statement (.vredmax x) := by
  rintro _ ⟨⟩; exact ⟨rfl, mem1 36 rfl⟩
theorem vscan (x : Ops) : Statement (.vscan x) := by
  rintro _ ⟨⟩; exact ⟨rfl, mem1 37 rfl⟩
theorem vscanmax (x : Ops) : Statement (.vscanmax x) := by
  rintro _ ⟨⟩; exact ⟨rfl, mem1 38 rfl⟩
theorem vperm (x : Ops) : Statement (.vperm x) := by
  rintro _ ⟨⟩; exact ⟨rfl, mem1 39 rfl⟩
theorem vslideUp (x : Ops) : Statement (.vslideUp x) := by
  rintro _ ⟨⟩; exact ⟨rfl, mem2 0 rfl⟩
theorem vslideDown (x : Ops) : Statement (.vslideDown x) := by
  rintro _ ⟨⟩; exact ⟨rfl, mem2 1 rfl⟩
theorem vbcast (x : Ops) : Statement (.vbcast x) := by
  rintro _ ⟨⟩; exact ⟨rfl, mem2 2 rfl⟩
theorem vext (x : Ops) : Statement (.vext x) := by
  rintro _ ⟨⟩; exact ⟨rfl, mem2 3 rfl⟩
theorem vcompress (x : Ops) : Statement (.vcompress x) := by
  rintro _ ⟨⟩; exact ⟨rfl, mem2 4 rfl⟩
theorem viota (x : Ops) : Statement (.viota x) := by
  rintro _ ⟨⟩; exact ⟨rfl, mem2 5 rfl⟩
theorem vhad (x : Ops) : Statement (.vhad x) := by
  rintro _ ⟨⟩; exact ⟨rfl, mem2 6 rfl⟩
theorem vlut (x : Ops) : Statement (.vlut x) := by
  rintro _ ⟨⟩; exact ⟨rfl, mem2 7 rfl⟩
theorem vexp2 (x : Ops) : Statement (.vexp2 x) := by
  rintro _ ⟨⟩; exact ⟨rfl, mem2 8 rfl⟩
theorem vlog2 (x : Ops) : Statement (.vlog2 x) := by
  rintro _ ⟨⟩; exact ⟨rfl, mem2 9 rfl⟩
theorem vrcp (x : Ops) : Statement (.vrcp x) := by
  rintro _ ⟨⟩; exact ⟨rfl, mem2 10 rfl⟩
theorem vrsq (x : Ops) : Statement (.vrsq x) := by
  rintro _ ⟨⟩; exact ⟨rfl, mem2 11 rfl⟩
theorem vrng (x : Ops) : Statement (.vrng x) := by
  rintro _ ⟨⟩; exact ⟨rfl, mem2 12 rfl⟩
theorem setvl (x : Ops) : Statement (.setvl x) := by
  rintro _ ⟨⟩; exact ⟨rfl, mem2 13 rfl⟩
theorem getvlLen (x : Ops) : Statement (.getvlLen x) := by
  rintro _ ⟨⟩; exact ⟨rfl, mem2 14 rfl⟩
theorem getvlMax (x : Ops) : Statement (.getvlMax x) := by
  rintro _ ⟨⟩; exact ⟨rfl, mem2 15 rfl⟩
theorem kand (x : Ops) : Statement (.kand x) := by
  rintro _ ⟨⟩; exact ⟨rfl, mem2 16 rfl⟩
theorem kor (x : Ops) : Statement (.kor x) := by
  rintro _ ⟨⟩; exact ⟨rfl, mem2 17 rfl⟩
theorem kxor (x : Ops) : Statement (.kxor x) := by
  rintro _ ⟨⟩; exact ⟨rfl, mem2 18 rfl⟩
theorem knot (x : Ops) : Statement (.knot x) := by
  rintro _ ⟨⟩; exact ⟨rfl, mem2 19 rfl⟩
theorem kcnt (x : Ops) : Statement (.kcnt x) := by
  rintro _ ⟨⟩; exact ⟨rfl, mem2 20 rfl⟩
theorem kfirst (x : Ops) : Statement (.kfirst x) := by
  rintro _ ⟨⟩; exact ⟨rfl, mem2 21 rfl⟩
theorem kwhile (x : Ops) : Statement (.kwhile x) := by
  rintro _ ⟨⟩; exact ⟨rfl, mem2 22 rfl⟩
theorem mzero (x : Ops) : Statement (.mzero x) := by
  rintro _ ⟨⟩; exact ⟨rfl, mem2 23 rfl⟩
theorem mop (x : Ops) : Statement (.mop x) := by
  rintro _ ⟨⟩; exact ⟨rfl, mem2 24 rfl⟩
theorem mops (x : Ops) : Statement (.mops x) := by
  rintro _ ⟨⟩; exact ⟨rfl, mem2 25 rfl⟩
theorem mopk (x : Ops) : Statement (.mopk x) := by
  rintro _ ⟨⟩; exact ⟨rfl, mem2 26 rfl⟩
theorem mld (x : Ops) : Statement (.mld x) := by
  rintro _ ⟨⟩; exact ⟨rfl, mem2 27 rfl⟩
theorem mst (x : Ops) : Statement (.mst x) := by
  rintro _ ⟨⟩; exact ⟨rfl, mem2 28 rfl⟩
theorem mldt (x : Ops) : Statement (.mldt x) := by
  rintro _ ⟨⟩; exact ⟨rfl, mem2 29 rfl⟩
theorem mstt (x : Ops) : Statement (.mstt x) := by
  rintro _ ⟨⟩; exact ⟨rfl, mem2 30 rfl⟩
theorem mmovv (x : Ops) : Statement (.mmovv x) := by
  rintro _ ⟨⟩; exact ⟨rfl, mem2 31 rfl⟩
theorem mmova (x : Ops) : Statement (.mmova x) := by
  rintro _ ⟨⟩; exact ⟨rfl, mem2 32 rfl⟩
theorem mscl (x : Ops) : Statement (.mscl x) := by
  rintro _ ⟨⟩; exact ⟨rfl, mem2 33 rfl⟩
theorem mcvt (x : Ops) : Statement (.mcvt x) := by
  rintro _ ⟨⟩; exact ⟨rfl, mem2 34 rfl⟩
theorem mrel (x : Ops) : Statement (.mrel x) := by
  rintro _ ⟨⟩; exact ⟨rfl, mem2 35 rfl⟩
theorem dnorm (x : Ops) : Statement (.dnorm x) := by
  rintro _ ⟨⟩; exact ⟨rfl, mem2 36 rfl⟩
theorem dexp (x : Ops) : Statement (.dexp x) := by
  rintro _ ⟨⟩; exact ⟨rfl, mem2 37 rfl⟩
theorem ddot (x : Ops) : Statement (.ddot x) := by
  rintro _ ⟨⟩; exact ⟨rfl, mem2 38 rfl⟩
theorem ddotf (x : Ops) : Statement (.ddotf x) := by
  rintro _ ⟨⟩; exact ⟨rfl, mem2 39 rfl⟩
theorem dsclVal (x : Ops) : Statement (.dsclVal x) := by
  rintro _ ⟨⟩; exact ⟨rfl, mem3 0 rfl⟩
theorem dsclLog (x : Ops) : Statement (.dsclLog x) := by
  rintro _ ⟨⟩; exact ⟨rfl, mem3 1 rfl⟩
theorem dadd (x : Ops) : Statement (.dadd x) := by
  rintro _ ⟨⟩; exact ⟨rfl, mem3 2 rfl⟩
theorem dsub (x : Ops) : Statement (.dsub x) := by
  rintro _ ⟨⟩; exact ⟨rfl, mem3 3 rfl⟩
theorem dprojPar (x : Ops) : Statement (.dprojPar x) := by
  rintro _ ⟨⟩; exact ⟨rfl, mem3 4 rfl⟩
theorem dprojPerp (x : Ops) : Statement (.dprojPerp x) := by
  rintro _ ⟨⟩; exact ⟨rfl, mem3 5 rfl⟩
theorem dmov (x : Ops) : Statement (.dmov x) := by
  rintro _ ⟨⟩; exact ⟨rfl, mem3 6 rfl⟩
theorem dld (x : Ops) : Statement (.dld x) := by
  rintro _ ⟨⟩; exact ⟨rfl, mem3 7 rfl⟩
theorem dst (x : Ops) : Statement (.dst x) := by
  rintro _ ⟨⟩; exact ⟨rfl, mem3 8 rfl⟩
theorem dcmpGe (x : Ops) : Statement (.dcmpGe x) := by
  rintro _ ⟨⟩; exact ⟨rfl, mem3 9 rfl⟩
theorem dcmpGt (x : Ops) : Statement (.dcmpGt x) := by
  rintro _ ⟨⟩; exact ⟨rfl, mem3 10 rfl⟩
theorem dcmpSame (x : Ops) : Statement (.dcmpSame x) := by
  rintro _ ⟨⟩; exact ⟨rfl, mem3 11 rfl⟩
theorem dgetnLog (x : Ops) : Statement (.dgetnLog x) := by
  rintro _ ⟨⟩; exact ⟨rfl, mem3 12 rfl⟩
theorem dgetnLen (x : Ops) : Statement (.dgetnLen x) := by
  rintro _ ⟨⟩; exact ⟨rfl, mem3 13 rfl⟩
theorem dsetn (x : Ops) : Statement (.dsetn x) := by
  rintro _ ⟨⟩; exact ⟨rfl, mem3 14 rfl⟩
theorem ld (x : Ops) : Statement (.ld x) := by
  rintro _ ⟨⟩; exact ⟨rfl, mem3 15 rfl⟩
theorem st (x : Ops) : Statement (.st x) := by
  rintro _ ⟨⟩; exact ⟨rfl, mem3 16 rfl⟩
theorem lda (x : Ops) : Statement (.lda x) := by
  rintro _ ⟨⟩; exact ⟨rfl, mem3 17 rfl⟩
theorem stl (x : Ops) : Statement (.stl x) := by
  rintro _ ⟨⟩; exact ⟨rfl, mem3 18 rfl⟩
theorem ldv (x : Ops) : Statement (.ldv x) := by
  rintro _ ⟨⟩; exact ⟨rfl, mem3 19 rfl⟩
theorem stv (x : Ops) : Statement (.stv x) := by
  rintro _ ⟨⟩; exact ⟨rfl, mem3 20 rfl⟩
theorem lds (x : Ops) : Statement (.lds x) := by
  rintro _ ⟨⟩; exact ⟨rfl, mem3 21 rfl⟩
theorem sts (x : Ops) : Statement (.sts x) := by
  rintro _ ⟨⟩; exact ⟨rfl, mem3 22 rfl⟩
theorem ldg (x : Ops) : Statement (.ldg x) := by
  rintro _ ⟨⟩; exact ⟨rfl, mem3 23 rfl⟩
theorem stg (x : Ops) : Statement (.stg x) := by
  rintro _ ⟨⟩; exact ⟨rfl, mem3 24 rfl⟩
theorem ldff (x : Ops) : Statement (.ldff x) := by
  rintro _ ⟨⟩; exact ⟨rfl, mem3 25 rfl⟩
theorem amo (x : Ops) : Statement (.amo x) := by
  rintro _ ⟨⟩; exact ⟨rfl, mem3 26 rfl⟩
theorem cas (x : Ops) : Statement (.cas x) := by
  rintro _ ⟨⟩; exact ⟨rfl, mem3 27 rfl⟩
theorem vamo (x : Ops) : Statement (.vamo x) := by
  rintro _ ⟨⟩; exact ⟨rfl, mem3 28 rfl⟩
theorem clean (x : Ops) : Statement (.clean x) := by
  rintro _ ⟨⟩; exact ⟨rfl, mem3 29 rfl⟩
theorem inval (x : Ops) : Statement (.inval x) := by
  rintro _ ⟨⟩; exact ⟨rfl, mem3 30 rfl⟩
theorem flush (x : Ops) : Statement (.flush x) := by
  rintro _ ⟨⟩; exact ⟨rfl, mem3 31 rfl⟩
theorem pf (x : Ops) : Statement (.pf x) := by
  rintro _ ⟨⟩; exact ⟨rfl, mem3 32 rfl⟩
theorem pfh (x : Ops) : Statement (.pfh x) := by
  rintro _ ⟨⟩; exact ⟨rfl, mem3 33 rfl⟩
theorem fence (x : Ops) : Statement (.fence x) := by
  rintro _ ⟨⟩; exact ⟨rfl, mem3 34 rfl⟩
theorem fenceSc (x : Ops) : Statement (.fenceSc x) := by
  rintro _ ⟨⟩; exact ⟨rfl, mem3 35 rfl⟩
theorem cpyByte (x : Ops) : Statement (.cpyByte x) := by
  rintro _ ⟨⟩; exact ⟨rfl, mem3 36 rfl⟩
theorem cpyTin (x : Ops) : Statement (.cpyTin x) := by
  rintro _ ⟨⟩; exact ⟨rfl, mem3 37 rfl⟩
theorem cpyTout (x : Ops) : Statement (.cpyTout x) := by
  rintro _ ⟨⟩; exact ⟨rfl, mem3 38 rfl⟩
theorem cpyBloom (x : Ops) : Statement (.cpyBloom x) := by
  rintro _ ⟨⟩; exact ⟨rfl, mem3 39 rfl⟩
theorem cpyf (x : Ops) : Statement (.cpyf x) := by
  rintro _ ⟨⟩; exact ⟨rfl, mem4 0 rfl⟩
theorem cpyc (x : Ops) : Statement (.cpyc x) := by
  rintro _ ⟨⟩; exact ⟨rfl, mem4 1 rfl⟩
theorem give (x : Ops) : Statement (.give x) := by
  rintro _ ⟨⟩; exact ⟨rfl, mem4 2 rfl⟩
theorem take (x : Ops) : Statement (.take x) := by
  rintro _ ⟨⟩; exact ⟨rfl, mem4 3 rfl⟩
theorem takeNew (x : Ops) : Statement (.takeNew x) := by
  rintro _ ⟨⟩; exact ⟨rfl, mem4 4 rfl⟩
theorem waitb (x : Ops) : Statement (.waitb x) := by
  rintro _ ⟨⟩; exact ⟨rfl, mem4 5 rfl⟩
theorem bkadd (x : Ops) : Statement (.bkadd x) := by
  rintro _ ⟨⟩; exact ⟨rfl, mem4 6 rfl⟩
theorem bkmul (x : Ops) : Statement (.bkmul x) := by
  rintro _ ⟨⟩; exact ⟨rfl, mem4 7 rfl⟩
theorem bkfma (x : Ops) : Statement (.bkfma x) := by
  rintro _ ⟨⟩; exact ⟨rfl, mem4 8 rfl⟩
theorem bkdot8 (x : Ops) : Statement (.bkdot8 x) := by
  rintro _ ⟨⟩; exact ⟨rfl, mem4 9 rfl⟩
theorem bklut4 (x : Ops) : Statement (.bklut4 x) := by
  rintro _ ⟨⟩; exact ⟨rfl, mem4 10 rfl⟩
theorem bksum (x : Ops) : Statement (.bksum x) := by
  rintro _ ⟨⟩; exact ⟨rfl, mem4 11 rfl⟩
theorem bkfill (x : Ops) : Statement (.bkfill x) := by
  rintro _ ⟨⟩; exact ⟨rfl, mem4 12 rfl⟩
theorem bkacc (x : Ops) : Statement (.bkacc x) := by
  rintro _ ⟨⟩; exact ⟨rfl, mem4 13 rfl⟩
theorem bkclr (x : Ops) : Statement (.bkclr x) := by
  rintro _ ⟨⟩; exact ⟨rfl, mem4 14 rfl⟩
theorem rpgo (x : Ops) : Statement (.rpgo x) := by
  rintro _ ⟨⟩; exact ⟨rfl, mem4 15 rfl⟩
theorem rpmodeCopy (x : Ops) : Statement (.rpmodeCopy x) := by
  rintro _ ⟨⟩; exact ⟨rfl, mem4 16 rfl⟩
theorem rpmodeCompute (x : Ops) : Statement (.rpmodeCompute x) := by
  rintro _ ⟨⟩; exact ⟨rfl, mem4 17 rfl⟩
theorem br (x : Ops) : Statement (.br x) := by
  rintro _ ⟨⟩; exact ⟨rfl, mem4 18 rfl⟩
theorem brz (x : Ops) : Statement (.brz x) := by
  rintro _ ⟨⟩; exact ⟨rfl, mem4 19 rfl⟩
theorem brnz (x : Ops) : Statement (.brnz x) := by
  rintro _ ⟨⟩; exact ⟨rfl, mem4 20 rfl⟩
theorem jmp (x : Ops) : Statement (.jmp x) := by
  rintro _ ⟨⟩; exact ⟨rfl, mem4 21 rfl⟩
theorem jr (x : Ops) : Statement (.jr x) := by
  rintro _ ⟨⟩; exact ⟨rfl, mem4 22 rfl⟩
theorem call (x : Ops) : Statement (.call x) := by
  rintro _ ⟨⟩; exact ⟨rfl, mem4 23 rfl⟩
theorem callReg (x : Ops) : Statement (.callReg x) := by
  rintro _ ⟨⟩; exact ⟨rfl, mem4 24 rfl⟩
theorem ret (x : Ops) : Statement (.ret x) := by
  rintro _ ⟨⟩; exact ⟨rfl, mem4 25 rfl⟩
theorem spawn (x : Ops) : Statement (.spawn x) := by
  rintro _ ⟨⟩; exact ⟨rfl, mem4 26 rfl⟩
theorem done (x : Ops) : Statement (.done x) := by
  rintro _ ⟨⟩; exact ⟨rfl, mem4 27 rfl⟩
theorem endTask (x : Ops) : Statement (.endTask x) := by
  rintro _ ⟨⟩; exact ⟨rfl, mem4 28 rfl⟩
theorem yield (x : Ops) : Statement (.yield x) := by
  rintro _ ⟨⟩; exact ⟨rfl, mem4 29 rfl⟩
theorem waitc (x : Ops) : Statement (.waitc x) := by
  rintro _ ⟨⟩; exact ⟨rfl, mem4 30 rfl⟩
theorem waita (x : Ops) : Statement (.waita x) := by
  rintro _ ⟨⟩; exact ⟨rfl, mem4 31 rfl⟩
theorem launch (x : Ops) : Statement (.launch x) := by
  rintro _ ⟨⟩; exact ⟨rfl, mem4 32 rfl⟩
theorem liveSet (x : Ops) : Statement (.liveSet x) := by
  rintro _ ⟨⟩; exact ⟨rfl, mem4 33 rfl⟩
theorem liveDrop (x : Ops) : Statement (.liveDrop x) := by
  rintro _ ⟨⟩; exact ⟨rfl, mem4 34 rfl⟩
theorem mfs (x : Ops) : Statement (.mfs x) := by
  rintro _ ⟨⟩; exact ⟨rfl, mem4 35 rfl⟩
theorem mts (x : Ops) : Statement (.mts x) := by
  rintro _ ⟨⟩; exact ⟨rfl, mem4 36 rfl⟩
theorem traps (x : Ops) : Statement (.traps x) := by
  rintro _ ⟨⟩; exact ⟨rfl, mem4 37 rfl⟩
theorem brk (x : Ops) : Statement (.brk x) := by
  rintro _ ⟨⟩; exact ⟨rfl, mem4 38 rfl⟩
theorem tlbinvVa (x : Ops) : Statement (.tlbinvVa x) := by
  rintro _ ⟨⟩; exact ⟨rfl, mem4 39 rfl⟩
theorem tlbinvAsid (x : Ops) : Statement (.tlbinvAsid x) := by
  rintro _ ⟨⟩; exact ⟨rfl, mem5 0 rfl⟩
theorem tlbinvAll (x : Ops) : Statement (.tlbinvAll x) := by
  rintro _ ⟨⟩; exact ⟨rfl, mem5 1 rfl⟩
theorem revokeRegion (x : Ops) : Statement (.revokeRegion x) := by
  rintro _ ⟨⟩; exact ⟨rfl, mem5 2 rfl⟩
theorem revokeAsid (x : Ops) : Statement (.revokeAsid x) := by
  rintro _ ⟨⟩; exact ⟨rfl, mem5 3 rfl⟩
theorem resume (x : Ops) : Statement (.resume x) := by
  rintro _ ⟨⟩; exact ⟨rfl, mem5 4 rfl⟩
theorem kill (x : Ops) : Statement (.kill x) := by
  rintro _ ⟨⟩; exact ⟨rfl, mem5 5 rfl⟩
theorem attest (x : Ops) : Statement (.attest x) := by
  rintro _ ⟨⟩; exact ⟨rfl, mem5 6 rfl⟩
theorem eret (x : Ops) : Statement (.eret x) := by
  rintro _ ⟨⟩; exact ⟨rfl, mem5 7 rfl⟩
theorem scrub (x : Ops) : Statement (.scrub x) := by
  rintro _ ⟨⟩; exact ⟨rfl, mem5 8 rfl⟩
theorem beamrateSet (x : Ops) : Statement (.beamrateSet x) := by
  rintro _ ⟨⟩; exact ⟨rfl, mem5 9 rfl⟩
theorem beamrateFloor (x : Ops) : Statement (.beamrateFloor x) := by
  rintro _ ⟨⟩; exact ⟨rfl, mem5 10 rfl⟩
theorem beamrateCeil (x : Ops) : Statement (.beamrateCeil x) := by
  rintro _ ⟨⟩; exact ⟨rfl, mem5 11 rfl⟩
theorem beamrateOwner (x : Ops) : Statement (.beamrateOwner x) := by
  rintro _ ⟨⟩; exact ⟨rfl, mem5 12 rfl⟩
theorem beamretire (x : Ops) : Statement (.beamretire x) := by
  rintro _ ⟨⟩; exact ⟨rfl, mem5 13 rfl⟩
theorem beamstatRate (x : Ops) : Statement (.beamstatRate x) := by
  rintro _ ⟨⟩; exact ⟨rfl, mem5 14 rfl⟩
theorem beamstatWidth (x : Ops) : Statement (.beamstatWidth x) := by
  rintro _ ⟨⟩; exact ⟨rfl, mem5 15 rfl⟩
theorem beamstatRetired (x : Ops) : Statement (.beamstatRetired x) := by
  rintro _ ⟨⟩; exact ⟨rfl, mem5 16 rfl⟩
theorem beamstatCrc (x : Ops) : Statement (.beamstatCrc x) := by
  rintro _ ⟨⟩; exact ⟨rfl, mem5 17 rfl⟩
theorem beamstatReplay (x : Ops) : Statement (.beamstatReplay x) := by
  rintro _ ⟨⟩; exact ⟨rfl, mem5 18 rfl⟩
theorem beamstatRrate (x : Ops) : Statement (.beamstatRrate x) := by
  rintro _ ⟨⟩; exact ⟨rfl, mem5 19 rfl⟩
theorem beamstatModule (x : Ops) : Statement (.beamstatModule x) := by
  rintro _ ⟨⟩; exact ⟨rfl, mem5 20 rfl⟩
theorem beamstatCfg (x : Ops) : Statement (.beamstatCfg x) := by
  rintro _ ⟨⟩; exact ⟨rfl, mem5 21 rfl⟩
theorem beamstatEvents (x : Ops) : Statement (.beamstatEvents x) := by
  rintro _ ⟨⟩; exact ⟨rfl, mem5 22 rfl⟩
theorem rc (x : Ops) : Statement (.rc x) := by
  rintro _ ⟨⟩; exact ⟨rfl, mem5 23 rfl⟩
theorem rm3 (x : Ops) : Statement (.rm3 x) := by
  rintro _ ⟨⟩; exact ⟨rfl, mem5 24 rfl⟩
theorem rnt (x : Ops) : Statement (.rnt x) := by
  rintro _ ⟨⟩; exact ⟨rfl, mem5 25 rfl⟩
theorem rsl (x : Ops) : Statement (.rsl x) := by
  rintro _ ⟨⟩; exact ⟨rfl, mem5 26 rfl⟩
theorem rsr (x : Ops) : Statement (.rsr x) := by
  rintro _ ⟨⟩; exact ⟨rfl, mem5 27 rfl⟩
theorem rz (x : Ops) : Statement (.rz x) := by
  rintro _ ⟨⟩; exact ⟨rfl, mem5 28 rfl⟩
theorem ro (x : Ops) : Statement (.ro x) := by
  rintro _ ⟨⟩; exact ⟨rfl, mem5 29 rfl⟩
theorem rjoint (x : Ops) : Statement (.rjoint x) := by
  rintro _ ⟨⟩; exact ⟨rfl, mem5 30 rfl⟩
theorem rloop (x : Ops) : Statement (.rloop x) := by
  rintro _ ⟨⟩; exact ⟨rfl, mem5 31 rfl⟩
theorem rnext (x : Ops) : Statement (.rnext x) := by
  rintro _ ⟨⟩; exact ⟨rfl, mem5 32 rfl⟩
theorem rbaseSet (x : Ops) : Statement (.rbaseSet x) := by
  rintro _ ⟨⟩; exact ⟨rfl, mem5 33 rfl⟩
theorem rbaseAdd (x : Ops) : Statement (.rbaseAdd x) := by
  rintro _ ⟨⟩; exact ⟨rfl, mem5 34 rfl⟩
theorem rplaneSet (x : Ops) : Statement (.rplaneSet x) := by
  rintro _ ⟨⟩; exact ⟨rfl, mem5 35 rfl⟩
theorem rplaneAdd (x : Ops) : Statement (.rplaneAdd x) := by
  rintro _ ⟨⟩; exact ⟨rfl, mem5 36 rfl⟩
theorem rrd (x : Ops) : Statement (.rrd x) := by
  rintro _ ⟨⟩; exact ⟨rfl, mem5 37 rfl⟩
theorem rwr (x : Ops) : Statement (.rwr x) := by
  rintro _ ⟨⟩; exact ⟨rfl, mem5 38 rfl⟩
theorem rchk (x : Ops) : Statement (.rchk x) := by
  rintro _ ⟨⟩; exact ⟨rfl, mem5 39 rfl⟩
theorem rsetSel (x : Ops) : Statement (.rsetSel x) := by
  rintro _ ⟨⟩; exact ⟨rfl, mem6 0 rfl⟩
theorem rhalt (x : Ops) : Statement (.rhalt x) := by
  rintro _ ⟨⟩; exact ⟨rfl, mem6 1 rfl⟩
theorem powerGood : Statement (.powerGood) := by
  rintro _ ⟨⟩
theorem phaseRomDone : Statement (.phaseRomDone) := by
  rintro _ ⟨⟩
theorem phaseAuthDone (flash : List Byte) : Statement (.phaseAuthDone flash) := by
  rintro _ ⟨⟩
theorem phaseDramDone (fail : Nat) : Statement (.phaseDramDone fail) := by
  rintro _ ⟨⟩
theorem phaseCoresDone (fail spares : Nat) : Statement (.phaseCoresDone fail spares) := by
  rintro _ ⟨⟩
theorem phaseBeamsDone (ok : Bool) (repairs : List LaneRef) : Statement (.phaseBeamsDone ok repairs) := by
  rintro _ ⟨⟩
theorem phaseSramDone : Statement (.phaseSramDone) := by
  rintro _ ⟨⟩
theorem phaseCheckDone (fail : Nat) : Statement (.phaseCheckDone fail) := by
  rintro _ ⟨⟩
theorem perstAssert (port : Nat) : Statement (.perstAssert port) := by
  rintro _ ⟨⟩
theorem perstDeassert (port : Nat) : Statement (.perstDeassert port) := by
  rintro _ ⟨⟩
theorem devreset (value : Word) : Statement (.devreset value) := by
  rintro _ ⟨⟩
theorem portHotReset (port : Nat) : Statement (.portHotReset port) := by
  rintro _ ⟨⟩
theorem fwctlGo (value : Word) : Statement (.fwctlGo value) := by
  rintro _ ⟨⟩
theorem doorbell (queue : Nat) (value : Word) : Statement (.doorbell queue value) := by
  rintro _ ⟨⟩
theorem controlRegisterWrite (offset : Nat) (value : Word) : Statement (.controlRegisterWrite offset value) := by
  rintro _ ⟨⟩
theorem hostAccess (port addr len : Nat) (data : Option (List Byte)) : Statement (.hostAccess port addr len data) := by
  rintro _ ⟨⟩
theorem queueResident (post : Nat) : Statement (.queueResident post) := by
  rintro _ ⟨⟩
theorem queueDormant (post : Nat) : Statement (.queueDormant post) := by
  rintro _ ⟨⟩
theorem dispatchBatch (queue count : Nat) : Statement (.dispatchBatch queue count) := by
  rintro _ ⟨⟩
theorem taskBind (post : Nat) : Statement (.taskBind post) := by
  rintro _ ⟨⟩
theorem preemptStop (hart unit : Nat) : Statement (.preemptStop hart unit) := by
  rintro _ ⟨⟩
theorem imageSaveDone (hart : Nat) : Statement (.imageSaveDone hart) := by
  rintro _ ⟨⟩
theorem faultqHeldWrite (graph : Nat) : Statement (.faultqHeldWrite graph) := by
  rintro _ ⟨⟩
theorem watchdog (hart unit port kind field : Nat) (addr : Word) : Statement (.watchdog hart unit port kind field addr) := by
  rintro _ ⟨⟩
theorem bankCmdStart (post : Nat) : Statement (.bankCmdStart post) := by
  rintro _ ⟨⟩
theorem bankCmdComplete (post seq : Nat) : Statement (.bankCmdComplete post seq) := by
  rintro _ ⟨⟩
theorem copyStart (engine : Nat) : Statement (.copyStart engine) := by
  rintro _ ⟨⟩
theorem copyLand (engine seq : Nat) (run : Nat × Nat) : Statement (.copyLand engine seq run) := by
  rintro _ ⟨⟩
theorem copyComplete (engine seq : Nat) : Statement (.copyComplete engine seq) := by
  rintro _ ⟨⟩
theorem modeChange (post asid handle : Nat) : Statement (.modeChange post asid handle) := by
  rintro _ ⟨⟩
theorem rowprogStart (post : Nat) : Statement (.rowprogStart post) := by
  rintro _ ⟨⟩
theorem waveAdmit (post die : Nat) : Statement (.waveAdmit post die) := by
  rintro _ ⟨⟩
theorem activationAlert (post sub row : Nat) : Statement (.activationAlert post sub row) := by
  rintro _ ⟨⟩
theorem refresh (post sub : Nat) : Statement (.refresh post sub) := by
  rintro _ ⟨⟩
theorem rowReportStop (hart : Nat) : Statement (.rowReportStop hart) := by
  rintro _ ⟨⟩
theorem flitSend (beam dir : Nat) (data : Option FlitData) : Statement (.flitSend beam dir data) := by
  rintro _ ⟨⟩
theorem flitReceive (beam dir : Nat) (errors : List Nat) : Statement (.flitReceive beam dir errors) := by
  rintro _ ⟨⟩
theorem replayTimeout (beam dir : Nat) : Statement (.replayTimeout beam dir) := by
  rintro _ ⟨⟩
theorem replayWindowEnd (beam dir : Nat) : Statement (.replayWindowEnd beam dir) := by
  rintro _ ⟨⟩
theorem laneRetire (lane : LaneRef) : Statement (.laneRetire lane) := by
  rintro _ ⟨⟩
theorem moduleRetrainDone (beam dir module : Nat) : Statement (.moduleRetrainDone beam dir module) := by
  rintro _ ⟨⟩
theorem rateChangeDrained (beam : Nat) : Statement (.rateChangeDrained beam) := by
  rintro _ ⟨⟩
theorem rateRetrainDone (beam : Nat) (failNew failOld : List ModRef) : Statement (.rateRetrainDone beam failNew failOld) := by
  rintro _ ⟨⟩
theorem asyncTrapTake (core unit : Nat) : Statement (.asyncTrapTake core unit) := by
  rintro _ ⟨⟩
theorem powerLimit (domain : Nat) : Statement (.powerLimit domain) := by
  rintro _ ⟨⟩
theorem thermal (die : Nat) : Statement (.thermal die) := by
  rintro _ ⟨⟩
theorem postScrap (post : Nat) : Statement (.postScrap post) := by
  rintro _ ⟨⟩
theorem packageScrap (posts : Nat) : Statement (.packageScrap posts) := by
  rintro _ ⟨⟩
theorem accessPerform (host : Option Nat) (index : Nat) : Statement (.accessPerform host index) := by
  rintro _ ⟨⟩
theorem l2Eviction (addr : Nat) : Statement (.l2Eviction addr) := by
  rintro _ ⟨⟩
theorem hostWrite (addr : Nat) (data : List Byte) : Statement (.hostWrite addr data) := by
  rintro _ ⟨⟩
theorem remoteTimeout (target : Target) : Statement (.remoteTimeout target) := by
  rintro _ ⟨⟩
theorem hostCompletion (target : Target) (kind : Completion) : Statement (.hostCompletion target kind) := by
  rintro _ ⟨⟩
theorem powerGoodDrop : Statement (.powerGoodDrop) := by
  rintro _ ⟨⟩
theorem temperatureFall (die : Nat) : Statement (.temperatureFall die) := by
  rintro _ ⟨⟩

end Sys2Proof.Laws.Row
end

