-- ==== Sys2Proof/Laws/Shape.lean ====
section
/-! SUPPORT. The shape of every core instruction: its meaning begins with the shared checks of `runCore`, under its own
description, whole-guarded or element-guarded as its row says, and long where Tables 2-5 and 10-2 say so. -/
namespace Sys2Proof.Machine
open Sys2Proof

/-- An outcome of an instruction is that of `runCore` under a description. -/
def Shape (d : Desc) (x : Ops) (s : State) (o : Host.Outcome State Fault Refusal) : Prop :=
  ∃ long body, o = runCore d x s (!elementOps.contains d.op) long body ∧ long.isSome = longOn d x

theorem dirLong_isSome (d : Desc) (x : Ops) (g : Nat) (h1 : longRows.contains (d.op, d.vars) = true) (h2 : opGroup d.op = 7)
    (h3 : grpSize (if d.op = 0x1C1 then x.a else x.d) = g) : (dirLong g).isSome = longOn d x := by
  unfold dirLong longOn
  rw [h1, h3]
  by_cases hg : g = 1 <;> simp [hg, h2]

theorem Shape.of {d : Desc} {x : Ops} {s : State} {whole : Bool} {long : Option (Hart → Nat)} {body : Nat → Hart → Done}
    (hl : long.isSome = longOn d x) (he : (!elementOps.contains d.op) = whole) : Shape d x s (runCore d x s whole long body) :=
  ⟨long, body, he ▸ rfl, hl⟩

/-- MFS and MTS, once the checks of R50 pass. -/
theorem Shape.sreg {d : Desc} {x : Ops} {s : State} {n : Nat} {write : Bool} {o : Operand} {field : Nat} {body : Nat → Hart → Done}
    (ht : s.turn = .hart n) (hc : sregCheck (isSys n) write (sNum o) = none) (hl : longOn d x = false)
    (he : elementOps.contains d.op = false) : Shape d x s (runSreg d x s write o field body) := by
  refine ⟨none, body, ?_, hl.symm⟩
  unfold runSreg
  simp only [ht, hc, he, Bool.not_false]

theorem Shape.add (x : Ops) (s : State) : Shape .add x s (exec (.add x) s) := by
  unfold exec execAdd runInt runReg; exact Shape.of rfl rfl
theorem Shape.sub (x : Ops) (s : State) : Shape .sub x s (exec (.sub x) s) := by
  unfold exec execSub runInt runReg; exact Shape.of rfl rfl
theorem Shape.mul (x : Ops) (s : State) : Shape .mul x s (exec (.mul x) s) := by
  unfold exec execMul runInt runReg; exact Shape.of rfl rfl
theorem Shape.mulh (x : Ops) (s : State) : Shape .mulh x s (exec (.mulh x) s) := by
  unfold exec execMulh runInt runReg; exact Shape.of rfl rfl
theorem Shape.mulhu (x : Ops) (s : State) : Shape .mulhu x s (exec (.mulhu x) s) := by
  unfold exec execMulhu runInt runReg; exact Shape.of rfl rfl
theorem Shape.div (x : Ops) (s : State) : Shape .div x s (exec (.div x) s) := by
  unfold exec execDiv runDiv runReg; exact Shape.of rfl rfl
theorem Shape.divu (x : Ops) (s : State) : Shape .divu x s (exec (.divu x) s) := by
  unfold exec execDivu runDiv runReg; exact Shape.of rfl rfl
theorem Shape.rem (x : Ops) (s : State) : Shape .rem x s (exec (.rem x) s) := by
  unfold exec execRem runDiv runReg; exact Shape.of rfl rfl
theorem Shape.remu (x : Ops) (s : State) : Shape .remu x s (exec (.remu x) s) := by
  unfold exec execRemu runDiv runReg; exact Shape.of rfl rfl
theorem Shape.and (x : Ops) (s : State) : Shape .and x s (exec (.and x) s) := by
  unfold exec execAnd runInt runReg; exact Shape.of rfl rfl
theorem Shape.or (x : Ops) (s : State) : Shape .or x s (exec (.or x) s) := by
  unfold exec execOr runInt runReg; exact Shape.of rfl rfl
theorem Shape.xor (x : Ops) (s : State) : Shape .xor x s (exec (.xor x) s) := by
  unfold exec execXor runInt runReg; exact Shape.of rfl rfl
theorem Shape.andn (x : Ops) (s : State) : Shape .andn x s (exec (.andn x) s) := by
  unfold exec execAndn runInt runReg; exact Shape.of rfl rfl
theorem Shape.shl (x : Ops) (s : State) : Shape .shl x s (exec (.shl x) s) := by
  unfold exec execShl runInt runReg; exact Shape.of rfl rfl
theorem Shape.shr (x : Ops) (s : State) : Shape .shr x s (exec (.shr x) s) := by
  unfold exec execShr runInt runReg; exact Shape.of rfl rfl
theorem Shape.sra (x : Ops) (s : State) : Shape .sra x s (exec (.sra x) s) := by
  unfold exec execSra runInt runReg; exact Shape.of rfl rfl
theorem Shape.rol (x : Ops) (s : State) : Shape .rol x s (exec (.rol x) s) := by
  unfold exec execRol runInt runReg; exact Shape.of rfl rfl
theorem Shape.clz (x : Ops) (s : State) : Shape .clz x s (exec (.clz x) s) := by
  unfold exec execClz runInt runReg; exact Shape.of rfl rfl
theorem Shape.ctz (x : Ops) (s : State) : Shape .ctz x s (exec (.ctz x) s) := by
  unfold exec execCtz runInt runReg; exact Shape.of rfl rfl
theorem Shape.popc (x : Ops) (s : State) : Shape .popc x s (exec (.popc x) s) := by
  unfold exec execPopc runInt runReg; exact Shape.of rfl rfl
theorem Shape.min (x : Ops) (s : State) : Shape .min x s (exec (.min x) s) := by
  unfold exec execMin runInt runReg; exact Shape.of rfl rfl
theorem Shape.max (x : Ops) (s : State) : Shape .max x s (exec (.max x) s) := by
  unfold exec execMax runInt runReg; exact Shape.of rfl rfl
theorem Shape.minu (x : Ops) (s : State) : Shape .minu x s (exec (.minu x) s) := by
  unfold exec execMinu runInt runReg; exact Shape.of rfl rfl
theorem Shape.maxu (x : Ops) (s : State) : Shape .maxu x s (exec (.maxu x) s) := by
  unfold exec execMaxu runInt runReg; exact Shape.of rfl rfl
theorem Shape.slt (x : Ops) (s : State) : Shape .slt x s (exec (.slt x) s) := by
  unfold exec execSlt runInt runReg; exact Shape.of rfl rfl
theorem Shape.sltu (x : Ops) (s : State) : Shape .sltu x s (exec (.sltu x) s) := by
  unfold exec execSltu runInt runReg; exact Shape.of rfl rfl
theorem Shape.seq (x : Ops) (s : State) : Shape .seq x s (exec (.seq x) s) := by
  unfold exec execSeq runInt runReg; exact Shape.of rfl rfl
theorem Shape.sel (x : Ops) (s : State) : Shape .sel x s (exec (.sel x) s) := by
  unfold exec execSel runReg; exact Shape.of rfl rfl
theorem Shape.mov (x : Ops) (s : State) : Shape .mov x s (exec (.mov x) s) := by
  unfold exec execMov runInt runReg; exact Shape.of rfl rfl
theorem Shape.li (x : Ops) (s : State) : Shape .li x s (exec (.li x) s) := by
  unfold exec execLi runInt runReg; exact Shape.of rfl rfl
theorem Shape.lih (x : Ops) (s : State) : Shape .lih x s (exec (.lih x) s) := by
  unfold exec execLih runReg; exact Shape.of rfl rfl
theorem Shape.sext (x : Ops) (s : State) : Shape .sext x s (exec (.sext x) s) := by
  unfold exec execSext runInt runReg; exact Shape.of rfl rfl
theorem Shape.zext (x : Ops) (s : State) : Shape .zext x s (exec (.zext x) s) := by
  unfold exec execZext runInt runReg; exact Shape.of rfl rfl
theorem Shape.lea (x : Ops) (s : State) : Shape .lea x s (exec (.lea x) s) := by
  unfold exec execLea runInt runReg; exact Shape.of rfl rfl
theorem Shape.leaPc (x : Ops) (s : State) : Shape .leaPc x s (exec (.leaPc x) s) := by
  unfold exec execLeaPc runReg; exact Shape.of rfl rfl
theorem Shape.fadd (x : Ops) (s : State) : Shape .fadd x s (exec (.fadd x) s) := by
  unfold exec execFadd runFp runReg; exact Shape.of rfl rfl
theorem Shape.fsub (x : Ops) (s : State) : Shape .fsub x s (exec (.fsub x) s) := by
  unfold exec execFsub runFp runReg; exact Shape.of rfl rfl
theorem Shape.fmul (x : Ops) (s : State) : Shape .fmul x s (exec (.fmul x) s) := by
  unfold exec execFmul runFp runReg; exact Shape.of rfl rfl
theorem Shape.fma (x : Ops) (s : State) : Shape .fma x s (exec (.fma x) s) := by
  unfold exec execFma runFp runReg; exact Shape.of rfl rfl
theorem Shape.fdiv (x : Ops) (s : State) : Shape .fdiv x s (exec (.fdiv x) s) := by
  unfold exec execFdiv runFp runReg; exact Shape.of rfl rfl
theorem Shape.fsqrt (x : Ops) (s : State) : Shape .fsqrt x s (exec (.fsqrt x) s) := by
  unfold exec execFsqrt runFp runReg; exact Shape.of rfl rfl
theorem Shape.fmin (x : Ops) (s : State) : Shape .fmin x s (exec (.fmin x) s) := by
  unfold exec execFmin runMinMax runReg; exact Shape.of rfl rfl
theorem Shape.fmax (x : Ops) (s : State) : Shape .fmax x s (exec (.fmax x) s) := by
  unfold exec execFmax runMinMax runReg; exact Shape.of rfl rfl
theorem Shape.fcvt (x : Ops) (s : State) : Shape .fcvt x s (exec (.fcvt x) s) := by
  unfold exec execFcvt runReg; exact Shape.of rfl rfl
theorem Shape.fcmp (x : Ops) (s : State) : Shape .fcmp x s (exec (.fcmp x) s) := by
  unfold exec execFcmp runReg; exact Shape.of rfl rfl
theorem Shape.fclass (x : Ops) (s : State) : Shape .fclass x s (exec (.fclass x) s) := by
  unfold exec execFclass runReg; exact Shape.of rfl rfl
theorem Shape.vadd (x : Ops) (s : State) : Shape .vadd x s (exec (.vadd x) s) := by
  unfold exec execVadd runEwArith runEw runVec runReg; exact Shape.of rfl rfl
theorem Shape.vsub (x : Ops) (s : State) : Shape .vsub x s (exec (.vsub x) s) := by
  unfold exec execVsub runEwArith runEw runVec runReg; exact Shape.of rfl rfl
theorem Shape.vmul (x : Ops) (s : State) : Shape .vmul x s (exec (.vmul x) s) := by
  unfold exec execVmul runEwArith runEw runVec runReg; exact Shape.of rfl rfl
theorem Shape.vmulh (x : Ops) (s : State) : Shape .vmulh x s (exec (.vmulh x) s) := by
  unfold exec execVmulh runEw runVec runReg; exact Shape.of rfl rfl
theorem Shape.vfma (x : Ops) (s : State) : Shape .vfma x s (exec (.vfma x) s) := by
  unfold exec execVfma runEw runVec runReg; exact Shape.of rfl rfl
theorem Shape.vdiv (x : Ops) (s : State) : Shape .vdiv x s (exec (.vdiv x) s) := by
  unfold exec execVdiv runEwArith runEw runVec runReg; exact Shape.of rfl rfl
theorem Shape.vsqrt (x : Ops) (s : State) : Shape .vsqrt x s (exec (.vsqrt x) s) := by
  unfold exec execVsqrt runEw runVec runReg; exact Shape.of rfl rfl
theorem Shape.vmin (x : Ops) (s : State) : Shape .vmin x s (exec (.vmin x) s) := by
  unfold exec execVmin runEw runVec runReg; exact Shape.of rfl rfl
theorem Shape.vmax (x : Ops) (s : State) : Shape .vmax x s (exec (.vmax x) s) := by
  unfold exec execVmax runEw runVec runReg; exact Shape.of rfl rfl
theorem Shape.vabs (x : Ops) (s : State) : Shape .vabs x s (exec (.vabs x) s) := by
  unfold exec execVabs runEw runVec runReg; exact Shape.of rfl rfl
theorem Shape.vand (x : Ops) (s : State) : Shape .vand x s (exec (.vand x) s) := by
  unfold exec execVand runBits runEw runVec runReg; exact Shape.of rfl rfl
theorem Shape.vor (x : Ops) (s : State) : Shape .vor x s (exec (.vor x) s) := by
  unfold exec execVor runBits runEw runVec runReg; exact Shape.of rfl rfl
theorem Shape.vxor (x : Ops) (s : State) : Shape .vxor x s (exec (.vxor x) s) := by
  unfold exec execVxor runBits runEw runVec runReg; exact Shape.of rfl rfl
theorem Shape.vandn (x : Ops) (s : State) : Shape .vandn x s (exec (.vandn x) s) := by
  unfold exec execVandn runBits runEw runVec runReg; exact Shape.of rfl rfl
theorem Shape.vshl (x : Ops) (s : State) : Shape .vshl x s (exec (.vshl x) s) := by
  unfold exec execVshl runBits runEw runVec runReg; exact Shape.of rfl rfl
theorem Shape.vshr (x : Ops) (s : State) : Shape .vshr x s (exec (.vshr x) s) := by
  unfold exec execVshr runBits runEw runVec runReg; exact Shape.of rfl rfl
theorem Shape.vsra (x : Ops) (s : State) : Shape .vsra x s (exec (.vsra x) s) := by
  unfold exec execVsra runBits runEw runVec runReg; exact Shape.of rfl rfl
theorem Shape.vcmpeq (x : Ops) (s : State) : Shape .vcmpeq x s (exec (.vcmpeq x) s) := by
  unfold exec execVcmpeq runVcmp runReg; exact Shape.of rfl rfl
theorem Shape.vcmpne (x : Ops) (s : State) : Shape .vcmpne x s (exec (.vcmpne x) s) := by
  unfold exec execVcmpne runVcmp runReg; exact Shape.of rfl rfl
theorem Shape.vcmplt (x : Ops) (s : State) : Shape .vcmplt x s (exec (.vcmplt x) s) := by
  unfold exec execVcmplt runVcmp runReg; exact Shape.of rfl rfl
theorem Shape.vcmple (x : Ops) (s : State) : Shape .vcmple x s (exec (.vcmple x) s) := by
  unfold exec execVcmple runVcmp runReg; exact Shape.of rfl rfl
theorem Shape.vsel (x : Ops) (s : State) : Shape .vsel x s (exec (.vsel x) s) := by
  unfold exec execVsel runVec runReg; exact Shape.of rfl rfl
theorem Shape.vmov (x : Ops) (s : State) : Shape .vmov x s (exec (.vmov x) s) := by
  unfold exec execVmov runVec runReg; exact Shape.of rfl rfl
theorem Shape.vdot (x : Ops) (s : State) : Shape .vdot x s (exec (.vdot x) s) := by
  unfold exec execVdot runVec runReg; exact Shape.of rfl rfl
theorem Shape.vcvt (x : Ops) (s : State) : Shape .vcvt x s (exec (.vcvt x) s) := by
  unfold exec execVcvt runMixed; exact Shape.of rfl rfl
theorem Shape.vbscl (x : Ops) (s : State) : Shape .vbscl x s (exec (.vbscl x) s) := by
  unfold exec execVbscl runMixed; exact Shape.of rfl rfl
theorem Shape.vbqntScale (x : Ops) (s : State) : Shape .vbqntScale x s (exec (.vbqntScale x) s) := by
  unfold exec execVbqntScale runReg; exact Shape.of rfl rfl
theorem Shape.vbqntQuant (x : Ops) (s : State) : Shape .vbqntQuant x s (exec (.vbqntQuant x) s) := by
  unfold exec execVbqntQuant runMixed; exact Shape.of rfl rfl
theorem Shape.vredsum (x : Ops) (s : State) : Shape .vredsum x s (exec (.vredsum x) s) := by
  unfold exec execVredsum runReg; exact Shape.of rfl rfl
theorem Shape.vredmin (x : Ops) (s : State) : Shape .vredmin x s (exec (.vredmin x) s) := by
  unfold exec execVredmin runRedPick runReg; exact Shape.of rfl rfl
theorem Shape.vredmax (x : Ops) (s : State) : Shape .vredmax x s (exec (.vredmax x) s) := by
  unfold exec execVredmax runRedPick runReg; exact Shape.of rfl rfl
theorem Shape.vscan (x : Ops) (s : State) : Shape .vscan x s (exec (.vscan x) s) := by
  unfold exec execVscan runReg; exact Shape.of rfl rfl
theorem Shape.vscanmax (x : Ops) (s : State) : Shape .vscanmax x s (exec (.vscanmax x) s) := by
  unfold exec execVscanmax runReg; exact Shape.of rfl rfl
theorem Shape.vperm (x : Ops) (s : State) : Shape .vperm x s (exec (.vperm x) s) := by
  unfold exec execVperm runPerm runReg; exact Shape.of rfl rfl
theorem Shape.vslideUp (x : Ops) (s : State) : Shape .vslideUp x s (exec (.vslideUp x) s) := by
  unfold exec execVslideUp runPerm runReg; exact Shape.of rfl rfl
theorem Shape.vslideDown (x : Ops) (s : State) : Shape .vslideDown x s (exec (.vslideDown x) s) := by
  unfold exec execVslideDown runPerm runReg; exact Shape.of rfl rfl
theorem Shape.vbcast (x : Ops) (s : State) : Shape .vbcast x s (exec (.vbcast x) s) := by
  unfold exec execVbcast runPerm runReg; exact Shape.of rfl rfl
theorem Shape.vext (x : Ops) (s : State) : Shape .vext x s (exec (.vext x) s) := by
  unfold exec execVext runReg; exact Shape.of rfl rfl
theorem Shape.vcompress (x : Ops) (s : State) : Shape .vcompress x s (exec (.vcompress x) s) := by
  unfold exec execVcompress runReg; exact Shape.of rfl rfl
theorem Shape.viota (x : Ops) (s : State) : Shape .viota x s (exec (.viota x) s) := by
  unfold exec execViota runReg; exact Shape.of rfl rfl
theorem Shape.vhad (x : Ops) (s : State) : Shape .vhad x s (exec (.vhad x) s) := by
  unfold exec execVhad runReg; exact Shape.of rfl rfl
theorem Shape.vlut (x : Ops) (s : State) : Shape .vlut x s (exec (.vlut x) s) := by
  unfold exec execVlut runMixed; exact Shape.of rfl rfl
theorem Shape.vexp2 (x : Ops) (s : State) : Shape .vexp2 x s (exec (.vexp2 x) s) := by
  unfold exec execVexp2 runFunction runEw runVec runReg; exact Shape.of rfl rfl
theorem Shape.vlog2 (x : Ops) (s : State) : Shape .vlog2 x s (exec (.vlog2 x) s) := by
  unfold exec execVlog2 runFunction runEw runVec runReg; exact Shape.of rfl rfl
theorem Shape.vrcp (x : Ops) (s : State) : Shape .vrcp x s (exec (.vrcp x) s) := by
  unfold exec execVrcp runFunction runEw runVec runReg; exact Shape.of rfl rfl
theorem Shape.vrsq (x : Ops) (s : State) : Shape .vrsq x s (exec (.vrsq x) s) := by
  unfold exec execVrsq runFunction runEw runVec runReg; exact Shape.of rfl rfl
theorem Shape.vrng (x : Ops) (s : State) : Shape .vrng x s (exec (.vrng x) s) := by
  unfold exec execVrng runVec runReg; exact Shape.of rfl rfl
theorem Shape.setvl (x : Ops) (s : State) : Shape .setvl x s (exec (.setvl x) s) := by
  unfold exec execSetvl runReg; exact Shape.of rfl rfl
theorem Shape.getvlLen (x : Ops) (s : State) : Shape .getvlLen x s (exec (.getvlLen x) s) := by
  unfold exec execGetvlLen runReg; exact Shape.of rfl rfl
theorem Shape.getvlMax (x : Ops) (s : State) : Shape .getvlMax x s (exec (.getvlMax x) s) := by
  unfold exec execGetvlMax runReg; exact Shape.of rfl rfl
theorem Shape.kand (x : Ops) (s : State) : Shape .kand x s (exec (.kand x) s) := by
  unfold exec execKand runPred runReg; exact Shape.of rfl rfl
theorem Shape.kor (x : Ops) (s : State) : Shape .kor x s (exec (.kor x) s) := by
  unfold exec execKor runPred runReg; exact Shape.of rfl rfl
theorem Shape.kxor (x : Ops) (s : State) : Shape .kxor x s (exec (.kxor x) s) := by
  unfold exec execKxor runPred runReg; exact Shape.of rfl rfl
theorem Shape.knot (x : Ops) (s : State) : Shape .knot x s (exec (.knot x) s) := by
  unfold exec execKnot runPred runReg; exact Shape.of rfl rfl
theorem Shape.kcnt (x : Ops) (s : State) : Shape .kcnt x s (exec (.kcnt x) s) := by
  unfold exec execKcnt runReg; exact Shape.of rfl rfl
theorem Shape.kfirst (x : Ops) (s : State) : Shape .kfirst x s (exec (.kfirst x) s) := by
  unfold exec execKfirst runReg; exact Shape.of rfl rfl
theorem Shape.kwhile (x : Ops) (s : State) : Shape .kwhile x s (exec (.kwhile x) s) := by
  unfold exec execKwhile runReg; exact Shape.of rfl rfl
theorem Shape.mzero (x : Ops) (s : State) : Shape .mzero x s (exec (.mzero x) s) := by
  unfold exec execMzero runTile runReg; exact Shape.of rfl rfl
theorem Shape.mop (x : Ops) (s : State) : Shape .mop x s (exec (.mop x) s) := by
  unfold exec execMop runTile runReg; exact Shape.of rfl rfl
theorem Shape.mops (x : Ops) (s : State) : Shape .mops x s (exec (.mops x) s) := by
  unfold exec execMops runTile runReg; exact Shape.of rfl rfl
theorem Shape.mopk (x : Ops) (s : State) : Shape .mopk x s (exec (.mopk x) s) := by
  unfold exec execMopk; exact Shape.of rfl rfl
theorem Shape.mld (x : Ops) (s : State) : Shape .mld x s (exec (.mld x) s) := by
  unfold exec execMld; exact Shape.of rfl rfl
theorem Shape.mst (x : Ops) (s : State) : Shape .mst x s (exec (.mst x) s) := by
  unfold exec execMst; exact Shape.of rfl rfl
theorem Shape.mldt (x : Ops) (s : State) : Shape .mldt x s (exec (.mldt x) s) := by
  unfold exec execMldt; exact Shape.of rfl rfl
theorem Shape.mstt (x : Ops) (s : State) : Shape .mstt x s (exec (.mstt x) s) := by
  unfold exec execMstt; exact Shape.of rfl rfl
theorem Shape.mmovv (x : Ops) (s : State) : Shape .mmovv x s (exec (.mmovv x) s) := by
  unfold exec execMmovv runTile runReg; exact Shape.of rfl rfl
theorem Shape.mmova (x : Ops) (s : State) : Shape .mmova x s (exec (.mmova x) s) := by
  unfold exec execMmova runTile runReg; exact Shape.of rfl rfl
theorem Shape.mscl (x : Ops) (s : State) : Shape .mscl x s (exec (.mscl x) s) := by
  unfold exec execMscl runRows runReg; exact Shape.of rfl rfl
theorem Shape.mcvt (x : Ops) (s : State) : Shape .mcvt x s (exec (.mcvt x) s) := by
  unfold exec execMcvt runRows runReg; exact Shape.of rfl rfl
theorem Shape.mrel (x : Ops) (s : State) : Shape .mrel x s (exec (.mrel x) s) := by
  unfold exec execMrel runTile runReg; exact Shape.of rfl rfl
theorem Shape.dnorm (x : Ops) (s : State) : Shape .dnorm x s (exec (.dnorm x) s) := by
  unfold exec execDnorm runPair runReg; exact Shape.of (dirLong_isSome _ _ _ rfl rfl rfl) rfl
theorem Shape.dexp (x : Ops) (s : State) : Shape .dexp x s (exec (.dexp x) s) := by
  unfold exec execDexp runReg; exact Shape.of (dirLong_isSome _ _ _ rfl rfl rfl) rfl
theorem Shape.ddot (x : Ops) (s : State) : Shape .ddot x s (exec (.ddot x) s) := by
  unfold exec execDdot runPairG runReg; exact Shape.of rfl rfl
theorem Shape.ddotf (x : Ops) (s : State) : Shape .ddotf x s (exec (.ddotf x) s) := by
  unfold exec execDdotf runPairG runReg; exact Shape.of rfl rfl
theorem Shape.dsclVal (x : Ops) (s : State) : Shape .dsclVal x s (exec (.dsclVal x) s) := by
  unfold exec execDsclVal runPair runReg; exact Shape.of rfl rfl
theorem Shape.dsclLog (x : Ops) (s : State) : Shape .dsclLog x s (exec (.dsclLog x) s) := by
  unfold exec execDsclLog runPair runReg; exact Shape.of rfl rfl
theorem Shape.dadd (x : Ops) (s : State) : Shape .dadd x s (exec (.dadd x) s) := by
  unfold exec execDadd runPair runReg; exact Shape.of (dirLong_isSome _ _ _ rfl rfl rfl) rfl
theorem Shape.dsub (x : Ops) (s : State) : Shape .dsub x s (exec (.dsub x) s) := by
  unfold exec execDsub runPair runReg; exact Shape.of (dirLong_isSome _ _ _ rfl rfl rfl) rfl
theorem Shape.dprojPar (x : Ops) (s : State) : Shape .dprojPar x s (exec (.dprojPar x) s) := by
  unfold exec execDprojPar runPair runReg; exact Shape.of (dirLong_isSome _ _ _ rfl rfl rfl) rfl
theorem Shape.dprojPerp (x : Ops) (s : State) : Shape .dprojPerp x s (exec (.dprojPerp x) s) := by
  unfold exec execDprojPerp runPair runReg; exact Shape.of (dirLong_isSome _ _ _ rfl rfl rfl) rfl
theorem Shape.dmov (x : Ops) (s : State) : Shape .dmov x s (exec (.dmov x) s) := by
  unfold exec execDmov runReg; exact Shape.of rfl rfl
theorem Shape.dld (x : Ops) (s : State) : Shape .dld x s (exec (.dld x) s) := by
  unfold exec execDld; exact Shape.of rfl rfl
theorem Shape.dst (x : Ops) (s : State) : Shape .dst x s (exec (.dst x) s) := by
  unfold exec execDst; exact Shape.of rfl rfl
theorem Shape.dcmpGe (x : Ops) (s : State) : Shape .dcmpGe x s (exec (.dcmpGe x) s) := by
  unfold exec execDcmpGe runDcmp runPairG runReg; exact Shape.of rfl rfl
theorem Shape.dcmpGt (x : Ops) (s : State) : Shape .dcmpGt x s (exec (.dcmpGt x) s) := by
  unfold exec execDcmpGt runDcmp runPairG runReg; exact Shape.of rfl rfl
theorem Shape.dcmpSame (x : Ops) (s : State) : Shape .dcmpSame x s (exec (.dcmpSame x) s) := by
  unfold exec execDcmpSame runPairG runReg; exact Shape.of rfl rfl
theorem Shape.dgetnLog (x : Ops) (s : State) : Shape .dgetnLog x s (exec (.dgetnLog x) s) := by
  unfold exec execDgetnLog runDgetn runReg; exact Shape.of rfl rfl
theorem Shape.dgetnLen (x : Ops) (s : State) : Shape .dgetnLen x s (exec (.dgetnLen x) s) := by
  unfold exec execDgetnLen runDgetn runReg; exact Shape.of rfl rfl
theorem Shape.dsetn (x : Ops) (s : State) : Shape .dsetn x s (exec (.dsetn x) s) := by
  unfold exec execDsetn runReg; exact Shape.of rfl rfl
theorem Shape.ld (x : Ops) (s : State) : Shape .ld x s (exec (.ld x) s) := by
  unfold exec execLd runLoad; exact Shape.of rfl rfl
theorem Shape.st (x : Ops) (s : State) : Shape .st x s (exec (.st x) s) := by
  unfold exec execSt runStore; exact Shape.of rfl rfl
theorem Shape.lda (x : Ops) (s : State) : Shape .lda x s (exec (.lda x) s) := by
  unfold exec execLda runLoad; exact Shape.of rfl rfl
theorem Shape.stl (x : Ops) (s : State) : Shape .stl x s (exec (.stl x) s) := by
  unfold exec execStl runStore; exact Shape.of rfl rfl
theorem Shape.ldv (x : Ops) (s : State) : Shape .ldv x s (exec (.ldv x) s) := by
  unfold exec execLdv runVecMem; exact Shape.of rfl rfl
theorem Shape.stv (x : Ops) (s : State) : Shape .stv x s (exec (.stv x) s) := by
  unfold exec execStv runVecMem; exact Shape.of rfl rfl
theorem Shape.lds (x : Ops) (s : State) : Shape .lds x s (exec (.lds x) s) := by
  unfold exec execLds runVecMem; exact Shape.of rfl rfl
theorem Shape.sts (x : Ops) (s : State) : Shape .sts x s (exec (.sts x) s) := by
  unfold exec execSts runVecMem; exact Shape.of rfl rfl
theorem Shape.ldg (x : Ops) (s : State) : Shape .ldg x s (exec (.ldg x) s) := by
  unfold exec execLdg runVecMem; exact Shape.of rfl rfl
theorem Shape.stg (x : Ops) (s : State) : Shape .stg x s (exec (.stg x) s) := by
  unfold exec execStg runVecMem; exact Shape.of rfl rfl
theorem Shape.ldff (x : Ops) (s : State) : Shape .ldff x s (exec (.ldff x) s) := by
  unfold exec execLdff; exact Shape.of rfl rfl
theorem Shape.amo (x : Ops) (s : State) : Shape .amo x s (exec (.amo x) s) := by
  unfold exec execAmo; exact Shape.of rfl rfl
theorem Shape.cas (x : Ops) (s : State) : Shape .cas x s (exec (.cas x) s) := by
  unfold exec execCas; exact Shape.of rfl rfl
theorem Shape.vamo (x : Ops) (s : State) : Shape .vamo x s (exec (.vamo x) s) := by
  unfold exec execVamo; exact Shape.of rfl rfl
theorem Shape.clean (x : Ops) (s : State) : Shape .clean x s (exec (.clean x) s) := by
  unfold exec execClean runMaint; exact Shape.of rfl rfl
theorem Shape.inval (x : Ops) (s : State) : Shape .inval x s (exec (.inval x) s) := by
  unfold exec execInval runMaint; exact Shape.of rfl rfl
theorem Shape.flush (x : Ops) (s : State) : Shape .flush x s (exec (.flush x) s) := by
  unfold exec execFlush runMaint; exact Shape.of rfl rfl
theorem Shape.pf (x : Ops) (s : State) : Shape .pf x s (exec (.pf x) s) := by
  unfold exec execPf; exact Shape.of rfl rfl
theorem Shape.pfh (x : Ops) (s : State) : Shape .pfh x s (exec (.pfh x) s) := by
  unfold exec execPfh; exact Shape.of rfl rfl
theorem Shape.fence (x : Ops) (s : State) : Shape .fence x s (exec (.fence x) s) := by
  unfold exec execFence; exact Shape.of rfl rfl
theorem Shape.fenceSc (x : Ops) (s : State) : Shape .fenceSc x s (exec (.fenceSc x) s) := by
  unfold exec execFenceSc; exact Shape.of rfl rfl
theorem Shape.cpyByte (x : Ops) (s : State) : Shape .cpyByte x s (exec (.cpyByte x) s) := by
  unfold exec execCpyByte runCopy; exact Shape.of rfl rfl
theorem Shape.cpyTin (x : Ops) (s : State) : Shape .cpyTin x s (exec (.cpyTin x) s) := by
  unfold exec execCpyTin runCopy; exact Shape.of rfl rfl
theorem Shape.cpyTout (x : Ops) (s : State) : Shape .cpyTout x s (exec (.cpyTout x) s) := by
  unfold exec execCpyTout runCopy; exact Shape.of rfl rfl
theorem Shape.cpyBloom (x : Ops) (s : State) : Shape .cpyBloom x s (exec (.cpyBloom x) s) := by
  unfold exec execCpyBloom runCopy; exact Shape.of rfl rfl
theorem Shape.cpyf (x : Ops) (s : State) : Shape .cpyf x s (exec (.cpyf x) s) := by
  unfold exec execCpyf runCopy; exact Shape.of rfl rfl
theorem Shape.cpyc (x : Ops) (s : State) : Shape .cpyc x s (exec (.cpyc x) s) := by
  unfold exec execCpyc runCopy; exact Shape.of rfl rfl
theorem Shape.give (x : Ops) (s : State) : Shape .give x s (exec (.give x) s) := by
  unfold exec execGive runBuffer; exact Shape.of rfl rfl
theorem Shape.take (x : Ops) (s : State) : Shape .take x s (exec (.take x) s) := by
  unfold exec execTake runBuffer; exact Shape.of rfl rfl
theorem Shape.takeNew (x : Ops) (s : State) : Shape .takeNew x s (exec (.takeNew x) s) := by
  unfold exec execTakeNew runBuffer; exact Shape.of rfl rfl
theorem Shape.waitb (x : Ops) (s : State) : Shape .waitb x s (exec (.waitb x) s) := by
  unfold exec execWaitb; exact Shape.of rfl rfl
theorem Shape.bkadd (x : Ops) (s : State) : Shape .bkadd x s (exec (.bkadd x) s) := by
  unfold exec execBkadd runBank; exact Shape.of rfl rfl
theorem Shape.bkmul (x : Ops) (s : State) : Shape .bkmul x s (exec (.bkmul x) s) := by
  unfold exec execBkmul runBank; exact Shape.of rfl rfl
theorem Shape.bkfma (x : Ops) (s : State) : Shape .bkfma x s (exec (.bkfma x) s) := by
  unfold exec execBkfma runBank; exact Shape.of rfl rfl
theorem Shape.bkdot8 (x : Ops) (s : State) : Shape .bkdot8 x s (exec (.bkdot8 x) s) := by
  unfold exec execBkdot8 runBank; exact Shape.of rfl rfl
theorem Shape.bklut4 (x : Ops) (s : State) : Shape .bklut4 x s (exec (.bklut4 x) s) := by
  unfold exec execBklut4 runBank; exact Shape.of rfl rfl
theorem Shape.bksum (x : Ops) (s : State) : Shape .bksum x s (exec (.bksum x) s) := by
  unfold exec execBksum runBank; exact Shape.of rfl rfl
theorem Shape.bkfill (x : Ops) (s : State) : Shape .bkfill x s (exec (.bkfill x) s) := by
  unfold exec execBkfill runBank; exact Shape.of rfl rfl
theorem Shape.bkacc (x : Ops) (s : State) : Shape .bkacc x s (exec (.bkacc x) s) := by
  unfold exec execBkacc runBank; exact Shape.of rfl rfl
theorem Shape.bkclr (x : Ops) (s : State) : Shape .bkclr x s (exec (.bkclr x) s) := by
  unfold exec execBkclr runBank; exact Shape.of rfl rfl
theorem Shape.rpgo (x : Ops) (s : State) : Shape .rpgo x s (exec (.rpgo x) s) := by
  unfold exec execRpgo; exact Shape.of rfl rfl
theorem Shape.rpmodeCopy (x : Ops) (s : State) : Shape .rpmodeCopy x s (exec (.rpmodeCopy x) s) := by
  unfold exec execRpmodeCopy runRpmode; exact Shape.of rfl rfl
theorem Shape.rpmodeCompute (x : Ops) (s : State) : Shape .rpmodeCompute x s (exec (.rpmodeCompute x) s) := by
  unfold exec execRpmodeCompute runRpmode; exact Shape.of rfl rfl
theorem Shape.br (x : Ops) (s : State) : Shape .br x s (exec (.br x) s) := by
  unfold exec execBr runTransfer; exact Shape.of rfl rfl
theorem Shape.brz (x : Ops) (s : State) : Shape .brz x s (exec (.brz x) s) := by
  unfold exec execBrz runTransfer; exact Shape.of rfl rfl
theorem Shape.brnz (x : Ops) (s : State) : Shape .brnz x s (exec (.brnz x) s) := by
  unfold exec execBrnz runTransfer; exact Shape.of rfl rfl
theorem Shape.jmp (x : Ops) (s : State) : Shape .jmp x s (exec (.jmp x) s) := by
  unfold exec execJmp runTransfer; exact Shape.of rfl rfl
theorem Shape.jr (x : Ops) (s : State) : Shape .jr x s (exec (.jr x) s) := by
  unfold exec execJr runTransfer; exact Shape.of rfl rfl
theorem Shape.call (x : Ops) (s : State) : Shape .call x s (exec (.call x) s) := by
  unfold exec execCall runTransfer; exact Shape.of rfl rfl
theorem Shape.callReg (x : Ops) (s : State) : Shape .callReg x s (exec (.callReg x) s) := by
  unfold exec execCallReg runTransfer; exact Shape.of rfl rfl
theorem Shape.ret (x : Ops) (s : State) : Shape .ret x s (exec (.ret x) s) := by
  unfold exec execRet runTransfer; exact Shape.of rfl rfl
theorem Shape.spawn (x : Ops) (s : State) : Shape .spawn x s (exec (.spawn x) s) := by
  unfold exec execSpawn; exact Shape.of rfl rfl
theorem Shape.done (x : Ops) (s : State) : Shape .done x s (exec (.done x) s) := by
  unfold exec execDone runEnd; exact Shape.of rfl rfl
theorem Shape.endTask (x : Ops) (s : State) : Shape .endTask x s (exec (.endTask x) s) := by
  unfold exec execEndTask runEnd; exact Shape.of rfl rfl
theorem Shape.yield (x : Ops) (s : State) : Shape .yield x s (exec (.yield x) s) := by
  unfold exec execYield; exact Shape.of rfl rfl
theorem Shape.waitc (x : Ops) (s : State) : Shape .waitc x s (exec (.waitc x) s) := by
  unfold exec execWaitc; exact Shape.of rfl rfl
theorem Shape.waita (x : Ops) (s : State) : Shape .waita x s (exec (.waita x) s) := by
  unfold exec execWaita; exact Shape.of rfl rfl
theorem Shape.launch (x : Ops) (s : State) : Shape .launch x s (exec (.launch x) s) := by
  unfold exec execLaunch; exact Shape.of rfl rfl
theorem Shape.liveSet (x : Ops) (s : State) : Shape .liveSet x s (exec (.liveSet x) s) := by
  unfold exec execLiveSet; exact Shape.of rfl rfl
theorem Shape.liveDrop (x : Ops) (s : State) : Shape .liveDrop x s (exec (.liveDrop x) s) := by
  unfold exec execLiveDrop; exact Shape.of rfl rfl
theorem Shape.mfs (x : Ops) {s : State} {n : Nat} (ht : s.turn = .hart n) (hc : sregCheck (isSys n) false (sNum x.a) = none) :
    Shape .mfs x s (exec (.mfs x) s) := Shape.sreg ht hc rfl rfl
theorem Shape.mts (x : Ops) {s : State} {n : Nat} (ht : s.turn = .hart n) (hc : sregCheck (isSys n) true (sNum x.d) = none) :
    Shape .mts x s (exec (.mts x) s) := Shape.sreg ht hc rfl rfl
theorem Shape.traps (x : Ops) (s : State) : Shape .traps x s (exec (.traps x) s) := by
  unfold exec execTraps; exact Shape.of rfl rfl
theorem Shape.brk (x : Ops) (s : State) : Shape .brk x s (exec (.brk x) s) := by
  unfold exec execBrk; exact Shape.of rfl rfl
theorem Shape.tlbinvVa (x : Ops) (s : State) : Shape .tlbinvVa x s (exec (.tlbinvVa x) s) := by
  unfold exec execTlbinvVa runInval runSystem; exact Shape.of rfl rfl
theorem Shape.tlbinvAsid (x : Ops) (s : State) : Shape .tlbinvAsid x s (exec (.tlbinvAsid x) s) := by
  unfold exec execTlbinvAsid runInval runSystem; exact Shape.of rfl rfl
theorem Shape.tlbinvAll (x : Ops) (s : State) : Shape .tlbinvAll x s (exec (.tlbinvAll x) s) := by
  unfold exec execTlbinvAll runInval runSystem; exact Shape.of rfl rfl
theorem Shape.revokeRegion (x : Ops) (s : State) : Shape .revokeRegion x s (exec (.revokeRegion x) s) := by
  unfold exec execRevokeRegion runInval runSystem; exact Shape.of rfl rfl
theorem Shape.revokeAsid (x : Ops) (s : State) : Shape .revokeAsid x s (exec (.revokeAsid x) s) := by
  unfold exec execRevokeAsid runInval runSystem; exact Shape.of rfl rfl
theorem Shape.resume (x : Ops) (s : State) : Shape .resume x s (exec (.resume x) s) := by
  unfold exec execResume runSystem; exact Shape.of rfl rfl
theorem Shape.kill (x : Ops) (s : State) : Shape .kill x s (exec (.kill x) s) := by
  unfold exec execKill runSystem; exact Shape.of rfl rfl
theorem Shape.attest (x : Ops) (s : State) : Shape .attest x s (exec (.attest x) s) := by
  unfold exec execAttest runSystem; exact Shape.of rfl rfl
theorem Shape.eret (x : Ops) (s : State) : Shape .eret x s (exec (.eret x) s) := by
  unfold exec execEret; exact Shape.of rfl rfl
theorem Shape.scrub (x : Ops) (s : State) : Shape .scrub x s (exec (.scrub x) s) := by
  unfold exec execScrub runSystem; exact Shape.of rfl rfl
theorem Shape.beamrateSet (x : Ops) (s : State) : Shape .beamrateSet x s (exec (.beamrateSet x) s) := by
  unfold exec execBeamrateSet runBeam runSystem; exact Shape.of rfl rfl
theorem Shape.beamrateFloor (x : Ops) (s : State) : Shape .beamrateFloor x s (exec (.beamrateFloor x) s) := by
  unfold exec execBeamrateFloor runBeamSetting runBeam runSystem; exact Shape.of rfl rfl
theorem Shape.beamrateCeil (x : Ops) (s : State) : Shape .beamrateCeil x s (exec (.beamrateCeil x) s) := by
  unfold exec execBeamrateCeil runBeamSetting runBeam runSystem; exact Shape.of rfl rfl
theorem Shape.beamrateOwner (x : Ops) (s : State) : Shape .beamrateOwner x s (exec (.beamrateOwner x) s) := by
  unfold exec execBeamrateOwner runBeamSetting runBeam runSystem; exact Shape.of rfl rfl
theorem Shape.beamretire (x : Ops) (s : State) : Shape .beamretire x s (exec (.beamretire x) s) := by
  unfold exec execBeamretire runBeam runSystem; exact Shape.of rfl rfl
theorem Shape.beamstatRate (x : Ops) (s : State) : Shape .beamstatRate x s (exec (.beamstatRate x) s) := by
  unfold exec execBeamstatRate runBeamstat runBeam runSystem; exact Shape.of rfl rfl
theorem Shape.beamstatWidth (x : Ops) (s : State) : Shape .beamstatWidth x s (exec (.beamstatWidth x) s) := by
  unfold exec execBeamstatWidth runBeamstat runBeam runSystem; exact Shape.of rfl rfl
theorem Shape.beamstatRetired (x : Ops) (s : State) : Shape .beamstatRetired x s (exec (.beamstatRetired x) s) := by
  unfold exec execBeamstatRetired runBeamstat runBeam runSystem; exact Shape.of rfl rfl
theorem Shape.beamstatCrc (x : Ops) (s : State) : Shape .beamstatCrc x s (exec (.beamstatCrc x) s) := by
  unfold exec execBeamstatCrc runBeamstat runBeam runSystem; exact Shape.of rfl rfl
theorem Shape.beamstatReplay (x : Ops) (s : State) : Shape .beamstatReplay x s (exec (.beamstatReplay x) s) := by
  unfold exec execBeamstatReplay runBeamstat runBeam runSystem; exact Shape.of rfl rfl
theorem Shape.beamstatRrate (x : Ops) (s : State) : Shape .beamstatRrate x s (exec (.beamstatRrate x) s) := by
  unfold exec execBeamstatRrate runBeamstat runBeam runSystem; exact Shape.of rfl rfl
theorem Shape.beamstatModule (x : Ops) (s : State) : Shape .beamstatModule x s (exec (.beamstatModule x) s) := by
  unfold exec execBeamstatModule runBeamstat runBeam runSystem; exact Shape.of rfl rfl
theorem Shape.beamstatCfg (x : Ops) (s : State) : Shape .beamstatCfg x s (exec (.beamstatCfg x) s) := by
  unfold exec execBeamstatCfg runBeamstat runBeam runSystem; exact Shape.of rfl rfl
theorem Shape.beamstatEvents (x : Ops) (s : State) : Shape .beamstatEvents x s (exec (.beamstatEvents x) s) := by
  unfold exec execBeamstatEvents runBeam runSystem; exact Shape.of rfl rfl

/-- Every core instruction begins as `runCore` does. -/
theorem core_shape {i : Instr} {d : Desc} {x : Ops} (hp : i.parts = some (d, x)) (hg : opGroup d.op ≠ 0x10) {s : State} {n : Nat}
    (ht : s.turn = .hart n) (h1 : d.op = 0x30F → sregCheck (isSys n) false (sNum x.a) = none)
    (h2 : d.op = 0x310 → sregCheck (isSys n) true (sNum x.d) = none) : Shape d x s (exec i s) := by
  cases i with
  | add y => cases hp; exact Shape.add _ s
  | sub y => cases hp; exact Shape.sub _ s
  | mul y => cases hp; exact Shape.mul _ s
  | mulh y => cases hp; exact Shape.mulh _ s
  | mulhu y => cases hp; exact Shape.mulhu _ s
  | div y => cases hp; exact Shape.div _ s
  | divu y => cases hp; exact Shape.divu _ s
  | rem y => cases hp; exact Shape.rem _ s
  | remu y => cases hp; exact Shape.remu _ s
  | and y => cases hp; exact Shape.and _ s
  | or y => cases hp; exact Shape.or _ s
  | xor y => cases hp; exact Shape.xor _ s
  | andn y => cases hp; exact Shape.andn _ s
  | shl y => cases hp; exact Shape.shl _ s
  | shr y => cases hp; exact Shape.shr _ s
  | sra y => cases hp; exact Shape.sra _ s
  | rol y => cases hp; exact Shape.rol _ s
  | clz y => cases hp; exact Shape.clz _ s
  | ctz y => cases hp; exact Shape.ctz _ s
  | popc y => cases hp; exact Shape.popc _ s
  | min y => cases hp; exact Shape.min _ s
  | max y => cases hp; exact Shape.max _ s
  | minu y => cases hp; exact Shape.minu _ s
  | maxu y => cases hp; exact Shape.maxu _ s
  | slt y => cases hp; exact Shape.slt _ s
  | sltu y => cases hp; exact Shape.sltu _ s
  | seq y => cases hp; exact Shape.seq _ s
  | sel y => cases hp; exact Shape.sel _ s
  | mov y => cases hp; exact Shape.mov _ s
  | li y => cases hp; exact Shape.li _ s
  | lih y => cases hp; exact Shape.lih _ s
  | sext y => cases hp; exact Shape.sext _ s
  | zext y => cases hp; exact Shape.zext _ s
  | lea y => cases hp; exact Shape.lea _ s
  | leaPc y => cases hp; exact Shape.leaPc _ s
  | fadd y => cases hp; exact Shape.fadd _ s
  | fsub y => cases hp; exact Shape.fsub _ s
  | fmul y => cases hp; exact Shape.fmul _ s
  | fma y => cases hp; exact Shape.fma _ s
  | fdiv y => cases hp; exact Shape.fdiv _ s
  | fsqrt y => cases hp; exact Shape.fsqrt _ s
  | fmin y => cases hp; exact Shape.fmin _ s
  | fmax y => cases hp; exact Shape.fmax _ s
  | fcvt y => cases hp; exact Shape.fcvt _ s
  | fcmp y => cases hp; exact Shape.fcmp _ s
  | fclass y => cases hp; exact Shape.fclass _ s
  | vadd y => cases hp; exact Shape.vadd _ s
  | vsub y => cases hp; exact Shape.vsub _ s
  | vmul y => cases hp; exact Shape.vmul _ s
  | vmulh y => cases hp; exact Shape.vmulh _ s
  | vfma y => cases hp; exact Shape.vfma _ s
  | vdiv y => cases hp; exact Shape.vdiv _ s
  | vsqrt y => cases hp; exact Shape.vsqrt _ s
  | vmin y => cases hp; exact Shape.vmin _ s
  | vmax y => cases hp; exact Shape.vmax _ s
  | vabs y => cases hp; exact Shape.vabs _ s
  | vand y => cases hp; exact Shape.vand _ s
  | vor y => cases hp; exact Shape.vor _ s
  | vxor y => cases hp; exact Shape.vxor _ s
  | vandn y => cases hp; exact Shape.vandn _ s
  | vshl y => cases hp; exact Shape.vshl _ s
  | vshr y => cases hp; exact Shape.vshr _ s
  | vsra y => cases hp; exact Shape.vsra _ s
  | vcmpeq y => cases hp; exact Shape.vcmpeq _ s
  | vcmpne y => cases hp; exact Shape.vcmpne _ s
  | vcmplt y => cases hp; exact Shape.vcmplt _ s
  | vcmple y => cases hp; exact Shape.vcmple _ s
  | vsel y => cases hp; exact Shape.vsel _ s
  | vmov y => cases hp; exact Shape.vmov _ s
  | vdot y => cases hp; exact Shape.vdot _ s
  | vcvt y => cases hp; exact Shape.vcvt _ s
  | vbscl y => cases hp; exact Shape.vbscl _ s
  | vbqntScale y => cases hp; exact Shape.vbqntScale _ s
  | vbqntQuant y => cases hp; exact Shape.vbqntQuant _ s
  | vredsum y => cases hp; exact Shape.vredsum _ s
  | vredmin y => cases hp; exact Shape.vredmin _ s
  | vredmax y => cases hp; exact Shape.vredmax _ s
  | vscan y => cases hp; exact Shape.vscan _ s
  | vscanmax y => cases hp; exact Shape.vscanmax _ s
  | vperm y => cases hp; exact Shape.vperm _ s
  | vslideUp y => cases hp; exact Shape.vslideUp _ s
  | vslideDown y => cases hp; exact Shape.vslideDown _ s
  | vbcast y => cases hp; exact Shape.vbcast _ s
  | vext y => cases hp; exact Shape.vext _ s
  | vcompress y => cases hp; exact Shape.vcompress _ s
  | viota y => cases hp; exact Shape.viota _ s
  | vhad y => cases hp; exact Shape.vhad _ s
  | vlut y => cases hp; exact Shape.vlut _ s
  | vexp2 y => cases hp; exact Shape.vexp2 _ s
  | vlog2 y => cases hp; exact Shape.vlog2 _ s
  | vrcp y => cases hp; exact Shape.vrcp _ s
  | vrsq y => cases hp; exact Shape.vrsq _ s
  | vrng y => cases hp; exact Shape.vrng _ s
  | setvl y => cases hp; exact Shape.setvl _ s
  | getvlLen y => cases hp; exact Shape.getvlLen _ s
  | getvlMax y => cases hp; exact Shape.getvlMax _ s
  | kand y => cases hp; exact Shape.kand _ s
  | kor y => cases hp; exact Shape.kor _ s
  | kxor y => cases hp; exact Shape.kxor _ s
  | knot y => cases hp; exact Shape.knot _ s
  | kcnt y => cases hp; exact Shape.kcnt _ s
  | kfirst y => cases hp; exact Shape.kfirst _ s
  | kwhile y => cases hp; exact Shape.kwhile _ s
  | mzero y => cases hp; exact Shape.mzero _ s
  | mop y => cases hp; exact Shape.mop _ s
  | mops y => cases hp; exact Shape.mops _ s
  | mopk y => cases hp; exact Shape.mopk _ s
  | mld y => cases hp; exact Shape.mld _ s
  | mst y => cases hp; exact Shape.mst _ s
  | mldt y => cases hp; exact Shape.mldt _ s
  | mstt y => cases hp; exact Shape.mstt _ s
  | mmovv y => cases hp; exact Shape.mmovv _ s
  | mmova y => cases hp; exact Shape.mmova _ s
  | mscl y => cases hp; exact Shape.mscl _ s
  | mcvt y => cases hp; exact Shape.mcvt _ s
  | mrel y => cases hp; exact Shape.mrel _ s
  | dnorm y => cases hp; exact Shape.dnorm _ s
  | dexp y => cases hp; exact Shape.dexp _ s
  | ddot y => cases hp; exact Shape.ddot _ s
  | ddotf y => cases hp; exact Shape.ddotf _ s
  | dsclVal y => cases hp; exact Shape.dsclVal _ s
  | dsclLog y => cases hp; exact Shape.dsclLog _ s
  | dadd y => cases hp; exact Shape.dadd _ s
  | dsub y => cases hp; exact Shape.dsub _ s
  | dprojPar y => cases hp; exact Shape.dprojPar _ s
  | dprojPerp y => cases hp; exact Shape.dprojPerp _ s
  | dmov y => cases hp; exact Shape.dmov _ s
  | dld y => cases hp; exact Shape.dld _ s
  | dst y => cases hp; exact Shape.dst _ s
  | dcmpGe y => cases hp; exact Shape.dcmpGe _ s
  | dcmpGt y => cases hp; exact Shape.dcmpGt _ s
  | dcmpSame y => cases hp; exact Shape.dcmpSame _ s
  | dgetnLog y => cases hp; exact Shape.dgetnLog _ s
  | dgetnLen y => cases hp; exact Shape.dgetnLen _ s
  | dsetn y => cases hp; exact Shape.dsetn _ s
  | ld y => cases hp; exact Shape.ld _ s
  | st y => cases hp; exact Shape.st _ s
  | lda y => cases hp; exact Shape.lda _ s
  | stl y => cases hp; exact Shape.stl _ s
  | ldv y => cases hp; exact Shape.ldv _ s
  | stv y => cases hp; exact Shape.stv _ s
  | lds y => cases hp; exact Shape.lds _ s
  | sts y => cases hp; exact Shape.sts _ s
  | ldg y => cases hp; exact Shape.ldg _ s
  | stg y => cases hp; exact Shape.stg _ s
  | ldff y => cases hp; exact Shape.ldff _ s
  | amo y => cases hp; exact Shape.amo _ s
  | cas y => cases hp; exact Shape.cas _ s
  | vamo y => cases hp; exact Shape.vamo _ s
  | clean y => cases hp; exact Shape.clean _ s
  | inval y => cases hp; exact Shape.inval _ s
  | flush y => cases hp; exact Shape.flush _ s
  | pf y => cases hp; exact Shape.pf _ s
  | pfh y => cases hp; exact Shape.pfh _ s
  | fence y => cases hp; exact Shape.fence _ s
  | fenceSc y => cases hp; exact Shape.fenceSc _ s
  | cpyByte y => cases hp; exact Shape.cpyByte _ s
  | cpyTin y => cases hp; exact Shape.cpyTin _ s
  | cpyTout y => cases hp; exact Shape.cpyTout _ s
  | cpyBloom y => cases hp; exact Shape.cpyBloom _ s
  | cpyf y => cases hp; exact Shape.cpyf _ s
  | cpyc y => cases hp; exact Shape.cpyc _ s
  | give y => cases hp; exact Shape.give _ s
  | take y => cases hp; exact Shape.take _ s
  | takeNew y => cases hp; exact Shape.takeNew _ s
  | waitb y => cases hp; exact Shape.waitb _ s
  | bkadd y => cases hp; exact Shape.bkadd _ s
  | bkmul y => cases hp; exact Shape.bkmul _ s
  | bkfma y => cases hp; exact Shape.bkfma _ s
  | bkdot8 y => cases hp; exact Shape.bkdot8 _ s
  | bklut4 y => cases hp; exact Shape.bklut4 _ s
  | bksum y => cases hp; exact Shape.bksum _ s
  | bkfill y => cases hp; exact Shape.bkfill _ s
  | bkacc y => cases hp; exact Shape.bkacc _ s
  | bkclr y => cases hp; exact Shape.bkclr _ s
  | rpgo y => cases hp; exact Shape.rpgo _ s
  | rpmodeCopy y => cases hp; exact Shape.rpmodeCopy _ s
  | rpmodeCompute y => cases hp; exact Shape.rpmodeCompute _ s
  | br y => cases hp; exact Shape.br _ s
  | brz y => cases hp; exact Shape.brz _ s
  | brnz y => cases hp; exact Shape.brnz _ s
  | jmp y => cases hp; exact Shape.jmp _ s
  | jr y => cases hp; exact Shape.jr _ s
  | call y => cases hp; exact Shape.call _ s
  | callReg y => cases hp; exact Shape.callReg _ s
  | ret y => cases hp; exact Shape.ret _ s
  | spawn y => cases hp; exact Shape.spawn _ s
  | done y => cases hp; exact Shape.done _ s
  | endTask y => cases hp; exact Shape.endTask _ s
  | yield y => cases hp; exact Shape.yield _ s
  | waitc y => cases hp; exact Shape.waitc _ s
  | waita y => cases hp; exact Shape.waita _ s
  | launch y => cases hp; exact Shape.launch _ s
  | liveSet y => cases hp; exact Shape.liveSet _ s
  | liveDrop y => cases hp; exact Shape.liveDrop _ s
  | mfs y => cases hp; exact Shape.mfs _ ht (h1 rfl)
  | mts y => cases hp; exact Shape.mts _ ht (h2 rfl)
  | traps y => cases hp; exact Shape.traps _ s
  | brk y => cases hp; exact Shape.brk _ s
  | tlbinvVa y => cases hp; exact Shape.tlbinvVa _ s
  | tlbinvAsid y => cases hp; exact Shape.tlbinvAsid _ s
  | tlbinvAll y => cases hp; exact Shape.tlbinvAll _ s
  | revokeRegion y => cases hp; exact Shape.revokeRegion _ s
  | revokeAsid y => cases hp; exact Shape.revokeAsid _ s
  | resume y => cases hp; exact Shape.resume _ s
  | kill y => cases hp; exact Shape.kill _ s
  | attest y => cases hp; exact Shape.attest _ s
  | eret y => cases hp; exact Shape.eret _ s
  | scrub y => cases hp; exact Shape.scrub _ s
  | beamrateSet y => cases hp; exact Shape.beamrateSet _ s
  | beamrateFloor y => cases hp; exact Shape.beamrateFloor _ s
  | beamrateCeil y => cases hp; exact Shape.beamrateCeil _ s
  | beamrateOwner y => cases hp; exact Shape.beamrateOwner _ s
  | beamretire y => cases hp; exact Shape.beamretire _ s
  | beamstatRate y => cases hp; exact Shape.beamstatRate _ s
  | beamstatWidth y => cases hp; exact Shape.beamstatWidth _ s
  | beamstatRetired y => cases hp; exact Shape.beamstatRetired _ s
  | beamstatCrc y => cases hp; exact Shape.beamstatCrc _ s
  | beamstatReplay y => cases hp; exact Shape.beamstatReplay _ s
  | beamstatRrate y => cases hp; exact Shape.beamstatRrate _ s
  | beamstatModule y => cases hp; exact Shape.beamstatModule _ s
  | beamstatCfg y => cases hp; exact Shape.beamstatCfg _ s
  | beamstatEvents y => cases hp; exact Shape.beamstatEvents _ s
  | rc y => cases hp; exact absurd rfl hg
  | rm3 y => cases hp; exact absurd rfl hg
  | rnt y => cases hp; exact absurd rfl hg
  | rsl y => cases hp; exact absurd rfl hg
  | rsr y => cases hp; exact absurd rfl hg
  | rz y => cases hp; exact absurd rfl hg
  | ro y => cases hp; exact absurd rfl hg
  | rjoint y => cases hp; exact absurd rfl hg
  | rloop y => cases hp; exact absurd rfl hg
  | rnext y => cases hp; exact absurd rfl hg
  | rbaseSet y => cases hp; exact absurd rfl hg
  | rbaseAdd y => cases hp; exact absurd rfl hg
  | rplaneSet y => cases hp; exact absurd rfl hg
  | rplaneAdd y => cases hp; exact absurd rfl hg
  | rrd y => cases hp; exact absurd rfl hg
  | rwr y => cases hp; exact absurd rfl hg
  | rchk y => cases hp; exact absurd rfl hg
  | rsetSel y => cases hp; exact absurd rfl hg
  | rhalt y => cases hp; exact absurd rfl hg
  | powerGood => cases hp
  | phaseRomDone => cases hp
  | phaseAuthDone _ => cases hp
  | phaseDramDone _ => cases hp
  | phaseCoresDone _ _ => cases hp
  | phaseBeamsDone _ _ => cases hp
  | phaseSramDone => cases hp
  | phaseCheckDone _ => cases hp
  | perstAssert _ => cases hp
  | perstDeassert _ => cases hp
  | devreset _ => cases hp
  | portHotReset _ => cases hp
  | fwctlGo _ => cases hp
  | doorbell _ _ => cases hp
  | controlRegisterWrite _ _ => cases hp
  | hostAccess _ _ _ _ => cases hp
  | queueResident _ => cases hp
  | queueDormant _ => cases hp
  | dispatchBatch _ _ => cases hp
  | taskBind _ => cases hp
  | preemptStop _ _ => cases hp
  | imageSaveDone _ => cases hp
  | faultqHeldWrite _ => cases hp
  | watchdog _ _ _ _ _ _ => cases hp
  | bankCmdStart _ => cases hp
  | bankCmdComplete _ _ => cases hp
  | copyStart _ => cases hp
  | copyLand _ _ _ => cases hp
  | copyComplete _ _ => cases hp
  | modeChange _ _ _ => cases hp
  | rowprogStart _ => cases hp
  | waveAdmit _ _ => cases hp
  | activationAlert _ _ _ => cases hp
  | refresh _ _ => cases hp
  | rowReportStop _ => cases hp
  | flitSend _ _ _ => cases hp
  | flitReceive _ _ _ => cases hp
  | replayTimeout _ _ => cases hp
  | replayWindowEnd _ _ => cases hp
  | laneRetire _ => cases hp
  | moduleRetrainDone _ _ _ => cases hp
  | rateChangeDrained _ => cases hp
  | rateRetrainDone _ _ _ => cases hp
  | asyncTrapTake _ _ => cases hp
  | powerLimit _ => cases hp
  | thermal _ => cases hp
  | postScrap _ => cases hp
  | packageScrap _ => cases hp
  | accessPerform _ _ => cases hp
  | l2Eviction _ => cases hp
  | hostWrite _ _ => cases hp
  | remoteTimeout _ => cases hp
  | hostCompletion _ _ => cases hp
  | powerGoodDrop => cases hp
  | temperatureFall _ => cases hp

end Sys2Proof.Machine
end

