-- ==== Sys2Proof/Tests/Slice0.lean ====
section
/-! SUPPORT. Tests: ill-formed terms refused, words of the spec decoded, and for every statement a state that meets its
hypotheses, with results worked by hand from the rules. -/
namespace Sys2Proof.Tests
open Sys2Proof Sys2Proof.Machine
set_option Elab.async false

/-! Small states. -/

/-- Fields with guard k0, types I8, variant 0. -/
def ops (d a b : Operand) : Ops := ⟨0, false, d, a, b, .i8, .i8, 0, 0, false⟩
/-- The same with two types and a variant. -/
def opsT (d a b : Operand) (td ts : Ty) (var : Fin 16) : Ops := { ops d a b with td := td, ts := ts, var := var }
/-- A v group and a d group without a mark. -/
def vG (n : Fin 32) (g : Fin 4) : Operand := .v n g false
def dG (n : Fin 16) (g : Fin 5) : Operand := .d n g false

/-- A running core with pc 0x1000 and the registers g1, g2, … -/
def core (g : List Nat) : Hart := { Hart.blank with pc := 0x1000, mode := .running, g := Table.ofList 0 1 (g.map (BitVec.ofNat 64)) }

/-- Task 1 of graph 1 (ASID 1), RUNNING on core 0. -/
def task1 : Task := ⟨1, 7, 0, .running, 0, true, some 0x8000020000000, 4, 0, false, 0, 0, 0, 0, [], []⟩
def graph1 : Graph := ⟨3, 1, 5, 1, [1], 0x8000000100000, 6, 0x8000000200000, 16, 4, 20, 0, 0, 8, false, false⟩

/-- Physical address of the root table of ASID 1; the next table lies 64 KiB above. -/
def rootTable : Nat := 0x8000000010000
/-- READY, with ASID 1 mapped: the first GiB of virtual addresses is DRAM of post 0, readable, writable and executable
(Tables 18-2 and 18-3). -/
def ready : State :=
  State.putNat (State.putNat (State.putNat { State.reset with phase := 8, power := true } 0x800002F000040 8 (rootTable + 1)) rootTable 8
    (rootTable + 0x10003)) (rootTable + 0x10000) 8 0x1D

/-- A vector core, number 0, with task 1 and the registers of `h`. -/
def vec (h : Hart) : State :=
  { ready with turn := .hart 0, harts := [(0, { h with task := some 1 })], tasks := [(1, some task1)], graphs := [(1, some graph1)] }
/-- System core 0. -/
def sys (h : Hart) : State := { ready with turn := .hart 256, harts := [(256, h)] }

/-- The next state has the property. -/
def gives (r : Host.Outcome State Fault Refusal) (p : State → Bool) : Bool := match r with | .next t => p t | _ => false
/-- One step of a ready core: the hypothesis of the statements, and register `r` of the result. -/
def word (s : State) (n : Nat) (d : Desc) (x : Ops) (r v : Nat) : Bool :=
  decide (s.Ready n d x) && d.okOps x && gives (exec (d.ctor x) s) (fun t => (t.hart n).gr r = BitVec.ofNat 64 v && (t.hart n).pc = (s.hart n).pc + 12)

/-- One step of a ready core, well-formed: the next state has the property, and the core goes on. -/
def goes (s : State) (n : Nat) (d : Desc) (x : Ops) (p : State → Hart → Bool) : Bool :=
  decide (s.Ready n d x) && d.okOps x && gives (exec (d.ctor x) s) (fun t => p t (t.hart n) && (t.hart n).pc = (s.hart n).pc + 12)
/-- The same where only `Starts` is asked (element-guarded instructions). -/
def starts (s : State) (n : Nat) (d : Desc) (x : Ops) (p : State → Hart → Bool) : Bool :=
  decide (s.Starts n d x) && d.okOps x && gives (exec (d.ctor x) s) (fun t => p t (t.hart n) && (t.hart n).pc = (s.hart n).pc + 12)
/-- One step of a ready core that stops with the cause, FINFO and FADDR: its image is saved, or on a system core it goes to TVEC. -/
def halts (s : State) (n : Nat) (d : Desc) (x : Ops) (cause finfo faddr : Nat) : Bool :=
  decide (s.Ready n d x) && gives (exec (d.ctor x) s) (fun t => let h := t.hart n
    h.cause.toNat = cause && h.finfo.toNat = finfo && h.faddr.toNat = faddr && h.epc = (s.hart n).pc &&
    h.mode = (if isSys n then .running else .saving .stop) && h.pc = (if isSys n then (s.hart n).tvec else (s.hart n).pc))
/-- One step of a ready core that waits at the port, with what a WATCHDOG would report. -/
def waits (s : State) (n : Nat) (d : Desc) (x : Ops) (port kind field faddr : Nat) : Bool :=
  decide (s.Ready n d x) && gives (exec (d.ctor x) s) (fun t =>
    (t.hart n).mode = .blocked ⟨port, kind, field, BitVec.ofNat 64 faddr⟩ && (t.hart n).pc = (s.hart n).pc)
/-- Bytes placed in memory. -/
def poke (s : State) (a nb v : Nat) : State := State.putNat s a nb v
/-- An instruction from its three 32-bit words, the lowest first (R63). -/
def w3 (a b c : BitVec 32) : IWord := c ++ b ++ a

/-! Ill-formed terms: one for each check of `Desc.okOps` and `Instr.wf`. -/

/-- R67: the inverted guard of k0 is no guard. -/
theorem test_wf_guard : Desc.add.okOps (ops (.g 1) (.g 2) (.g 3)) = true ∧
    Desc.add.okOps { ops (.g 1) (.g 2) (.g 3) with inv := true } = false := by decide
/-- R76: layout N has variant 0 only; LDA's kinds are 0, 1, 2, 3 at four scopes. -/
theorem test_wf_variant : Desc.add.okOps (opsT (.g 1) (.g 2) (.g 3) .i8 .i8 1) = false ∧
    Desc.add.okOps (opsT (.g 1) (.g 2) (.g 3) .i8 .i8 0) = true := by decide
/-- R75: a type where the description gives none; a pair that the description does not list. -/
theorem test_wf_types : Desc.add.okOps (opsT (.g 1) (.g 2) (.g 3) .i16 .i8 0) = false ∧
    Desc.add.okOps (opsT (.g 1) (.g 2) (.g 3) .i8 .i16 0) = false ∧
    Desc.mop.okOps (opsT (.acc 0 0 0 false false) (vG 0 0) (vG 1 0) .fp32 .i8 0) = false ∧
    Desc.mop.okOps (opsT (.acc 0 0 0 false false) (vG 0 0) (vG 1 0) .i32 .i8 0) = true := by decide
/-- R73: a class that is not allowed, a field that is not used, a field left out. -/
theorem test_wf_classes : Desc.add.okOps (ops (.k 1) (.g 2) (.g 3)) = false ∧
    Desc.clz.okOps (ops (.g 1) (.g 2) (.g 3)) = false ∧ Desc.add.okOps (ops (.g 1) (.g 2) .none) = false := by decide
/-- R72: class 7 stands in A and B together or in neither. -/
theorem test_wf_pairing : Desc.li.okOps (ops (.g 1) (.i32 5) (.i32 6)) = true ∧
    Desc.li.okOps (ops (.g 1) (.i32 5) .none) = false ∧ Desc.li.okOps (ops (.g 1) (.i16 5) (.i32 6)) = false := by decide
/-- R56, R70, R71: an unaligned group (Table 4-8's v9:2), a mark on D, a whole tile with an index, a group too long. -/
theorem test_wf_places : let y := opsT (vG 4 1) (vG 4 1) (vG 8 1) .bf16 .bf16 0
    Desc.vadd.okOps y = true ∧ Desc.vadd.okOps { y with b := vG 9 1 } = false ∧ Desc.vadd.okOps { y with d := .v 4 1 true } = false ∧
    Desc.mzero.okOps (ops (.acc 0 0 1 false false) .none .none) = false ∧
    Desc.mzero.okOps (ops (.acc 0 1 255 false false) .none .none) = true := by decide
/-- R74: groups that meet without being identical; R207's DADD of d groups of one size; R74's ban on identical groups. -/
theorem test_wf_pairs : let y := opsT (vG 4 1) (vG 4 1) (vG 8 1) .bf16 .bf16 0
    Desc.vadd.okOps { y with a := vG 4 2 } = false ∧
    Desc.dadd.okOps (ops (dG 0 1) (dG 2 1) (dG 4 0)) = false ∧ Desc.dadd.okOps (ops (dG 0 1) (dG 2 1) (dG 4 1)) = true ∧
    Desc.dadd.okOps (ops (dG 0 1) (dG 0 1) (dG 4 1)) = false := by decide
/-- R81, R246: a row instruction has no guard and no schedule bit, and its row codes are assigned. -/
theorem test_wf_rows : (Instr.rc (ops (.i16 0x2204) (.i16 0x1006) .none)).wf = true ∧
    (Instr.rc { ops (.i16 0x2204) (.i16 0x1006) .none with guard := 1 }).wf = false ∧
    (Instr.rc { ops (.i16 0x2204) (.i16 0x1006) .none with yield := true }).wf = false ∧
    (Instr.rc (ops (.i16 0x1008) (.i16 0x1006) .none)).wf = false ∧ (Instr.rc (ops (.i16 0x4000) (.i16 0) .none)).wf = false := by decide

/-! Words. -/

/-- The words decode to the instruction, and it assembles to them. -/
def reads (sys : Bool) (w : IWord) (i : Instr) : Bool := decode sys w = .ok i && encode i = some w
/-- The words are refused with the cause and the field. -/
def refuses (w : IWord) (c : Cause) (f : Nat) : Bool := decode false w = .error (c, f)

/-- Groups 1 and 2, by hand from Tables 4-1 and 4-2: `add g1, g2, -3` and `mov g3, g9` under k1; `fma.fp64.rup g4, g5, g6`
with both types 13 and variant 3. -/
theorem test_words_scalar :
    reads false (w3 0x00010040 0xFD000020 0x000005FF) (.add (ops (.g 1) (.g 2) (.i16 0xFFFD))) = true ∧
    reads false (w3 0x0003105C 0x00000090 0) (.mov { ops (.g 3) (.g 9) .none with guard := 1 }) = true ∧
    reads false (w3 0x00040083 0x06000050 0x003DD000) (.fma (opsT (.g 4) (.g 5) (.g 6) .fp64 .fp64 3)) = true := by decide +kernel
/-- Table 4-9: `vadd.bf16 v4:2, v4:2, v8:2!` under k2, and the faults of its other rows but the seventh (NOTES.md). -/
theorem test_words_vector :
    reads false (w3 0x002420C0 0x28100241 0x000AA900) (.vadd { opsT (vG 4 1) (vG 4 1) (.v 8 1 true) .bf16 .bf16 0 with guard := 2 }) = true ∧
    refuses (w3 0x002480C0 0x28100241 0x000AA900) .illField 1 = true ∧ refuses (w3 0x002420C0 0x28100241 0x080AA900) .illField 6 = true ∧
    refuses (w3 0x002420C0 0x29100241 0x000AA900) .illField 4 = true ∧ refuses (w3 0x002420C0 0x28100441 0x000AA900) .illOverlap 3 = true ∧
    refuses 0 .illOp 0 = true := by decide +kernel
/-- Groups 4 and 5, by hand: `setvl.i32.g2 g1, g2` and `kand k1, k2, k3`. -/
theorem test_words_predicate :
    reads false (w3 0x00010115 0x00000020 0x00104000) (.setvl (opsT (.g 1) (.g 2) .none .i32 .i8 1)) = true ∧
    reads false (w3 0x00010140 0x03200022 0x00000200) (.kand (ops (.k 1) (.k 2) (.k 3))) = true := by decide +kernel
/-- Group 6: the words of the matrix, the paging and the sharing examples. -/
theorem test_words_matrix :
    reads false (w3 0x00010183 0x06000054 0x00004000) (.mopk (opsT (.acc 1 0 0 false false) (.g 5) (.g 6) .i32 .i8 0)) = true ∧
    reads false (w3 0x00000181 0x02900014 0x00004900) (.mop (opsT (.acc 0 0 0 false false) (.v 1 0 true) (.v 2 0 true) .i32 .i8 0)) = true ∧
    reads false (w3 0x000D0185 0x00400040 0x00000500) (.mst (ops (.g 13) (.acc 0 1 0 false false) (.i16 0))) = true := by decide +kernel
/-- Group 7: the words of the direction examples. -/
theorem test_words_direction :
    reads false (w3 0x000101C0 0x00900283 0x00020000) (.dnorm (opsT (dG 1 0) (.v 8 1 true) .none .i8 .i16 0)) = true ∧
    reads false (w3 0x000301C0 0x00100263 0x00020000) (.dnorm (opsT (dG 3 0) (vG 6 1) .none .i8 .i16 0)) = true ∧
    reads false (w3 0x000A01C2 0x01300000 0x0000CB00) (.ddot (opsT (.g 10) (dG 0 0) (.d 1 0 true) .fp32 .i8 0)) = true := by decide +kernel
/-- Group 8: the words of the memory, ordering, paging and sharing examples. -/
theorem test_words_memory :
    reads false (w3 0x00070200 0x40000050 0x00000500) (.ld (ops (.g 7) (.g 5) (.i16 64))) = true ∧
    reads false (w3 0x00070205 0x00900040 0x00000500) (.stv (ops (.g 7) (.v 4 0 true) (.i16 0))) = true ∧
    reads false (w3 0x0000020E 0x08000050 0x00100000) (.clean (opsT .none (.g 5) (.g 8) .i8 .i8 1)) = true ∧
    reads false (w3 0x0000020B 0x15000120 0x00006000) (.amo (opsT (.g 0) (.g 18) (.g 21) .i64 .i8 0)) = true ∧
    reads false (w3 0x00120203 0x00000140 0x00300000) (.stl (opsT (.g 18) (.g 20) .none .i8 .i8 3)) = true ∧
    reads false (w3 0x00000212 0x08000010 0) (.pfh (ops .none (.g 1) (.g 8))) = true := by decide +kernel
/-- Groups 9 to 11: the words of the engine, bank and row examples. -/
theorem test_words_engines :
    reads false (w3 0x00070240 0x06000040 0x00200000) (.cpyByte (opsT (.g 7) (.g 4) (.g 6) .i8 .i8 2)) = true ∧
    reads false (w3 0x00080240 0x00000040 0x00900000) (.cpyTout (opsT (.g 8) (.g 4) (.g 0) .i8 .i8 9)) = true ∧
    reads false (w3 0x00000245 0x00000060 0x00200000) (.waitb (opsT .none (.g 6) .none .i8 .i8 2)) = true ∧
    reads false (w3 0x00070283 0x00000040 0x00188000) (.bkdot8 (opsT (.g 7) (.g 4) .none .e4m3 .e4m3 1)) = true ∧
    reads false (w3 0x000702C0 0x00000040 0x00100000) (.rpgo (opsT (.g 7) (.g 4) .none .i8 .i8 1)) = true ∧
    reads false (w3 0x000002C1 0x00000040 0x00100000) (.rpmodeCompute (opsT .none (.g 4) .none .i8 .i8 1)) = true := by decide +kernel
/-- Groups 12 and 13: the words of the control, service and beam examples, and `traps 1` by hand with A = 0x5_0001 (R69; log 34); a system instruction is decoded on a
system core alone as more than a privileged one, and DONE is no instruction of a system core. -/
theorem test_words_control :
    reads false (w3 0x00000302 0xFE000070 0x000005FF) (.brnz (ops .none (.g 7) (.i16 0xFFFE))) = true ∧
    reads false (w3 0x00000311 0x00500010 0) (.traps (ops .none (.i16 1) .none)) = true ∧
    reads false (w3 0x001A030C 0x19000150 0x00300000) (.waita (opsT (.g 26) (.g 21) (.g 25) .i8 .i8 3)) = true ∧
    reads true (w3 0x00000340 0x0D000000 0x00100000) (.tlbinvAsid (opsT .none (.g 0) (.g 13) .i8 .i8 1)) = true ∧
    reads true (w3 0x00030342 0x00000040 0) (.resume (ops (.g 3) (.g 4) .none)) = true ∧
    reads true (w3 0x00030347 0x05000040 0x00100000) (.beamrateFloor (opsT (.g 3) (.g 4) (.g 5) .i8 .i8 1)) = true ∧
    reads true (w3 0x00060349 0x00000040 0x00500000) (.beamstatRrate (opsT (.g 6) (.g 4) .none .i8 .i8 5)) = true ∧
    decode true (w3 0x00000308 0 0) = .error (.illOp, 0) := by decide +kernel
/-- Group 0x10: the words of the plane example. -/
theorem test_words_row :
    decodeRow (w3 0x00040408 0x00500005 0) = .ok (.rloop (ops (.i16 4) (.i16 0) .none)) ∧
    decodeRow (w3 0x22040400 0x00510065 0) = .ok (.rc (ops (.i16 0x2204) (.i16 0x1006) .none)) ∧
    decodeTableWord 96 (w3 0x22040400 0x00510065 0).toNat = some (.rc (ops (.i16 0x2204) (.i16 0x1006) .none)) := by decide +kernel

/-! Stepping, reset, and the checks that come before an instruction. -/

/-- The words of `add g4, g1, g2` (Tables 4-1 and 4-2) as one number. -/
def addWord : Nat := 0x0200001000040040
/-- Task 1 with that word at its pc. -/
def fetching : State := poke (vec (core [5, 2 ^ 64 - 3])) 0x1000 12 addWord

/-- Three ways into a step: the turn stands, the agenda gives it, the agenda holds an event. -/
theorem test_step_runs : let ok := fun s => gives (step s) (fun t => (t.hart 0).gr 4 = 2 && (t.hart 0).pc = 0x100C)
    ok fetching = true ∧ ok { fetching with agenda := [.agent (.hart 0)], turn := .hart 9 } = true ∧
    gives (step { State.reset with agenda := [.event .powerGood] }) (fun t => t.phase = 1 && t.agenda = []) = true := by decide +kernel
/-- The premises of `StepRunsDecoded` for them. -/
theorem test_step_premises : fetching.agenda = [] ∧ fetching.turn = .hart 0 ∧ (fetching.hart 0).mode = .running ∧
    (fetching.taskOf 0).isSome = true ∧ fetching.isKilled 1 = false ∧ (fetching.hart 0).parity = none ∧ fetching.hasReport 0 = false ∧
    (fetching.fetchBytes 0).2.toOption = some (w3 0x00040040 0x02000010 0) ∧
    decode false (w3 0x00040040 0x02000010 0) = .ok (.add (ops (.g 4) (.g 1) (.g 2))) := by decide +kernel
/-- R66: after a FENCE a task's own waiting store to its code is fetched, here OP 0x041 (SUB) over ADD; nobody else sees it. -/
theorem test_fetch_own_store : let s := { fetching with stores := [⟨0, 0x1000, [0x41], 0, 0, fetching.logHart 0, true, true⟩] }
    (s.fetchBytes 0).2.toOption = some (w3 0x00040041 0x02000010 0) ∧ s.homeByte 0 0x1000 0 = 0x40 ∧
    gives (step s) (fun t => (t.hart 0).gr 4 = 8) = true := by decide +kernel
/-- System core 0 starts by itself after READY and fetches from the SRAM tier. -/
theorem test_step_system : let h := { Hart.blank with pc := 0x8000000000300, g := Table.ofList 0 1 [5, 6] }
    let s := poke { sys h with agenda := [] } 0x8000000000300 12 addWord
    s.validAddr 0x8000000000300 = true ∧ s.unreachable (postId 256) 0x8000000000300 = none ∧ window 0x8000000000300 = 8 ∧
    (List.range 12).all (fun k => !inImageArea (0x8000000000300 + k)) = true ∧ s.stores = [] ∧
    gives (step s) (fun t => (t.hart 256).gr 4 = 11 && (t.hart 256).mode = .running) = true := by decide +kernel

/-- A program of one word on subarrays 0 and 1 of die 0 of post 0, with two waves admitted. -/
def rowProg (w : IWord) : RowProg where
  pid := 3
  seq := 0
  words := [w]
  prog := 0x2000
  inva := 0
  outva := 0
  out := []
  asid := 1
  handle := 0
  task := some 1
  graph := 1
  prio := 0
  peg := 7
  slots := []
  pb := [0, 0, 16, 0, 0, 0, 0, 0]
  px := [0, 0, 0, 0]
  sel := 0
  loops := []
  ops := 0
  idx := 0
  mark := false
  throttled := false
  alerts := []
  begun := true
  running := true
  recheck := false
  parity := false
  wrote := []
/-- Its region, already checked. -/
def region0 : Region := ⟨1, 0, 0, [0, 1], true, true, [.prog 3], true⟩
/-- Post 0 running a program. -/
def seqState (p : RowProg) : State :=
  { vec (core []) with turn := .seq 0 3, progs := [(0, [p])], regions := [region0], waves := [(0, 2)] }
/-- A running row program executes the word at its index: `rz w1` sets the row to zeros. -/
theorem test_step_row : let s := seqState (rowProg (w3 0x10010405 0x00000005 0))
    s.prog 0 3 = some (rowProg (w3 0x10010405 0x00000005 0)) ∧ decodeRow (w3 0x10010405 0x00000005 0) = .ok (.rz (ops (.i16 0x1001) .none .none)) ∧
    gives (step s) (fun t => (t.prog 0 3).map (fun p => (p.idx, p.ops)) = some (1, 1)) = true := by decide +kernel

/-- R49, R369: what reset leaves, and the canonical forms there and in the small states. -/
theorem test_reset : State.reset.phase = 0 ∧ State.reset.bootstat = 0 ∧ (State.reset.hart 0).gr 7 = 0 ∧ (State.reset.hart 0).kr 0 = BitVec.allOnes 256 ∧
    (State.reset.beam 5).owner = 4 ∧ State.reset.memByte 77 = 0 ∧ Table.wf (0 : Byte) State.reset.mem = true ∧ Table.wf (0 : Byte) fetching.mem = true ∧ (fetching.hart 0).TilesWf := by decide +kernel

/-- R48: g0 and k0 discard, others take their write. -/
theorem test_hardwired : let h := core [5]
    (h.setG 0 9).gr 0 = 0 ∧ (h.setG 1 9).gr 1 = 9 ∧ (h.setK 0 0).kr 0 = BitVec.allOnes 256 ∧ (h.setK 7 3).kr 7 = 3 := by decide +kernel
/-- R48: a tile at or above TILES (4 for task 1) is out of range at its field; nothing else stops first. -/
theorem test_tiles : let s := { vec (core []) with tasks := [(1, some { task1 with tiles := 2 })] }
    let x := ops (.acc 2 0 0 false false) .none .none
    s.turn = .hart 0 ∧ s.badTile 0 x = some 2 ∧
    gives (exec (.mzero x) s) (fun t => (t.hart 0).cause = 8 && (t.hart 0).finfo = 0x200 && (t.hart 0).pc = 0x1000) = true := by decide +kernel
/-- R67: an inactive guard leaves g4 and goes on. -/
theorem test_guard : let s := vec { core [5, 7] with k := [(1, 0)] }
    let x := { ops (.g 4) (.g 1) (.g 2) with guard := 1 }
    s.Starts 0 .add x ∧ (s.hart 0).guardOn x = false ∧
    gives (exec (.add x) s) (fun t => (t.hart 0).gr 4 = 0 && (t.hart 0).pc = 0x100C) = true := by decide +kernel
/-- R78, R79: matrix instructions are absent on a system core, system instructions privileged on a vector core. -/
theorem test_denied :
    gives (exec (.mrel (ops (.acc 0 0 0 false false) .none .none)) (sys (core []))) (fun t => (t.hart 256).cause = 1 && (t.hart 256).pc = 0) = true ∧
    gives (exec (.eret (ops .none .none .none)) (vec (core []))) (fun t => (t.hart 0).cause = 6 && (t.hart 0).mode = .saving .stop) = true := by
  decide +kernel
/-- R52, R61: ESTART left from a long instruction, and a peg on a source. -/
theorem test_restart_and_peg : let x := ops (.g 4) (.g 1) (.g 2)
    let s := vec { core [5, 7] with estart := 3 }
    let p := vec { core [5, 7] with pegmask := 4 }
    longOn .add x = false ∧ (s.hart 0).estart ≠ 0 ∧ s.badTile 0 x = none ∧ gives (exec (.add x) s) (fun t => (t.hart 0).cause = 58) = true ∧
    (p.hart 0).pegField x = some (4, 2) ∧ gives (exec (.add x) p) (fun t => (t.hart 0).mode = .blocked ⟨8, 0, 4, 2⟩ && (t.hart 0).pc = 0x1000) = true := by
  decide +kernel

/-! Stops, traps, system calls, special registers. -/

/-- R391, R397: an ALIGN stop of a task, and of a system core, at unit 0 and at unit 9. -/
theorem test_stop_entry : let e : Stop := ⟨.align, 0x33, 1, 0, 2, 0⟩
    (let h := (vec (core [])).stopHart 0 e |>.hart 0; (h.cause, h.faddr, h.finfo, h.epc, h.mode)) = (9, 0x33, 0x201, 0x1000, .saving .stop) ∧
    (let h := (vec (core [])).stopHart 0 { e with unit := 9 } |>.hart 0; (h.cause, h.estart)) = (73, 9) ∧
    (let h := (sys { core [] with tvec := 0x400 }).stopHart 256 { e with unit := 9 } |>.hart 256
     (h.cause, h.epc, h.pc, h.tstat, h.estart, h.mode)) = (73, 0x1000, 0x400, 0x900000001, 0, .running) ∧
    ((sys (core [])).hart 256).tstat.getLsbD 0 = false ∧ ((vec (core [])).hart 0).estart = 0 := by decide +kernel
/-- R398: the higher of two pending causes is taken (THERMAL over SCRUB's BEAM_DEGRADED), between instructions; not in a handler. -/
theorem test_async_trap : let h : Hart := { core [] with tvec := 0x400, tpend := 2 ^ 61 + 2 ^ 46, tmask := 2 ^ 61 + 2 ^ 46, pendAddr := [(61, 3)] }
    h.asyncReady = some 61 ∧ (let t := (sys h).takeAsync 256 |>.hart 256
      (t.cause, t.faddr, t.finfo, t.epc, t.pc, t.tpend, t.tstat)) = (61, 3, 0, 0x1000, 0x400, 2 ^ 46, 1) ∧
    gives (exec (.asyncTrapTake 0 0) (sys h)) (fun t => (t.hart 256).cause = 61) = true ∧
    gives (exec (.asyncTrapTake 0 5) (sys h)) (fun t => (t.hart 256).cut = some ⟨5, none⟩ && (t.hart 256).cause = 0) = true ∧
    ({ h with tstat := 1 } : Hart).asyncReady = none ∧ gives (exec (.asyncTrapTake 0 0) (sys { h with tstat := 1 })) (fun t => t = sys { h with tstat := 1 }) = true := by
  decide +kernel
/-- A word that does not decode traps on a system core. -/
theorem test_undecoded : let s := { sys { core [] with pc := 0x8000000000300, tvec := 0x400 } with agenda := [] }
    (s.fetchBytes 256).2.toOption = some 0 ∧ decode true 0 = .error (.illOp, 0) ∧ (s.hart 256).asyncReady = none ∧ s.taskOf 256 = none ∧
    gives (step s) (fun t => (t.hart 256).cause = 1 && (t.hart 256).pc = 0x400) = true := by decide +kernel
/-- R399: a trap in a handler of system core 1 leaves its record and SELF_CHECK for core 0; of core 0, for core 4. -/
theorem test_double_trap : let t := State.syncTrap (sys { core [] with tstat := 1 }) 256 9 0x33 0x201 0x1000
    (t.memNat 0x800002FC00000 8, t.memNat 0x800002FC00008 8, t.memNat 0x800002FC00010 8, t.memNat 0x800002FC00018 8) = (9, 0x33, 0x201, 0x1000) ∧
    (t.hart 256).mode = .halted ∧ (t.hart 260).tpend = 2 ^ 62 ∧ Table.get 0 (t.hart 260).pendAddr 62 = 1 ∧ (sys (core [])).scrapped.testBit 0 = false ∧
    (let u := State.syncTrap { sys (core []) with harts := [(257, { core [] with tstat := 1 })] } 257 9 0 0 0
     (u.hart 256).tpend = 2 ^ 62 ∧ (u.hart 257).mode = .halted ∧ Table.get 0 (u.hart 256).pendAddr 62 = 2) := by decide +kernel
/-- R400: ERET in a handler, outside one, and with a bad EPC. -/
theorem test_eret : let x := ops .none .none .none
    decide ((sys { core [] with tstat := 0x500000003, epc := 0x2000 }).Ready 256 .eret x) = true ∧
    gives (exec (.eret x) (sys { core [] with tstat := 0x500000003, epc := 0x2000 })) (fun t => let h := t.hart 256
      h.pc = 0x2000 && h.estart = 5 && h.tstat = 0 && h.stepArmed) = true ∧
    halts (sys { core [] with tvec := 0x400 }) 256 .eret x 58 0 0 = true ∧
    gives (exec (.eret x) (sys { core [] with tstat := 1, epc := 0x2002 })) (fun t => (t.hart 256).mode = .halted && t.memNat 0x800002FC00000 8 = 9) = true := by
  decide +kernel
/-- R337, R338: TRAPS 1 and BRK 0xFFFF. -/
theorem test_service :
    decide ((vec (core [])).Ready 0 .traps (ops .none (.i16 1) .none)) = true ∧
    gives (exec (.traps (ops .none (.i16 1) .none)) (vec (core []))) (fun t => let h := t.hart 0
      (h.cause, h.faddr, h.finfo, h.epc, h.pc, h.mode) = (41, 1, 0, 0x1000, 0x100C, .saving .stop)) = true ∧
    halts (vec (core [])) 0 .brk (ops .none (.i16 0xFFFF) .none) 40 0 0xFFFF = true := by decide +kernel
/-- Tables 3-2 and 19-1: a read of each kind of register. -/
theorem test_mfs : let s := vec { core [] with vl := 0x140010, livemask := 5, cause := 9 }
    let rd := fun n v => goes s 0 .mfs (ops (.g 5) (.s n) .none) (fun _ h => h.gr 5 = v)
    rd 0x000 0x140010 = true ∧ rd 0x001 128 = true ∧ rd 0x005 5 = true ∧ rd 0x010 7 = true ∧ rd 0x011 1 = true ∧ rd 0x012 3 = true ∧
    rd 0x015 1 = true ∧ rd 0x020 9 = true ∧ decide (s.Ready 0 .mfs (ops (.g 5) (.s 0x017) .none)) = true ∧
    goes (sys { core [] with tvec := 0x400 }) 256 .mfs (ops (.g 5) (.s 0x210) .none) (fun _ h => h.gr 5 = 0x400) = true ∧
    goes (sys (core [])) 256 .mfs (ops (.g 5) (.s 0x202) .none) (fun _ h => h.gr 5 = 0x2FA00000) = true := by decide +kernel
/-- R50, R51: writes at the bounds of their ranges. -/
theorem test_mts : let wr := fun (n : BitVec 10) (v : Nat) (p : Hart → Bool) => goes (vec (core [v])) 0 .mts (ops (.s n) (.g 1) .none) (fun _ h => p h)
    let bad := fun (n : BitVec 10) (v cause : Nat) => halts (vec (core [v])) 0 .mts (ops (.s n) (.g 1) .none) cause 0 0
    wr 0x003 255 (fun h => h.fflags = 255) = true ∧ bad 0x003 256 2 = true ∧ wr 0x004 0x1FFD (fun h => h.fmode = 0x1FFD) = true ∧
    bad 0x004 6 2 = true ∧ wr 0x000 64 (fun h => h.vl = 64) = true ∧ wr 0x000 256 (fun h => h.vl = 256) = true ∧ bad 0x000 257 7 = true ∧ bad 0x000 0x4000 2 = true ∧
    (let sw := fun (n : BitVec 10) (v : Nat) (p : Hart → Bool) => goes (sys (core [v])) 256 .mts (ops (.s n) (.g 1) .none) (fun _ h => p h)
     sw 0x210 0x404 (fun h => h.tvec = 0x404) = true ∧ halts (sys (core [0x402])) 256 .mts (ops (.s 0x210) (.g 1) .none) 2 0 0 = true ∧
     sw 0x213 (2 ^ 64 - 1) (fun h => h.tmask = 0xF010C00000000000) = true ∧ sw 0x020 0xFF (fun h => h.cause = 0x7F) = true) := by decide +kernel
/-- R335, R336: privileged, unassigned and read-only numbers. -/
theorem test_sreg_numbers : let s := vec (core [1])
    gives (exec (.mfs (ops (.g 5) (.s 0x210) .none)) s) (fun t => (t.hart 0).cause = 6 && (t.hart 0).finfo = 0x300) = true ∧
    gives (exec (.mfs (ops (.g 5) (.s 0x100) .none)) s) (fun t => (t.hart 0).cause = 2 && (t.hart 0).finfo = 0x300) = true ∧
    gives (exec (.mts (ops (.s 0x020) (.g 1) .none)) s) (fun t => (t.hart 0).cause = 6 && (t.hart 0).finfo = 0x200) = true ∧
    gives (exec (.mts (ops (.s 0x016) (.g 1) .none)) s) (fun t => (t.hart 0).cause = 2 && (t.hart 0).finfo = 0x200) = true := by decide +kernel

/-! Scalar instructions. -/

/-- Tables 7-1 and 7-2 on 5 and −3 (shift counts 61), worked by hand. -/
theorem test_scalar_binary : let s := vec (core [5, 2 ^ 64 - 3])
    [(Desc.add, 2), (.sub, 8), (.mul, 2 ^ 64 - 15), (.mulh, 2 ^ 64 - 1), (.mulhu, 4), (.div, 2 ^ 64 - 1), (.divu, 0), (.rem, 2), (.remu, 5),
     (.and, 5), (.or, 2 ^ 64 - 3), (.xor, 2 ^ 64 - 8), (.andn, 0), (.shl, 0xA000000000000000), (.shr, 0), (.sra, 0), (.rol, 0xA000000000000000),
     (.min, 2 ^ 64 - 3), (.max, 5), (.minu, 5), (.maxu, 2 ^ 64 - 3), (.slt, 0), (.sltu, 1), (.seq, 0)].all
      (fun p => word s 0 p.1 (ops (.g 4) (.g 1) (.g 2)) 4 p.2) = true := by decide +kernel
/-- The same the other way round: the signed ones tell 5 from −3. -/
theorem test_scalar_swapped : let s := vec (core [2 ^ 64 - 3, 5])
    [(Desc.sub, 2 ^ 64 - 8), (.mulhu, 4), (.div, 0), (.rem, 2 ^ 64 - 3), (.sra, 2 ^ 64 - 1), (.shr, 2 ^ 59 - 1), (.slt, 1), (.sltu, 0), (.andn, 2 ^ 64 - 8)].all
      (fun p => word s 0 p.1 (ops (.g 4) (.g 1) (.g 2)) 4 p.2) = true := by decide +kernel
/-- R129: division by zero, with FMODE.DIVEN 0 and 1; g0 discards. -/
theorem test_scalar_divide : let s := vec (core [5, 0])
    [(Desc.div, 2 ^ 64 - 1), (.divu, 2 ^ 64 - 1), (.rem, 5), (.remu, 5)].all (fun p => word s 0 p.1 (ops (.g 4) (.g 1) (.g 2)) 4 p.2 &&
      word s 0 p.1 (ops (.g 0) (.g 1) (.g 2)) 0 0 && halts (vec { core [5, 0] with fmode := 0x1000 }) 0 p.1 (ops (.g 4) (.g 1) (.g 2)) 29 0 0) = true := by
  decide +kernel
/-- Table 7-3 and R132. -/
theorem test_scalar_unary : let s := vec (core [5, 0x80, 7, 0x1234567890])
    word s 0 .clz (ops (.g 4) (.g 1) .none) 4 61 = true ∧ word s 0 .ctz (ops (.g 4) (.g 2) .none) 4 7 = true ∧
    word s 0 .ctz (ops (.g 4) (.g 0) .none) 4 64 = true ∧ word s 0 .popc (ops (.g 4) (.g 3) .none) 4 3 = true ∧
    word s 0 .mov (ops (.g 5) (.g 1) .none) 5 5 = true ∧ word s 0 .sext (opsT (.g 5) (.g 2) .none .i8 .i8 0) 5 (2 ^ 64 - 128) = true ∧
    word s 0 .zext (opsT (.g 5) (.g 2) .none .i8 .u8 0) 5 128 = true ∧ word s 0 .li (ops (.g 5) (.i16 0xFFFE) .none) 5 (2 ^ 64 - 2) = true ∧
    word s 0 .li (ops (.g 5) (.i32 0) (.i32 0x8000)) 5 0xFFFFFFFF80000000 = true ∧ word s 0 .lih (ops (.g 4) (.i32 2) (.i32 1)) 4 0x0001000234567890 = true ∧
    word s 0 .lea (ops (.g 5) (.g 1) (.i16 0xFFFF)) 5 4 = true ∧ word s 0 .leaPc (opsT (.g 5) (.i32 16) (.i32 0) .i8 .i8 1) 5 0x1010 = true ∧
    word s 0 .sel (ops (.g 4) (.g 1) (.g 2)) 4 5 = true ∧ word s 0 .sel (ops (.g 9) (.g 1) (.g 2)) 9 0x80 = true := by decide +kernel
/-- FP32: 1.5 and 2.25, and 1.5 × 2.25 + 1 = 4.375; 4 and its root; the classes. -/
theorem test_scalar_float : let s := vec (core [0x3FC00000, 0x40100000, 0x3F800000, 0x40800000])
    let t := fun d a b => opsT (.g d) (.g a) b .fp32 .fp32 0
    word s 0 .fadd (t 5 1 (.g 2)) 5 0x40700000 = true ∧ word s 0 .fsub (t 5 1 (.g 2)) 5 0xBF400000 = true ∧
    word s 0 .fmul (t 5 1 (.g 2)) 5 0x40580000 = true ∧ word s 0 .fma (t 3 1 (.g 2)) 3 0x408C0000 = true ∧ word s 0 .fdiv (t 5 2 (.g 1)) 5 0x3FC00000 = true ∧
    word s 0 .fsqrt (t 5 4 .none) 5 0x40000000 = true ∧ word s 0 .fmin (t 5 1 (.g 2)) 5 0x3FC00000 = true ∧ word s 0 .fmax (t 5 1 (.g 2)) 5 0x40100000 = true ∧
    word s 0 .fcmp (opsT (.g 5) (.g 1) (.g 2) .i8 .fp32 1) 5 1 = true ∧ word s 0 .fcvt (opsT (.g 5) (.g 1) (.g 0) .bf16 .fp32 0) 5 0x3FC0 = true ∧
    word s 0 .fcvt (opsT (.g 5) (.g 2) (.g 0) .i32 .fp32 0) 5 2 = true := by decide +kernel
/-- R54: 1 / 3 is inexact; with its flag enabled the instruction stops, otherwise FFLAGS keeps NX. -/
theorem test_float_traps : let x := opsT (.g 5) (.g 1) (.g 2) .fp32 .fp32 0
    let g := [0x3F800000, 0x40400000]
    (core g).NoTraps ∧ goes (vec (core g)) 0 .fdiv x (fun _ h => h.gr 5 = 0x3EAAAAAB && h.fflags = fNX.setWidth 64) = true ∧
    ({ core g with fmode := 0x1F0 } : Hart).fpTraps fNX = true ∧
    halts (vec { core g with fmode := 0x1F0 }) 0 .fdiv x 28 0 fNX.toNat = true := by decide +kernel

/-! Vector and predicate instructions. -/

/-- A register of 32-bit elements, from the lowest; of elements of another width. -/
def lanesOf (w : Nat) (l : List Nat) : BitVec 2048 := BitVec.ofNat 2048 (l.foldr (fun x a => x + 2 ^ w * a) 0)
/-- Task 1 with VL of two 32-bit elements, and v4, v5 and v6 as given. -/
def vecs (w : Nat) (old a b : List Nat) (vl : Nat := 2) : State :=
  vec { core [5, 2 ^ 64 - 3, 1] with vl := BitVec.ofNat 64 vl, v := [(4, lanesOf w old), (5, lanesOf w a), (6, lanesOf w b)] }
/-- Fields with T in the positions that the row uses. -/
def tOps (d : Desc) (t : Ty) (o a b : Operand) : Ops := opsT o a b (if d.tdUsed then t else .i8) (if d.tsUsed then t else .i8) 0
/-- The first elements of v4 afterwards. -/
def v4 (h : Hart) (w : Nat) (l : List Nat) : Bool := (List.range l.length).map (fun k => h.elem 4 k w) = l
/-- Every row of a list gives its elements: it starts, fits VL, and element 2 at VL keeps what it held. -/
def rowsGive (s : State) (w : Nat) (t : Ty) (l : List (Desc × List Nat)) : Bool := l.all (fun p =>
  let x := tOps p.1 t (vG 4 0) (vG 5 0) (if p.1.cb = 0 then .none else vG 6 0)
  (s.hart 0).vecCheck x [(2, w), (3, w), (4, w)] [3, 4] = none && (s.hart 0).NoTraps &&
  starts s 0 p.1 x (fun _ h => v4 h w (p.2 ++ [300]) && h.isLive 4))

/-- R150, R151 on the elements 7, −3 and 3, 5, worked by hand. -/
theorem test_vector_integer : rowsGive (vecs 32 [100, 200, 300] [7, 0xFFFFFFFD] [3, 5]) 32 .i32
    [(.vadd, [10, 2]), (.vsub, [4, 0xFFFFFFF8]), (.vmul, [21, 0xFFFFFFF1]), (.vmulh, [0, 0xFFFFFFFF]), (.vmin, [3, 0xFFFFFFFD]), (.vmax, [7, 5]),
     (.vabs, [7, 3]), (.vand, [3, 5]), (.vor, [7, 0xFFFFFFFD]), (.vxor, [4, 0xFFFFFFF8]), (.vandn, [4, 0xFFFFFFF8]),
     (.vshl, [56, 0xFFFFFFA0]), (.vshr, [0, 0x07FFFFFF]), (.vsra, [0, 0xFFFFFFFF])] = true := by decide +kernel
/-- The same in FP32: 1.5 and 9, −2 and 4, D 1. -/
theorem test_vector_float : rowsGive (vecs 32 [0x3F800000, 0x3F800000, 300] [0x3FC00000, 0x41100000] [0xC0000000, 0x40800000]) 32 .fp32
    [(.vadd, [0xBF000000, 0x41500000]), (.vmul, [0xC0400000, 0x42100000]), (.vfma, [0xC0000000, 0x42140000]), (.vdiv, [0xBF400000, 0x40100000]),
     (.vmin, [0xC0000000, 0x40800000]), (.vmax, [0x3FC00000, 0x41100000])] = true ∧
    rowsGive (vecs 32 [0, 0, 300] [0x40800000, 0x41100000] []) 32 .fp32 [(.vsqrt, [0x40000000, 0x40400000])] = true := by decide +kernel
/-- R67, R147: under k1 only element 1 is written, and the marked source A dies. -/
theorem test_vector_guard : let s := vec { core [] with vl := 2, k := [(1, 0xF0)], v := [(4, lanesOf 32 [100, 200]), (5, lanesOf 32 [7, 8])], livemask := 0x20 }
    starts s 0 .vadd { tOps .vadd .i32 (vG 4 0) (.v 5 0 true) (vG 5 0) with guard := 1 } (fun _ h => v4 h 32 [100, 16] && h.livemask = 0x10 && h.vr 5 = 0) = true := by
  decide +kernel
/-- VMOV, VSEL, and VRNG with the value of R163 for count 0 and key 0. -/
theorem test_vector_moves : let s := vecs 32 [100, 200, 300] [7, 9] [3, 5]
    starts s 0 .vmov (tOps .vmov .i32 (vG 4 0) (vG 5 0) .none) (fun _ h => v4 h 32 [7, 9, 300]) = true ∧
    starts s 0 .vsel (tOps .vsel .i32 (vG 4 0) (vG 5 0) (vG 6 0)) (fun _ h => v4 h 32 [7, 9, 300]) = true ∧
    starts (vecs 32 [100, 200, 300] [] [] 1) 0 .vrng (opsT (vG 4 0) (.g 0) (.g 0) .u32 .i8 0) (fun _ h => v4 h 32 [0x6627E8D5, 200, 300]) = true := by decide +kernel
/-- R162: the premises of the functions (their values are those of log 15). -/
theorem test_vector_functions : let s := vecs 32 [0, 0, 300] [0x40000000, 0x40800000] []
    [Desc.vexp2, .vlog2, .vrcp, .vrsq].all (fun d => let x := tOps d .fp32 (vG 4 0) (vG 5 0) .none
      decide (s.Starts 0 d x) && d.okOps x && (s.hart 0).vecCheck x [(2, 32), (3, 32), (4, 32)] [3, 4] = none) = true ∧
    starts s 0 .vrcp (tOps .vrcp .fp32 (vG 4 0) (vG 5 0) .none) (fun _ h => v4 h 32 [0x3F000000, 0x3E800000, 300]) = true := by decide +kernel
/-- R154 to R156, R161: 300 to I8 wraps to 44; 2.5 doubled by an E8M0 scale of 128; the scale of 6.0 for E4M3 is 121, and 6.0
quantised by it is 384; entry 2 of a table. -/
theorem test_vector_conversions :
    starts (vecs 32 [] [300, 5] []) 0 .vcvt (opsT (vG 4 0) (vG 5 0) (.g 0) .i8 .i32 0) (fun _ h => v4 h 8 [44, 5]) = true ∧
    starts (vec { core [] with vl := 1, v := [(5, 0x20), (6, 128)] }) 0 .vbscl (opsT (vG 4 0) (vG 5 0) (vG 6 0) .fp32 .i8 0) (fun _ h => v4 h 32 [0x42800000]) = true ∧
    starts (vecs 32 [] [0x40C00000] [] 1) 0 .vbqntScale (opsT (vG 4 0) (vG 5 0) .none .e4m3 .fp32 0) (fun _ h => v4 h 8 [121]) = true ∧
    starts (vecs 32 [] [0x40C00000] [121] 1) 0 .vbqntQuant (opsT (vG 4 0) (vG 5 0) (vG 6 0) .e4m3 .fp32 1) (fun _ h => v4 h 8 [0x7C]) = true ∧
    starts (vec { core [] with vl := 1, v := [(5, 2), (6, lanesOf 16 [10, 20, 30])] }) 0 .vlut (opsT (vG 4 0) (vG 5 0) (vG 6 0) .i16 .u8 0)
      (fun _ h => v4 h 16 [30]) = true := by decide +kernel
/-- R152: 7 and −3 against 3 and 5 write the byte lanes of k2 and leave bit 255. -/
theorem test_vector_compare : let s := vec { core [] with vl := 2, k := [(2, 2 ^ 255 + 0xF)], v := [(5, lanesOf 32 [7, 0xFFFFFFFD]), (6, lanesOf 32 [3, 5])] }
    [(Desc.vcmpeq, 2 ^ 255), (.vcmpne, 2 ^ 255 + 0xFF), (.vcmplt, 2 ^ 255 + 0xF0), (.vcmple, 2 ^ 255 + 0xF0)].all (fun p =>
      let x := opsT (.k 2) (vG 5 0) (vG 6 0) .i8 .i32 0
      (s.hart 0).vecCheck x [(2, 32), (3, 32), (4, 32)] [3, 4] = none && starts s 0 p.1 x (fun _ h => (h.kr 2).toNat = p.2)) = true := by decide +kernel
/-- Table 8-3 on 7 and 9, in place for VSLIDE. -/
theorem test_vector_permute : let s := vecs 32 [100, 200, 300] [7, 9] [1, 5]
    let t := fun d b => opsT (vG 4 0) (vG 5 0) b .i32 .i8 d
    starts s 0 .vperm (t 0 (vG 6 0)) (fun _ h => v4 h 32 [9, 0, 300]) = true ∧ starts s 0 .vslideUp (t 0 (.i16 1)) (fun _ h => v4 h 32 [0, 7, 300]) = true ∧
    starts s 0 .vslideDown (t 1 (.i16 1)) (fun _ h => v4 h 32 [9, 0, 300]) = true ∧ starts s 0 .vbcast (t 0 (.i16 1)) (fun _ h => v4 h 32 [9, 9, 300]) = true ∧
    starts s 0 .vslideUp (opsT (vG 4 0) (vG 4 0) (.g 3) .i32 .i8 0) (fun _ h => v4 h 32 [0, 100, 300]) = true ∧
    word s 0 .vext (opsT (.g 9) (vG 5 0) (.i16 1) .i32 .i8 0) 9 9 = true ∧ word s 0 .vext (opsT (.g 9) (vG 5 0) (.i16 2) .i32 .i8 0) 9 0 = true := by decide +kernel
/-- R157, R158: the worked FP16 example of VREDSUM and VSCAN; an integer sum, least and greatest element. -/
theorem test_vector_reduce : let s := vec { core [] with vl := 4, v := [(4, lanesOf 16 [0x6800, 0x3C00, 0x3C00, 0x3C00])] }
    let i := vecs 32 [] [7, 0xFFFFFFFD] []
    starts s 0 .vredsum (opsT (.g 8) (vG 4 0) .none .fp16 .fp16 0) (fun _ h => h.gr 8 = 0x6801 && h.fflags = fNX.setWidth 64) = true ∧
    starts s 0 .vscan (opsT (vG 4 0) (vG 4 0) .none .fp16 .fp16 0) (fun _ h => v4 h 16 [0x6800, 0x6800, 0x6800, 0x6800]) = true ∧
    word i 0 .vredsum (opsT (.g 8) (vG 5 0) .none .i32 .i32 0) 8 4 = true ∧ word i 0 .vredmin (opsT (.g 8) (vG 5 0) .none .i32 .i32 0) 8 (2 ^ 64 - 3) = true ∧
    word i 0 .vredmax (opsT (.g 8) (vG 5 0) .none .i32 .i32 0) 8 7 = true ∧
    starts i 0 .vscanmax (opsT (vG 4 0) (vG 5 0) .none .i32 .i32 0) (fun _ h => v4 h 32 [7, 7]) = true := by decide +kernel
/-- R153, R159, R160: 2·3 + 4·5 + 1 in lane 0; VCOMPRESS and VIOTA under k1; one butterfly stage. -/
theorem test_vector_others :
    starts (vec { core [] with vl := 1, v := [(4, 1), (5, 0x0402), (6, 0x0503)] }) 0 .vdot (opsT (vG 4 0) (vG 5 0) (vG 6 0) .i32 .i8 0) (fun _ h => v4 h 32 [27]) = true ∧
    starts (vec { core [] with vl := 2, k := [(1, 0xF0)], v := [(4, lanesOf 32 [100, 200]), (5, lanesOf 32 [7, 9])] }) 0 .vcompress
      { opsT (vG 4 0) (vG 5 0) .none .i32 .i8 0 with guard := 1 } (fun _ h => v4 h 32 [9, 200]) = true ∧
    starts (vecs 32 [100, 200, 300] [] []) 0 .viota (opsT (vG 4 0) .none .none .i32 .i8 0) (fun _ h => v4 h 32 [0, 1, 300]) = true ∧
    starts (vecs 32 [] [7, 9] []) 0 .vhad (opsT (vG 4 0) (vG 5 0) (.i16 0) .i32 .i32 0) (fun _ h => v4 h 32 [16, 0xFFFFFFFE]) = true := by decide +kernel
/-- R51, R149: SETVL of 200 in groups of two I32 registers gives 128; GETVL reads both. -/
theorem test_vector_length : let s := vec { core [200] with vl := 0x140010 }
    goes s 0 .setvl (opsT (.g 4) (.g 1) .none .i32 .i8 1) (fun _ h => h.gr 4 = 128 && h.vl = 0x140080) = true ∧
    word s 0 .getvlLen (ops (.g 4) .none .none) 4 16 = true ∧ word s 0 .getvlMax (opsT (.g 4) .none .none .i8 .i8 1) 4 128 = true := by decide +kernel
/-- Table 8-5, with R164's two examples of KWHILE. -/
theorem test_predicates : let s := vec { core [60, 62, 2 ^ 64 - 1] with vl := 4, k := [(1, 0xF0F), (2, 0xFF)] }
    let kk := fun d x v => goes s 0 d x (fun _ h => h.kr 3 = v)
    kk .kand (ops (.k 3) (.k 1) (.k 2)) 0xF = true ∧ kk .kor (ops (.k 3) (.k 1) (.k 2)) 0xFFF = true ∧ kk .kxor (ops (.k 3) (.k 1) (.k 2)) 0xFF0 = true ∧
    kk .knot (ops (.k 3) (.k 0) .none) 0 = true ∧ kk .kwhile (opsT (.k 3) (.g 1) (.g 2) .i32 .i8 0) 0xFF = true ∧
    kk .kwhile (opsT (.k 3) (.g 3) (.g 2) .u32 .i8 0) 0 = true ∧ (s.hart 0).vlRange (opsT (.g 9) (.k 1) .none .i32 .i8 0) [(3, 32)] = none ∧
    word s 0 .kcnt (opsT (.g 9) (.k 1) .none .i32 .i8 0) 9 2 = true ∧ word s 0 .kfirst (opsT (.g 9) (.k 1) .none .i32 .i8 0) 9 0 = true := by decide +kernel

/-! Matrix and directional instructions. -/

/-- A tile field: whole, or row or column or diagonal `j`. -/
def tile (t : Fin 4) (dir : Fin 4 := 0) (j : Fin 256 := 0) : Operand := .acc t dir j false false
/-- Cells of tile 1: (2, 3) is 5, (3, 3) is 6; v4:4 holds 10, 11, … as FP32 or integers; addresses 0x100 and 0x102. -/
def tiles : State := vec { core [0x100, 0, 3, 0x102] with
  acc := [(65536 + 2 * 256 + 3, 5), (65536 + 3 * 256 + 3, 6)], v := [(4, lanesOf 32 [10, 11, 12, 13])] }

/-- R173 to R175, R186, R187: the premises of the instructions that fill a whole tile. -/
theorem test_outer_premises : (tiles.hart 0).TilesWf ∧ (tiles.hart 0).NoTraps ∧
    [(Desc.mop, opsT (tile 1) (vG 4 0) (vG 5 0) .i32 .i8 0), (.mops, opsT (tile 1) (vG 4 0) (vG 6 1) .i32 .t2 0),
     (.mscl, opsT (tile 1) (vG 4 2) (.g 3) .fp32 .fp32 0), (.mcvt, opsT (tile 1) .none .none .fp32 .i32 0), (.mzero, ops (tile 1) .none .none)].all (fun p =>
      decide (tiles.Ready 0 p.1 p.2) && p.1.okOps p.2 && (tiles.hart 0).deadStop p.2 [2, 3, 4] = none && (tiles.hart 0).sliceStop p.2 2 = none) = true := by
  decide +kernel
/-- R177, R178: K = 0 leaves the tile; a panel off its 64-byte boundary and set upper bits of gb stop. -/
theorem test_mopk : let x := opsT (tile 1) (.g 1) (.g 2) .i32 .i8 0
    goes tiles 0 .mopk x (fun _ h => h.cell 1 2 3 = 5) = true ∧ (tiles.hart 0).deadStop x [2] = none ∧ tiles.Quiet 0 ∧
    halts tiles 0 .mopk (opsT (tile 1) (.g 4) (.g 2) .i32 .i8 0) 9 0x300 0x102 = true ∧
    halts (vec (core [0, 2 ^ 52])) 0 .mopk x 15 0x400 0 = true := by decide +kernel
/-- R183 to R185: MZERO of row 3, MMOVA to diagonal 1, MMOVV of column 3, MREL. -/
theorem test_tile_moves :
    goes tiles 0 .mzero (ops (tile 1 1 3) .none .none) (fun _ h => h.cell 1 3 3 = 0 && h.cell 1 2 3 = 5 && h.isLive 49) = true ∧
    goes tiles 0 .mmova (ops (tile 1 3 1) (vG 4 2) .none) (fun _ h => h.cell 1 0 1 = 10 && h.cell 1 2 3 = 12 && h.cell 1 3 3 = 6) = true ∧
    goes tiles 0 .mmovv (ops (vG 8 2) (tile 1 2 3) .none) (fun _ h => h.elem 8 2 32 = 5 && h.elem 8 3 32 = 6 && h.elem 8 4 32 = 0) = true ∧
    goes tiles 0 .mrel (ops (tile 1) .none .none) (fun _ h => h.cell 1 2 3 = 0 && !h.isLive 49) = true := by decide +kernel
/-- R71: an index register above 255. -/
theorem test_slice_range : let x := ops (.acc 1 1 1 true false) .none .none
    (tiles.hart 0).sliceStop x 2 ≠ none ∧ halts tiles 0 .mzero x 8 0x200 0 = true := by decide +kernel

/-- Every word of the KiB at 0x100 answers core 0, for reading and writing, at its own address. -/
theorem answers_words : ∀ q < 256, tiles.Answers 0 .read (0x100 + 4 * q) (0x100 + 4 * q) 0 ∧ tiles.Answers 0 .write (0x100 + 4 * q) (0x100 + 4 * q) 0 := by
  decide +kernel
/-- R180, R181: MLD and MST of row 3 and column 3: their premises (with `answers_words`); ALIGN at 0x102. -/
theorem test_mld_premises : let x := ops (tile 1 1 3) (.g 1) (.i16 0)
    let y := ops (.g 1) (tile 1 2 3) (.i16 0)
    tiles.Ready 0 .mld x ∧ (tiles.hart 0).sliceStop x 2 = none ∧ tiles.Ready 0 .mst y ∧ (tiles.hart 0).sliceStop y 3 = none ∧
    (tiles.hart 0).deadStop y [3] = none ∧ tiles.Quiet 0 ∧ (List.range 256).all (fun k => placeIn 2 3 k 3 = some k) = true ∧
    halts tiles 0 .mld (ops (tile 1 1 3) (.g 4) (.i16 0)) 9 0x300 0x102 = true ∧ halts tiles 0 .mst (ops (.g 4) (tile 1 1 3) (.i16 0)) 9 0x201 0x102 = true := by
  decide +kernel
/-- R182: MLDT and MSTT with stride 0, every line at 0x100: their premises; ALIGN at 0x102. -/
theorem test_mldt_premises : tiles.Ready 0 .mldt (ops (tile 1) (.g 1) (.g 2)) ∧ tiles.Ready 0 .mstt (ops (.g 1) (tile 1) (.g 2)) ∧
    (tiles.hart 0).deadStop (ops (.g 1) (tile 1) (.g 2)) [3] = none ∧
    halts tiles 0 .mldt (ops (tile 1) (.g 4) (.g 2)) 9 0x300 0x102 = true ∧ halts tiles 0 .mstt (ops (.g 4) (tile 1) (.g 2)) 9 0x201 0x102 = true := by
  decide +kernel
theorem test_mldt_lines (k q : Nat) (hq : q < 256) :
    tiles.Answers 0 .read (((tiles.hart 0).gr 1 + BitVec.ofNat 64 k * (tiles.hart 0).src (.g 2)).toNat + 4 * q) (0x100 + 4 * q) 0 ∧
    tiles.Answers 0 .write (((tiles.hart 0).gr 1 + BitVec.ofNat 64 k * (tiles.hart 0).src (.g 2)).toNat + 4 * q) (0x100 + 4 * q) 0 := by
  have h1 : (tiles.hart 0).gr 1 = 0x100 := by decide +kernel
  have h2 : (tiles.hart 0).src (.g 2) = 0 := by decide +kernel
  simpa [h1, h2] using answers_words q hq

/-- Directions along component 0: d0 of length 1, d1 of length 2, d2 zero; the number 1.0, −1 in Q8.23, 2^23. -/
def dirs (diren : Bool := false) : State := vec { core [0x3F800000, 0xFF800000, 0x00800000, 0x102] with
  fmode := if diren then 0x400 else 0, d := [(0, 0x4000), (1, 0x4000)], m := [(0, 0), (1, 0x00800000)], v := [(8, lanesOf 32 [0x40000000])] }
/-- Component 0 and the norm code of d4 afterwards, the other components 0. -/
def d4 (h : Hart) (c : Int) (m : BitVec 32) : Bool := h.comp 4 0 = c && h.comp 4 255 = 0 && h.mr 4 = m && h.isLive 36

/-- R200, R207 to R210: values on one axis, worked by hand (log2 2 is 0x0080_0000). -/
theorem test_direction_pairs : let s := dirs
    let x := fun a b => ops (dG 4 0) a b
    (s.hart 0).diren = false ∧ (s.hart 0).NoTraps ∧
    goes s 0 .dnorm (opsT (dG 4 0) (vG 8 2) .none .i8 .fp32 0) (fun _ h => d4 h 0x4000 0x00800000) = true ∧
    goes s 0 .dsclLog (opsT (dG 4 0) (dG 1 0) (.g 2) .i8 .i8 1) (fun _ h => d4 h 0x4000 0) = true ∧
    goes s 0 .dadd (x (dG 0 0) (dG 0 0)) (fun _ h => d4 h 0x4000 0x00800000) = true ∧
    goes s 0 .dsub (x (dG 0 0) (dG 1 0)) (fun _ h => d4 h (-0x4000) 0) = true ∧
    goes s 0 .dprojPar (x (dG 1 0) (dG 0 0)) (fun _ h => d4 h 0x4000 0x00800000) = true ∧
    goes s 0 .dprojPerp (opsT (dG 4 0) (dG 1 0) (dG 0 0) .i8 .i8 1) (fun _ h => d4 h 0 normZero && h.fflags = fDZERO.setWidth 64) = true ∧
    goes s 0 .dmov (x (dG 1 0) .none) (fun _ h => d4 h 0x4000 0x00800000) = true := by decide +kernel
/-- R207: DSCL `.val` by 0 of a finite pair; R213: DSETN of a good pair, of the zero code, and of a bad direction. -/
theorem test_direction_norms : let s := dirs
    goes s 0 .dsclVal (ops (dG 4 0) (dG 1 0) (.g 0)) (fun _ h => d4 h 0 normZero) = true ∧
    goes s 0 .dsetn (ops (dG 1 0) (.g 3) .none) (fun _ h => h.comp 1 0 = 0x4000 && h.mr 1 = 0x00800000) = true ∧
    goes (vec { core [0x80000000] with d := [(1, 0x4000)], m := [(1, 0)] }) 0 .dsetn (ops (dG 1 0) (.g 1) .none) (fun _ h => h.comp 1 0 = 0 && h.mr 1 = normZero) =
      (normZero = 0x80000000 : Bool) ∧
    halts s 0 .dsetn (ops (dG 2 0) (.g 3) .none) 31 0x200 0 = true := by decide +kernel
/-- R203 to R206, R212: the reads of d0 and d1; the zero pair d2 with DIREN 0 and 1. -/
theorem test_direction_reads : let s := dirs
    let x := fun t v a b => opsT (.g 9) a b t .i8 v
    word s 0 .ddot (x .fp32 0 (dG 0 0) (dG 1 0)) 9 0x3F800000 = true ∧ word s 0 .ddotf (x .fp32 0 (dG 0 0) (dG 1 0)) 9 0x40000000 = true ∧
    word s 0 .dcmpGe (opsT (.g 1) (dG 0 0) (dG 1 0) .i8 .i8 0) 1 1 = true ∧ word s 0 .dcmpGt (opsT (.g 1) (dG 0 0) (dG 1 0) .i8 .i8 1) 1 0 = true ∧
    word s 0 .dcmpSame (x .i8 2 (dG 0 0) (dG 1 0)) 9 0 = true ∧ word s 0 .dcmpSame (x .i8 2 (dG 0 0) (dG 0 0)) 9 1 = true ∧
    word s 0 .dgetnLog (x .i8 0 (dG 1 0) .none) 9 0x00800000 = true ∧ word s 0 .dgetnLen (x .i8 1 (dG 1 0) .none) 9 0x40000000 = true ∧
    goes s 0 .ddot (x .fp32 0 (dG 0 0) (dG 2 0)) (fun _ h => h.gr 9 = 0 && h.fflags = fDZERO.setWidth 64) = true ∧
    halts (dirs true) 0 .ddot (x .fp32 0 (dG 0 0) (dG 2 0)) 30 0x400 0 = true := by decide +kernel
/-- R206: DEXP of d1 to FP32. -/
theorem test_dexp : goes dirs 0 .dexp (opsT (vG 4 2) (dG 1 0) .none .fp32 .i8 0) (fun _ h => v4 h 32 [0x40000000, 0]) = true := by decide +kernel
/-- R211: DST and DLD at 0x140, and their premises: Quiet, every word answers, R193 holds; ALIGN at 0x102. -/
theorem test_records_premises : let s := vec (core [0x140])
    s.Ready 0 .dst (ops (.g 1) (dG 1 0) (.i16 0)) ∧ s.Ready 0 .dld (ops (dG 4 0) (.g 1) (.i16 0)) ∧
    halts dirs 0 .dld (ops (dG 4 0) (.g 4) (.i16 0)) 9 0 0x102 = true ∧ halts dirs 0 .dst (ops (.g 4) (dG 1 0) (.i16 0)) 9 0 0x102 = true ∧
    s.Quiet 0 ∧ (∀ k ≤ 128, s.Answers 0 .read (0x140 + 4 * k) (0x140 + 4 * k) 0 ∧ s.Answers 0 .write (0x140 + 4 * k) (0x140 + 4 * k) 0) ∧ window 0x140 ≠ 14 ∧
    Pair.ok ⟨0x4000 :: List.replicate 255 0, 0x00800000⟩ = true := by decide +kernel

/-! Memory instructions. -/

/-- Task 1 with g1 = 0x100, g2 = 3, g3 = 0x102, VL of two I32, v4 = [100, 200], v5 = [7, 9], v6 = [8, 0]; at 0x100 the bytes 0x88 down to
0x11, then 0xAA. -/
def mems : State := poke (vec { core [0x100, 3, 0x102, 8, 2 ^ 64 - 8] with
  vl := 0x40002, v := [(4, lanesOf 32 [100, 200, 300]), (5, lanesOf 32 [7, 9]), (6, lanesOf 32 [8, 0])] }) 0x100 9 0xAA1122334455667788
/-- Its premises: Quiet, and the words at 0x100 and 0x108 answer for every kind of access. -/
theorem mems_answers : mems.Quiet 0 ∧ [Acc.read, .write, .atomic, .maint].all (fun k => [0x100, 0x104, 0x108].all (fun a => decide (mems.Answers 0 k a a 0))) = true ∧
    window 0x100 ≠ 14 ∧ mems.plainPlace 0x100 8 = true ∧ (∀ w ∈ mems.stores, w.hart ≠ 0) ∧ mems.hostWrites = [] := by decide +kernel
/-- Table 13-5: the kinds of LD, little-endian and extended; LDA `.w` at scope pkg; ALIGN. -/
theorem test_loads : let ld := fun k e v => goes mems 0 .ld (opsT (.g 9) (.g 1) (.i16 e) .i8 .i8 k) (fun _ h => h.gr 9 = v)
    ld 0 0 0x1122334455667788 = true ∧ ld 1 4 0x11223344 = true ∧ ld 2 0 0x55667788 = true ∧ ld 3 0 0x7788 = true ∧ ld 5 0 0xFFFFFFFFFFFFFF88 = true ∧
    ld 6 0 0x88 = true ∧ ld 5 8 0xFFFFFFFFFFFFFFAA = true ∧ goes mems 0 .lda (opsT (.g 9) (.g 1) .none .i8 .i8 6) (fun _ h => h.gr 9 = 0x55667788) = true ∧
    halts mems 0 .ld (ops (.g 9) (.g 3) (.i16 0)) 9 0x300 0x102 = true ∧ halts mems 0 .lda (ops (.g 9) (.g 3) .none) 9 0x300 0x102 = true := by decide +kernel
/-- Stores wait, and their own core alone reads them back (R310); ALIGN. -/
theorem test_stores : let own := fun (t : State) a v => (t.seenByte 0 a 0).toNat = v && t.homeByte 0 a 0 = mems.homeByte 0 a 0 && t.seenByte 1 a 0 = mems.seenByte 1 a 0
    goes mems 0 .st (ops (.g 1) (.g 2) (.i16 0)) (fun t _ => own t 0x100 3 && own t 0x107 0) = true ∧
    goes mems 0 .st (opsT (.g 1) (.g 2) (.i16 1) .i8 .i8 3) (fun t _ => own t 0x101 3 && own t 0x102 0x66) = true ∧
    goes mems 0 .stl (opsT (.g 1) (.g 2) .none .i8 .i8 5) (fun t _ => own t 0x100 3 && own t 0x104 0x44) = true ∧
    halts mems 0 .st (ops (.g 3) (.g 2) (.i16 0)) 9 0x201 0x102 = true ∧ halts mems 0 .stl (ops (.g 3) (.g 2) .none) 9 0x201 0x102 = true := by decide +kernel
/-- R274 to R277: two elements in every addressing; element 2 keeps what it held. -/
theorem test_vector_loads :
    starts mems 0 .ldv (ops (vG 4 0) (.g 1) (.i16 0)) (fun _ h => v4 h 32 [0x55667788, 0x11223344, 300]) = true ∧
    starts mems 0 .lds (ops (vG 4 0) (.g 1) (.g 4)) (fun _ h => v4 h 32 [0x55667788, 0xAA, 300]) = true ∧
    starts mems 0 .ldg (opsT (vG 4 0) (.g 1) (vG 6 0) .i8 .i32 0) (fun _ h => v4 h 32 [0xAA, 0x55667788, 300]) = true ∧
    starts mems 0 .ldff (ops (vG 4 0) (.g 1) (.i16 0)) (fun _ h => v4 h 32 [0x55667788, 0x11223344, 300] && h.vlen = 2) = true ∧
    (mems.hart 0).vlRange (ops (vG 4 0) (.g 1) (.g 4)) [(2, 32)] = none := by decide +kernel
theorem test_vector_stores : let own := fun (t : State) a v => (t.seenByte 0 a 0).toNat = v && t.homeByte 0 a 0 = mems.homeByte 0 a 0
    starts mems 0 .stv (ops (.g 1) (vG 5 0) (.i16 0)) (fun t _ => own t 0x100 7 && own t 0x104 9 && own t 0x108 0xAA) = true ∧
    starts mems 0 .sts (ops (.g 1) (vG 5 0) (.g 4)) (fun t _ => own t 0x100 7 && own t 0x108 9) = true ∧
    starts mems 0 .stg (opsT (.g 1) (vG 5 0) (vG 6 0) .i8 .i32 0) (fun t _ => own t 0x108 7 && own t 0x100 9) = true ∧
    (mems.hart 0).deadStop (opsT (.g 1) (vG 5 0) (vG 6 0) .i8 .i32 0) [3, 4] = none := by decide +kernel
/-- R277: element 1 lies past the mapped GiB: VL becomes 1. -/
theorem test_first_fault : let s := vec { core [0x3FFFFFFC] with vl := 0x40002, v := [(4, lanesOf 32 [100, 200])] }
    (s.reach 0 .read 0x40000000).toOption = none ∧ s.Answers 0 .read 0x3FFFFFFC 0x3FFFFFFC 0 ∧
    starts s 0 .ldff (ops (vG 4 0) (.g 1) (.i16 0)) (fun _ h => v4 h 32 [0, 200] && h.vlen = 1 && h.vl = 0x40001) = true := by decide +kernel
/-- R278 to R281: AMO add and max, CAS that matches and one that does not, VAMO on two places. -/
theorem test_atomics : let a := fun v w => goes mems 0 .amo (opsT (.g 9) (.g 1) (.g 2) .i64 .i8 v) (fun t h => h.gr 9 = 0x1122334455667788 && t.homeByte 0 0x100 0 = w)
    a 0 0x8B = true ∧ a 5 0x88 = true ∧ a 6 3 = true ∧
    goes mems 0 .cas (opsT (.g 9) (.g 1) (.g 2) .i64 .i8 0) (fun t h => h.gr 9 = 0x1122334455667788 && t.homeByte 0 0x100 0 = 0x88) = true ∧
    goes (poke mems 0x100 8 0) 0 .cas (opsT (.g 9) (.g 1) (.g 2) .i64 .i8 0) (fun t h => h.gr 9 = 0 && t.homeByte 0 0x100 0 = 3) = true ∧
    starts mems 0 .vamo (opsT (vG 4 0) (.g 1) (vG 6 0) .i32 .i32 0) (fun t h => v4 h 32 [0xAA, 0x55667788, 300] &&
      t.homeByte 0 0x108 0 = 0x0E && t.homeByte 0 0x100 0 = 0x50) = true := by decide +kernel
/-- A dirty sector 8 (0x100 to 0x11F) held by the L2, all 0x55 over memory's bytes. -/
def cached : State := { mems with l2 := [(8, some ⟨0x5555555555555555555555555555555555555555555555555555555555555555, true, false, false, 0⟩)] }
/-- R282, R283, R285: CLEAN and FLUSH write it back; INVAL of 8 bytes gives up only what it covers; PF changes no value. -/
theorem test_maintenance : let s := cached
    let x := ops .none (.g 1) (.g 4)
    s.homeByte 0 0x100 0 = 0x55 ∧ s.Quiet 0 ∧ s.Answers 0 .read 0x100 0x100 0 ∧ s.Answers 0 .maint 0x100 0x100 0 ∧
    goes s 0 .clean x (fun t _ => t.memByte 0x100 = 0x55 && (t.sector 0x100).any (fun y => !y.dirty)) = true ∧
    goes s 0 .flush x (fun t _ => t.memByte 0x11F = 0x55 && t.sector 0x100 = none) = true ∧
    goes s 0 .inval x (fun t _ => t.sector 0x100 = none && t.memByte 0x11F = 0x55) = true ∧
    goes { s with harts := [(0, { core [0x100, 0, 0, 32] with task := some 1 })] } 0 .inval x (fun t _ => t.sector 0x100 = none && t.memByte 0x11F = 0) = true ∧
    goes s 0 .pf (ops .none (.g 1) (.i16 0)) (fun t _ => t.homeByte 0 0x100 0 = 0x55 && t.memByte 0x100 = 0x88) = true := by decide +kernel
/-- R315, R319: a fence above core scope performs the store that waits; FENCE.SC takes a place in the order. -/
theorem test_fences : let s := { mems with stores := [⟨0, 0x108, [0x77], 0, 0, ⟨0, 0, 1, 1, 7⟩, false, false⟩] }
    goes s 0 .fence (opsT .none .none .none .i8 .i8 1) (fun t _ => t.homeByte 0 0x108 0 = 0x77 && t.stores = []) = true ∧
    goes s 0 .fence (ops .none .none .none) (fun t _ => t.homeByte 0 0x108 0 = 0xAA && t.stores.map (fun w => w.fenced) = [true]) = true ∧
    goes s 0 .fenceSc (opsT .none .none .none .i8 .i8 3) (fun t _ => t.homeByte 0 0x108 0 = 0x77 && t.scCount = 1) = true ∧
    (s.release 0 1).stores = [] ∧ ((s.release 0 0).stores.map (fun w => w.fenced)) = [true] := by decide +kernel

/-! Control flow and tasks. -/

/-- One step of a ready core that transfers to the target. -/
def jumps (s : State) (n : Nat) (d : Desc) (x : Ops) (target : Nat) (p : Hart → Bool := fun _ => true) : Bool :=
  decide (s.Ready n d x) && d.okOps x && gives (exec (d.ctor x) s) (fun t => (t.hart n).pc = BitVec.ofNat 64 target && p (t.hart n))
/-- R325 from pc 0x1000: offsets count words of 12 bytes. -/
theorem test_branches : let s := vec (core [5, 0x2000, 2 ^ 64 - 2])
    jumps s 0 .br (ops .none (.i16 2) .none) 0x1018 = true ∧ jumps s 0 .br (ops .none (.i32 0xFFFE) (.i32 0xFFFF)) 0xFE8 = true ∧
    jumps s 0 .brz (ops .none (.g 0) (.i16 2)) 0x1018 = true ∧ jumps s 0 .brz (ops .none (.g 1) (.i16 2)) 0x100C = true ∧
    jumps s 0 .brnz (ops .none (.g 1) (.i16 0xFFFE)) 0xFE8 = true ∧ jumps s 0 .brnz (ops .none (.g 0) (.i16 2)) 0x100C = true ∧
    jumps s 0 .jmp (ops .none (.g 2) (.i16 4)) 0x2004 = true ∧ jumps s 0 .jr (ops .none (.g 3) .none) 0xFE8 = true ∧
    jumps s 0 .call (ops (.g 30) (.i16 2) .none) 0x1018 (fun h => h.gr 30 = 0x100C) = true ∧
    jumps s 0 .callReg (opsT (.g 30) (.g 2) (.i16 0) .i8 .i8 1) 0x2000 (fun h => h.gr 30 = 0x100C) = true ∧ jumps s 0 .ret (ops .none (.g 2) .none) 0x2000 = true := by
  decide +kernel
/-- R325: a target off its boundary, and one at 2^52, of which FADDR holds the low 52 bits (R50). -/
theorem test_bad_targets : halts (vec (core [0x2002])) 0 .ret (ops .none (.g 1) .none) 9 0 0x2002 = true ∧
    halts (vec (core [2 ^ 52])) 0 .ret (ops .none (.g 1) .none) 15 0 0 = true := by decide +kernel
/-- R292, R328 to R330: DONE and END with a peg, with a copy outstanding, and with neither. -/
theorem test_task_end : let s := vec (core [])
    let p := vec { core [] with pegmask := 4 }
    let c := { s with tasks := [(1, some { task1 with copies := 1 })] }
    let x := ops .none .none .none
    (p.hart 0).pegmask ≠ 0 ∧ halts p 0 .done x 32 0 4 = true ∧ halts p 0 .endTask x 32 0 4 = true ∧ waits c 0 .done x 9 0 0 1 = true ∧
    s.taskOf 0 = some (1, task1) ∧ s.graphOf 0 = some (1, graph1) ∧ s.hartOf 1 = some 0 ∧ s.slotField graph1 task1 24 = 0 ∧
    gives (exec (.endTask x) s) (fun t => t.task 1 = none && t.hart 0 = .blank) = true ∧ gives (exec (.done x) s) (fun t => t.task 1 = none && t.hart 0 = .blank) = true := by
  decide +kernel
/-- Graph 1 with a second task, in slot 1, that waits for `w`. -/
def waiting (w : Nat) : State := poke { vec (core []) with tasks := [(1, some task1), (2, some { task1 with id := 8, slot := 1, status := .waiting })] } 0x8000000100050 4 w
/-- R34, R329: a decrement from 2, from 1 and from 0; and a list of one successor, which DONE reads. -/
theorem test_successors : (let t := (waiting 2).decrement 1 0x8000000100040 0; (t.memNat 0x8000000100050 4, (t.task 2).map (fun k => k.status))) = (1, some .waiting) ∧
    (((waiting 1).decrement 1 0x8000000100040 0).task 2).map (fun k => k.status) = some .ready ∧
    (((waiting 0).decrement 1 0x8000000100040 0).graph 1).map (fun g => g.underflow) = some true ∧
    graph1.slotAddr 1 = 0x8000000100040 ∧ ((waiting 1).taskList.find? (fun p => p.2.graph = 1 && graph1.slotAddr p.2.slot = graph1.slotAddr 1)).map (fun p => p.1) = some 2 := by
  decide +kernel
theorem test_done_list : let s := poke (poke (poke (waiting 1) 0x8000000100018 8 0x8000000180000) 0x8000000180000 8 1) 0x8000000180008 8 0x8000000100040
    (s.successors 0 graph1 0x8000000180000).2.toOption = some [0x8000000100040] ∧ s.slotField graph1 task1 24 = 0x8000000180000 ∧
    gives (exec (.done (ops .none .none .none)) s) (fun t => t.task 1 = none && (t.task 2).map (fun k => k.status) = some .ready) = true := by decide +kernel
/-- R326: a record at 0x100 (entry 0x4000) goes into slot 1 under TASKID 8, WAITING for 2 or READY; a bad AFFINITY; ALIGN. -/
theorem test_spawn : let s := fun w aff => poke (poke (poke (vec (core [0x100, 0x108])) 0x100 8 0x4000) 0x110 4 w) 0x114 4 aff
    let x := ops (.g 9) (.g 1) .none
    (s 2 0).Quiet 0 ∧ (s 2 0).Answers 0 .read 0x100 0x100 0 ∧ (s 2 0).freeSlot 1 graph1 = some 1 ∧ Table.wf (0 : Byte) (s 2 0).mem = true ∧
    spawnBad graph1 ((List.range 64).map (fun k => (s 2 0).seenByte 0 (0x100 + k) 0)) = false ∧
    goes (s 2 0) 0 .spawn x (fun t h => h.gr 9 = 0x8000000100040 && t.memNat 0x8000000100040 8 = 0x4000 && (t.graph 1).map (fun g => g.nextId) = some 9 &&
      (t.task (s 2 0).nextUid).map (fun k => (k.id, k.slot, k.status)) = some (8, 1, .waiting)) = true ∧
    gives (exec (.spawn x) (s 0 0)) (fun t => (t.task (s 0 0).nextUid).map (fun k => k.status) = some .ready) = true ∧
    gives (exec (.spawn x) (s 0 0x1000)) (fun t => (t.hart 0).cause = 37 && (t.hart 0).faddr = 0x100 && (t.hart 0).finfo = 0x300) = true ∧
    gives (exec (.spawn (ops (.g 9) (.g 2) .none)) (s 0 0)) (fun t => (t.hart 0).cause = 9) = true := by decide +kernel
/-- R326: a pool without a free slot. -/
theorem test_spawn_full : let s := { poke (vec (core [0x100])) 0x100 8 0x4000 with graphs := [(1, some { graph1 with poolLog := 0 })] }
    s.freeSlot 1 { graph1 with poolLog := 0 } = none ∧ s.graphOf 0 = some (1, { graph1 with poolLog := 0 }) ∧
    gives (exec (.spawn (ops (.g 9) (.g 1) .none)) s) (fun t => (t.hart 0).cause = 36 && (t.hart 0).epc = 0x1000) = true := by decide +kernel
/-- Queue 3, a device queue of ASID 1 with two entries at 0x10000, with `tail` and `done`. -/
def queued (tail done : Nat) (g : List Nat := [3, 0x100, 0x108]) : State :=
  poke (poke (poke (poke (vec (core g)) (queueRec 3) 8 0x10000) (queueRec 3 + 8) 8 0x0001000000FF0021) (queueRec 3 + 0x10) 8 tail) (queueRec 3 + 0x18) 8 (done * 2 ^ 32 + done)
/-- R327: LAUNCH with room at TAIL 1, without room, to another queue, and from a block off its boundary. -/
theorem test_launch : let s := poke (queued 1 0) 0x100 8 0x77
    let x := ops (.g 9) (.g 1) (.g 2)
    s.launchable 0 3 = true ∧ s.homeOk 3 = true ∧ s.validAddr 0x10040 = true ∧ s.Quiet 0 ∧ s.Answers 0 .read 0x100 0x100 0 ∧
    goes s 0 .launch x (fun t h => h.gr 9 = 1 && t.qTail 3 = 2 && t.homeByte 0 0x10040 0 = 0x77) = true ∧ waits (queued 2 0) 0 .launch x 14 0 3 3 = true ∧
    halts (queued 1 0 [4, 0x100]) 0 .launch x 6 0 4 = true ∧ halts s 0 .launch (ops (.g 9) (.g 1) (.g 3)) 9 0 0x108 = true := by decide +kernel
/-- R60, R290, R331, R332: YIELD; WAITC at and above its operand; WAITA on a changed and an unchanged word, off its boundary, and in the plane window. -/
theorem test_waits : let s := poke { vec (core [0x100, 0x77, 0x102]) with tasks := [(1, some { task1 with copies := 2 })] } 0x100 8 0x78
    gives (exec (.yield (ops .none .none .none)) s) (fun t => (t.hart 0).mode = .saving .yield && (t.hart 0).pc = 0x100C) = true ∧
    goes s 0 .waitc (ops .none (.i16 2) .none) (fun _ _ => true) = true ∧ waits s 0 .waitc (ops .none (.i16 1) .none) 9 0 3 2 = true ∧
    goes s 0 .waita (ops (.g 9) (.g 1) (.g 2)) (fun _ h => h.gr 9 = 0x78) = true ∧ waits (poke s 0x100 8 0x77) 0 .waita (ops (.g 9) (.g 1) (.g 2)) 11 0 3 0x100 = true ∧
    halts s 0 .waita (ops (.g 9) (.g 3) (.g 2)) 9 0 0x102 = true ∧ s.Quiet 0 ∧ s.Answers 0 .read 0x100 0x100 0 := by decide +kernel
theorem test_waita_range : let s := sys (core [0x9000000000000])
    window 0x9000000000000 = 9 ∧ halts s 256 .waita (ops (.g 9) (.g 1) (.g 2)) 15 0 0x9000000000000 = true := by decide +kernel
/-- R334: LIVE sets the mask to v4, v6 and tile 0: v5 is dropped; a bit above 51. -/
theorem test_live : let s := vec { core [0x1000000000050, 2 ^ 52, 0x20] with v := [(4, 7), (5, 8)], livemask := 0x30 }
    (s.hart 0).TilesWf ∧ s.tilesOf 0 ≤ 4 ∧
    goes s 0 .liveSet (ops .none (.g 1) .none) (fun _ h => h.livemask = 0x1000000000050 && h.vr 4 = 7 && h.vr 5 = 0) = true ∧
    goes s 0 .liveDrop (opsT .none (.g 3) .none .i8 .i8 1) (fun _ h => h.livemask = 0x10 && h.vr 4 = 7 && h.vr 5 = 0) = true ∧
    halts s 0 .liveSet (ops .none (.g 2) .none) 2 0x300 0 = true := by decide +kernel

/-! Engine commands, row programs and buffers. -/

/-- A block at 0x100 from its fields (offset, bytes, value). -/
def block (s : State) (l : List (Nat × Nat × Nat)) : State := l.foldl (fun s f => poke s (0x100 + f.1) f.2.1 f.2.2) s
/-- Task 1 with g1 = 0x100 and g2 = 0x108, its region in copy mode. -/
def issuer : State := { vec (core [0x100, 0x108]) with regions := [{ region0 with now := false, tail := false, items := [] }] }
/-- The premises of `CopyIssue` for a block without a barrier. -/
def copyReady (s : State) (kind : Nat) : Bool := match s.loadBlock 0 0x100 64 0 with
  | (s1, .ok bs) => let p := copyParam bs 0
    copyBlockOk bs p kind false && (match s1.copyRanges 0 1 (some 1) kind p 0x100 false with
      | .ok r => (s.copiesAt (copyEngine 0 kind 0 r)).length < engineSize (copyEngine 0 kind 0 r) &&
        ((kind ≠ 1 && kind ≠ 2) || ((s1.copyWalks 1 0 (s1.logHart 0) kind p).validRegion 0 1 p.handle).2.toOption = some (0, [0, 1]))
      | .error _ => false)
  | _ => false
/-- A copy into an engine's queue under peg 7. -/
def copies (s : State) (d : Desc) (kind e : Nat) : Bool := decide (s.Quiet 0) && copyReady s kind &&
  goes s 0 d (opsT (.g 7) (.g 1) (if d.cb = 0 then .none else .g 0) .i8 .i8 (if d.vars.testBit 0 then 0 else if d.vars.testBit 4 then 4 else if d.vars.testBit 8 then 8 else 12))
    (fun t h => h.pegmask = 0x80 && (t.copiesAt e).map (fun c => (c.kind, c.started, c.peg)) = [(kind, false, 7)] && (t.task 1).map (fun k => k.copies) = some 1)
/-- Table 14-5: 32 bytes from 0x1000 to 0x2000; TIN and TOUT of 32 bytes on 8 planes; bloom to 64 bytes on I/O die 8; CPYF of one source; CPYC. -/
theorem test_copy_issue : copies (block issuer [(0, 8, 0x1000), (8, 8, 0x2000), (0x10, 4, 32)]) .cpyByte 0 0 = true ∧
    copies (block issuer [(0, 8, 0x1000), (0x10, 4, 32), (0x1C, 2, 8 * 512)]) .cpyTin 1 0 = true ∧
    copies (block issuer [(8, 8, 0x2000), (0x10, 4, 32), (0x1C, 2, 8 * 512)]) .cpyTout 2 0 = true ∧
    copies (block issuer [(0, 8, 0x1000), (8, 8, 0x2000), (0x10, 4, 32), (0x14, 4, 64)]) .cpyBloom 3 8 = true ∧
    copies (block issuer [(0, 8, 0x1000), (0x10, 4, 32), (0x28, 8, 0x3000)]) .cpyf 4 0 = true ∧
    copies (block issuer [(0, 8, 0x1000), (8, 8, 0x2000), (0x10, 4, 32)]) .cpyc 5 0 = true ∧
    issuer.tailMode 1 0 = false := by decide +kernel
theorem test_copy_align : halts issuer 0 .cpyByte (ops (.g 7) (.g 2) (.g 0)) 9 0x304 0x108 = true := by decide +kernel

/-- The premises of `BankIssue` and the issue of a command under peg 7. -/
def banked (s : State) (d : Desc) (op : BkOp) (td ts : Ty) : Bool :=
  decide (s.Quiet 0) && (match s.load 0 0x100 64 .read 0 with
  | (s1, .ok bs) => let p := bankParam bs 0
    match s1.loadWords 0 0x140 0 p.npage with
    | (s2, .ok entries) => bankFieldsOk op bs p entries && bankPlacesOk op td p && (match s2.operandVector 0 op p 0 with
      | (s3, .ok _) => (match s3.bankList 1 0 (some 0) (bankRanges op td p) entries 0x100 with | .ok (post, _) => post = 0 | .error _ => false)
      | _ => false)
    | _ => false
  | _ => false) && goes s 0 d (opsT (.g 7) (.g 1) .none td ts 0)
    (fun t h => h.pegmask = 0x80 && (t.bankQueue 0).map (fun c => (c.op, c.started, c.peg)) = [(op.code, false, 7)] && (t.task 1).map (fun k => k.banks) = some 1)
/-- The bytes of a block from its fields. -/
def blockBytes (l : List (Nat × Nat)) : List Byte := bytesOf 64 (l.foldl (fun a f => a + f.2 * 2 ^ (8 * f.1)) 0)
/-- Whether a block passes Tables 11-2 and 11-3 with the page list [0]. -/
def bankOk (op : BkOp) (td : Ty) (l : List (Nat × Nat)) : Bool := let bs := blockBytes l
  bankFieldsOk op bs (bankParam bs 0) [0] && bankPlacesOk op td (bankParam bs 0)
/-- Tables 11-2 and 11-3: two elements or rows, one page; a Z that is not congruent to X is refused. -/
theorem test_bank_blocks : let b := fun l => [(0, 2), (8, 1)] ++ l
    [BkOp.add, .mul, .fma].all (fun op => bankOk op .fp32 (b [(0x10, 0x4000), (0x18, 0x4000), (0x20, 0x4000)])) = true ∧
    bankOk .sum .fp32 (b [(6, 1), (0x10, 0x4000), (0x20, 0x4000)]) = true ∧ bankOk .fill .i32 (b [(0x20, 0x4000), (0x38, 5)]) = true ∧
    bankOk .acc .i8 (b [(0x10, 0x4000), (0x20, 0x5000)]) = true ∧ bankOk .clr .i8 (b [(0x20, 0x5000)]) = true ∧
    bankOk .dot8 .e4m3 (b [(6, 4), (0x10, 0x4000), (0x20, 0x5000), (0x28, 0x3000), (0x30, 0x400)]) = true ∧
    bankOk .lut4 .fp32 (b [(6, 4), (0x10, 0x4000), (0x20, 0x5000), (0x28, 0x3000), (0x30, 0x400)]) = true ∧
    bankOk .add .fp32 (b [(0x10, 0x4000), (0x18, 0x4000), (0x20, 0x5000)]) = false := by decide +kernel
/-- R223 with COUNT = 0, where no page is named: the command enters the issuer's own queue. -/
theorem test_bank_issue :
    [(Desc.bkadd, BkOp.add), (.bkmul, .mul), (.bkfma, .fma)].all (fun p => banked issuer p.1 p.2 .fp32 .fp32) = true ∧ banked (block issuer [(6, 2, 1)]) .bksum .sum .fp32 .fp32 = true ∧
    banked issuer .bkfill .fill .i32 .i8 = true ∧ banked issuer .bkacc .acc .i8 .i8 = true ∧ banked issuer .bkclr .clr .i8 .i8 = true ∧
    halts issuer 0 .bkadd (opsT (.g 7) (.g 2) .none .fp32 .i8 0) 9 0x304 0x108 = true := by decide +kernel
theorem test_bank_rows : banked (block issuer [(6, 2, 4), (0x28, 8, 0x3000)]) .bkdot8 .dot8 .e4m3 .e4m3 = true ∧
    banked (block issuer [(6, 2, 2), (0x28, 8, 0x3000)]) .bklut4 .lut4 .fp32 .bf16 = true := by decide +kernel
/-- R227: BKFILL of two I32 elements at 0x4000, the page list [0] to itself, leaves 0x4008. -/
theorem test_bank_fill : let c : BankCmd := ⟨0, BkOp.fill.code, .i32, .i8, ⟨2, 0, false, 0, 1, 0, 0, 0x4000, 0, 0, 0x11223344⟩, [0], [(0, 0, 0)], [], some 1, 1, 1, 7, true, false, [], [], 0, none, none⟩
    let r := (vec (core [])).bankWork c
    BkOp.ofCode c.op = .fill ∧ pieceBase 0x4007 = 0 ∧ (pieceAt c.pieces 0x4007).1 = 0x4007 ∧ r.2 = ⟨0, none⟩ ∧
    (r.1.memByte 0x4000, r.1.memByte 0x4003, r.1.memByte 0x4004, r.1.memByte 0x4008) = (0x44, 0x11, 0x44, 0) := by decide +kernel

/-- R227, R233: two I32 elements of which the second lies in the next bank, done out of order: first element 1 alone, then the rest. -/
theorem test_bank_turn : let c : BankCmd := ⟨0, BkOp.fill.code, .i32, .i8, ⟨2, 0, false, 0, 1, 0, 0, 0x43FC, 0, 0, 0x11223344⟩, [0], [(0, 0, 0)], [], some 1, 1, 1, 7, true, false, [], [], 0, none, none⟩
    let bytes := fun (t : State) => (t.memByte 0x43FC, t.memByte 0x4400, t.memByte 0x4403, t.memByte 0x4404)
    let s := { vec (core []) with banks := [(0, [c])], agenda := [.bank 0 0 1, .bank 0 0 1] }
    gives (step s) (fun t => bytes t = (0, 0x44, 0x11, 0) && (t.bankQueue 0).map (fun d => d.ran) = [[0x220]] &&
      gives (step t) (fun u => u.mem = t.mem && u.banks = t.banks) &&
      gives (execBankCmdComplete 0 0 t) (fun u => bytes u = (0x44, 0x44, 0x11, 0) && u.bankQueue 0 = [])) = true := by decide +kernel

/-- R241: both modes of a valid handle with an empty list; an invalid one. -/
theorem test_rpmode : let x := fun v a => opsT .none (.g a) .none .i8 .i8 v
    (issuer.validRegion 0 1 0).2.toOption = some (0, [0, 1]) ∧ (issuer.validRegion 0 1 0).1 = issuer ∧ issuer.seqFull 0 = false ∧
    goes issuer 0 .rpmodeCompute (x 1 0) (fun t _ => t.tailMode 1 0 && (t.region 1 0).map (fun r => (r.now, r.items)) = some (true, [])) = true ∧
    goes issuer 0 .rpmodeCopy (x 0 0) (fun t _ => !t.tailMode 1 0) = true ∧
    (issuer.validRegion 0 1 0x108).2.toOption = none ∧ halts issuer 0 .rpmodeCompute (x 1 2) 20 0x305 0 = true := by decide +kernel
/-- R243: RPGO of one word at 0x1000. -/
theorem test_rpgo : let s := block { issuer with regions := [{ region0 with items := [] }] } [(4, 2, 1), (8, 8, 0x1000)]
    let s := poke s 0x1000 12 0x00000005_10010405
    let x := ops (.g 7) (.g 1) .none
    s.tailMode 1 0 = true ∧ s.Quiet 0 ∧ (match s.load 0 0x100 64 .read 0 with
      | (s1, .ok bs) => !rowBlockBad bs && fieldAt bs 0x10 8 = 0 && (match s1.rowXlate 1 0 (rowRanges 1 0x1000 0 0) with | .ok [_] => true | _ => false)
      | _ => false) = true ∧
    goes s 0 .rpgo x (fun t h => h.pegmask = 0x80 && (t.progsAt 0).map (fun p => (p.words.length, p.running, p.peg)) = [(1, false, 7)] && (t.task 1).map (fun k => k.rows) = some 1) = true ∧
    halts s 0 .rpgo (ops (.g 7) (.g 2) .none) 9 0x305 0x108 = true := by decide +kernel
/-- R301: WAITB on a barrier of 0 and of 2. -/
theorem test_waitb : let s := vec (core [0x8000000180000, 0x8000000180004])
    let y := { s with turn := .hart 256, harts := [(256, core [0x8000000180000, 0x8000000180004])] }
    y.Quiet 256 ∧ y.Answers 256 .read 0x8000000180000 0x8000000180000 0 ∧ goes y 256 .waitb (ops .none (.g 1) .none) (fun _ _ => true) = true ∧
    waits (poke y 0x8000000180000 8 2) 256 .waitb (ops .none (.g 1) .none) 10 0 3 0x8000000180000 = true ∧
    halts y 256 .waitb (ops .none (.g 2) .none) 9 0 0x8000000180004 = true := by decide +kernel
/-- Task 1 with g1 naming tag 9, first page 2, one page; the buffer as given. -/
def benched (h : Nat) (holder : Option Nat) : State := { vec (core [0x90200, 0x90201, 0xA0200]) with buffers := [⟨h, 2, 0, 9, 1, holder⟩] }
/-- R308, R309: GIVE, TAKE and TAKE `.new` and their misuses. -/
theorem test_buffers : let x := ops .none (.g 1) .none
    let n := fun g => opsT .none (.g g) .none .i8 .i8 1
    goes (benched 0 (some 1)) 0 .give x (fun t _ => t.buffers = [⟨0, 2, 0, 9, 1, none⟩]) = true ∧ halts (benched 0 none) 0 .give x 22 0 0 = true ∧
    goes (benched 0 (some 1)) 0 .take x (fun t _ => t.buffers = [⟨0, 2, 0, 9, 1, some 1⟩]) = true ∧
    waits (benched 0 (some 2)) 0 .take x 13 0 3 0x90200 = true ∧ waits { benched 0 none with buffers := [] } 0 .take x 13 0 3 0x90200 = true ∧
    halts (benched 0 none) 0 .take (ops .none (.g 2) .none) 22 0 0 = true ∧
    goes (benched 1 none) 0 .takeNew (n 3) (fun t _ => t.buffers = [⟨1, 2, 0, 9, 1, none⟩, ⟨0, 2, 0, 10, 1, some 1⟩]) = true ∧
    halts (benched 1 none) 0 .takeNew (n 1) 22 0 0 = true ∧ handleOk 0x90200 = true ∧ (benched 1 none).bufferOf 1 0x90200 = some ⟨1, 2, 0, 9, 1, none⟩ := by decide +kernel
/-- The premises of a TAKE from another bench; and where pages of core 0 stand in its way. -/
theorem test_take_premises : (benched 1 none).pagesFree 0 ⟨1, 2, 0, 9, 1, none⟩ = true ∧ Table.wf (0 : Byte) (benched 1 none).mem = true ∧ (benched 1 none).Ready 0 .take (ops .none (.g 1) .none) ∧
    (let s := { benched 1 none with buffers := [⟨1, 2, 0, 9, 1, none⟩, ⟨0, 2, 0, 10, 1, none⟩] }
     s.pagesFree 0 ⟨1, 2, 0, 9, 1, none⟩ = false ∧ halts s 0 .take (ops .none (.g 1) .none) 22 0 0 = true) := by decide +kernel

/-! Row instructions. -/

/-- Post 0 running a program, row 5 of its subarrays 0 and 1 holding 5 and 3, row 6 of subarray 0 holding 9, slot 2 holding 7. -/
def rowState (p : RowProg := { rowProg 0 with slots := [(2, 7)] }) : State :=
  { seqState p with rows := [(rowKey 0 0 5, 5), (rowKey 0 0 6, 9), (rowKey 0 1 5, 3)] }
/-- A row instruction of that program: its premises, and row `r` of both subarrays afterwards, with one activation of row 5. -/
def rowOp (d : Desc) (x : Ops) (cost r v0 v1 acts : Nat) : Bool :=
  decide (rowState.RowReady 0 { rowProg 0 with slots := [(2, 7)] } cost) && d.okOps x && gives (exec (d.ctor x) rowState) (fun t =>
    (t.row 0 0 r).toNat = v0 && (t.row 0 1 r).toNat = v1 && Table.get 0 t.acts (rowKey 0 0 5) = acts &&
    (t.prog 0 3).map (fun p => (p.idx, p.ops)) = some (1, cost))
/-- R246 to R248 on columns 0, 1 and 8191. -/
theorem test_row_operations : let d5 := Operand.i16 5
    let w1 := Operand.i16 0x1001
    rowOp .rc (ops w1 d5 .none) 1 513 5 3 1 = true ∧ rowOp .rnt (ops w1 d5 .none) 2 513 (2 ^ 8192 - 6) (2 ^ 8192 - 4) 1 = true ∧
    rowOp .rnt (opsT w1 d5 .none .i8 .i8 1) 2 521 5 3 1 = true ∧ rowOp .rsl (ops w1 d5 .none) 2 513 2 1 1 = true ∧
    rowOp .rsl (opsT w1 d5 .none .i8 .i8 1) 2 513 (2 + 2 ^ 8191) 1 1 = true ∧ rowOp .rsr (opsT w1 d5 .none .i8 .i8 1) 2 513 10 6 1 = true ∧
    rowOp .rz (ops d5 .none .none) 1 5 0 0 1 = true ∧ rowOp .ro (ops d5 .none .none) 1 5 (2 ^ 8192 - 1) (2 ^ 8192 - 1) 1 = true ∧
    rowOp .rwr (ops w1 (.i16 2) .none) 1 513 7 7 0 = true ∧ rowOp .rchk (ops (.i16 6) d5 .none) 2 6 12 3 1 = true ∧
    rowOp .rm3 (ops w1 (.i16 0x1002) (.i16 0x1003)) 1 513 0 0 0 = true ∧ rowOp .rc (ops (.i16 0x2205) (.i16 0x1009) .none) 1 21 (2 ^ 8192 - 1) (2 ^ 8192 - 1) 0 = true := by
  decide +kernel
/-- The other premises: distinct subarrays in range. RM3 of 1, 3 and 7. -/
theorem test_row_premises : (rowState.subsOf { rowProg 0 with slots := [(2, 7)] }).Nodup ∧ (rowState.subsOf { rowProg 0 with slots := [(2, 7)] }).all (fun b => b < 196608) = true ∧
    gives (exec (.rm3 (ops (.i16 0x1001) (.i16 0x1002) (.i16 0x1003))) { seqState (rowProg 0) with rows := [(rowKey 0 0 513, 1), (rowKey 0 0 514, 3), (rowKey 0 0 515, 7)] })
      (fun t => t.row 0 0 513 = 3 && t.row 0 0 514 = 3 && t.row 0 0 515 = 3) = true := by decide +kernel
/-- The end of the program with a cause, its task keeping CAUSE for its stop. -/
def rowEnds (p : RowProg) (i : Instr) (c : Cause) : Bool := gives (exec i (seqState p)) (fun t => t.prog 0 3 = none && (t.hasReport 0 && (t.task 1).any (fun k => k.reports.any (fun r => r.cause = c))))
/-- R252, R246, R260: a step above 16, a computed row above 511, and waves not admitted. -/
theorem test_row_stops : rowEnds { rowProg 0 with ops := 16 } (.rc (ops (.i16 0x1001) (.i16 5) .none)) .jointLong = true ∧
    rowEnds { rowProg 0 with pb := [511, 0, 0, 0, 0, 0, 0, 0] } (.rc (ops (.i16 0x2001) (.i16 5) .none)) .addrRange = true ∧
    { rowProg 0 with pb := [511, 0, 0, 0, 0, 0, 0, 0] }.rowOf (.i16 0x2001) = none ∧
    gives (exec (.rsl (ops (.i16 0x1001) (.i16 5) .none)) { seqState (rowProg 0) with waves := [(0, 1)] }) (fun t => t = { seqState (rowProg 0) with waves := [(0, 1)] }) = true := by
  decide +kernel
/-- A program that goes on as another. -/
def rowGoes (p : RowProg) (i : Instr) (f : RowProg → Bool) : Bool := decide ((seqState p).RowReady 0 p 0) && gives (exec i (seqState p)) (fun t => (t.prog 0 3).any f)
/-- R250 at the bounds 511 and 63. -/
theorem test_plane_registers : let p := { rowProg 0 with pb := [0, 0, 16, 0, 0, 0, 0, 0], px := [0, 5, 0, 0] }
    let e := fun n v => ops (.i16 n) (.i16 v) .none
    rowGoes p (.rbaseSet (e 2 511)) (fun q => q.pb.getD 2 0 = 511 && q.idx = 1) = true ∧ rowGoes p (.rbaseAdd (e 2 0xFFF0)) (fun q => q.pb.getD 2 0 = 0) = true ∧
    rowGoes p (.rplaneSet (e 1 63)) (fun q => q.px.getD 1 0 = 63) = true ∧ rowGoes p (.rplaneAdd (e 1 58)) (fun q => q.px.getD 1 0 = 63) = true ∧
    rowEnds p (.rbaseSet (e 2 512)) .addrRange = true ∧ rowEnds p (.rbaseAdd (e 2 0xFFEF)) .addrRange = true ∧ rowEnds p (.rplaneSet (e 1 64)) .addrRange = true ∧
    rowEnds p (.rplaneAdd (e 1 59)) .addrRange = true := by decide +kernel
/-- R249, R251: loops of 4 and 1 iterations, with and without a plane index; RSET and RRD of subarray 1. -/
theorem test_row_control : let l : Loop := ⟨0, 2, some 1⟩
    let x := ops .none .none .none
    rowGoes (rowProg 0) (.rloop (ops (.i16 4) .none .none)) (fun q => q.loops = [⟨1, 4, none⟩] && q.idx = 1) = true ∧
    rowGoes { rowProg 0 with px := [0, 9, 0, 0] } (.rloop (ops (.i16 4) (.i16 1) .none)) (fun q => q.loops = [⟨1, 4, some 1⟩] && q.px.getD 1 7 = 0) = true ∧
    rowGoes { rowProg 0 with loops := [{ l with left := 1 }], idx := 4 } (.rnext x) (fun q => q.loops = [] && q.idx = 5) = true ∧
    rowGoes { rowProg 0 with loops := [l], idx := 4 } (.rnext x) (fun q => q.loops = [{ l with left := 1 }] && q.idx = 0 && q.px.getD 1 0 = 1) = true ∧
    rowGoes { rowProg 0 with loops := [{ l with px := none }], idx := 4 } (.rnext x) (fun q => q.idx = 0 && q.px = [0, 0, 0, 0]) = true ∧
    rowEnds { rowProg 0 with loops := [l], px := [0, 63, 0, 0] } (.rnext x) .addrRange = true ∧ rowEnds (rowProg 0) (.rnext x) .seqFetch = true ∧
    rowEnds { rowProg 0 with loops := [l, l, l, l] } (.rloop (ops (.i16 4) .none .none)) .seqFetch = true ∧ rowEnds { rowProg 0 with loops := [l] } (.rhalt x) .seqFetch = true ∧
    rowGoes (rowProg 0) (.rsetSel (ops .none (.i32 1) (.i32 0))) (fun q => q.sel = 1) = true ∧
    (let s := rowState { rowProg 0 with sel := 1 }
     decide (s.RowReady 0 { rowProg 0 with sel := 1 } 1) = true ∧ gives (exec (.rrd (ops (.i16 3) (.i16 5) .none)) s) (fun t => (t.prog 0 3).any (fun q => Table.get 0 q.slots 3 = 3)) = true) ∧
    rowEnds { rowProg 0 with sel := 2 } (.rrd (ops (.i16 3) (.i16 5) .none)) .addrRange = true := by decide +kernel
/-- R252, R254: a joint with nothing due, and the end of the program, which clears peg 7 of core 0. -/
theorem test_row_joint : let p := rowProg 0
    let s := { seqState p with harts := [(0, { core [] with task := some 1, pegmask := 0x80 })], tasks := [(1, some { task1 with rows := 1 })] }
    let x := ops .none .none .none
    s.isKilled 1 = false ∧ s.alertsDue 0 p = [] ∧ s.region 1 0 = some region0 ∧ (s.progsAt 0).all (fun q => q.running) = true ∧ s.budget 1 = 0 ∧
    gives (exec (.rjoint x) s) (fun t => (t.prog 0 3).any (fun q => q.idx = 1 && q.ops = 0)) = true ∧
    gives (exec (.rhalt x) s) (fun t => t.prog 0 3 = none && (t.hart 0).gr 7 = 0x8000 && (t.hart 0).pegmask = 0 && (t.task 1).any (fun k => k.rows = 0)) = true := by
  decide +kernel

/-! System instructions. -/

/-- A ready system core, with the answer in g9 and what follows of the state. -/
def answers (s : State) (d : Desc) (x : Ops) (v : Nat) (p : State → Bool := fun _ => true) : Bool :=
  decide (s.SysReady 256 d x) && goes s 256 d x (fun t h => h.gr 9 = BitVec.ofNat 64 v && p t)
/-- System core 0 with task 1 on core 0, and the entries of ASIDs 1 and 2 remembered. -/
def service (g : List Nat) (t : Task := task1) : State :=
  { sys (core g) with harts := [(0, { core [] with task := some 1 }), (256, core g)], tasks := [(1, some t)], graphs := [(1, some graph1)],
                      walked := [⟨1, 3, 0, 1⟩, ⟨1, 2, 5, 0x1D⟩, ⟨2, 3, 0, 1⟩], regions := [region0] }
/-- R366, R375, R376: by address (index 5 of level 2 is the sixth GiB), by ASID, all; REVOKE; bad fields. -/
theorem test_tlbinv : let left := fun (t : State) l => t.walked.map (fun w => (w.asid, w.level)) = l
    let va := ops .none (.g 1) (.g 2)
    answers (service [0x140000000, 0x100000001]) .tlbinvVa va 0 (fun t => left t [(2, 3)]) = true ∧
    answers (service [0x100000000, 0x100000001]) .tlbinvVa va 0 (fun t => left t [(1, 2), (2, 3)]) = true ∧
    answers (service [0, 1]) .tlbinvAsid (opsT .none (.g 0) (.g 2) .i8 .i8 1) 0 (fun t => left t [(2, 3)]) = true ∧
    answers (service []) .tlbinvAll (opsT .none (.g 0) (.g 0) .i8 .i8 2) 0 (fun t => left t []) = true ∧
    halts (service [0x140000000, 0x10001]) 256 .tlbinvVa va 2 0 0 = true ∧ halts (service [0x140000004, 0x100000001]) 256 .tlbinvVa va 9 0 0x140000004 = true ∧
    answers (service [0, 1]) .revokeRegion va 0 (fun t => t.regions.all (fun r => !r.checked)) = true ∧
    answers (service [0, 1]) .revokeAsid (opsT .none (.g 0) (.g 2) .i8 .i8 1) 0 (fun t => left t [(2, 3)]) = true := by decide +kernel
/-- R377: RESUME of the image of a stopped and of a running task, of no image, off its boundary. -/
theorem test_resume : let x := ops (.g 9) (.g 1) .none
    answers (service [0x8000020000000] { task1 with status := .stopped }) .resume x 0 (fun t => (t.task 1).map (fun k => k.status) = some .ready) = true ∧
    answers (service [0x8000020000000]) .resume x 1 = true ∧ answers (service [0x8000020010000]) .resume x 2 = true ∧
    halts (service [0x8000020000040]) 256 .resume x 9 0 0x8000020000040 = true := by decide +kernel
theorem test_resume_harts (p : Nat) : graph1.harts p = (graph1.harts p).filter (fun m => !isSys m) := by
  cases p with
  | zero => decide
  | succ p => simp [Graph.harts, graph1]
/-- R378: KILL of graph 1, of a killed one, and with another ASID. -/
theorem test_kill : let x := ops (.g 9) (.g 1) .none
    answers (service [0x100000001]) .kill x 0 (fun t => (t.graph 1).any (fun g => g.killed)) = true ∧
    answers { service [0x100000001] with graphs := [(1, some { graph1 with killed := true })] } .kill x 1 = true ∧ answers (service [0x200000001]) .kill x 2 = true ∧
    ((service []).hartOf 1).isSome = true := by decide +kernel
/-- R388: the premises of ATTEST, and its boundaries; R413: SCRUB of a clean KiB, of a bad word, off its boundary, too long. -/
theorem test_attest_premises : let s := sys (core [0x8000000180000, 0x8000000190000, 0x8000000180020])
    decide (s.SysReady 256 .attest (ops (.g 9) (.g 1) (.g 2))) = true ∧ (∀ k < 128, s.Answers 256 .read (0x8000000180000 + k) (0x8000000180000 + k) 0) ∧
    (∀ k < 512, s.Answers 256 .write (0x8000000190000 + k) (0x8000000190000 + k) 0) ∧
    halts s 256 .attest (ops (.g 9) (.g 3) (.g 2)) 9 0 0x8000000180020 = true ∧ halts s 256 .attest (ops (.g 9) (.g 1) (.g 3)) 9 0 0x8000000180020 = true := by
  decide +kernel
theorem test_scrub : let s := sys (core [0x8000000180000, 1024, 0x8000000180008, 2 ^ 24 + 1])
    let x := ops (.g 9) (.g 1) (.g 2)
    answers s .scrub x 0 = true ∧ answers { s with err := [(0x8000000180008, ⟨false, true, 0⟩)] } .scrub x (2 ^ 32) (fun t => (t.errAt 0x8000000180008).poison) = true ∧
    halts s 256 .scrub (ops (.g 9) (.g 3) (.g 2)) 9 0 0x8000000180008 = true ∧ halts s 256 .scrub (ops (.g 9) (.g 1) (.g 4)) 15 0 0x8000000180000 = true := by decide +kernel
/-- Beam 2 at reset: R433, R438. -/
theorem test_beamstat : let s := sys (core [2, 0x22, 14])
    let x := fun v => opsT (.g 9) (.g 1) .none .i8 .i8 v
    answers s .beamstatRate (x 0) 32 = true ∧ answers s .beamstatWidth (x 1) 128 = true ∧ answers s .beamstatRetired (x 2) 0 = true ∧
    answers s .beamstatCrc (x 3) 0 = true ∧ answers s .beamstatReplay (x 4) 0 = true ∧ answers s .beamstatRrate (x 5) 0 = true ∧
    answers s .beamstatModule (opsT (.g 9) (.g 2) .none .i8 .i8 6) 0 = true ∧ answers s .beamstatCfg (x 7) (120 + 64 * 256 + 4 * 2 ^ 32) = true ∧
    answers { s with beams := [(2, some { Beam.fresh 2 with events := 11 })] } .beamstatEvents (x 8) 11 (fun t => (t.beam 2).events = 8) = true ∧
    halts s 256 .beamstatRate (opsT (.g 9) (.g 3) .none .i8 .i8 0) 2 0 0 = true ∧ halts s 256 .beamstatRate (opsT (.g 9) (.g 2) .none .i8 .i8 0) 2 0 0 = true := by decide +kernel
/-- R434: bounds of FLOOR, CEIL and OWNER; the present rate and another. -/
theorem test_beamrate : let s := fun v => sys (core [2, v])
    let x := fun k => opsT (.g 9) (.g 1) (.g 2) .i8 .i8 k
    answers (s 128) .beamrateFloor (x 1) 0 (fun t => (t.beam 2).floor = 128) = true ∧ halts (s 129) 256 .beamrateFloor (x 1) 2 0 0 = true ∧
    answers (s (2 ^ 20)) .beamrateCeil (x 2) 0 (fun t => (t.beam 2).ceil = 2 ^ 20) = true ∧ halts (s 0) 256 .beamrateCeil (x 2) 2 0 0 = true ∧
    answers (s 7) .beamrateOwner (x 3) 0 (fun t => (t.beam 2).owner = 7) = true ∧ halts (s 8) 256 .beamrateOwner (x 3) 2 0 0 = true ∧
    answers (s 0) .beamrateSet (x 0) 0 = true ∧ answers { s 1 with beams := [(2, some { Beam.fresh 2 with lost := true })] } .beamrateSet (x 0) 2 = true ∧
    gives (exec (.beamrateSet (x 0)) (s 4)) (fun t => (t.hart 256).mode = .blocked ⟨0, 0, 0, 0⟩ && (t.beam 2).change = some ⟨4, false, false, some 256⟩) = true ∧
    halts (s 5) 256 .beamrateSet (x 0) 2 0 0 = true := by decide +kernel
/-- R435: lane 63 of module 1 of beam 2, the same again, of a lost beam, and lane 68. -/
theorem test_beamretire : let x := ops (.g 9) (.g 1) (.g 2)
    let s := sys (core [0x22, 63])
    answers s .beamretire x 0 (fun t => (((t.beam 2).dir 0).mod 1).repair = [(63, 64)] && ((t.beam 2).dir 0).lanesRetired = 1) = true ∧
    answers { s with beams := [(2, some { Beam.fresh 2 with dirs := [{ Direction.fresh with modules := [(1, { Module.fresh with retired := [63] })] }, .fresh] })] } .beamretire x 2 = true ∧
    answers { s with beams := [(2, some { Beam.fresh 2 with lost := true })] } .beamretire x 3 = true ∧ halts (sys (core [0x22, 68])) 256 .beamretire x 2 0 0 = true := by
  decide +kernel

/-! Events: start-up, the host, memory. -/

/-- The event gives a next state with the property. -/
def ev (i : Instr) (s : State) (p : State → Bool) : Bool := gives (exec i s) p
/-- READY with a store in DRAM and one in host memory. -/
def plain : State := poke (poke ready 0x5000 2 0x2211) 0xA000000000040 1 0x33

/-- R18, R370. -/
theorem test_resets : let off := State.reset
    let lost := fun (t : State) => t.memByte 0x5000 = 0 && t.memByte 0xA000000000040 = 0x33
    ev .powerGood off (fun t => t.phase = 1 && t.power) = true ∧ ev .powerGood { off with perst := 2 } (fun t => t.phase = 0) = true ∧
    ev .powerGoodDrop plain (fun t => t.phase = 0 && !t.power && lost t) = true ∧ ev (.perstAssert 1) plain (fun t => t.phase = 0 && t.perst = 2 && lost t) = true ∧
    ev (.perstDeassert 1) { off with power := true, perst := 2 } (fun t => t.phase = 1 && t.perst = 0) = true ∧
    ev (.perstDeassert 1) { off with power := true, perst := 3 } (fun t => t.phase = 0 && t.perst = 1) = true ∧
    ev (.devreset 0x5253544C) plain (fun t => t.phase = 1 && lost t) = true ∧ ev (.devreset 1) plain (fun t => t = plain) = true ∧
    ev (.portHotReset 0) { plain with hostReply := .abort } (fun t => t = plain) = true ∧ Table.wf (0 : Byte) plain.mem = true := by decide +kernel
/-- R18, R19: a package in each phase; post 3 fails. -/
theorem test_phases : let s := fun p => { State.reset with power := true, phase := p }
    (s 1).posts = 255 ∧ ev .phaseRomDone (s 1) (fun t => t.phase = 2) = true ∧ imageOk [] = false ∧
    ev (.phaseAuthDone []) { s 2 with fwImage := some [] } (fun t => t.phase = 15 && t.bootCause = .fwAuth) = true ∧ ev (.phaseDramDone 0) (s 3) (fun t => t.phase = 4) = true ∧
    ev (.phaseDramDone 8) (s 3) (fun t => t.phase = 15 && t.bootCause = .selfCheck && t.failPosts = 8) = true ∧
    ev (.phaseCoresDone 0 0x8002) (s 4) (fun t => t.phase = 5 && t.spares = 0x8002) = true ∧ ev (.phaseCoresDone 8 0) (s 4) (fun t => t.phase = 15) = true ∧
    ev (.phaseBeamsDone true []) (s 5) (fun t => t.phase = 6) = true ∧ ev (.phaseBeamsDone false []) (s 5) (fun t => t.bootCause = .beamDown) = true ∧
    ev (.phaseBeamsDone true [⟨13, 1, 127, 63⟩]) (s 5) (fun t => (((t.beam 13).dir 1).mod 127).repair = [(63, 64)] && ((t.beam 13).dir 0).mod 127 = .fresh) = true ∧
    ev .phaseSramDone (s 6) (fun t => t.phase = 7) = true ∧ ev (.phaseCheckDone 0) (s 7) (fun t => t.phase = 8) = true ∧ ev (.phaseCheckDone 8) (s 7) (fun t => t.phase = 15) = true ∧
    (List.range 8).all (fun p => (0x8002 >>> (2 * p)) % 4 ≤ 2) = true := by decide +kernel
/-- R387: GO in the FW_AUTH halt with FWLEN at its bounds 133 and 2^26, below, and in another phase. -/
theorem test_fwctl : let s := fun (l : Word) => { State.reset with power := true, phase := 15, bootCause := .fwAuth, fwlen := l }
    ev (.fwctlGo 1) (s 133) (fun t => t.phase = 2) = true ∧ ev (.fwctlGo 1) (s (2 ^ 26)) (fun t => t.phase = 2) = true ∧ ev (.fwctlGo 1) (s 132) (fun t => t = s 132) = true ∧
    ev (.fwctlGo 0) (s 133) (fun t => t = s 133) = true ∧ ev (.fwctlGo 1) { s 133 with phase := 8 } (fun t => t.phase = 8) = true := by decide +kernel
/-- R369: each register keeps its defined bits. -/
theorem test_control_registers : let w := fun o p => ev (.controlRegisterWrite o (BitVec.allOnes 64)) ready p
    ready.barUp = true ∧ w 0x40 (fun t => t.hostlim = 0x0000FFFFFFFFF000) = true ∧ w 0x48 (fun t => t.cxllim = 0x0000FFFFFFFFF000) = true ∧
    w 0x50 (fun t => t.spancfg = 0x1FFFFFF) = true ∧ w 0x100 (fun t => t.fwaddr = BitVec.allOnes 64) = true ∧ w 0x108 (fun t => t.fwlen = 0x7FFFFFF) = true ∧
    w 0x10 (fun t => t = ready) = true ∧ w 0x18 (fun t => t = ready) = true := by decide +kernel
/-- R342: queue 3 of two entries, not resident, TAIL 1, DONE 0: 2 is accepted, 3 sets TAILERR, 0 lies behind; and a resident queue. -/
theorem test_doorbell : let s := queued 1 0
    let r := poke s (queueRec 3 + 0x20) 1 1
    s.homeOk 3 = true ∧ s.qLogSize 3 = 1 ∧ ev (.doorbell 3 2) s (fun t => t.qTail 3 = 2 && t.qBit 3 1 && t.pend = [3]) = true ∧
    ev (.doorbell 3 3) s (fun t => t.qTail 3 = 1 && t.qBit 3 2 && t.pend = []) = true ∧ ev (.doorbell 3 0) s (fun t => t = s) = true ∧
    ev (.doorbell 3 2) r (fun t => t.qTail 3 = 2 && !t.qBit 3 1 && t.pend = []) = true := by decide +kernel
/-- A started copy of 8 bytes from 0x1000 to 0x2000 by task 1 under peg 7. -/
def aCopy : Copy where
  seq := 4
  kind := 0
  par := ⟨0x1000, 0x2000, 8, 0, 0, 0, 0, 0, 0, false, false, 0, 0, 0⟩
  src := [⟨0x1000, 8, 0⟩]
  dst := [⟨0x2000, 8, 0⟩]
  fp := []
  bar := none
  region := 0
  issuer := 0
  task := some 1
  graph := 1
  asid := 1
  peg := 7
  started := true
  stale := false
  total := 8
  left := [(0, 8)]
  early := []
  landed := 0
  owed := (0, 0)
  cause := none
  low := none
  got := []
  buf := []
  tainted := false
  spoiled := []
  fail := none
/-- R272: answers of the outside to core 0 and to a copy. -/
theorem test_responses : let s := vec (core [])
    let e := { s with copies := [(0, [aCopy])] }
    (s.hart 0).exposed = true ∧ ev (.remoteTimeout (.hart 0)) s (fun t => (t.hart 0).response = some .remoteTimeout) = true ∧
    ev (.hostCompletion (.hart 0) .abort) s (fun t => (t.hart 0).response = some .hostAbort) = true ∧ ev (.hostCompletion (.hart 0) .poisoned) s (fun t => (t.hart 0).response = some .hostPoison) = true ∧
    ev (.hostCompletion (.hart 0) .normal) s (fun t => (t.hart 0).response = none) = true ∧ ev (.hostCompletion (.hart 0) .peerAbort) s (fun t => t = s) = true ∧
    ev (.remoteTimeout (.copy 0 4)) e (fun t => (t.copiesAt 0).map (fun x => x.fail) = [some .remoteTimeout]) = true ∧
    ev (.hostCompletion (.copy 0 4) .peerAbort) e (fun t => (t.copiesAt 0).map (fun x => x.fail) = [some .peerAbort]) = true ∧
    (let r := { s with harts := [(0, { core [] with response := some .hostAbort })] }
     (r.readPiece 0 ⟨0xA000000000040, 4, 0⟩).2 = some (.hostAbort, 0xA000000000040) ∧ r.unreachable (postId 0) 0xA000000000040 = none) := by decide +kernel
/-- R368: a host load and store of DRAM through port 1, and in phase 7. -/
theorem test_host_access : (List.range 2).all (fun k => plain.hostReach (0x5000 + k) && plain.unreachable 9 (0x5000 + k) = none) = true ∧ plain.plainPlace 0x5000 2 = true ∧
    ev (.hostAccess 1 0x5000 2 none) plain (fun t => t.hostReply = .data [0x11, 0x22]) = true ∧
    ev (.hostAccess 1 0x5001 1 (some [0x99])) plain (fun t => t.hostReply = .done && t.homeByte 0 0x5001 0 = 0x99 && t.homeByte 0 0x5000 0 = 0x11) = true ∧
    ev (.hostAccess 1 0x5000 2 none) { plain with phase := 7 } (fun t => t.hostReply = .abort && t.memByte 0x5000 = 0x11) = true := by decide +kernel
/-- R318: a write of the host to its memory and to CXL memory; a store performed; a dirty sector evicted. -/
theorem test_memory_events : let s := { mems with stores := [⟨0, 0x101, [0x77], 0, 0, ⟨0, 0, 1, 1, 7⟩, false, false⟩, ⟨0, 0x101, [0x78], 0, 0, ⟨0, 0, 1, 1, 7⟩, false, false⟩] }
    ev (.hostWrite 0xA000000000040 [0x44]) plain (fun t => t.hostByte HostWr.atHost 0xA000000000040 = 0x44 && t.homeByte 0 0xA000000000040 0 = 0x33) = true ∧
    ev (.hostWrite 0xB000000000040 [0x44]) plain (fun t => t.homeByte 0 0xB000000000040 0 = 0x44 && t.homeByte 8 0xB000000000040 0 = 0x44) = true ∧
    ev (.accessPerform none 0) s (fun t => t.stores.length = 1 && t.homeByte 0 0x101 0 = 0x77) = true ∧ ev (.accessPerform none 1) s (fun t => t = s) = true ∧
    (cached.sector 0x100).isSome = true ∧ ev (.l2Eviction 0x100) cached (fun t => t.sector 0x100 = none && t.memByte 0x100 = 0x55) = true := by decide +kernel
/-- A device's write to host memory reaches the host first, then the other side. -/
theorem test_host_writes : let w : HostWr := ⟨0xA000000000040, [0x55], some ⟨0, 0, 1, 1, 7⟩, true, false, false, []⟩
    let s := { plain with hostWrites := [w] }
    ev (.accessPerform (some 1) 0) s (fun t => t.hostByte HostWr.atHost 0xA000000000040 = 0x55) = true ∧
    ev (.accessPerform (some 2) 0) { s with hostWrites := [{ w with atHost := true }] } (fun t => t.memByte 0xA000000000040 = 0x55 && t.hostWrites = []) = true ∧
    ev (.accessPerform (some 0) 0) { s with hostWrites := [{ w with atWest := false, atHost := true, atEast := true }] } (fun t => t.memByte 0xA000000000040 = 0x55) = true := by decide +kernel

/-! Events: queues, tasks, fault queues. -/

/-- Queue 3 enabled on post 0 with WDOG 20, QUOTA 4, core mask 1 on post 0; two entries at 0x10000, TAIL `tail`, flags `bits`; an
entry at 0x10000 with PRIO 5, a pool of 64 slots, a fault queue of 16, and its root record at 0x20000 (pc 0x4000). -/
def launching (tail bits : Nat) (prio : Nat := 5) : State :=
  let put := fun (s : State) (l : List (Nat × Nat × Nat)) => l.foldl (fun s f => poke s f.1 f.2.1 f.2.2) s
  { put ready [(queueRec 3, 8, 0x10000), (queueRec 3 + 8, 8, 0x0001140400FF0241), (queueRec 3 + 0x10, 8, tail), (queueRec 3 + 0x20, 8, bits), (queueRec 3 + 0x30, 4, 1),
      (0x10000, 4, 0xFF000001 + prio * 0x10000), (0x10004, 4, 6), (0x10008, 8, 0x8000000100000), (0x10010, 8, 0x8000000200000), (0x10018, 8, 16), (0x10020, 8, 0x20000), (0x20000, 8, 0x4000)]
    with pend := [3] }
/-- R343, R344: the pending queue becomes resident; a bad record (HOME 0 but LOGSIZE 17) takes CFGERR. -/
theorem test_resident : let s := launching 1 2
    let b := poke s (queueRec 3 + 8) 1 0x51
    s.dispatches 0 = true ∧ s.entering 0 = [3] ∧ s.badQueue 3 = false ∧ ev (.queueResident 0) s (fun t => t.qBit 3 0 && !t.qBit 3 1 && t.pend = []) = true ∧
    b.entering 0 = [3] ∧ b.badQueue 3 = true ∧ ev (.queueResident 0) b (fun t => t.qBit 3 3 && !t.qBit 3 0) = true := by decide +kernel
/-- 128 resident queues of post 0, 0 to 127, and queue 200, which waits. -/
def crowded : State := { State.reset with
  phase := 8, power := true, pend := [200]
  mem := (List.range 128).map (fun k => (0x800002FF00020 + 128 * k, 1)) ++ [(queueRec 200 + 8, 0x40), (queueRec 200 + 0x20, 2)] }
/-- R343: no room, and the first resident queue, whose HEAD is its TAIL, gives its place up. -/
theorem test_dormant : ((crowded.residents 0).length, (crowded.residents 0).head?) = (128, some 0) ∧ crowded.entering 0 = [200] ∧ crowded.recent = [] ∧
    ev (.queueDormant 0) crowded (fun t => !t.qBit 0 0 && t.qBit 1 0) = true := by decide +kernel
/-- R346: the entry of PRIO 5 passes every check, that of PRIO 1 (the queue's QPRIO is 2) is refused with PRIV, code 6, and HEAD counts it. -/
theorem test_dispatch : let s := launching 1 1
    let r := launching 1 1 1
    s.qBit 3 0 = true ∧ s.qHead 3 ≠ s.qTail 3 ∧ s.rungEntry 3 0 = false ∧ s.launchRefused 3 (launchEntry (s.rawBytes 0 0x10000 64)) 255 (s.launchMasks 3 (s.launchArray 0 (launchEntry (s.rawBytes 0 0x10000 64))).2) = none ∧
    badRecord 255 (s.rawBytes 0 0x20000 64) = false ∧ Table.wf (0 : Byte) s.mem = true ∧ (s.graphs, s.err, s.scrapped, s.beams) = ([], [], 0, []) ∧ window 0x10000 < 8 ∧
    ev (.dispatchBatch 3 1) r (fun t => t.qHead 3 = 1 && t.graphs = [] && t.homeByte 0 0x10030 0 = 0x86) = true := by decide +kernel

/-- Task 2 of graph 1 READY in the list of level 5 on post 0, its record in slot 1: pc 0x4000, ARG 7. -/
def listed (t : Task) : State := poke (poke { ready with
  tasks := [(2, some t)], graphs := [(1, some graph1)], ready := [⟨0, 5, 3, 2⟩], rotation := [⟨0, 5, 3, 0⟩] } 0x8000000100040 8 0x4000) 0x8000000100048 8 7
/-- R36, R350: the premises of a first start and of a restore from an image whose pc word is 0x77. -/
theorem test_bind_premises : let t : Task := { task1 with status := .ready, slot := 1, started := false, image := none }
    let u : Task := { t with started := true, image := some 0x8000020000000, lastCore := 0 }
    (listed t).nextOwn 0 = some 2 ∧ (listed t).coreFor 2 0 = some (0, 1, graph1, t) ∧ (listed t).slotField graph1 t 32 = 0 ∧
    (listed u).coreFor 2 0 = some (0, 1, graph1, u) ∧ (listed u).badLine 0x8000020000000 4 = none := by decide +kernel
theorem test_restore : let t : Task := { task1 with status := .ready, slot := 1 }
    ev (.taskBind 0) (poke (listed t) 0x8000020000000 8 0x77) (fun s => (s.hart 0).pc = 0x77 && (s.hart 0).mode = .running && (s.task 2).map (fun k => k.status) = some .running) = true := by
  decide +kernel
/-- R60, R353: a victim blocked on a wait, one running, and one to be stopped at unit 3. -/
theorem test_preempt : let s := fun (m : Mode) => vec { core [] with victim := true, mode := m }
    ev (.preemptStop 0 7) (s (.blocked ⟨8, 0, 0, 0⟩)) (fun t => (t.hart 0).mode = .saving .preempt && !(t.hart 0).victim) = true ∧
    ev (.preemptStop 0 0) (s .running) (fun t => (t.hart 0).mode = .saving .preempt) = true ∧ ev (.preemptStop 0 3) (s .running) (fun t => (t.hart 0).cut = some ⟨3, none⟩) = true := by decide +kernel
/-- Task 1 about to run an instruction at 0x1000. -/
def about (i : Instr) (h : Hart) : State := poke (vec h) 0x1000 12 (((encode i).getD 0).toNat)
/-- R356, Table 17-8: WATCHDOG of a wait at port 13, of one that is over, of an LD stalled at DRAM, at its own pipeline and at a page that it does not
read, and of an STV stalled at element 5; a live register that an MOV to memory's v4 does not name. -/
theorem test_watchdog : let s := fun (m : Mode) => vec { core [] with mode := m }
    let d := about (.ld (ops (.g 9) (.g 1) (.i16 64))) (core [0x3000])
    let v := about (.stv (ops (.g 1) (vG 4 0) (.i16 0))) { core [0x3000] with vl := 0x40008, livemask := 0x10 }
    let dog := fun (t : State) (finfo addr : Nat) => (t.hart 0).cause = 35 && (t.hart 0).finfo.toNat = finfo && (t.hart 0).faddr.toNat = addr && (t.hart 0).mode = .saving .stop
    ev (.watchdog 0 0 0 0 0 0) (s (.blocked ⟨13, 0, 3, 0x90200⟩)) (fun t => dog t 0x3D0 0x90200) = true ∧
    ev (.watchdog 0 0 0 0 0 0) (s (.blocked ⟨8, 0, 0, 7⟩)) (fun t => t = s (.blocked ⟨8, 0, 0, 7⟩)) = true ∧
    ev (.watchdog 0 0 2 0 3 0x3044) d (fun t => dog t 0x320 0x3044) = true ∧ ev (.watchdog 0 0 0 0 0 0) d (fun t => dog t 0 0) = true ∧
    [(2, 0, 3, 0x3048), (2, 1, 3, 0x3044), (2, 0, 2, 0x3044), (5, 0, 3, 0x3044), (0, 0, 0, 0x44)].all (fun q =>
      ev (.watchdog 0 0 q.1 q.2.1 q.2.2.1 (BitVec.ofNat 64 q.2.2.2)) d (fun t => t = d)) = true ∧
    ev (.watchdog 0 5 2 1 2 0x3014) v (fun t => (t.hart 0).cut = some ⟨5, some ⟨2, 1, 2, 0x3014⟩⟩) = true ∧
    ev (.watchdog 0 0 15 0 0 0x2400) v (fun t => dog t 0xF0 0x2400) = true ∧ ev (.watchdog 0 0 15 0 0 0x2500) v (fun t => t = v) = true := by decide +kernel
/-- R392, R402: a parity error that the core has met is reported before the pre-emption, the watchdog and the report. -/
theorem test_parity_first : let s := vec { core [] with parity := some 0x33, victim := true, mode := .blocked ⟨13, 0, 3, 0x90200⟩ }
    let p := fun (t : State) => (t.hart 0).cause.toNat = Cause.coreParity.code && (t.hart 0).faddr = 0x33 && (t.hart 0).mode = .saving .stop && (t.hart 0).parity = none
    isSys 0 = false ∧ s.waitOver 0 ⟨13, 0, 3, 0x90200⟩ = false ∧ ev (.preemptStop 0 0) s p = true ∧ ev (.watchdog 0 0 0 0 0 0) s p = true ∧
    ev (.rowReportStop 0) { s with tasks := [(1, some { task1 with reports := [⟨.jointLong, 0x2000, 0⟩] })] } p = true := by decide +kernel
/-- R258: a report stops its task between instructions. -/
theorem test_report_stop : let s := { vec (core []) with tasks := [(1, some { task1 with reports := [⟨.jointLong, 0x2000, 0⟩] })] }
    s.taskOf 0 = some (1, { task1 with reports := [⟨.jointLong, 0x2000, 0⟩] }) ∧ (s.hart 0).estart = 0 ∧
    ev (.rowReportStop 0) s (fun t => (t.hart 0).cause = 24 && (t.hart 0).faddr = 0x2000 && (t.hart 0).finfo = 5 && (t.task 1).map (fun k => k.reports) = some []) = true := by decide +kernel
/-- R37, R60: the image of a pre-empted, a yielding and a stopped task; the stop's entry in slot 0 of the fault queue at 0x8_0000_0020_0000. -/
theorem test_saves : let s := fun w => { vec { core [5] with mode := .saving w, cause := 9, faddr := 0x33, livemask := 0x10, v := [(4, 7)] } with tasks := [(1, some { task1 with tiles := 0 })] }
    let image := fun (t : State) => t.imageWord 0x8000020000000 0 = 0x1000 && t.imageWord 0x8000020000000 0x38 = 9 && t.imageWord 0x8000020000000 0x108 = 5 && t.memNat (0x8000020000000 + 0x2400) 1 = 7 && t.hart 0 = .blank
    ev (.imageSaveDone 0) (s .preempt) (fun t => image t && (t.task 1).map (fun k => k.status) = some .ready && t.ready.map (fun r => (r.task, r.post)) = [(1, 0)]) = true ∧
    ev (.imageSaveDone 0) (s .yield) (fun t => image t && (t.task 1).map (fun k => k.status) = some .ready) = true ∧
    (s .stop).faultFull graph1 = false ∧ window 0x8000000200000 = 8 ∧ imageLen 0 ≤ 0x10000 ∧ Table.wf (0 : Byte) (s .stop).mem = true ∧
    ev (.imageSaveDone 0) (s .stop) (fun t => image t && (t.task 1).map (fun k => k.status) = some .stopped && t.memNat 0x8000000200000 4 = 1 &&
      t.memNat 0x8000000200020 8 = 0x100000007 && t.memByte 0x8000000200028 = 9 && t.memNat 0x8000000200030 8 = 0x33 && t.memNat 0x8000000200038 8 = 0x8000020000000) = true := by decide +kernel
/-- R284, R373: PFH of 4096 bytes at 0x9000, of no length, of a full queue, on a system core; a held entry. -/
theorem test_pfh : let x := ops .none (.g 1) (.g 2)
    let s := vec (core [0x9000, 0x1000])
    goes s 0 .pfh x (fun t _ => t.memNat 0x8000000200000 4 = 1 && t.memNat 0x8000000200020 8 = 0x100000007 && t.memNat 0x8000000200028 8 = 0x100000000080 && t.memNat 0x8000000200030 8 = 0x9000) = true ∧
    goes (vec (core [0x9000])) 0 .pfh x (fun t _ => t.memNat 0x8000000200000 4 = 0) = true ∧ goes (poke s 0x8000000200000 4 16) 0 .pfh x (fun t _ => t.memNat 0x8000000200000 4 = 16) = true ∧
    (poke s 0x8000000200000 4 16).faultFull graph1 = true ∧ goes (sys (core [0x9000, 0x1000])) 256 .pfh x (fun _ _ => true) = true ∧
    (let e : HeldEntry := ⟨1, 1, 3, false, false, List.replicate 32 7⟩
     let r := { s with held := [e] }
     r.held.find? (fun e => e.graph = 1) = some e ∧ ev (.faultqHeldWrite 1) r (fun t => t.held = [] && t.memByte 0x800000020003F = 7 && t.memNat 0x8000000200000 4 = 1) = true ∧
     ev (.faultqHeldWrite 1) (poke r 0x8000000200000 4 16) (fun t => t.held.length = 1) = true) := by decide +kernel

/-! Events: engines, sequencers, beams, reports. -/

/-- A started BKCLR of task 1 under peg 7. -/
def aBank : BankCmd := ⟨4, BkOp.clr.code, .i8, .i8, ⟨0, 0, false, 0, 0, 0, 0, 0, 0, 0, 0⟩, [], [], [], some 1, 1, 1, 7, true, false, [], [], 0, none, some (.none, 0)⟩
/-- Core 0 with peg 7 set, one copy and one bank command of its task outstanding. -/
def engined (cs : List Copy) (bs : List BankCmd) : State :=
  { poke (vec { core [5] with pegmask := 0x80 }) 0x1000 8 0x1122334455667788 with
    harts := [(0, { core [5] with pegmask := 0x80, task := some 1 })], tasks := [(1, some { task1 with copies := 1, banks := 1 })], copies := [(0, cs)], banks := [(0, bs)] }
/-- R218, R231: the oldest command starts, not a fifth; its end writes 1 << 14 to g7. -/
theorem test_bank_events : let b := fun n (st : Bool) => { aBank with seq := n, started := st }
    ev (.bankCmdStart 0) (engined [] [b 1 true, b 2 false]) (fun t => (t.bankQueue 0).map (fun c => c.started) = [true, true]) = true ∧
    ev (.bankCmdStart 0) (engined [] [b 1 true, b 2 true, b 3 true, b 4 true, b 5 false]) (fun t => (t.bankQueue 0).map (fun c => c.started) = [true, true, true, true, false]) = true ∧
    ev (.bankCmdComplete 0 4) (engined [] [aBank]) (fun t => t.bankQueue 0 = [] && (t.hart 0).gr 7 = 0x4000 && (t.hart 0).pegmask = 0 && (t.task 1).map (fun k => (k.copies, k.banks)) = some (1, 0)) = true ∧
    ev (.bankCmdComplete 0 4) (engined [] [{ aBank with result := none }]) (fun t => t.bankQueue 0 = [] && (t.hart 0).gr 7 = 0x4000) = true := by decide +kernel
/-- R287, R288, R299: a copy starts, lands its bytes, and completes with the 8 bytes landed in DETAIL of g7. -/
theorem test_copy_events : ev (.copyStart 0) (engined [{ aCopy with started := false }] []) (fun t => (t.copiesAt 0).map (fun c => c.started) = [true]) = true ∧
    ((engined [] []).copiesAt 0).find? ((engined [] []).copyReady 0) = none ∧ [{ aCopy with started := false }].find? ((engined [{ aCopy with started := false }] []).copyReady 0) = some { aCopy with started := false } ∧
    ev (.copyLand 0 4 (0, 8)) (engined [aCopy] []) (fun t => (t.copiesAt 0).map (fun c => (c.left, c.landed, c.cause)) = [([], 8, none)] && t.homeByte 0 0x2000 0 = 0x88 && t.homeByte 0 0x2007 0 = 0x11 && t.homeByte 0 0x2008 0 = 0) = true ∧
    ev (.copyComplete 0 4) (engined [{ aCopy with left := [], landed := 8 }] []) (fun t => t.copiesAt 0 = [] && (t.hart 0).gr 7 = 0x800000000 && (t.hart 0).pegmask = 0 && (t.task 1).map (fun k => (k.copies, k.banks)) = some (0, 1)) = true := by decide +kernel
/-- R240, R259: a mode request at the front; the more urgent of two programs starts. -/
theorem test_sequencer_events : let s := { vec (core []) with regions := [{ region0 with items := [.mode false 1, .prog 3] }] }
    let w := fun pid prio => { rowProg 0 with pid := pid, prio := prio, begun := false, running := false, ops := 9 }
    let q := { vec (core []) with progs := [(0, [w 2 4, w 3 1])], regions := [{ region0 with items := [.prog 3] }, { region0 with handle := 1, subs := [2], items := [.prog 2] }] }
    ev (.modeChange 0 1 0) s (fun t => (t.region 1 0).map (fun r => (r.now, r.items)) = some (false, [.prog 3])) = true ∧
    (q.progsAt 0).filter (fun p => !p.running && q.atFront p && q.fits 0 p) = [w 3 1] ∧
    ev (.rowprogStart 0) q (fun t => (t.progsAt 0).map (fun p => (p.pid, p.running, p.ops)) = [(2, false, 9), (3, true, 0)]) = true := by decide +kernel
/-- R256, R260: waves, at most two; an alert at 2048; a refresh of a busy and of a free subarray. -/
theorem test_row_events : let s := { seqState (rowProg 0) with waves := [(0, 1)], acts := [(rowKey 0 0 5, 2048), (rowKey 0 0 6, 2047)] }
    s.dieLoad 0 0 ≠ 0 ∧ ev (.waveAdmit 0 0) s (fun t => Table.get 0 t.waves 0 = 2) = true ∧ ev (.waveAdmit 0 0) { s with waves := [(0, 2)] } (fun t => Table.get 0 t.waves 0 = 2) = true ∧
    ev (.activationAlert 0 0 5) s (fun t => (t.prog 0 3).any (fun p => p.alerts = [(0, 5)])) = true ∧ ev (.activationAlert 0 0 6) s (fun t => t = s) = true ∧
    ev (.refresh 0 1) s (fun t => t.due = [(0, 1)]) = true ∧ ev (.refresh 0 0) { s with progs := [] } (fun t => Table.get 0 t.acts (rowKey 0 0 5) = 0 && t.due = []) = true := by decide +kernel

/-- Beam 2 with its two directions. -/
def beamed (a b : Direction := .fresh) (c : Option RateChange := none) (rate : Nat := 1) : State :=
  { ready with beams := [(2, some { Beam.fresh 2 with rate := rate, dirs := [a, b], change := c })] }
/-- A data flit of channel 1, all zeros. -/
def aFlit : FlitData := ⟨1, List.replicate 240 0⟩
/-- Table 21-1, R420 to R422: an idle and a data flit are sent, one with a reserved bit is counted and dropped. -/
theorem test_flits : Direction.fresh.nextModule = some 0 ∧ (beamed.beam 2).dirs.length = 2 ∧
    ev (.flitSend 2 0 none) beamed (fun t => ((t.beam 2).dir 0).wire.length = 1 && ((t.beam 2).dir 0).nextSeq = 0) = true ∧
    ev (.flitSend 2 0 (some aFlit)) beamed (fun t => ((t.beam 2).dir 0).buffer = [⟨0, aFlit, 0⟩] && ((t.beam 2).dir 0).nextSeq = 1 && ((t.beam 2).dir 0).window = 1) = true ∧
    aFlit.payload.length = 240 ∧ aFlit.vc < 4 ∧ flitGood (2 ^ 20) = false ∧
    ev (.flitReceive 2 0 []) (beamed { Direction.fresh with wire := [⟨2 ^ 20, 0, false⟩] }) (fun t => ((t.beam 2).dir 0).crc = 1 && ((t.beam 2).dir 0).wire = []) = true := by decide +kernel
/-- R423, R426, R429, R432: a replay; the end of a window; a forced step; a lane with 16 errors; a module retrained. -/
theorem test_beam_events : let d := { Direction.fresh with buffer := [⟨7, aFlit, 62⟩] }
    let m := fun k => { Module.fresh with errors := List.replicate k (5, 0) }
    let lane := fun k => beamed { Direction.fresh with modules := [(1, m k)] }
    ev (.replayTimeout 2 0) (beamed d) (fun t => ((t.beam 2).dir 0).resend = [7] && ((t.beam 2).dir 0).replays = 1 &&
      ev (.flitSend 2 0 none) t (fun u => ((u.beam 2).dir 0).buffer.map (fun f => f.tries) = [63] && ((u.beam 2).dir 0).resend = [])) = true ∧
    ev (.replayWindowEnd 2 0) (beamed { Direction.fresh with window := 2 ^ 20, windowReplays := 64 }) (fun t => ((t.beam 2).dir 0).rrate = 64 && ((t.beam 2).dir 0).window = 0 && (t.beam 2).change = none) = true ∧
    ev (.replayWindowEnd 2 0) (beamed { Direction.fresh with window := 2 ^ 20, windowReplays := 65 }) (fun t => (t.beam 2).change = some ⟨0, true, false, none⟩ && (t.beam 2).events = 2) = true ∧
    (m 16).carried 5 ≠ none ∧ ev (.laneRetire ⟨2, 0, 1, 5⟩) (lane 16) (fun t => (((t.beam 2).dir 0).mod 1).repair = [(5, 64)] && ((t.beam 2).dir 0).lanesRetired = 1) = true ∧
    ev (.laneRetire ⟨2, 0, 1, 5⟩) (lane 15) (fun t => t = lane 15) = true ∧
    ev (.moduleRetrainDone 2 0 1) (beamed { Direction.fresh with modules := [(1, { Module.fresh with training := true })] }) (fun t => !(((t.beam 2).dir 0).mod 1).training) = true := by decide +kernel
/-- R426: a rate change drains, trains, and takes the new rate or, where module 3 fails, keeps the old one. -/
theorem test_rate_change : let c : RateChange := ⟨3, false, false, none⟩
    ev (.rateChangeDrained 2) (beamed .fresh .fresh (some c)) (fun t => (t.beam 2).change = some { c with training := true }) = true ∧
    ev (.rateChangeDrained 2) (beamed { Direction.fresh with buffer := [⟨7, aFlit, 0⟩] } .fresh (some c)) (fun t => (t.beam 2).change = some c) = true ∧
    ev (.rateRetrainDone 2 [] []) (beamed .fresh .fresh (some { c with training := true })) (fun t => (t.beam 2).rate = 3 && (t.beam 2).change = none) = true ∧
    ev (.rateRetrainDone 2 [⟨1, 3⟩] []) (beamed .fresh .fresh (some { c with training := true })) (fun t => (t.beam 2).rate = 1 && (t.beam 2).change = none) = true := by decide +kernel
/-- R20, R402, R414 to R416: reports go to core 0, or to core 4 while it is halted; post 0 is scrapped; the package is scrapped. -/
theorem test_reports : let s := { ready with harts := [(256, { Hart.blank with mode := .halted })] }
    let g := { ready with harts := [(32, { core [] with task := some 1 })], tasks := [(1, some task1)], graphs := [(1, some graph1)] }
    ev (.powerLimit 5) ready (fun t => (t.hart 256).tpend = 2 ^ 60 && Table.get 0 (t.hart 256).pendAddr 60 = 5) = true ∧ ev (.powerLimit 5) s (fun t => (t.hart 260).tpend = 2 ^ 60) = true ∧
    ev (.thermal 9) ready (fun t => t.throttledDies = 512 && (t.hart 256).tpend = 2 ^ 61) = true ∧ ev (.temperatureFall 9) { ready with throttledDies := 512 } (fun t => t.throttledDies = 0) = true ∧
    ready.posts.testBit 0 = true ∧ ev (.postScrap 0) ready (fun t => t.scrapped = 1 && (t.hart 256).tpend = 2 ^ 63 && t.unreachable 1 0x5000 = some .remoteTimeout) = true ∧
    homePost graph1.pool = 0 ∧ ev (.postScrap 0) g (fun t => (t.graph 1).any (fun h => h.killed)) = true ∧
    ev (.packageScrap 5) g (fun t => t.phase = 15 && t.bootCause = .scrap && t.failPosts = 5 && t.tasks = [] && !t.barUp) = true := by decide +kernel

/-! More premises and clauses of the statements, in their order. -/

/-- A list that rises strictly has no equal neighbours. -/
theorem no_neighbours : ∀ l : List Nat, l.Pairwise (· < ·) → l.foldr (fun a ls => if ls.head? = some a then ls else a :: ls) [] = l
  | [], _ => rfl
  | a :: l, h => by
    rw [List.foldr_cons, no_neighbours l (List.pairwise_cons.mp h).2]
    cases l with
    | nil => rfl
    | cons b l => simp [Nat.ne_of_gt ((List.pairwise_cons.mp h).1 b (by simp))]
/-- An L2 of post 0 with a dirty sector in each of `n` lines. -/
def heavy (n : Nat) : State := { State.reset with l2 := (List.range n).map (fun k => (4 * k, some ⟨1, true, false, false, 0⟩)) }
/-- R9: more lines than 48 MiB are too many. -/
theorem test_overfull (n : Nat) (h : l2Capacity < n) (hn : n ≤ 2 ^ 40) : (heavy n).overfull = some 0 := by
  have hw : ∀ k < n, window (32 * (4 * k)) = 0 := fun k hk => by simp only [window]; omega
  have hl : (heavy n).l2Lines 0 = List.range n := by
    simp only [State.l2Lines, heavy, List.filter_map, Function.comp_def, List.map_map]
    rw [List.filter_eq_self.mpr (by simpa using hw)]
    simpa using no_neighbours _ List.pairwise_lt_range
  have hr : List.range 8 = 0 :: [1, 2, 3, 4, 5, 6, 7] := by decide
  rw [State.overfull, hr, List.find?_cons_of_pos]
  simpa [hl] using h

/-- R41, R355: a core that waits goes on with the instruction that it holds, without fetching it: WAITC of 2 with nothing outstanding. -/
theorem test_step_held : let s := vec { core [] with mode := .blocked ⟨9, 0, 3, 2⟩, held := some ⟨.waitc (ops .none (.i16 2) .none), .again⟩ }
    s.overfull = none ∧ s.coreUp 0 = true ∧ s.isKilled 1 = false ∧ s.hasReport 0 = false ∧ s.agenda = [] ∧
    gives (step s) (fun t => (t.hart 0).pc = 0x100C && (t.hart 0).held = none && (t.hart 0).mode = .running) = true := by decide +kernel
/-- R59, R408: a line of v4 that no fill can read stops the instruction that reads v4, at its offset; one that writes it whole, or does not
name it, goes on. -/
theorem test_step_unfilled : let s := fun d a => vec { core [] with
      vl := 64, mode := .blocked ⟨8, 0, 0, 0⟩, unfilled := [0x2400], held := some ⟨.vmov (opsT (vG d 0) (vG a 0) .none .i32 .i8 0), .again⟩ }
    (Instr.vmov (opsT (vG 6 0) (vG 4 0) .none .i32 .i8 0)).parts.isSome ∧
    gives (step (s 6 4)) (fun t => let h := t.hart 0; (h.cause, h.faddr, h.finfo, h.mode, h.isLive 6) = (54, 0x2400, 0xF0, .saving .stop, false)) = true ∧
    gives (step (s 4 6)) (fun t => (t.hart 0).pc = 0x100C && (t.hart 0).unfilled = []) = true ∧
    gives (step (s 6 8)) (fun t => (t.hart 0).pc = 0x100C && (t.hart 0).unfilled = [0x2400]) = true := by decide +kernel
/-- R63: a system core fetches at a multiple of 4 alone. -/
theorem test_fetch_align : let s := sys { core [] with pc := 0x8000000000302, tvec := 0x400 }
    (s.fetchBytes 256).2.toOption = none ∧ (s.hart 256).fetched = [] ∧ s.err = [] ∧ (s.hart 256).response = none ∧ s.coreUp 256 = true ∧
    s.overfull = none ∧ gives (step s) (fun t => let h := t.hart 256; (h.cause, h.faddr, h.pc) = (9, 0x8000000000302, 0x400)) = true := by decide +kernel
/-- R48: the tiles of an instruction at their bound. -/
theorem test_tile_bound : let s := { vec (core []) with tasks := [(1, some { task1 with tiles := 2 })] }
    (Instr.mzero (ops (.acc 2 0 0 false false) .none .none)).parts.isSome ∧ (s.hart 0).estart = 0 ∧
    s.taskOf 0 = some (1, { task1 with tiles := 2 }) ∧ s.badTile 0 (ops (.acc 1 0 0 false false) .none .none) = none := by decide +kernel
/-- R52: a long instruction of which ESTART leaves no unit; one of which it leaves one. R61: a peg on the index of a tile's row. -/
theorem test_restart_long : let x := tOps .vadd .i32 (vG 4 0) (vG 5 0) (vG 6 0)
    let s := fun e => vec { core [] with vl := 0x40003, estart := e, v := [(5, lanesOf 32 [1, 2, 3]), (6, lanesOf 32 [4, 5, 6])] }
    let p := vec { core [] with pegmask := 0x20 }
    let y := ops (.acc 1 1 5 true false) .none .none
    longOn .vadd x = true ∧ ((s 3).hart 0).vlen = 3 ∧ gives (exec (.vadd x) (s 3)) (fun t => (t.hart 0).cause = 58 && (t.hart 0).mode = .saving .stop) = true ∧
    gives (exec (.vadd x) (s 2)) (fun t => v4 (t.hart 0) 32 [0, 0, 9] && (t.hart 0).pc = 0x100C && (t.hart 0).estart = 0) = true ∧
    (p.hart 0).pegField y = some (2, 5) ∧ p.badTile 0 y = none ∧ (p.hart 0).victim = false ∧ gives (exec (.mzero y) p) (fun t => (t.hart 0).mode = .blocked ⟨8, 0, 2, 5⟩) = true := by
  decide +kernel
/-- R397 to R399: a word that cannot be fetched; a cause taken at a wait and by an idle core; a double trap that post 0 scrapped leaves no record of. -/
theorem test_traps : let h : Hart := { core [] with tvec := 0x400, tpend := 2 ^ 61, tmask := 2 ^ 61, pendAddr := [(61, 3)] }
    let taken := fun (m : Mode) => gives (exec (.asyncTrapTake 0 0) (sys { h with mode := m })) (fun t => (t.hart 256).cause = 61 && (t.hart 256).pc = 0x400)
    taken (.blocked ⟨11, 0, 3, 0x100⟩) = true ∧ taken .idle = true ∧
    (let s := sys { core [] with pc := 0xC000000000000, tvec := 0x400 }
     (s.fetchBytes 256).2.toOption = none ∧ gives (step s) (fun t => let h := t.hart 256; (h.cause, h.faddr, h.finfo) = (15, 0xC000000000000, 2)) = true) ∧
    (let s := { sys { core [] with tstat := 1 } with scrapped := 1 }
     s.unreachable (postId 256) 0x800002FC00000 ≠ none ∧ (s.syncTrap 256 9 0 0 0).mem = s.mem ∧ ((s.syncTrap 256 9 0 0 0).hart 256).mode = .halted) := by decide +kernel
/-- R336: MTS of LIVEMASK drops v5 and makes v6 live, as LIVE.SET does; of ESTART, on a system core, it leaves the value. -/
theorem test_mts_others : let s := vec { core [0x50, 2 ^ 52] with v := [(4, 7), (5, 8)], livemask := 0x30 }
    goes s 0 .mts (ops (.s 0x005) (.g 1) .none) (fun _ h => h.livemask = 0x50 && h.vr 4 = 7 && h.vr 5 = 0 && h.vr 6 = 0) = true ∧
    halts s 0 .mts (ops (.s 0x005) (.g 2) .none) 2 0x300 0 = true ∧ goes (sys (core [9])) 256 .mts (ops (.s 0x002) (.g 1) .none) (fun _ h => h.estart = 9) = true ∧
    halts (sys (core [2 ^ 32])) 256 .mts (ops (.s 0x002) (.g 1) .none) 2 0 0 = true ∧ goes (sys (core [])) 256 .mfs (ops (.g 5) (.s 0x216) .none) (fun _ h => h.gr 5 = 0) = true ∧
    gives (exec (.mts (ops (.s 0x212) (.g 1) .none)) (sys (core [1]))) (fun t => (t.hart 256).cause = 2) = true := by decide +kernel
/-- The capacities of the vector rows whose values are worked above (R140, R153 to R160). -/
theorem test_vector_capacities : let i := vecs 32 [] [7, 0xFFFFFFFD] []
    let s := vec { core [] with vl := 4, v := [(4, lanesOf 16 [0x6800, 0x3C00, 0x3C00, 0x3C00])] }
    let w := ops (vG 4 0) (vG 5 0) .none
    let x := opsT (.g 8) (vG 5 0) .none .i32 .i32 0
    (i.hart 0).NoTraps ∧ [[(2, 32), (3, 32)], [(3, 32)], [(2, 32), (3, 32), (4, 32)]].all (fun c => (i.hart 0).vecCheck x c [3] = none && (i.hart 0).vecCheck w c [3] = none) = true ∧
    (s.hart 0).vecCheck (opsT (vG 4 0) (vG 4 0) .none .fp16 .fp16 0) [(2, 16), (3, 16)] [3] = none ∧ (s.hart 0).NoTraps ∧
    (let d := vec { core [] with vl := 1, v := [(4, 1), (5, 0x0402), (6, 0x0503)] }
     (d.hart 0).vecCheck (opsT (vG 4 0) (vG 5 0) (vG 6 0) .i32 .i8 0) [(2, 32), (3, 32), (4, 32)] [2, 3, 4] = none) ∧
    word (vecs 32 [] [] [] 0) 0 .vredmin (opsT (.g 8) (vG 5 0) .none .i32 .i32 0) 8 0x7FFFFFFF = true ∧
    starts (vecs 32 [] [0xFF800001, 5] [] 1) 0 .vredmax (opsT (.g 8) (vG 5 0) .none .fp32 .fp32 0) (fun _ h => h.gr 8 = 0x7FC00000) = true := by decide +kernel

/-- R194, R207: DSCL `.val` of d1 (length 2, norm code 2^23) by −2 turns it over and doubles it. -/
theorem test_direction_scale : let s := vec { core [0xC0000000] with d := [(1, 0x4000)], m := [(1, 0x00800000)] }
    (s.hart 0).diren = false ∧ (s.hart 0).NoTraps ∧ goes s 0 .dsclVal (ops (dG 4 0) (dG 1 0) (.g 1)) (fun _ h => d4 h (-0x4000) 0x01000000) = true := by decide +kernel

/-- An access that fails (R271): nothing is mapped at 0x4000_0000. -/
theorem test_access_stops : let s := vec { core [0x40000000, 3] with vl := 0x40002, v := [(6, lanesOf 32 [8, 0])] }
    [Acc.read, .write, .atomic, .maint].all (fun k => match s.reach 0 k 0x40000000 with | .error c => c = .pageAbsent | .ok _ => false) = true ∧ s.Quiet 0 ∧
    halts s 0 .ld (ops (.g 9) (.g 1) (.i16 0)) 10 0x300 0x40000000 = true ∧ halts s 0 .lda (ops (.g 9) (.g 1) .none) 10 0x300 0x40000000 = true ∧
    halts s 0 .st (ops (.g 1) (.g 2) (.i16 0)) 10 0x201 0x40000000 = true ∧ halts s 0 .stl (ops (.g 1) (.g 2) .none) 10 0x201 0x40000000 = true ∧
    halts s 0 .amo (opsT (.g 9) (.g 1) (.g 2) .i64 .i8 0) 10 0x303 0x40000000 = true ∧ halts s 0 .cas (opsT (.g 9) (.g 1) (.g 2) .i64 .i8 0) 10 0x303 0x40000000 = true ∧
    halts s 0 .clean (ops .none (.g 1) (.g 2)) 10 0x300 0x40000000 = true ∧ halts s 0 .flush (ops .none (.g 1) (.g 2)) 10 0x301 0x40000000 = true ∧
    halts s 0 .inval (ops .none (.g 1) (.g 2)) 10 0x301 0x40000000 = true ∧ halts s 0 .ldff (ops (vG 4 0) (.g 1) (.i16 0)) 10 0x300 0x40000000 = true ∧
    halts s 0 .waita (ops (.g 9) (.g 1) (.g 2)) 10 0 0x40000000 = true ∧ halts s 0 .spawn (ops (.g 9) (.g 1) .none) 10 0x300 0x40000000 = true ∧
    halts s 0 .cpyByte (ops (.g 7) (.g 1) (.g 0)) 10 0x304 0x40000000 = true ∧ halts s 0 .bkadd (opsT (.g 7) (.g 1) .none .fp32 .i8 0) 10 0x304 0x40000000 = true ∧
    halts s 0 .rpgo (ops (.g 7) (.g 1) .none) 10 0x305 0x40000000 = true := by decide +kernel
/-- R278, R282: misaligned atomics; the control window, which a system core reaches and no atomic acts on; a range above 2^21 bytes. -/
theorem test_atomic_stops : let s := sys { core [0xE000000000010, 3] with tvec := 0x400 }
    halts mems 0 .amo (opsT (.g 9) (.g 3) (.g 2) .i64 .i8 0) 9 0x303 0x102 = true ∧ halts mems 0 .cas (opsT (.g 9) (.g 3) (.g 2) .i64 .i8 0) 9 0x303 0x102 = true ∧
    (s.reach 256 .atomic 0xE000000000010).toOption = some ⟨0xE000000000010, 0⟩ ∧
    halts s 256 .amo (opsT (.g 9) (.g 1) (.g 2) .i64 .i8 0) 15 0x303 0xE000000000010 = true ∧ halts s 256 .cas (opsT (.g 9) (.g 1) (.g 2) .i64 .i8 0) 15 0x303 0xE000000000010 = true ∧
    [Desc.clean, .flush, .inval].all (fun d => halts (vec (core [0x100, 2 ^ 21 + 1])) 0 d (ops .none (.g 1) (.g 2)) 15 (if d.op = 0x20E then 0x300 else 0x301) 0x100) = true := by
  decide +kernel
/-- R315: STL of pkg scope performs the store that waits; of core scope it orders it. -/
theorem test_release_store : let s := { mems with stores := [⟨0, 0x108, [0x77], 0, 0, ⟨0, 0, 1, 1, 7⟩, false, false⟩] }
    goes s 0 .stl (opsT (.g 1) (.g 2) .none .i8 .i8 2) (fun t _ => t.homeByte 0 0x108 0 = 0x77 && t.stores.map (fun w => w.addr) = [0x100] && (t.seenByte 0 0x100 0).toNat = 3) = true ∧
    goes s 0 .stl (ops (.g 1) (.g 2) .none) (fun t _ => t.homeByte 0 0x108 0 = 0xAA && t.stores.map (fun w => (w.addr, w.fenced)) = [(0x108, true), (0x100, false)]) = true ∧
    (s.stores.all (fun w => s.plainPlace w.addr w.data.length && w.addr % unitSize w.addr + w.data.length ≤ unitSize w.addr)) = true := by decide +kernel

/-- Task 1 with the second GiB of its addresses on the benches of post 0, where it holds the first four pages of core 0's; 0x11 in word 65 and 0x22
in word 66. -/
def onBench (h : Hart) : State := poke (poke (poke { vec h with buffers := [⟨0, 0, 3, 9, 1, some 1⟩] } (rootTable + 0x10008) 8 0x900000000001D) 0x9000000000104 4 0x11) 0x9000000000108 4 0x22
/-- R269: row 1 of a tile, whose columns stand one word further; another element width; a byte outside the benches. -/
theorem test_skew : let s := onBench { core [0x40000100, 0x100, 4] with vl := 0x40002, v := [(4, lanesOf 32 [0, 0, 300]), (5, lanesOf 32 [7, 9])] }
    let x := fun b => opsT (vG 4 0) (.g b) (.i16 0) .i8 .i8 1
    skewAddr 0x40000100 = 0x40000104 ∧ s.Answers 0 .read 0x40000104 0x9000000000104 0 ∧ s.Answers 0 .write 0x40000108 0x9000000000108 0 ∧ s.Quiet 0 ∧
    starts s 0 .ldv (x 1) (fun _ h => v4 h 32 [0x11, 0x22, 300]) = true ∧ starts s 0 .lds (opsT (vG 4 0) (.g 1) (.g 3) .i8 .i8 1) (fun _ h => v4 h 32 [0x11, 0x22, 300]) = true ∧
    starts s 0 .stv (opsT (.g 1) (vG 5 0) (.i16 0) .i8 .i8 1) (fun t _ => (t.seenByte 0 0x9000000000104 0, t.seenByte 0 0x9000000000108 0) = (7, 9)) = true ∧
    starts s 0 .sts (opsT (.g 1) (vG 5 0) (.g 3) .i8 .i8 1) (fun t _ => (t.seenByte 0 0x9000000000104 0, t.seenByte 0 0x9000000000108 0) = (7, 9)) = true ∧
    halts s 0 .ldv (x 2) 15 0x300 0x100 = true ∧ halts (onBench { core [0x40000100] with vl := 2 }) 0 .ldv (x 1) 5 0x300 0 = true := by decide +kernel
/-- R274, R275: four 4-bit elements fill two bytes, three fill none; LDS takes no such type; an element off its boundary. -/
theorem test_vector_forms : let s := fun (v : Word) => { mems with harts := [(0, { core [0x100, 3, 0x102] with task := some 1, vl := v, v := [(4, lanesOf 32 [100, 200]), (5, lanesOf 8 [0x21, 0x43])] })] }
    let i4 := Ty.i4.code * 2 ^ 16
    let x := ops (vG 4 0) (.g 1) (.i16 0)
    starts (s (BitVec.ofNat 64 (i4 + 4))) 0 .ldv x (fun _ h => v4 h 8 [0x88, 0x77, 0]) = true ∧
    starts (s (BitVec.ofNat 64 (i4 + 4))) 0 .stv (ops (.g 1) (vG 5 0) (.i16 0)) (fun t _ => ((t.seenByte 0 0x100 0).toNat, (t.seenByte 0 0x101 0).toNat, (t.seenByte 0 0x102 0).toNat) = (0x21, 0x43, 0x66)) = true ∧
    halts (s (BitVec.ofNat 64 (i4 + 3))) 0 .ldv x 7 0x300 0 = true ∧ halts (s (BitVec.ofNat 64 (i4 + 3))) 0 .stv (ops (.g 1) (vG 5 0) (.i16 0)) 7 0x201 0 = true ∧
    halts (s (BitVec.ofNat 64 (i4 + 4))) 0 .lds (ops (vG 4 0) (.g 1) (.g 2)) 5 0x300 0 = true ∧
    halts (s 0x40002) 0 .ldv (ops (vG 4 0) (.g 3) (.i16 0)) 9 0x300 0x102 = true ∧ halts (s 0x40002) 0 .stv (ops (.g 3) (vG 5 0) (.i16 0)) 9 0x201 0x102 = true ∧
    halts (s 0x40002) 0 .lds (ops (vG 4 0) (.g 1) (.g 2)) 9 0x300 0x103 = true := by decide +kernel
/-- R147, R271: element 1 lies past the mapped GiB: element 0 is loaded or stored, and the stop names element 1; VAMO has applied element 0. -/
theorem test_part_way : let s := vec { core [0x3FFFFFFC, 4] with vl := 0x40002, v := [(4, lanesOf 32 [100, 200]), (5, lanesOf 32 [7, 9]), (6, lanesOf 32 [0, 4])] }
    let ends := fun (d : Desc) (x : Ops) (finfo : Nat) (p : State → Hart → Bool) => decide (s.Starts 0 d x) && d.okOps x && gives (exec (d.ctor x) s) (fun t => let h := t.hart 0
      (h.cause, h.finfo, h.faddr, h.estart, h.pc) = (74, BitVec.ofNat 64 finfo, 0x40000000, 1, 0x1000) && p t h)
    ends .ldv (ops (vG 4 0) (.g 1) (.i16 0)) 0x300 (fun _ h => v4 h 32 [0, 200] && h.isLive 4) = true ∧ ends .lds (ops (vG 4 0) (.g 1) (.g 2)) 0x300 (fun _ h => v4 h 32 [0, 200]) = true ∧
    ends .ldg (opsT (vG 4 0) (.g 1) (vG 6 0) .i8 .i32 0) 0x300 (fun _ h => v4 h 32 [0, 200]) = true ∧
    ends .stv (ops (.g 1) (vG 5 0) (.i16 0)) 0x201 (fun t _ => (t.seenByte 0 0x3FFFFFFC 0).toNat = 7) = true ∧
    ends .stg (opsT (.g 1) (vG 5 0) (vG 6 0) .i8 .i32 0) 0x201 (fun t _ => (t.seenByte 0 0x3FFFFFFC 0).toNat = 7) = true ∧
    ends .vamo (opsT (vG 4 0) (.g 1) (vG 6 0) .i32 .i32 0) 0x303 (fun t h => v4 h 32 [0, 200] && t.homeByte 0 0x3FFFFFFC 0 = 100) = true := by decide +kernel
/-- R280: the premises of two elements that act on one place (their order is open); an element off its boundary. -/
theorem test_vamo_one_place : let s := fun (l : List Nat) => { mems with harts := [(0, { core [0x100] with task := some 1, vl := 0x40002, v := [(4, lanesOf 32 [1, 2, 300]), (6, lanesOf 32 l)] })] }
    let x := opsT (vG 4 0) (.g 1) (vG 6 0) .i32 .i32 0
    (s [8, 8]).Starts 0 .vamo x ∧ Desc.vamo.okOps x = true ∧ ((s [8, 8]).hart 0).vecCheck x [(2, 32), (4, 32)] [2, 4] = none ∧ (s [8, 8]).Quiet 0 ∧
    (s [8, 8]).Answers 0 .atomic 0x108 0x108 0 ∧ (s [8, 8]).plainPlace 0x108 4 = true ∧ (s [8, 8]).stores = [] ∧ halts (s [8, 1]) 0 .vamo x 9 0x303 0x101 = true := by decide +kernel
/-- R318, Table 13-11: CLEAN at sys scope has a write of this side to host memory stand at the host; in CXL memory it writes a dirty sector. -/
theorem test_sys_maintenance : let w : HostWr := ⟨0xA000000000040, [0x55], some ⟨1, 0, 0, 0, 0⟩, true, false, false, []⟩
    let s := { sys (core [0xA000000000040, 1, 0xB000000000040]) with hostWrites := [w], l2 := [(0xB000000000040 / 32, some ⟨0x66, true, false, false, 0⟩)], hostlim := 0x1000, cxllim := 0x1000 }
    s.hostAt (fun _ => []) = s ∧ s.Answers 256 .read 0xA000000000040 0xA000000000040 0 ∧ s.Answers 256 .read 0xB000000000040 0xB000000000040 0 ∧
    goes s 256 .clean (opsT .none (.g 1) (.g 2) .i8 .i8 3) (fun t _ => t.hostWrites.map (fun v => v.atHost) = [true]) = true ∧
    goes s 256 .clean (opsT .none (.g 3) (.g 2) .i8 .i8 3) (fun t _ => t.memByte 0xB000000000040 = 0x66) = true ∧
    goes s 256 .flush (opsT .none (.g 3) (.g 2) .i8 .i8 3) (fun t _ => t.memByte 0xB000000000040 = 0x66 && t.sector 0xB000000000040 = none) = true := by decide +kernel

/-- R329: a list of 256 entries and an entry outside the pool stop DONE at the word; waits with the instruction held. -/
theorem test_done_stops : let at_ := fun n e => poke (poke (poke (waiting 1) 0x8000000100018 8 0x8000000180000) 0x8000000180000 8 n) 0x8000000180008 8 e
    let x := ops .none .none .none
    halts (at_ 256 0x8000000100040) 0 .done x 37 0 0x8000000180000 = true ∧ halts (at_ 1 0x8000000101000) 0 .done x 37 0 0x8000000180008 = true ∧
    halts (at_ 1 0x8000000100044) 0 .done x 37 0 0x8000000180008 = true ∧ (at_ 1 0).plainPlace 0x8000000180000 16 = true ∧ (at_ 1 0).plainPlace (graph1.slotAddr 0) 64 = true ∧
    homePost 0x8000000180008 = homePost 0x8000000180000 ∧ (at_ 1 0).unreachable (postId 0) 0x8000000180000 = none ∧ window (graph1.slotAddr 0) = 8 ∧
    (((waiting 1).decrement 1 0x8000000100080 0).graph 1).map (fun g => g.underflow) = some true := by decide +kernel
/-- R326: a record whose AFFINITY names no post of the graph; the premises of its stop. R327: a ring with room. -/
theorem test_launch_premises : let s := poke (queued 1 0) 0x100 8 0x77
    let x := ops (.g 9) (.g 1) (.g 2)
    let h : Hart := { core [3, 0x100] with mode := .blocked ⟨14, 0, 3, 3⟩, held := some ⟨.launch x, .launch (List.replicate 64 0x55)⟩ }
    (s.qword 3 8).testBit 5 = true ∧ s.qword 3 8 / 2 ^ 48 % 2 ^ 16 = s.asidOf 0 ∧ s.plainPlace 0x10040 64 = true ∧ s.scrapped = 0 ∧ s.qLogSize 3 = 1 ∧
    State.Ready { s with harts := [(0, { h with task := some 1, held := none })] } 0 .launch x ∧
    gives (exec (.launch x) { s with harts := [(0, { h with task := some 1 })] }) (fun t => (t.hart 0).gr 9 = 1 && t.qTail 3 = 2 && t.homeByte 0 0x10040 0 = 0x55 && t.homeByte 0 0x1007F 0 = 0x55 &&
      (t.hart 0).mode = .running && (t.hart 0).held = none) = true ∧
    halts (queued 1 0 [3, 0x40000000]) 0 .launch (ops (.g 9) (.g 1) (.g 2)) 10 0 0x40000000 = true := by decide +kernel
/-- R41, R333, R301: WAITA and WAITB go on once the word that they watch has changed, and wait on while it has not. -/
theorem test_waits_resumed : let x := ops (.g 9) (.g 1) (.g 2)
    let s := fun v => let u := poke (vec (core [])) 0x100 8 v
      { u with harts := [(0, { core [0x100, 0x77] with task := some 1, mode := .blocked ⟨11, 0, 3, 0x100⟩, held := some ⟨.waita x, .word 0x100 0⟩ })] }
    let b := 0x8000000180000
    let y := ops .none (.g 1) .none
    let u := fun v => poke (sys { core [b] with mode := .blocked ⟨10, 0, 3, 0x8000000180000⟩, held := some ⟨.waitb y, .word b 0⟩ }) b 8 v
    State.Ready { s 0 with harts := [(0, { (s 0).hart 0 with held := none })] } 0 .waita x ∧ (s 0).unreachable (postId 0) 0x100 = none ∧ (s 0).Quiet 0 ∧
    gives (exec (.waita x) (s 0x78)) (fun t => (t.hart 0).gr 9 = 0x78 && (t.hart 0).pc = 0x100C && (t.hart 0).held = none) = true ∧
    gives (exec (.waita x) (s 0x77)) (fun t => t.hart 0 = (s 0x77).hart 0) = true ∧
    State.Ready { u 0 with harts := [(256, { (u 0).hart 256 with held := none })] } 256 .waitb y ∧ gives (exec (.waitb y) (u 0)) (fun t => (t.hart 256).pc = 0x100C) = true ∧
    gives (exec (.waitb y) (u 2)) (fun t => t.hart 256 = (u 2).hart 256) = true := by decide +kernel
/-- R301: a barrier outside window 0x8, and one that nothing maps. -/
theorem test_waitb_stops : halts (vec (core [0x100])) 0 .waitb (ops .none (.g 1) .none) 15 0 0x100 = true ∧
    halts (vec (core [0x40000000])) 0 .waitb (ops .none (.g 1) .none) 10 0 0x40000000 = true ∧ ((vec (core [])).xlateOn 0 .read 0x100).toOption = some ⟨0x100, 0⟩ := by decide +kernel
/-- R334: LIVE.DROP of a mask that leaves a bit above 51 (which LIVEMASK never holds of itself). -/
theorem test_live_drop_bad : halts (vec { core [0] with livemask := 2 ^ 52 }) 0 .liveDrop (opsT .none (.g 1) .none .i8 .i8 1) 2 0x300 0 = true := by decide +kernel
/-- R287, R296: a full engine: a task waits with its copy, a system core stops; a region in compute mode; a block with a reserved field. -/
theorem test_copy_full : let s := block issuer [(0, 8, 0x1000), (8, 8, 0x2000), (0x10, 4, 32)]
    let x := ops (.g 7) (.g 1) (.g 0)
    let full : State → State := fun s => { s with copies := [(0, List.replicate 256 { aCopy with started := false }), (8, List.replicate 512 { aCopy with started := false })] }
    let tin := opsT (.g 7) (.g 1) (.g 0) .i8 .i8 4
    State.Ready (full s) 0 .cpyByte x ∧ gives (exec (.cpyByte x) (full s)) (fun t => (t.hart 0).mode = .blocked ⟨12, 0, 3, 0x100⟩ && (match (t.hart 0).held with
      | some ⟨_, .copy 0 _ 0x100 [] c⟩ => (c.kind, c.issuer, c.peg, c.left) = (0, 0, 7, [(0, 32)])
      | _ => false) && t.copies = (full s).copies) = true ∧
    halts (full (poke (poke (poke (sys { core [0x100] with tvec := 0x400 }) 0x100 8 0x1000) 0x108 8 0x2000) 0x110 4 32)) 256 .cpyByte x 33 0x304 0 = true ∧
    halts { block issuer [(0, 8, 0x1000), (0x10, 4, 32), (0x1C, 2, 8 * 512)] with regions := [{ region0 with items := [], now := false }] } 0 .cpyTin tin 21 0x304 0x100 = true ∧
    halts (block issuer [(0x30, 1, 1)]) 0 .cpyByte x 26 0x304 0x100 = true := by decide +kernel
/-- R295, R296: a barrier off its boundary; one that is a multiple of 8, in window 0x8. -/
theorem test_copy_barrier : let s := sys { core [0x100, 0x8000000180004, 0x8000000180000] with tvec := 0x400 }
    let s := poke (poke (poke s 0x100 8 0x1000) 0x108 8 0x2000) 0x110 4 32
    let x := fun b => ops (.g 7) (.g 1) (.g b)
    halts s 256 .cpyByte (x 2) 9 0x304 0x8000000180004 = true ∧
    goes s 256 .cpyByte (x 3) (fun t h => h.pegmask = 0x80 && h.copies = 1 && (t.copiesAt 8).map (fun c => (c.bar, c.kind)) = [(some 0x8000000180000, 0)]) = true := by decide +kernel
/-- R219, R223: a full bank queue; a reserved field; an element-wise command that names a page. -/
theorem test_bank_full : let x := opsT (.g 7) (.g 1) .none .fp32 .i8 0
    let full : State → State := fun s => { s with banks := [(0, List.replicate 256 ⟨4, BkOp.clr.code, .i8, .i8, ⟨0, 0, false, 0, 0, 0, 0, 0, 0, 0, 0⟩, [], [], [], some 1, 1, 1, 7, false, false, [], [], 0, none, none⟩)] }
    State.Ready (full issuer) 0 .bkadd x ∧ gives (exec (.bkadd x) (full issuer)) (fun t => (t.hart 0).mode = .blocked ⟨12, 0, 3, 0x100⟩ && t.banks = (full issuer).banks && (match (t.hart 0).held with
      | some ⟨_, .bank 0 c⟩ => (c.op, c.peg, c.started) = (0, 7, false)
      | _ => false)) = true ∧
    halts (block issuer [(12, 1, 1)]) 0 .bkadd x 26 0x304 0x100 = true := by decide +kernel

/-- R241, R243, R259: a full queue waits with the mode's region or the program; RPGO of a region in copy mode, of a block without words, of a handle that
names none; RPMODE behind a program, and of a handle above 32 bits. -/
theorem test_row_issue_stops : let s := poke (block { issuer with regions := [{ region0 with items := [] }] } [(4, 2, 1), (8, 8, 0x1000)]) 0x1000 12 0x00000005_10010405
    let full : State → State := fun s => { s with progs := [(0, List.replicate 64 (rowProg 0))] }
    let x := ops (.g 7) (.g 1) .none
    let m := fun v => opsT .none (.g 0) .none .i8 .i8 v
    let held := fun (t : State) => match (t.hart 0).held with
      | some ⟨_, .prog 0 0x100 [0, 1] p⟩ => p.words.length = 1 && !p.running && p.peg = 7
      | some ⟨_, .mode 0 [0, 1]⟩ => true
      | _ => false
    (full s).seqFull 0 = true ∧ s.seqFull 0 = false ∧ State.Ready (full s) 0 .rpgo x ∧
    gives (exec (.rpgo x) (full s)) (fun t => (t.hart 0).mode = .blocked ⟨12, 0, 3, 0x100⟩ && held t && t.progs = (full s).progs) = true ∧
    gives (exec (.rpmodeCompute (m 1)) (full s)) (fun t => (t.hart 0).mode = .blocked ⟨12, 0, 3, 0⟩ && held t) = true ∧
    halts { s with regions := issuer.regions } 0 .rpgo x 21 0x305 0x100 = true ∧ halts (block issuer [(8, 8, 0x1000)]) 0 .rpgo x 26 0x305 0x100 = true ∧
    halts (block issuer [(0, 4, 0x108), (4, 2, 1), (8, 8, 0x1000)]) 0 .rpgo x 20 0x305 0x100 = true ∧
    (let b := { issuer with regions := [region0] }
     goes b 0 .rpmodeCopy (m 0) (fun t _ => (t.region 1 0).map (fun r => (r.now, r.tail, r.items)) = some (true, false, [.prog 3, .mode false 1])) = true ∧
     goes b 0 .rpmodeCompute (m 1) (fun t _ => (t.region 1 0).map (fun r => r.items) = some [.prog 3]) = true) ∧
    halts (vec (core [2 ^ 32])) 0 .rpmodeCopy (opsT .none (.g 1) .none .i8 .i8 0) 20 0x305 0 = true := by decide +kernel
/-- R22, R251, R252, R260: a program issued earlier that asks for waves of the die comes first; RRD of row 5 counts one activation. -/
theorem test_row_waits : let rz := w3 0x10010405 0x00000005 0
    let p := { rowProg rz with seq := 1 }
    let q := { rowProg rz with pid := 2, handle := 1 }
    let s := { seqState p with progs := [(0, [q, p])], regions := [region0, { region0 with handle := 1, subs := [2], items := [.prog 2] }] }
    s.behind 0 p = true ∧ p.rowOf (.i16 0x1001) ≠ none ∧ ev (.rz (ops (.i16 0x1001) .none .none)) s (fun t => t = s) = true ∧
    rowEnds { rowProg 0 with ops := 15 } (.rnt (ops (.i16 0x1001) (.i16 5) .none)) .jointLong = true ∧
    (let r := rowState
     r.subsOf { rowProg 0 with slots := [(2, 7)] } = [0, 1] ∧ ev (.rrd (ops (.i16 3) (.i16 5) .none)) r (fun t => Table.get 0 t.acts (rowKey 0 0 5) = 1 && Table.get 0 t.acts (rowKey 0 1 5) = 0 &&
       (t.prog 0 3).any (fun q => Table.get 0 q.slots 3 = 5)) = true) := by decide +kernel
/-- R244, R258: RHALT of a marked program gives ROW_BUDGET and leaves slot 1 in the second KiB at OUTVA. -/
theorem test_row_out : let p := { rowProg 0 with mark := true, outva := 0x4000, out := [⟨0x4000, 4096, 0⟩], slots := [(1, 7)] }
    let s := { seqState p with harts := [(0, { core [] with task := some 1, pegmask := 0x80 })], tasks := [(1, some { task1 with rows := 1 })] }
    s.plainPlace 0x4000 4096 = true ∧ (List.range 2).all (fun i => (s.unreachable 0 (0x4000 + 4095 * i)).isNone) = true ∧ s.err = [] ∧ s.l2 = [] ∧ p.wrote = [] ∧
    ev (.rhalt (ops .none .none .none)) s (fun t => (t.hart 0).gr 7 = BitVec.ofNat 64 (Cause.rowBudget.code + 0x8000) && t.homeByte 0 0x4400 0 = 7 &&
      t.homeByte 0 0x4401 0 = 0) = true := by decide +kernel
/-- R366, R376: a started bank command of the ASID holds its translations: TLBINV waits, and retires once it has ended. -/
theorem test_tlbinv_waits : let b := { aBank with pieces := [(0, 0, 0)], result := none }
    let s := { service [0, 1] with banks := [(0, [b])] }
    let x := opsT .none (.g 0) (.g 2) .i8 .i8 1
    let w := { sys { core [0, 1] with mode := .blocked ⟨0, 0, 0, 0⟩, held := some ⟨.tlbinvAsid x, .again⟩ } with regions := [region0] }
    State.SysReady s 256 .tlbinvAsid x ∧ gives (exec (.tlbinvAsid x) s) (fun t => (t.hart 256).mode = .blocked ⟨0, 0, 0, 0⟩ && (t.hart 256).held = some ⟨.tlbinvAsid x, .again⟩ &&
      t.banks = [(0, [{ b with stale := true }])]) = true ∧
    State.SysReady { w with harts := [(256, core [0, 1])] } 256 .tlbinvAsid x ∧ gives (exec (.tlbinvAsid x) w) (fun t => (t.hart 256).pc = 0x100C && (t.hart 256).held = none) = true := by decide +kernel
/-- R366, R375: TLBINV performs a store of a task of its ASID, and leaves one of another. R375: REVOKE of an ASID above 16 bits. -/
theorem test_tlbinv_stores : let w : Pending := ⟨0, 0x5000, [0x77], 0, 0, ⟨0, 0, 1, 1, 7⟩, false, false⟩
    let s := { service [0, 1] with stores := [w, { w with hart := 1, addr := 0x6000, who := ⟨0, 1, 2, 2, 7⟩ }] }
    answers s .tlbinvAsid (opsT .none (.g 0) (.g 2) .i8 .i8 1) 0 (fun t => t.homeByte 0 0x5000 0 = 0x77 && t.stores.map (fun w => w.addr) = [0x6000]) = true ∧
    halts (service [0, 0x10000]) 256 .tlbinvAsid (opsT .none (.g 0) (.g 2) .i8 .i8 1) 2 0 0 = true ∧ halts (service [0, 0x10000]) 256 .revokeAsid (opsT .none (.g 0) (.g 2) .i8 .i8 1) 2 0 0 = true ∧
    halts (service [2 ^ 32, 1]) 256 .revokeRegion (ops .none (.g 1) (.g 2)) 2 0 0 = true ∧ s.err = [] ∧ s.l2 = [] := by decide +kernel
/-- R378: KILL ends the tasks without a core. R377: RESUME discards the held stop entry and leaves the held advice. R413: a range that SCRUB cannot reach. -/
theorem test_services : let x := ops (.g 9) (.g 1) .none
    let k := { service [0x100000001] with tasks := [(1, some task1), (2, some { task1 with id := 8, slot := 1, status := .ready })] }
    let e : HeldEntry := ⟨1, 1, 3, false, false, []⟩
    let r := { service [0x8000020000000] { task1 with status := .stopped } with held := [e, { e with advice := true }] }
    k.hartOf 2 = none ∧ (k.hartOf 1).isSome = true ∧ Table.wf none k.tasks = true ∧
    answers k .kill x 0 (fun t => t.task 2 = none && (t.task 1).isSome) = true ∧
    answers r .resume x 0 (fun t => t.held = [{ e with advice := true }] && t.ready = [⟨0, 5, 3, 1⟩]) = true ∧
    halts (sys (core [0xC000000000000, 8])) 256 .scrub (ops (.g 9) (.g 1) (.g 2)) 15 0 0xC000000000000 = true ∧
    ((mapRange ((sys (core [])).scrubReach 256) 0x8000000180000 8).toOption).isSome = true := by decide +kernel
/-- R432, R434: the result of a rate change, one that begins while another is at work, and a beam instruction that waits for it. -/
theorem test_beamrate_waits : let x := opsT (.g 9) (.g 1) (.g 2) .i8 .i8 0
    let s := { sys { core [2, 3] with mode := .blocked ⟨0, 0, 0, 0⟩, held := some ⟨.beamrateSet x, .again⟩ } with beams := [(2, some { Beam.fresh 2 with rate := 3, results := [(256, 0)] })] }
    let c := { sys (core [2, 3]) with beams := [(2, some { Beam.fresh 2 with change := some ⟨1, false, false, some 260⟩ })] }
    let waits := fun i => ev i c (fun t => (t.hart 256).mode = .blocked ⟨0, 0, 0, 0⟩ && (t.hart 256).held = some ⟨i, .again⟩ && t.beams = c.beams)
    State.SysReady { s with harts := [(256, core [2, 3])] } 256 .beamrateSet x ∧
    ev (.beamrateSet x) s (fun t => (t.hart 256).gr 9 = 0 && (t.hart 256).pc = 0x100C && (t.beam 2).results = [] && (t.beam 2).rate = 3) = true ∧
    waits (.beamrateSet x) = true ∧ waits (.beamretire (ops (.g 9) (.g 1) (.g 2))) = true ∧ waits (.beamstatCrc (opsT (.g 9) (.g 1) .none .i8 .i8 3)) = true ∧
    waits (.beamrateFloor (opsT (.g 9) (.g 1) (.g 2) .i8 .i8 1)) = true := by decide +kernel
/-- R435: the last spare is marked, and a lane of a module without spares takes it out of service. -/
theorem test_beamretire_spares : let x := ops (.g 9) (.g 1) (.g 2)
    let s := fun lane (m : Module) => { sys (core [0x22, lane]) with beams := [(2, some { Beam.fresh 2 with dirs := [{ Direction.fresh with modules := [(1, m)] }, .fresh] })] }
    let used := { Module.fresh with retired := [0, 1, 66, 67], repair := [(0, 64), (1, 65)] }
    let at_ := fun (t : State) => ((t.beam 2).dir 0).mod 1
    answers (s 67 .fresh) .beamretire x 0 (fun t => (at_ t).retired = [67] && (at_ t).repair = []) = true ∧
    answers (s 63 used) .beamretire x 1 (fun t => (at_ t).removed && (at_ t).retired = [0, 1, 66, 67, 63]) = true ∧ ((s 63 used).beam 2).floor = 120 ∧
    (((s 63 used).beam 2).dir 0).removedCount = 0 := by decide +kernel
/-- R18, R19: phases 3 and 6 leave DRAM and the SRAM tier zero and without error. R387: GO takes the image from host memory. -/
theorem test_phase_zeroes : let s := fun p => { (poke (poke ready 0x5000 2 0x2211) 0x9000000000004 1 0x33) with phase := p, err := [(0x5000, ⟨true, false, 0⟩), (0x9000000000000, ⟨false, true, 0⟩)] }
    ev (.phaseDramDone 0) (s 3) (fun t => t.phase = 4 && t.memByte 0x5000 = 0 && t.errAt 0x5000 = .clean && t.memByte 0x9000000000004 = 0x33 && (t.errAt 0x9000000000000).uncorr) = true ∧
    ev .phaseSramDone (s 6) (fun t => t.phase = 7 && t.memByte 0x9000000000004 = 0 && t.errAt 0x9000000000000 = .clean && t.memByte 0x5000 = 0x11 && t.l2 = []) = true ∧
    (let f := poke { State.reset with power := true, phase := 15, bootCause := .fwAuth, fwlen := 133, fwaddr := 0x40 } 0xA000000000000 1 0x5A
     ev (.fwctlGo 1) f (fun t => t.phase = 2 && (t.fwImage.map (fun l => (l.length, l.headD 0))) = some (133, 0x5A)) = true) := by decide +kernel

/-- R62, R218, R231: with no core the status goes to the image; the last share of a command is done at its end. -/
theorem test_ends_in_image : let s := fun cs bs => { engined cs bs with harts := [], tasks := [(1, some { task1 with status := .ready, copies := 1, banks := 1 })] }
    let s := fun cs bs => poke (s cs bs) 0x8000020000010 8 0x80
    (s [] []).harts.find? (fun c => c.2.task = some 1 && c.2.holdsPinned) = none ∧
    ev (.bankCmdComplete 0 4) (s [] [aBank]) (fun t => t.memNat 0x8000020000138 8 = 0x4000 && t.memNat 0x8000020000010 8 = 0 && (t.task 1).map (fun k => k.banks) = some 0 && t.harts = []) = true ∧
    (engined [] [aBank]).harts.find? (fun c => c.2.task = some 1 && c.2.holdsPinned) = some (0, { core [5] with pegmask := 0x80, task := some 1 }) := by decide +kernel
/-- R299, R320: a landing of the second half leaves the first; a copy of a region in its list starts. -/
theorem test_copy_runs : let e := engined [aCopy] []
    let c := { aCopy with kind := 1, par := { aCopy.par with handle := 0, lane := 16376 }, started := false }
    let r := { engined [c] [] with regions := [{ region0 with items := [.copy 0 4], now := false }] }
    ev (.copyLand 0 4 (4, 9)) e (fun t => (t.copiesAt 0).map (fun c => (c.left, c.landed)) = [([(0, 4)], 4)] && t.homeByte 0 0x2004 0 = 0x44 && t.homeByte 0 0x2000 0 = 0) = true ∧
    [c].find? (r.copyReady 0) = some c ∧ r.region 1 0 = some { region0 with items := [.copy 0 4], now := false } ∧ c.par.lane + c.total ≤ 8192 * region0.subs.length ∧
    ev (.copyStart 0) r (fun t => (t.copiesAt 0).map (fun c => c.started) = [true]) = true ∧
    (e.inPlane 0x1000 || e.inPlane 0x2000) = false ∧ window 0x1000 = 0 := by decide +kernel
/-- R373: an earlier stop of the graph comes first; held advice is dropped where the queue is full; a held stop raises FAULTQ_FULL once. -/
theorem test_fault_order : let x := ops .none (.g 1) (.g 2)
    let e : HeldEntry := ⟨1, 1, 3, false, false, List.replicate 32 7⟩
    let u : Hart := { core [] with task := some 2, mode := .saving .stop, stopSeq := 2 }
    let early := fun (s : State) => { s with harts := s.harts ++ [(1, u)], tasks := s.tasks ++ [(2, some { task1 with slot := 1 })] }
    let s := vec (core [0x9000, 0x1000])
    let full := fun (e : HeldEntry) => poke { s with held := [e] } 0x8000000200000 4 16
    (early s).earlierStop 1 (early s).nextStop = true ∧ s.earlierStop 1 s.nextStop = false ∧ (full e).faultFull graph1 = true ∧ (full e).earlierStop 1 3 = false ∧
    goes (early s) 0 .pfh x (fun t _ => t.held.map (fun d => (d.graph, d.task, d.advice, d.data.length)) = [(1, 1, true, 32)] && t.mem = (early s).mem) = true ∧
    ev (.faultqHeldWrite 1) (early { s with held := [e] }) (fun t => t.held = [e] && t.mem = (early s).mem) = true ∧
    ev (.faultqHeldWrite 1) (full { e with advice := true }) (fun t => t.held = []) = true ∧ ev (.faultqHeldWrite 1) (full { e with told := true }) (fun t => t.held = [{ e with told := true }]) = true ∧
    ev (.faultqHeldWrite 1) (full e) (fun t => t.held = [{ e with told := true }] && (t.hart 256).tpend = BitVec.ofNat 64 (2 ^ Cause.faultqFull.code) &&
      Table.get 0 (t.hart 256).pendAddr Cause.faultqFull.code = 0x8000000200000) = true ∧
    s.plainPlace 0x8000000200000 544 = true ∧ goes (early (full e)) 0 .pfh x (fun t _ => t.held = [e] && t.mem = (full e).mem) = true := by decide +kernel
/-- R36, R309: the premises of a first start that inherits a buffer. -/
theorem test_bind_buffer : let new : Task := { task1 with status := .ready, slot := 1, started := false, image := none }
    let b := poke { listed new with buffers := [⟨1, 2, 0, 9, 1, none⟩] } 0x8000000100060 8 0x90200
    b.nextOwn 0 = some 2 ∧ b.coreFor 2 0 = some (0, 1, graph1, new) ∧ b.slotField graph1 new 32 = 0x90200 ∧ b.bufferOf 1 0x90200 = some ⟨1, 2, 0, 9, 1, none⟩ := by decide +kernel
/-- R393: a task whose image holds CORE_PARITY is not restored. -/
theorem test_bind_refused : ev (.taskBind 0) (poke (listed { task1 with status := .ready, slot := 1, tiles := 0 }) 0x8000020000038 8 55)
    (fun s => (s.hart 0).mode = .saving .refused && (s.task 2).map (fun k => k.status) = some .running) = true := by decide +kernel
/-- R408: one whose first line cannot be filled stops with SRAM_UNCORR. -/
theorem test_bind_unfilled : let s := { listed { task1 with status := .ready, slot := 1, tiles := 0 } with err := [(0x8000020000008, ⟨false, true, 0⟩)] }
    s.badLine 0x8000020000000 0 = some 8 ∧ ev (.taskBind 0) s (fun s => (s.hart 0).mode = .saving .unfilled && (s.hart 0).faddr = 8 && (s.hart 0).cause = 54 && (s.hart 0).finfo = 0xF0) = true := by decide +kernel
/-- R60, R393: the task of a killed graph ends at the end of its save; a refused image is stopped with RESUME_STATE and stands as it was. -/
theorem test_save_ends : let s := fun w => { vec { core [5] with mode := .saving w } with tasks := [(1, some { task1 with tiles := 0 })] }
    ev (.imageSaveDone 0) { s .preempt with graphs := [(1, some { graph1 with killed := true })] } (fun t => t.task 1 = none) = true ∧
    ev (.imageSaveDone 0) (s .refused) (fun t => (t.task 1).map (fun k => k.status) = some .stopped && t.memNat 0x8000000200000 4 = 1 && t.memByte 0x8000000200028 = 58 &&
      t.memNat 0x8000000200030 8 = 0 && t.memNat 0x8000020000108 8 = 0) = true ∧ (s .refused).earlierStop 1 0 = false := by decide +kernel
/-- R423, R429, R432: a step that falls due during a change; a change that no module passes at the lowest rate; one that a module in training holds up; a
lane whose turn comes during a change. -/
theorem test_beam_changes : let c : RateChange := ⟨0, false, true, none⟩
    let all := (List.range 256).map (fun k => (⟨k / 128, k % 128⟩ : ModRef))
    let trained := { Direction.fresh with modules := [(3, { Module.fresh with training := true })] }
    let lane := { Direction.fresh with modules := [(1, { Module.fresh with errors := List.replicate 16 (5, 0) })] }
    ev (.replayWindowEnd 2 1) (beamed .fresh { Direction.fresh with window := 2 ^ 20, windowReplays := 65 } (some c)) (fun t => (t.beam 2).change = some c && (t.beam 2).stepDue = 1) = true ∧
    ev (.rateRetrainDone 2 all []) (beamed .fresh .fresh (some c)) (fun t => (t.beam 2).lost) = true ∧
    ev (.rateRetrainDone 2 [] []) (beamed .fresh .fresh (some c)) (fun t => (t.beam 2).rate = 0 && !(t.beam 2).lost) = true ∧
    ev (.rateChangeDrained 2) (beamed .fresh trained (some { c with training := false })) (fun t => (t.beam 2).change = some { c with training := false }) = true ∧
    ev (.laneRetire ⟨2, 0, 1, 5⟩) (beamed lane .fresh (some c)) (fun t => t.beam 2 = (beamed lane .fresh (some c)).beam 2) = true := by decide +kernel
/-- R422: the premises of a good flit of the number expected. -/
theorem test_flit_passes : let d := { Direction.fresh with expect := 65535, wire := [⟨flitBits 65535 (some aFlit) none, 0, false⟩] }
    ((beamed d).beam 2).dir 0 = d ∧ (beamed d).phase = 8 ∧ ((beamed d).beam 2).dirs.length = 2 ∧ ((beamed d).beam 2).lost = false ∧
      aFlit.payload.length = 240 := ⟨rfl, rfl, rfl, rfl, rfl⟩
/-- R312, R404, R409: a store behind an earlier one of its core to the same byte waits; a dirty sector that cannot be corrected is written back poisoned. -/
theorem test_evicted_bad : let s := { mems with l2 := [(8, some ⟨0x55, true, false, true, 0⟩)] }
    ev (.l2Eviction 0x100) s (fun t => t.sector 0x100 = none && (t.errAt 0x100).poison) = true ∧
    ev (.l2Eviction 0x100) { mems with l2 := [(8, some ⟨0x55, true, true, false, 0⟩)] } (fun t => t.sector 0x100 = none && t.errAt 0x100 = ⟨true, false, 0⟩ && t.memByte 0x100 = 0x55) = true := by decide +kernel

/-- FIPS 180-4 (R388): the digest of "abc" begins DDAF35A193617ABA. -/
theorem test_sha512 : (sha512 [0x61, 0x62, 0x63]).take 8 = [0xDD, 0xAF, 0x35, 0xA1, 0x93, 0x61, 0x7A, 0xBA] := by decide +kernel
/-- R308, R309: GIVE performs the stores of its core; a handle with a reserved bit, one beyond the bench and a system core; a handle that is not the
buffer's; TAKE `.new` of pages that lie in another buffer, and the last page of the bench. -/
theorem test_buffer_clauses : let x := ops .none (.g 1) .none
    let n := opsT .none (.g 1) .none .i8 .i8 1
    let w : Pending := ⟨0, 0x5000, [0x77], 0, 0, ⟨0, 0, 1, 1, 7⟩, false, false⟩
    let s := fun g => { benched 0 (some 1) with harts := [(0, { core [g] with task := some 1 })] }
    let all := fun g => halts (s g) 0 .give x 22 0 0 && halts (s g) 0 .take x 22 0 0 && halts (s g) 0 .takeNew n 22 0 0
    goes { s 0x90200 with stores := [w] } 0 .give x (fun t _ => t.stores = [] && t.homeByte 0 0x5000 0 = 0x77 && t.buffers = [⟨0, 2, 0, 9, 1, none⟩]) = true ∧
    all (2 ^ 32) = true ∧ all 0x9FF01 = true ∧ halts (sys (core [0x90200])) 256 .give x 22 0 0 = true ∧ halts (s 0x90201) 0 .take x 22 0 0 = true ∧
    halts (s 0xA0200) 0 .takeNew n 22 0 0 = true ∧ goes (s 0xAFF00) 0 .takeNew n (fun t _ => t.buffers.length = 2) = true := by decide +kernel
/-- R319: FENCE.SC of pkg scope performs its task's write to host memory everywhere. -/
theorem test_fence_host : let w : HostWr := ⟨0xA000000000040, [0x55], some (LogAgent.mk 0 0 1 1 7), true, false, false, []⟩
    let s := { vec (core []) with hostWrites := [w] }
    s.logHart 0 = ⟨0, 0, 1, 1, 7⟩ ∧ goes s 0 .fenceSc (opsT .none .none .none .i8 .i8 2) (fun t _ => t.hostWrites = [] && t.memByte 0xA000000000040 = 0x55 && t.scCount = 1) = true := by decide +kernel
/-- R402, R416: a scrapped package makes SCRAP pending on system core 0 with bit 8 of its FADDR. -/
theorem test_package_scrap : ev (.packageScrap 5) (sys (core [])) (fun t => (t.hart 256).tpend = 2 ^ 63 && Table.get 0 (t.hart 256).pendAddr 63 = 0x100 && t.hart 0 = .blank) = true := by
  decide +kernel
/-- The premises of a step of the states of `test_step` and `test_step_system`. -/
theorem test_step_more : let s := { sys (core []) with agenda := [] }
    fetching.overfull = none ∧ fetching.coreUp 0 = true ∧ (fetching.hart 0).held = none ∧ (fetching.hart 0).unfilled = [] ∧ fetching.hasReport 0 = false ∧ fetching.agenda = [] ∧
    s.overfull = none ∧ s.coreUp 256 = true ∧ (s.hart 256).response = none ∧ (s.hart 256).fetched = [] ∧ (s.hart 256).asyncReady = none ∧ s.err = [] ∧
    0x8000000000300 % 4 = 0 ∧ 0x8000000000300 % 1024 ≤ 1012 := by decide +kernel

/-! What follows a retirement, and long instructions that stop part way. -/

/-- R77, R392, R396, R401: STEP and a touch of the watched word trap a system core after its instruction; a task's core saves itself for a yield-after
or a victim, and stops for a report; an inactive DONE does not yield. -/
theorem test_after_retirement : let x := ops (.g 4) (.g 1) (.g 2)
    let s := fun (h : Hart) => sys { h with tvec := 0x400 }
    let i := Instr.add x
    let trapped := fun (c : Cause) a k (t : State) => (t.hart 256).cause = BitVec.ofNat 64 c.code && (t.hart 256).pc = 0x400 && (t.hart 256).epc = 0x100C &&
      (t.hart 256).gr 4 = 12 && (t.hart 256).faddr = a && (t.hart 256).finfo = k
    let saves := fun w (t : State) => (t.hart 0).gr 4 = 12 && (t.hart 0).mode = .saving w && (t.hart 0).pc = 0x100C
    (s { core [5, 7] with stepArmed := true }).Begins 256 .add x ∧ gives (exec i (s { core [5, 7] with stepArmed := true })) (trapped .step 0 0) = true ∧
    gives (exec i (s { core [5, 7] with watchHit := some (1, 0x108), stepArmed := true })) (trapped .watch 0x108 1) = true ∧
    (vec { core [5, 7] with victim := true }).Begins 0 .add x ∧ gives (exec i (vec { core [5, 7] with victim := true })) (saves .preempt) = true ∧
    gives (exec (.add { x with yield := true }) (vec (core [5, 7]))) (saves .yield) = true ∧
    gives (exec i { vec (core [5, 7]) with tasks := [(1, some { task1 with reports := [⟨.jointLong, 0x2000, 3⟩] })] }) (fun t => (t.hart 0).cause = 24 && (t.hart 0).gr 4 = 12 &&
      (t.hart 0).faddr = 0x2000 && (t.hart 0).finfo = 0x305 && (t.hart 0).epc = 0x100C && (t.task 1).map (fun k => k.reports) = some []) = true ∧
    gives (exec (.done { ops .none .none .none with guard := 1, yield := true }) (vec { core [] with k := [(1, 0)] })) (fun t => (t.hart 0).mode = .running && (t.hart 0).pc = 0x100C) = true := by
  decide +kernel
/-- R52, R146, R147: VADD of 70 FP32 elements from element 3 on; a stop chosen for element 64, the start of its second group; OF of element 65 enabled
stops it there with the first group written, FADDR the flags OF and NX. -/
theorem test_group_wise : let a := List.replicate 65 0x3F800000 ++ [0x7F7FFFFF]
    let s := fun (e : Word) (c : Option Cut) (m : Word) => vec { core [] with vl := 0xB0046, estart := e, cut := c, fmode := m, v := [(6, lanesOf 32 a), (7, lanesOf 32 (a.drop 64)), (8, lanesOf 32 a), (9, lanesOf 32 (a.drop 64))] }
    let x := opsT (vG 4 1) (vG 6 1) (vG 8 1) .fp32 .fp32 0
    let at_ := fun (t : State) => [0, 2, 3, 63, 64, 69].map (fun k => (t.hart 0).elem 4 k 32)
    Desc.vadd.okOps x = true ∧ (s 3 none 0).StartsAt 0 .vadd x 3 ∧ ((s 3 none 0).hart 0).vlen = 70 ∧ ((s 3 none 0).hart 0).vecCheck x [(2, 32), (3, 32), (4, 32)] [3, 4] = none ∧
    gives (exec (.vadd x) (s 3 none 0)) (fun t => at_ t = [0, 0, 0x40000000, 0x40000000, 0x40000000, 0] && (t.hart 0).elem 4 65 32 = 0x7F800000 && (t.hart 0).isLive 4 && (t.hart 0).pc = 0x100C) = true ∧
    gives (exec (.vadd x) (s 0 (some ⟨64, none⟩) 0)) (fun t => at_ t = [0x40000000, 0x40000000, 0x40000000, 0x40000000, 0, 0] && (t.hart 0).estart = 64 && (t.hart 0).mode = .saving .preempt && (t.hart 0).pc = 0x1000) = true ∧
    gives (exec (.vadd x) (s 0 none 0x1F0)) (fun t => at_ t = [0x40000000, 0x40000000, 0x40000000, 0x40000000, 0, 0] && (t.hart 0).cause.toNat = Cause.fpEnabled.code + 64 && (t.hart 0).estart = 64 &&
      (t.hart 0).faddr = (fOF ||| fNX).setWidth 64 && (t.hart 0).fflags = 0 && (t.hart 0).isLive 4 && (t.hart 0).mode = .saving .stop) = true := by decide +kernel
/-- Task 1 about to begin a long instruction at unit `b`, a stop chosen for the next. -/
def partWay (b : Nat) (g : List Nat) : State := vec { core g with estart := BitVec.ofNat 64 b, cut := some ⟨b + 1, none⟩ }
/-- R52, R170, R182, R188: the long tile instructions begun at unit 254, with a stop chosen for 255. -/
theorem test_tile_restart : [(Desc.mscl, opsT (tile 1) (vG 4 2) (.g 3) .fp32 .fp32 0), (.mcvt, opsT (tile 1) .none .none .fp32 .i32 0),
      (.mldt, ops (tile 1) (.g 1) (.g 2)), (.mstt, ops (.g 1) (tile 1) (.g 2))].all (fun p => decide ((partWay 254 [0x100, 0, 3]).StartsAt 0 p.1 p.2 254)) = true ∧
    ((partWay 254 []).hart 0).TilesWf := by decide +kernel
/-- R178: MOPK with K = 3 begun at step 1, both panels at 0x100; they answer in that step. -/
theorem test_mopk_restart : let k := opsT (tile 1) (.g 1) (.g 2) .i32 .i8 0
    let t := partWay 1 [0x0030000000000100, 0x100]
    t.StartsAt 0 .mopk k 1 ∧ t.Quiet 0 ∧ (t.hart 0).deadStop k [2] = none ∧ (t.hart 0).guardOn k = true ∧
    (List.range 256).all (fun i => decide (t.Answers 0 .read (0x200 + i) (0x200 + i) 0)) = true := by decide +kernel
/-- R176: a B panel off its 64-byte boundary; both panels off theirs. -/
theorem test_mopk_panels : let x := opsT (tile 1) (.g 1) (.g 2) .i32 .i8 0
    halts (vec (core [0x100, 0x104])) 0 .mopk x 9 0x400 0x104 = true ∧ halts (vec (core [0x102, 0x104])) 0 .mopk x 9 0x300 0x102 = true := by decide +kernel
/-- R182: MLDT and MSTT begun at line 5, which lies past the mapped GiB: the stop names its first word, and nothing is moved. -/
theorem test_mldt_fails : let s := { partWay 5 [0x3FFFEC00, 0x400] with harts := [(0, { (partWay 5 [0x3FFFEC00, 0x400]).hart 0 with cut := none, acc := [(65536 + 5 * 256, 9)] })] }
    let at_ := fun (i : Instr) (finfo : Word) => gives (exec i s) (fun t => let h := t.hart 0
      h.cause.toNat = 64 + Cause.pageAbsent.code && h.faddr = 0x40000000 && h.finfo = finfo && h.estart = 5 && h.cell 1 5 0 = 9 && t.stores = [])
    s.StartsAt 0 .mldt (ops (tile 1) (.g 1) (.g 2)) 5 ∧ at_ (.mldt (ops (tile 1) (.g 1) (.g 2))) 0x300 = true ∧ at_ (.mstt (ops (.g 1) (tile 1) (.g 2))) 0x201 = true ∧
    s.reach 0 .read 0x40000000 = s.reach 0 .write 0x40000000 := by decide +kernel
/-- R199: the zero vector stops DNORM, DADD and DPROJ where DIREN is 1, at the field of the zero operand. -/
theorem test_direction_zero : let z := dirs true
    halts { z with harts := [(0, { z.hart 0 with v := [] })] } 0 .dnorm (opsT (dG 4 0) (vG 8 2) .none .i8 .fp32 0) 30 0x200 0 = true ∧
    halts z 0 .dadd (ops (dG 4 0) (dG 2 0) (dG 3 0)) 30 0x300 0 = true ∧ halts z 0 .dprojPar (ops (dG 4 0) (dG 0 0) (dG 2 0)) 30 0x400 0 = true := by decide +kernel
/-- Two pairs of two members each, of length 1 along component 0. -/
def twos (b : Word) (c : Option Cut) : State := vec { core [] with estart := b, cut := c, d := [(0, 0x4000), (2, 0x4000)], m := [(0, 0), (2, 0)] }
/-- R201: DADD of two groups begun at its second, which writes the norm; and stopped before it, which does not. -/
theorem test_direction_restart : let y := ops (dG 4 1) (dG 0 1) (dG 2 1)
    Desc.dadd.okOps y = true ∧ (twos 1 none).StartsAt 0 .dadd y 1 ∧ ((twos 1 none).hart 0).deadStop y [3, 4] = none ∧
    gives (exec (.dadd y) (twos 1 none)) (fun t => let h := t.hart 0
      h.comp 4 0 = 0 && h.mr 4 = 0x00800000 && h.mr 5 = normNaN && h.isLive 36 && h.isLive 37 && h.pc = 0x100C) = true ∧
    gives (exec (.dadd y) (twos 0 (some ⟨1, none⟩))) (fun t => let h := t.hart 0
      h.comp 4 0 = 0x4000 && h.mr 4 = normZero && h.estart = 1 && h.isLive 36 && h.mode = .saving .preempt) = true := by decide +kernel
/-- R54, R154, R155: VREDSUM of two maxima with OF enabled, VCMPLT of a NaN and VHAD of an overflow with NV and OF enabled, stop with nothing written. -/
theorem test_fp_enabled : let s := fun (a : List Nat) => vec { core [] with vl := 0xB0002, fmode := 0x1C0, k := [(2, 5)], v := [(5, lanesOf 32 a), (6, lanesOf 32 [0, 0])] }
    let ends := fun (d : Desc) (x : Ops) (a : List Nat) (f : Flags) => gives (exec (d.ctor x) (s a)) (fun t => let h := t.hart 0
      h.cause.toNat = Cause.fpEnabled.code && h.faddr = f.setWidth 64 && h.fflags = 0 && h.gr 9 = 0 && h.kr 2 = 5 && !h.isLive 4 && h.mode = .saving .stop)
    ends .vredsum (opsT (.g 9) (vG 5 0) .none .fp32 .fp32 0) [0x7F7FFFFF, 0x7F7FFFFF] (fOF ||| fNX) = true ∧
    ends .vcmplt (opsT (.k 2) (vG 5 0) (vG 6 0) .i8 .fp32 0) [0x7FC00000, 0] fNV = true ∧
    ends .vhad (opsT (vG 4 0) (vG 5 0) (.i16 0) .fp32 .i8 0) [0x7F7FFFFF, 0x7F7FFFFF] (fOF ||| fNX) = true := by decide +kernel
/-- Task 1 with VL of 70 I32, about to begin at element `b`, a stop chosen for element 64; element 62 of v4:2 holds 100, of v6:2 (the indices) 4 and of v8:2 7. -/
def long (b : Nat) (c : Option Cut := some ⟨64, none⟩) : State := let w := 2 ^ (32 * 62)
  poke (vec { core [0x100, 4] with vl := 0x40046, estart := BitVec.ofNat 64 b, cut := c, v := [(4, BitVec.ofNat 2048 (100 * w)), (6, BitVec.ofNat 2048 (4 * w)), (8, BitVec.ofNat 2048 (7 * w))] })
    (0x100 + 62 * 4) 8 0x0000002200000011
/-- An instruction begun at element 62 of `long` stops at 64, with the property. -/
def keeps (d : Desc) (x : Ops) (p : State → Hart → Bool) : Bool := decide ((long 62).StartsAt 0 d x 62) && d.okOps x && gives (exec (d.ctor x) (long 62)) (fun t =>
  (t.hart 0).estart = 64 && (t.hart 0).mode = .saving .preempt && (t.hart 0).pc = 0x1000 && p t (t.hart 0))
/-- R52, R276, R280: loads, stores and VAMO begun at element 62, with a stop at 64; VAMO begun at 69. -/
theorem test_memory_restart :
    let loaded := fun (_ : State) (h : Hart) => h.elem 4 61 32 = 0 && h.elem 4 62 32 = 0x11 && h.elem 4 63 32 = 0x22 && h.elem 4 64 32 = 0 && h.isLive 4 && h.isLive 5
    keeps .ldv (ops (vG 4 1) (.g 1) (.i16 0)) loaded = true ∧ keeps .lds (ops (vG 4 1) (.g 1) (.g 2)) loaded = true ∧
    keeps .ldg (opsT (vG 4 1) (.g 1) (vG 6 1) .i8 .i32 0) (fun _ h => h.elem 4 62 32 = 0 && h.isLive 4) = true ∧
    keeps .stv (ops (.g 1) (vG 8 1) (.i16 0)) (fun t _ => (t.seenByte 0 0x1F8 0, t.seenByte 0 0x1FC 0, t.stores.length) = (7, 0, 2)) = true ∧
    keeps .sts (ops (.g 1) (vG 8 1) (.g 2)) (fun t _ => (t.seenByte 0 0x1F8 0, t.seenByte 0 0x1FC 0) = (7, 0)) = true ∧
    keeps .stg (opsT (.g 1) (vG 8 1) (vG 6 1) .i8 .i32 0) (fun t _ => t.seenByte 0 0x104 0 = 7) = true ∧
    keeps .vamo (opsT (vG 4 1) (.g 1) (vG 6 1) .i32 .i32 0) (fun t h => h.elem 4 62 32 = 0 && t.homeByte 0 0x104 0 = 100 && h.isLive 4) = true ∧
    gives (exec (.vamo (opsT (vG 4 1) (.g 1) (vG 6 1) .i32 .i32 0)) (long 69 none)) (fun t => (t.hart 0).pc = 0x100C && (t.hart 0).isLive 4 && t.homeByte 0 0x104 0 = 0) = true := by decide +kernel
/-- R145, R271: a length above the capacity of D, and a dead source of STV where DEADEN is 1, with the access kind. -/
theorem test_memory_checks : halts (vec { core [0x100] with vl := 0x40046 }) 0 .ldv (ops (vG 4 0) (.g 1) (.i16 0)) 7 0x200 0 = true ∧
    halts (vec { core [0x100] with vl := 0x40046 }) 0 .stv (ops (.g 1) (vG 4 0) (.i16 0)) 7 0x301 0 = true ∧
    halts (vec { core [0x100] with vl := 0x40002, fmode := 0x800 }) 0 .stv (ops (.g 1) (vG 4 0) (.i16 0)) Cause.liveDead.code 0x301 0 = true := by decide +kernel

/-! The work of engines. -/

/-- A command with two places of Z at 0x4000 where `count` is 2, X at 0x1000 and Y at 0x2000, on the page list [0]. -/
def bankCmd (op : BkOp) (td ts : Ty) (count l stride : Nat) (opv : List Byte := []) : BankCmd :=
  ⟨4, op.code, td, ts, ⟨count, 0, false, l, 1, 0x1000, 0x2000, 0x4000, 0, stride, 0⟩, [0], [(0, 0, 0)], opv, some 1, 1, 1, 7, true, false, [], [], 0, none, none⟩
/-- Its work leaves `z` in the `nb` bytes at 0x4000, with these flags and this cause, and not a byte after them. -/
def bankLeaves (c : BankCmd) (mem : List (Nat × Nat × Nat)) (nb z : Nat) (f : Flags) (met : Option (Nat × Nat × Cause)) : Bool :=
  let r := (mem.foldl (fun s m => poke s m.1 m.2.1 m.2.2) (vec (core []))).bankWork c
  r.1.memNat 0x4000 nb = z && r.1.memByte (0x4000 + nb) = 0 && r.2.flags = f && r.2.cause = met
/-- R225 to R230, by hand: 1 + 2, 2 × 3, 2 × 3 + 1, slices 1 and 2, a maximum doubled; a row of codes 0 and 1 by 3 and 1 with the codebook 1, 2; bytes 1 and 1
by 1 and 2; records 5 and 7; a record with a reserved bit, which carries BANK_PARAM at index 1; BKCLR. -/
theorem test_bank_work :
    bankLeaves (bankCmd .add .fp32 .i8 2 0 0) [(0x1000, 4, 0x3F800000), (0x2000, 4, 0x40000000), (0x1004, 4, 0x7F7FFFFF), (0x2004, 4, 0x7F7FFFFF)] 8 0x7F80000040400000 (fOF ||| fNX) none = true ∧
    bankLeaves (bankCmd .mul .fp32 .i8 1 0 0) [(0x1000, 4, 0x40000000), (0x2000, 4, 0x40400000)] 4 0x40C00000 0 none = true ∧
    bankLeaves (bankCmd .fma .fp32 .i8 1 0 0) [(0x1000, 4, 0x40000000), (0x2000, 4, 0x40400000), (0x4000, 4, 0x3F800000)] 4 0x40E00000 0 none = true ∧
    bankLeaves (bankCmd .sum .fp32 .i8 1 2 0x100) [(0x1000, 4, 0x3F800000), (0x1100, 4, 0x40000000)] 4 0x40400000 0 none = true ∧
    bankLeaves (bankCmd .lut4 .fp32 .bf16 1 2 0x40 ((bytesOf 4 0x40003F80) ++ List.replicate 28 0 ++ bytesOf 4 0x3F804040)) [(0x1000, 1, 0x10)] 4 0x40A00000 0 none = true ∧
    bankLeaves (bankCmd .dot8 .e4m3 .e4m3 1 2 0x40 [0x38, 0x40]) [(0x1000, 2, 0x3838)] 16 (3 * 2 ^ 32) 0 none = true ∧
    bankLeaves (bankCmd .acc .i8 .i8 2 0 0) [(0x1000, 16, 7), (0x4000, 16, 5), (0x1010, 16, 2 ^ 100), (0x4010, 16, 9)] 32 (12 + 9 * 2 ^ 128) 0 (some (1, 0, .bankParam)) = true ∧
    bankLeaves (bankCmd .clr .i8 .i8 1 0 0) [(0x4000, 16, 2 ^ 127 + 1)] 16 0 0 none = true := by decide +kernel
/-- R120 to R122: the clamp at 2^95 − 1 with OVF and ACCOV, +∞ against −∞ with NV, a NaN that stays. -/
theorem test_acc_units : accUnit (2 ^ 95 - 1) ⟨1, false, false, false⟩ = (2 ^ 95 - 1 + 2 ^ 99, fACCOV) ∧ accUnit (2 ^ 97) ⟨0, false, false, true⟩ = (2 ^ 96, fNV) ∧
    accUnit (2 ^ 96 + 4) ⟨1, false, true, true⟩ = (2 ^ 96 + 5, 0) ∧ accOk (2 ^ 96) = true ∧ accOk (2 ^ 96 + 2 ^ 97) = false := by decide +kernel
/-- Bytes at their home point. -/
def homeNat (t : State) (a nb : Nat) : Nat := natOfBytes ((List.range nb).map (fun i => t.homeByte 0 (a + i) 0))
/-- What the landing `i` leaves of a started copy. -/
def lands (i : Instr) (c : Copy) (mem : List (Nat × Nat × Nat)) (rows : Table (BitVec 8192)) (p : State → Copy → Bool) : Bool :=
  let c := { c with left := [(0, c.total)] }
  let s := { mem.foldl (fun s m => poke s m.1 m.2.1 m.2.2) (engined [c] []) with rows := rows, regions := [{ region0 with items := [], now := false }] }
  (c.src ++ c.dst ++ c.fp).all (fun q => window q.addr < 8 && q.addr % 2 ^ 48 + q.len ≤ 2 ^ 48 && (List.range q.len).all (fun i => s.inPlane (q.addr + i) = false)) &&
  ev i s (fun t => match t.copiesAt 0 with | [d] => d.left = [] && p t d | _ => false)
/-- R300: eight bytes land at a barrier of 20, and at one of 4, which stops at 0. -/
theorem test_land_barrier : let bar := 0x8000000180000
    let c := { aCopy with bar := some bar }
    lands (.copyLand 0 4 (0, 8)) c [(bar, 8, 20)] [] (fun t d => d.cause = none && d.landed = 8 && t.memNat bar 8 = 12 && t.homeByte 0 0x2000 0 = 0x88) = true ∧
    lands (.copyLand 0 4 (0, 8)) c [(bar, 8, 4)] [] (fun t d => d.cause = some (0, 2, .landingUnder) && t.memNat bar 8 = 0 && t.homeByte 0 0x2000 0 = 0x88) = true ∧
    ready.plainPlace bar 8 = true ∧ ready.Clean := by decide +kernel
/-- R303 to R306: the CRC-64 of "123456789"; the lowest byte that differs; a frame of the spec's form decoded, and one of a wrong version. -/
theorem test_land_kinds : let c := fun (k n m : Nat) => { aCopy with kind := k, total := n, par := { aCopy.par with len := n, outlen := 12, psplit := true }, src := [⟨0x1000, n, 0⟩], dst := [⟨0x2000, m, 0⟩] }
    lands (.copyLand 0 4 (0, 9)) { c 4 9 0 with dst := [], fp := [⟨0x3000, 8, 0⟩] } [(0x1000, 9, 0x393837363534333231)] [] (fun t d => d.landed = 0 && d.cause = none && homeNat t 0x3000 8 = 0x6C40DF5F0B497347) = true ∧
    lands (.copyLand 0 4 (0, 8)) (c 5 8 8) [(0x2000, 8, 0x1122334400667788)] [] (fun t d => d.low = some 3 && d.cause = none && homeNat t 0x2000 8 = 0x1122334400667788) = true ∧
    (let b := { c 3 12 12 with src := [⟨0x1000, 11, 0⟩], par := { aCopy.par with len := 11, outlen := 12, psplit := true } }
     lands (.copyLand 0 4 (0, 12)) b [(0x1000, 11, 0x0605040302016000010011)] [] (fun t d => d.landed = 12 && d.cause = none && t.homeByte 0 0x2000 0 = 1 && t.homeByte 0 0x2001 0 = 0 && t.homeByte 0 0x200A 0 = 6) = true ∧
     lands (.copyLand 0 4 (0, 12)) b [(0x1000, 11, 0x0605040302016000020011)] [] (fun t d => d.landed = 0 && d.cause = some (0, 0, .bloomFormat) && homeNat t 0x2000 8 = 0) = true) := by decide +kernel
/-- R302: the bytes 1 and 3 on two planes from row 5 and their check plane in row 7; read back; with a check bit turned over at lane 1. -/
theorem test_land_planes : let c := fun (k : Nat) => { aCopy with kind := k, total := 2, par := { aCopy.par with len := 2, row := 5, w := 2 }, src := if k = 1 then [⟨0x1000, 2, 0⟩] else [], dst := if k = 2 then [⟨0x2000, 2, 0⟩] else [] }
    let rows := fun v => Table.ofList 0 0 [] ++ [(rowKey 0 0 5, 3), (rowKey 0 0 6, 2), (rowKey 0 0 7, v)]
    lands (.copyLand 0 4 (0, 2)) (c 1) [(0x1000, 2, 0x0301)] [] (fun t d => d.landed = 2 && d.cause = none && t.row 0 0 5 = 3 && t.row 0 0 6 = 2 && t.row 0 0 7 = 1 && t.row 0 1 5 = 0) = true ∧
    lands (.copyLand 0 4 (0, 2)) (c 2) [] (rows 1) (fun t d => d.landed = 2 && d.cause = none && homeNat t 0x2000 3 = 0x0301) = true ∧
    lands (.copyLand 0 4 (0, 2)) (c 2) [] (rows 3) (fun t d => d.landed = 2 && d.low = some 1 && d.cause = some (1, 1, .planeCheck) && homeNat t 0x2000 3 = 0x0301) = true := by decide +kernel
/-! Reports, beams and commands that are refused. -/

/-- R412: the premises of the two log entries (the counter that they take is a free value, so nothing of the ring evaluates): an uncorrectable sector that the host reads and
no other die rebuilds; a bad dirty sector that the L2 loses. -/
theorem test_error_log : let pa := 0x5000
    let s := { poke ready (sramAddr 0 0x2FD00000) 8 5 with err := [(0x5000, ⟨false, true, 0⟩), (0x5400, ⟨false, true, 0⟩)] }
    let e := { s with err := [], l2 := [(pa / 32, some ⟨0x55, true, false, true, 0⟩)] }
    s.sector pa = none ∧ (List.range 8).all (fun k => s.hostReach (pa + k) && s.unreachable 8 (pa + k) = none) = true ∧ s.rebuilds pa = false ∧ (s.errAt pa).uncorr = true ∧
    s.errAt (sramAddr 0 0x2FD00000) = .clean ∧ ev (.hostAccess 0 pa 8 none) s (fun t => t.hostReply = .abort) = true ∧
    (e.sector pa).any (fun x => x.bad && x.dirty) = true ∧ ev (.l2Eviction pa) e (fun t => t.sector pa = none && (t.errAt pa).poison) = true := by decide +kernel
/-- R415: post 1 is scrapped under task 1, which waits to be bound on post 0, with a command of its graph there; graph 2 stays. R414: with every beam of
post 1 lost the package is scrapped. -/
theorem test_scrap_busy : let b := { aBank with pieces := [(0, 0, 0)], result := none }
    let s := { ready with harts := [(32, { core [] with task := some 1 })], tasks := [(1, some { task1 with post := 1 })], graphs := [(1, some graph1), (2, some graph1)], banks := [(1, [b])] }
    let t := { s with harts := [], tasks := [(1, some { task1 with image := none })] }
    let lost := [0, 1, 7].map (fun k => (k, some { Beam.fresh k with lost := true }))
    ((beamEnds 0).1 = 0 ∧ (s.beam 0).lost = false) ∧
    ev (.postScrap 1) s (fun u => u.graph 1 = none && u.tasks.all (fun p => p.2 = none) && u.graph 2 = some graph1 && u.bankQueue 1 = [] && u.hart 32 = .blank && u.phase = 8 &&
      Table.get 0 (u.hart 256).pendAddr 63 = 2) = true ∧
    ev (.postScrap 1) t (fun u => u.graph 1 = none && u.bankQueue 1 = []) = true ∧
    ev (.postScrap 1) { s with beams := lost } (fun u => u.phase = 15 && u.failPosts = 2) = true := by decide +kernel
/-- R344: a doorbell of a queue whose HOME is a scrapped post sets CFGERR and still moves TAIL, or does not. -/
theorem test_doorbell_home : let s := { queued 1 0 with scrapped := 1 }
    s.homeOk 3 = false ∧ ev (.doorbell 3 2) s (fun t => t.qBit 3 3 && t.qTail 3 = 2) = true ∧ ev (.doorbell 3 9) s (fun t => t.qBit 3 3 && t.qTail 3 = 1) = true := by decide +kernel
/-- R427, R431: a spoilt flit fails CRC whatever its bits; a flit sent again 64 times and not accepted loses the beam, an accepted one does not. -/
theorem test_spoilt_and_worn : let d := { Direction.fresh with buffer := [⟨7, aFlit, 64⟩], nextSeq := 8 }
    ev (.flitReceive 2 0 []) (beamed { Direction.fresh with wire := [⟨0, 0, true⟩] }) (fun t => ((t.beam 2).dir 0).crc = 1 && ((t.beam 2).dir 0).expect = 0) = true ∧
    ev (.replayTimeout 2 0) (beamed d) (fun t => (t.beam 2).lost && (t.beam 2).events = 8) = true ∧
    ev (.replayTimeout 2 0) (beamed { d with expect := 8 }) (fun t => !(t.beam 2).lost && ((t.beam 2).dir 0).resend = [7]) = true := by decide +kernel
/-- R296: a copy from an unmapped page, to one, of a handle that names no region, of more elements than its lanes, and of a system core's planes. -/
theorem test_copy_refused : let c := fun (l : List (Nat × Nat × Nat)) => block issuer (l ++ [(0x10, 4, 32)])
    let x := ops (.g 7) (.g 1) (.g 0)
    let tin := opsT (.g 7) (.g 1) (.g 0) .i8 .i8 4
    halts (c [(0, 8, 0x40000000), (8, 8, 0x2000)]) 0 .cpyByte x 10 0x304 0x40000000 = true ∧ halts (c [(0, 8, 0x1000), (8, 8, 0x40000000)]) 0 .cpyByte x 10 0x304 0x40000000 = true ∧
    halts { c [(0, 8, 0x1000), (0x1C, 2, 8 * 512)] with regions := [] } 0 .cpyTin tin 20 0x304 0x100 = true ∧
    halts (c [(0, 8, 0x1000), (0x1C, 2, 8 * 512), (0x20, 4, 16384 - 16)]) 0 .cpyTin tin 26 0x304 0x100 = true ∧
    halts { sys { core [0x100] with tvec := 0x400 } with mem := (block (sys (core [])) [(0, 8, 0x1000), (0x10, 4, 32), (0x1C, 2, 8 * 512)]).mem } 256 .cpyTin tin 20 0x304 0x100 = true := by decide +kernel
/-- R221 to R223: a page that is unmapped, a range outside the pages, and an entry off its boundary. -/
theorem test_pages_refused : let x := opsT (.g 7) (.g 1) .none .i32 .i8 0
    let fill := fun (e : Nat) (l : List (Nat × Nat × Nat)) => block issuer ([(0, 4, 2), (8, 4, 1), (0x20, 8, e), (0x38, 8, 5), (0x40, 8, e)] ++ l)
    halts (fill 0x40000000 []) 0 .bkfill x 10 0x304 0x40000000 = true ∧ halts (fill 0 [(0x20, 8, 0x200000)]) 0 .bkfill x 26 0x304 0x100 = true ∧
    halts (fill 0x100 []) 0 .bkfill x 26 0x304 0x100 = true := by decide +kernel
/-- R415: an RPGO, an RPMODE, and a copy of a region of post 1, once it is scrapped. -/
theorem test_unreachable : let r : State → State := fun s => { s with scrapped := 2, regions := [{ region0 with post := 1, now := false, tail := false, items := [] }] }
    let s := r (poke (block issuer [(4, 2, 1), (8, 8, 0x1000)]) 0x1000 12 0x00000005_10010405)
    s.unreachable 0 (2 ^ 48) = some .remoteTimeout ∧
    halts s 0 .rpgo (ops (.g 7) (.g 1) .none) 48 0x305 0x100 = true ∧ halts s 0 .rpmodeCompute (opsT .none (.g 0) .none .i8 .i8 1) 48 0x305 0 = true ∧
    halts (r (block issuer [(0, 8, 0x1000), (0x10, 4, 32), (0x1C, 2, 8 * 512)])) 0 .cpyTin (opsT (.g 7) (.g 1) (.g 0) .i8 .i8 4) 48 0x304 0x100 = true := by decide +kernel

end Sys2Proof.Tests
end

namespace Sys2Proof.Machine
open Sys2Proof

/-- Field `f` names a tile that a task with `tiles` tiles does not have (R48). -/
def NamesHighTile (x : Ops) (tiles f : Nat) : Prop := (x.field f).cls = 4 ∧ tiles ≤ accTile (x.field f)

theorem State.tilesOf_of_taskOf {s : State} {n u : Nat} {t : Task} (ht : s.taskOf n = some (u, t)) : s.tilesOf n = t.tiles := by
  simp only [State.tilesOf, ht]

theorem State.badTile_eq_none_iff {s : State} {n : Nat} {x : Ops} :
    s.badTile n x = none ↔ ∀ f ∈ [2, 3, 4], ¬ NamesHighTile x (s.tilesOf n) f := by
  simp [State.badTile, NamesHighTile]

/-- The check finds the first high field: the fields before it are tried, and pass, first. -/
theorem State.badTile_eq_some {s : State} {n : Nat} {x : Ops} {f : Nat} (hf : f ∈ [2, 3, 4])
    (hhigh : NamesHighTile x (s.tilesOf n) f) (hfirst : ∀ e, 2 ≤ e → e < f → ¬ NamesHighTile x (s.tilesOf n) e) :
    s.badTile n x = some f := by
  obtain ⟨before, after, hsplit, hbefore⟩ : ∃ before after, [2, 3, 4] = before ++ f :: after ∧ ∀ e ∈ before, 2 ≤ e ∧ e < f := by
    simp only [List.mem_cons, List.not_mem_nil, or_false] at hf
    obtain rfl | rfl | rfl := hf
    · exact ⟨[], [3, 4], rfl, by decide⟩
    · exact ⟨[2], [4], rfl, by decide⟩
    · exact ⟨[2, 3], [], rfl, by decide⟩
  refine List.find?_eq_some_iff_append.2 ⟨?_, before, after, hsplit, fun e he => ?_⟩
  · simpa [NamesHighTile] using hhigh
  · simpa [NamesHighTile, imp_iff_not_or] using hfirst e (hbefore e he).1 (hbefore e he).2

theorem State.refuse_of_estart_eq_zero {s : State} {n : Nat} (he : (s.hart n).estart = 0) (e : Stop) :
    s.refuse n e = s.stopHart n e := if_pos he

theorem Hart.badRestart_of_estart_eq_zero {h : Hart} (he : h.estart = 0) (long : Option (Hart → Nat)) :
    h.badRestart long = false := by
  simp [Hart.badRestart, he]

theorem State.pc_stopHart_task {s : State} {n : Nat} (hn : isSys n = false) (e : Stop) :
    ((s.stopHart n e).hart n).pc = (s.hart n).pc := by
  obtain ⟨h, hstop, -, -, -, -, hpc, -⟩ := State.stopHart_task (s := s) hn e
  rw [hstop, State.hart_setHart_self, hpc]

/-- On a task's core the tile check is the first that can fail for an instruction that is not privileged and is begun
afresh (R48, R52, R79). -/
theorem runCore_badTile {d : Desc} {x : Ops} {s : State} {n f : Nat} {whole : Bool} {long : Option (Hart → Nat)}
    {body : Nat → Hart → Done} (hturn : s.turn = .hart n) (hn : isSys n = false) (hpriv : opGroup d.op ≠ 0x0D)
    (he : (s.hart n).estart = 0) (hbad : s.badTile n x = some f) :
    runCore d x s whole long body = .next (s.stopHart n ⟨.accRange, 0, 0, 0, f, 0⟩) := by
  unfold runCore
  simp [hturn, Hart.badRestart_of_estart_eq_zero he, hn, hpriv, hbad, State.refuse_of_estart_eq_zero he]

/-- Settles O8: the registers by reading back a write, the stop because every core instruction begins with the tile check
of `runCore`. -/
theorem hardwiredRegisters : Obligations.HardwiredRegisters := by
  refine ⟨fun h => ⟨h.gr_zero, h.kr_zero⟩, fun h v w => ⟨h.setG_zero v, h.setK_zero w⟩, ?_, ?_, ?_⟩
  · intro h r v q hr
    simp [Hart.gr_setG, hr]
  · intro h r v q hr
    simp [Hart.kr_setK, hr]
  · intro s n u t htask hn hturn
    have htiles : s.tilesOf n = t.tiles := State.tilesOf_of_taskOf htask
    refine ⟨?_, fun x hlow => State.badTile_eq_none_iff.2 (htiles ▸ hlow)⟩
    intro i d x f hparts hpriv hrow hmfs hmts he hf hhigh hfirst
    have hbad : s.badTile n x = some f := State.badTile_eq_some hf (htiles ▸ hhigh) (htiles ▸ hfirst)
    obtain ⟨long, body, hexec, -⟩ :=
      core_shape hparts hrow hturn (fun h => absurd h hmfs) (fun h => absurd h hmts)
    exact ⟨hexec.trans (runCore_badTile hturn hn hpriv he hbad), State.pc_stopHart_task hn _⟩

end Sys2Proof.Machine

namespace Sys2Proof.Machine
open Sys2Proof

/-! The spec's arithmetic, written with unbounded integers, and the operations of `BitVec` (R83, Tables 7-1 to 7-3). -/

/-- R83: `sext(y, w)` is the value of the `w`-bit word with the low bits of `y`. -/
theorem sextN_eq_toInt_ofNat (y w : Nat) : sextN y w = (BitVec.ofNat w y).toInt := by
  unfold sextN
  rw [BitVec.toInt_eq_toNat_cond, BitVec.toNat_ofNat]
  obtain _ | w := w
  · simp [Nat.mod_one]
  · simp only [Nat.add_sub_cancel, Nat.pow_succ, Nat.mul_comm _ 2, Nat.mul_lt_mul_left Nat.two_pos]

theorem ofInt_sextN (y w v : Nat) : BitVec.ofInt v (sextN y w) = (BitVec.ofNat w y).signExtend v := by
  rw [sextN_eq_toInt_ofNat, BitVec.signExtend]

/-- The high half of a signed product: the product itself fits in 128 bits. -/
theorem ofInt_mul_ediv_eq_high (a b : Word) :
    BitVec.ofInt 64 (a.toInt * b.toInt / 2 ^ 64) = ((a.signExtend 128 * b.signExtend 128) >>> 64).setWidth 64 := by
  have hprod : a.signExtend 128 * b.signExtend 128 = BitVec.ofInt 128 (a.toInt * b.toInt) := by
    rw [BitVec.ofInt_mul, BitVec.signExtend, BitVec.signExtend]
  rw [hprod]
  generalize a.toInt * b.toInt = p
  apply BitVec.eq_of_toNat_eq
  simp only [BitVec.toNat_ofInt, BitVec.toNat_setWidth, BitVec.toNat_ushiftRight, Nat.shiftRight_eq_div_pow]
  omega

theorem ofNat_mul_div_eq_high (a b : Word) :
    BitVec.ofNat 64 (a.toNat * b.toNat / 2 ^ 64) = ((a.setWidth 128 * b.setWidth 128) >>> 64).setWidth 64 := by
  have ha : a.toNat % 2 ^ 128 = a.toNat := Nat.mod_eq_of_lt (by omega)
  have hb : b.toNat % 2 ^ 128 = b.toNat := Nat.mod_eq_of_lt (by omega)
  have hlt : a.toNat * b.toNat < 2 ^ 128 := (Nat.mul_lt_mul'' a.isLt b.isLt).trans_eq (Nat.pow_add 2 64 64).symm
  apply BitVec.eq_of_toNat_eq
  simp only [BitVec.toNat_ofNat, BitVec.toNat_setWidth, BitVec.toNat_ushiftRight, BitVec.toNat_mul, ha, hb,
    Nat.mod_eq_of_lt hlt, Nat.shiftRight_eq_div_pow]

/-- R129: −2^63 by −1 wraps, as `sdiv` does. -/
theorem ofInt_tdiv (a b : Word) : BitVec.ofInt 64 (a.toInt.tdiv b.toInt) = a.sdiv b :=
  BitVec.eq_of_toInt_eq (by rw [BitVec.toInt_ofInt, BitVec.toInt_sdiv])

theorem ofInt_sub_mul_tdiv (a b : Word) :
    BitVec.ofInt 64 (a.toInt - b.toInt * a.toInt.tdiv b.toInt) = a.srem b := by
  rw [← Int.tmod_def, ← BitVec.toInt_srem, BitVec.ofInt_toInt]

theorem ofNat_toNat_sub_mul_div (a b : Word) :
    BitVec.ofNat 64 (a.toNat - b.toNat * (a.toNat / b.toNat)) = a.umod b := by
  rw [← Nat.mod_eq_sub_mul_div]
  exact BitVec.umod_def.symm

theorem ofNat_imm_mul_add (v : Nat) (g : Word) :
    BitVec.ofNat 64 (v * 2 ^ 32 + g.toNat % 2 ^ 32) = BitVec.ofNat 32 v ++ g.setWidth 32 := by
  apply BitVec.eq_of_toNat_eq
  rw [BitVec.toNat_append, ← Nat.shiftLeft_add_eq_or_of_lt (BitVec.isLt _)]
  simp only [BitVec.toNat_ofNat, BitVec.toNat_setWidth, Nat.shiftLeft_eq]
  omega

theorem ofNat_zextN (a : Word) (w : Nat) : BitVec.ofNat 64 (zextN a.toNat w) = (a.setWidth w).setWidth 64 := by
  rw [zextN, ← BitVec.toNat_setWidth, BitVec.ofNat_toNat]

/-! The counts of Table 7-2, which the model makes bit by bit. -/

/-- From bit `n` down, `clz` has already counted the `63 − n` bits above. -/
theorem clzAuxRec_eq_leadingZeros (a : Word) {n : Nat} (hn : n < 64) :
    a.clzAuxRec n = BitVec.ofNat 64 (63 - n + leadingZeros a (n + 1)) := by
  induction n with
  | zero => rw [BitVec.clzAuxRec_zero, leadingZeros]; split <;> rfl
  | succ n ih =>
    rw [BitVec.clzAuxRec_succ, leadingZeros, ih (by omega)]
    split
    · rfl
    · rw [← Nat.add_assoc, show 63 - (n + 1) + 1 = 63 - n by omega]

theorem ofNat_leadingZeros (a : Word) : BitVec.ofNat 64 (leadingZeros a 64) = a.clz := by
  rw [BitVec.clz, clzAuxRec_eq_leadingZeros a (by decide), Nat.sub_self, Nat.zero_add]

/-- The bits from below are those of the reversed word from above. -/
theorem trailingZeros_eq_leadingZeros_reverse (a : Word) {n : Nat} (hn : n ≤ 64) :
    trailingZeros a n = leadingZeros a.reverse n := by
  induction n with
  | zero => rfl
  | succ n ih =>
    have hbit : a.reverse.getLsbD n = a.getLsbD (63 - n) := by
      simp only [BitVec.getLsbD_reverse, BitVec.getMsbD, show n < 64 by omega, decide_true, Bool.true_and]
    rw [trailingZeros, leadingZeros, ih (by omega), hbit]

theorem ofNat_trailingZeros (a : Word) : BitVec.ofNat 64 (trailingZeros a 64) = a.ctz := by
  rw [trailingZeros_eq_leadingZeros_reverse a le_rfl, ofNat_leadingZeros, BitVec.ctz]

theorem bitCount_eq_countP (a : Word) (n : Nat) : bitCount a n = (List.range n).countP (fun i => a.getLsbD i) := by
  induction n with
  | zero => rfl
  | succ n ih => rw [bitCount, ih, List.range_succ, List.countP_append, List.countP_singleton, Nat.add_comm]

/-! What an instruction does that only writes gd. -/

/-- A register instruction whose meaning gives the word `v` for register `r` retires with that register written. -/
theorem retires_setG {d : Desc} {x : Ops} {s : State} {n r : Nat} {v : Word} {body : Hart → RegDone}
    (hexec : exec (d.ctor x) s = runReg d x s true none body) (hready : s.Ready n d x)
    (hbody : body (s.hart n) = .ok ((s.hart n).setG r v) 0) : Retires (d.ctor x) x s n ((s.hart n).setG r v) 0 := by
  obtain ⟨⟨hbegins, hcalm⟩, hguard⟩ := hready
  obtain ⟨t, hrun, hturns⟩ := runReg_ok hbegins (fun _ => hguard) hcalm hbody (by simp)
  exact ⟨t, hexec.trans hrun, hturns⟩

/-- A register instruction whose meaning stops before it writes anything stops with no other effect. -/
theorem stops_of_body {d : Desc} {x : Ops} {s : State} {n : Nat} {e : Stop} {body : Hart → RegDone}
    (hexec : exec (d.ctor x) s = runReg d x s true none body) (hready : s.Ready n d x)
    (hbody : body (s.hart n) = .stop (s.hart n) e) : Stops (d.ctor x) s n e := by
  obtain ⟨⟨hbegins, -⟩, hguard⟩ := hready
  refine ⟨s.setHart n (s.hart n), ⟨by simp, fun m hm => State.hart_setHart_ne s hm _, rfl⟩, hexec.trans ?_⟩
  exact runReg_stop hbegins (fun _ => hguard) hbody

/-- A row whose meaning `run` is the write of `v` to gd writes `w`, the same word said otherwise. -/
theorem WritesHart.of_runReg {d : Desc} {v w : Hart → Ops → Word} (run : Ops → State → Host.Outcome State Fault Refusal)
    (hexec : ∀ x s, exec (d.ctor x) s = run x s)
    (hrun : ∀ x s, run x s = runReg d x s true none (fun h => .ok (h.setG (gNum x.d) (v h x)) 0))
    (hword : ∀ h x, v h x = w h x) : WritesHart d (fun h x => h.setG (gNum x.d) (w h x)) :=
  fun s n x hready => retires_setG ((hexec x s).trans (hrun x s)) hready (by simp only [hword])

/-- The same where the word is made of the two sources, and of the fields. -/
theorem WritesHart.of_runInt {d : Desc} {f : Ops → Word → Word → Word} {w : Hart → Ops → Word}
    (run : Ops → State → Host.Outcome State Fault Refusal)
    (hexec : ∀ x s, exec (d.ctor x) s = run x s) (hrun : ∀ x s, run x s = runInt d x s (f x))
    (hword : ∀ h x, f x (h.src x.a) (h.src x.b) = w h x) : WritesHart d (fun h x => h.setG (gNum x.d) (w h x)) :=
  .of_runReg run hexec hrun hword

theorem WritesInt.of_runInt {d : Desc} {f g : Word → Word → Word} (run : Ops → State → Host.Outcome State Fault Refusal)
    (hexec : ∀ x s, exec (d.ctor x) s = run x s) (hrun : ∀ x s, run x s = runInt d x s f)
    (hword : ∀ a b, f a b = g a b) : WritesInt d g :=
  WritesHart.of_runInt run hexec hrun fun h x => hword (h.src x.a) (h.src x.b)

/-! Division (R129). -/

/-- Every ready division of a row writes the quotient or remainder `f` of its sources to gd; for a zero divisor it writes
`z` of the dividend, or, with FMODE.DIVEN 1, stops with INT_DIVZERO. -/
structure WritesDiv (d : Desc) (z : Word → Word) (f : Word → Word → Word) : Prop where
  retires : ∀ {s n x}, (s.hart n).src x.b ≠ 0 → s.Ready n d x →
    Retires (d.ctor x) x s n ((s.hart n).setG (gNum x.d) (f ((s.hart n).src x.a) ((s.hart n).src x.b))) 0
  retires_zero : ∀ {s n x}, (s.hart n).src x.b = 0 → (s.hart n).diven = false → s.Ready n d x →
    Retires (d.ctor x) x s n ((s.hart n).setG (gNum x.d) (z ((s.hart n).src x.a))) 0
  stops_zero : ∀ {s n x}, (s.hart n).src x.b = 0 → (s.hart n).diven = true → s.Ready n d x →
    Stops (d.ctor x) s n ⟨.intDivzero, 0, 0, 0, 0, 0⟩

theorem WritesDiv.of_runDiv {d : Desc} {z : Word → Word} {f g : Word → Word → Word}
    (run : Ops → State → Host.Outcome State Fault Refusal)
    (hexec : ∀ x s, exec (d.ctor x) s = run x s) (hrun : ∀ x s, run x s = runDiv d x s z f)
    (hword : ∀ a b, f a b = g a b) : WritesDiv d z g where
  retires {s n x} hb hready := retires_setG ((hexec x s).trans (hrun x s)) hready (by simp only [hb, if_false, hword])
  retires_zero {s n x} hb hdiven hready := retires_setG ((hexec x s).trans (hrun x s)) hready (by simp [hb, hdiven])
  stops_zero {s n x} hb hdiven hready := stops_of_body ((hexec x s).trans (hrun x s)) hready (by simp [hb, hdiven])

theorem writesDiv_div : WritesDiv .div (fun _ => BitVec.allOnes 64) BitVec.sdiv :=
  .of_runDiv execDiv (fun _ _ => rfl) (fun _ _ => rfl) ofInt_tdiv

theorem writesDiv_divu : WritesDiv .divu (fun _ => BitVec.allOnes 64) BitVec.udiv :=
  .of_runDiv execDivu (fun _ _ => rfl) (fun _ _ => rfl) fun _ _ => BitVec.udiv_def.symm

theorem writesDiv_rem : WritesDiv .rem (fun a => a) BitVec.srem :=
  .of_runDiv execRem (fun _ _ => rfl) (fun _ _ => rfl) ofInt_sub_mul_tdiv

theorem writesDiv_remu : WritesDiv .remu (fun a => a) BitVec.umod :=
  .of_runDiv execRemu (fun _ _ => rfl) (fun _ _ => rfl) ofNat_toNat_sub_mul_div

/-- Settles O16: every row but the divisions runs as one write of gd, and the spec's word for it is an operation of
`BitVec`; the divisions are the three cases of `WritesDiv`. -/
theorem scalarInteger : Obligations.ScalarInteger := by
  refine ⟨⟨.of_runInt execAdd (fun _ _ => rfl) (fun _ _ => rfl) fun _ _ => rfl,
    .of_runInt execSub (fun _ _ => rfl) (fun _ _ => rfl) fun _ _ => rfl,
    .of_runInt execMul (fun _ _ => rfl) (fun _ _ => rfl) fun _ _ => rfl,
    .of_runInt execMulh (fun _ _ => rfl) (fun _ _ => rfl) ofInt_mul_ediv_eq_high,
    .of_runInt execMulhu (fun _ _ => rfl) (fun _ _ => rfl) ofNat_mul_div_eq_high,
    .of_runInt execAnd (fun _ _ => rfl) (fun _ _ => rfl) fun _ _ => rfl,
    .of_runInt execOr (fun _ _ => rfl) (fun _ _ => rfl) fun _ _ => rfl,
    .of_runInt execXor (fun _ _ => rfl) (fun _ _ => rfl) fun _ _ => rfl,
    .of_runInt execAndn (fun _ _ => rfl) (fun _ _ => rfl) fun _ _ => rfl,
    .of_runInt execShl (fun _ _ => rfl) (fun _ _ => rfl) fun _ _ => rfl,
    .of_runInt execShr (fun _ _ => rfl) (fun _ _ => rfl) fun _ _ => rfl,
    .of_runInt execSra (fun _ _ => rfl) (fun _ _ => rfl) fun _ _ => rfl,
    .of_runInt execRol (fun _ _ => rfl) (fun _ _ => rfl) fun _ _ => rfl,
    .of_runInt execMin (fun _ _ => rfl) (fun _ _ => rfl) fun a b => by simp only [BitVec.sle_eq_decide, decide_eq_true_eq],
    .of_runInt execMax (fun _ _ => rfl) (fun _ _ => rfl) fun a b => by simp only [BitVec.sle_eq_decide, decide_eq_true_eq],
    .of_runInt execMinu (fun _ _ => rfl) (fun _ _ => rfl) fun a b => by simp only [BitVec.ule_eq_decide, decide_eq_true_eq],
    .of_runInt execMaxu (fun _ _ => rfl) (fun _ _ => rfl) fun a b => by simp only [BitVec.ule_eq_decide, decide_eq_true_eq],
    .of_runInt execSlt (fun _ _ => rfl) (fun _ _ => rfl) fun _ _ => rfl,
    .of_runInt execSltu (fun _ _ => rfl) (fun _ _ => rfl) fun _ _ => rfl,
    .of_runInt execSeq (fun _ _ => rfl) (fun _ _ => rfl) fun a b => by simp only [wordOfBool, decide_eq_true_eq]⟩,
   ⟨.of_runInt execMov (fun _ _ => rfl) (fun _ _ => rfl) fun _ _ => rfl,
    .of_runInt execLea (fun _ _ => rfl) (fun _ _ => rfl) fun _ _ => rfl,
    .of_runInt execLi (fun _ _ => rfl) (fun _ _ => rfl) fun h x => by rw [ofInt_sextN],
    .of_runReg execLih (fun _ _ => rfl) (fun _ _ => rfl) fun h x => ofNat_imm_mul_add (imm32 x) (h.gr (gNum x.d)),
    .of_runReg execLeaPc (fun _ _ => rfl) (fun _ _ => rfl) fun h x => by rw [ofInt_sextN],
    .of_runInt execSext (fun _ _ => rfl) (fun _ _ => rfl) fun h x => by rw [ofInt_sextN, BitVec.ofNat_toNat],
    .of_runInt execZext (fun _ _ => rfl) (fun _ _ => rfl) fun h x => ofNat_zextN (h.src x.a) x.ts.width,
    .of_runReg execSel (fun _ _ => rfl) (fun _ _ => rfl) fun _ _ => rfl,
    .of_runInt execClz (fun _ _ => rfl) (fun _ _ => rfl) fun h x => ofNat_leadingZeros (h.src x.a),
    .of_runInt execCtz (fun _ _ => rfl) (fun _ _ => rfl) fun h x => ofNat_trailingZeros (h.src x.a),
    .of_runInt execPopc (fun _ _ => rfl) (fun _ _ => rfl) fun h x => by rw [bitCount_eq_countP]⟩, ?_⟩
  refine fun s n x => ⟨fun hb => ⟨?_, ?_, ?_, ?_⟩, fun hb hoff => ⟨?_, ?_, ?_, ?_⟩, fun hb hon => ⟨?_, ?_, ?_, ?_⟩⟩
  · exact writesDiv_div.retires hb
  · exact writesDiv_divu.retires hb
  · exact writesDiv_rem.retires hb
  · exact writesDiv_remu.retires hb
  · exact writesDiv_div.retires_zero hb hoff
  · exact writesDiv_divu.retires_zero hb hoff
  · exact writesDiv_rem.retires_zero hb hoff
  · exact writesDiv_remu.retires_zero hb hoff
  · exact writesDiv_div.stops_zero hb hon
  · exact writesDiv_divu.stops_zero hb hon
  · exact writesDiv_rem.stops_zero hb hon
  · exact writesDiv_remu.stops_zero hb hon

end Sys2Proof.Machine

namespace Sys2Proof.Machine
open Sys2Proof

/-! Cores that agree outside some registers. -/

theorem Hart.Same.refl (h : Hart) (gs ks bs : List Nat) : h.Same h gs ks bs :=
  ⟨fun _ _ => rfl, fun _ _ => rfl, fun _ _ _ => rfl, fun _ _ _ => rfl, fun _ _ _ => rfl, fun _ _ _ _ _ _ _ => rfl,
    fun _ _ _ => rfl, fun _ hb => hb, rfl, rfl, rfl, rfl, rfl⟩

theorem Hart.Same.mono {h t : Hart} {gs ks bs cs : List Nat} (hs : h.Same t gs ks bs) (hsub : ∀ b ∈ bs, b ∈ cs) :
    h.Same t gs ks cs :=
  { hs with
    v := fun r hr hc => hs.v r hr (mt (hsub r) hc)
    d := fun r hr hc => hs.d r hr (mt (hsub _) hc)
    m := fun r hr hc => hs.m r hr (mt (hsub _) hc)
    acc := fun r i j hr hi hj hc => hs.acc r i j hr hi hj (mt (hsub _) hc)
    live := fun b hb hc => hs.live b hb (mt (hsub b) hc) }

theorem Hart.Same.trans {h t u : Hart} {gs ks bs cs : List Nat} (hs : h.Same t gs ks bs) (hs' : t.Same u gs ks cs) :
    h.Same u gs ks (bs ++ cs) := by
  replace hs : h.Same t gs ks (bs ++ cs) := hs.mono fun _ => List.mem_append_left cs
  replace hs' : t.Same u gs ks (bs ++ cs) := hs'.mono fun _ => List.mem_append_right bs
  exact {
    g := fun r hr => (hs'.g r hr).trans (hs.g r hr)
    k := fun r hr => (hs'.k r hr).trans (hs.k r hr)
    v := fun r hr hb => (hs'.v r hr hb).trans (hs.v r hr hb)
    d := fun r hr hb => (hs'.d r hr hb).trans (hs.d r hr hb)
    m := fun r hr hb => (hs'.m r hr hb).trans (hs.m r hr hb)
    acc := fun r i j hr hi hj hb => (hs'.acc r i j hr hi hj hb).trans (hs.acc r i j hr hi hj hb)
    live := fun b hb hn => (hs'.live b hb hn).trans (hs.live b hb hn)
    flags := fun b hb => hs'.flags b (hs.flags b hb)
    fmode := hs'.fmode.trans hs.fmode
    pegmask := hs'.pegmask.trans hs.pegmask
    stops := hs'.stops.trans hs.stops
    trap := hs'.trap.trans hs.trap
    task := hs'.task.trans hs.task }

/-- What every step of a loop leaves alone, the loop leaves alone. -/
theorem Hart.same_foldl {β : Type} {f : Hart → β → Hart} {bits : β → List Nat} {gs ks : List Nat}
    (hf : ∀ (h : Hart) b, h.Same (f h b) gs ks (bits b)) (l : List β) (h : Hart) : h.Same (l.foldl f h) gs ks (l.flatMap bits) := by
  induction l generalizing h with
  | nil => exact .refl h _ _ _
  | cons b l ih => exact (hf h b).trans (ih (f h b))

/-! LIVEMASK, and the registers that a retirement makes dead (R55, R56). -/

theorem getLsbD_ofNat_two_pow {w b : Nat} (hb : b < w) (c : Nat) : (BitVec.ofNat w (2 ^ c)).getLsbD b = decide (c = b) := by
  simp only [BitVec.getLsbD_ofNat, hb, decide_true, Bool.true_and, Nat.testBit_two_pow]

theorem Hart.isLive_live (h : Hart) (c : Nat) {b : Nat} (hb : b < 64) : (h.live c).isLive b = (h.isLive b || decide (c = b)) := by
  simp only [Hart.live, Hart.isLive, BitVec.getLsbD_or, getLsbD_ofNat_two_pow hb]

theorem Hart.same_livemask_clear (h : Hart) (c : Nat) :
    h.Same { h with livemask := h.livemask &&& ~~~(BitVec.ofNat 64 (2 ^ c)) } [] [] [c] :=
  { Hart.Same.refl h [] [] [c] with
    live := fun b hb hc => by
      have hb64 : b < 64 := by omega
      have hne : c ≠ b := fun e => hc (by simp [e])
      simp only [Hart.isLive, BitVec.getLsbD_and, BitVec.getLsbD_not, getLsbD_ofNat_two_pow hb64, hb64, hne]
      simp }

/-- A cell of a tile lies among the keys of its own tile. -/
theorem cellKey_bounds {r i j : Nat} (hi : i < 256) (hj : j < 256) :
    r * 65536 ≤ cellKey r i j ∧ cellKey r i j < (r + 1) * 65536 := by
  unfold cellKey; omega

theorem Hart.same_kill (h : Hart) (c : Nat) : h.Same (h.kill c) [] [] [c] := by
  have hclear := h.same_livemask_clear c
  unfold Hart.kill
  split
  · exact { hclear with
      v := fun r _ hr => Table.get_erase_ne 0 h.v (by simpa using hr) }
  split
  · exact { hclear with
      d := fun r _ hr => Table.get_erase_ne 0 h.d (by simp only [List.mem_singleton] at hr; omega)
      m := fun r _ hr => Table.get_erase_ne normZero h.m (by simp only [List.mem_singleton] at hr; omega) }
  · exact { hclear with
      acc := fun r i j _ hi hj hr => by
        have hkey := cellKey_bounds (r := r) hi hj
        simp only [List.mem_singleton] at hr
        exact Table.get_splice_out (by omega) (by simp) (by omega) }

/-- The registers that the retirement of an instruction makes dead: those of its marked sources that it does not write (R56). -/
def releasedBits (x : Ops) : List Nat :=
  [x.a, x.b].flatMap fun o => if o.marked then (liveBits o).filter fun b => !(liveBits x.d).contains b else []

theorem not_mem_releasedBits {x : Ops} {b : Nat} (hb : b ∈ liveBits x.d) : b ∉ releasedBits x := by
  simp only [releasedBits, List.mem_flatMap, not_exists, not_and]
  intro o _ hmem
  split at hmem
  · simp [hb] at hmem
  · simp at hmem

theorem mem_markedBits_of_mem_releasedBits {x : Ops} {b : Nat} (hb : b ∈ releasedBits x) : b ∈ markedBits x := by
  obtain ⟨o, ho, hmem⟩ := List.mem_flatMap.1 hb
  refine List.mem_flatMap.2 ⟨o, ho, ?_⟩
  split
  · rw [if_pos ‹_›] at hmem
    exact List.mem_of_mem_filter hmem
  · rwa [if_neg ‹_›] at hmem

theorem Hart.same_release (h : Hart) (x : Ops) : h.Same (h.release x) [] [] (releasedBits x) := by
  unfold Hart.release releasedBits
  refine Hart.same_foldl (fun g o => ?_) [x.a, x.b] h
  split
  · simpa using Hart.same_foldl Hart.same_kill ((liveBits o).filter fun b => !(liveBits x.d).contains b) g
  · exact .refl g _ _ _

@[simp] theorem Hart.release_vl (h : Hart) (x : Ops) : (h.release x).vl = h.vl :=
  Hart.release_keeps (fun h => h.vl) (fun _ _ => rfl) (fun _ _ => rfl) (fun _ _ _ => rfl) (fun _ _ => rfl) h x

theorem Hart.same_addFlags (h : Hart) (f : Flags) : h.Same (h.addFlags f) [] [] [] :=
  { Hart.Same.refl h [] [] [] with
    flags := fun b hb => by simp [Hart.addFlags, hb] }

/-- Retiring changes no register but those it makes dead. -/
theorem Hart.same_goesOn (h : Hart) (x : Ops) (f : Flags) (pc : Word) : h.Same (h.goesOn x f pc) [] [] (releasedBits x) :=
  { (h.same_addFlags f).trans ((h.addFlags f).same_release x) with }

theorem State.Turns.onlyHart {s t : State} {n : Nat} {h : Hart} (ht : s.Turns t n h) : s.OnlyHart t n := by
  obtain ⟨-, hothers, hrest⟩ := ht
  refine ⟨hothers, ?_⟩
  rw [hrest]

/-- An instruction that changes the registers `bs` and then retires changes those and the released sources. -/
theorem State.Turns.frame {s t : State} {n : Nat} {h : Hart} {x : Ops} {f : Flags} {bs : List Nat}
    (ht : s.Turns t n (h.goesOn x f ((s.hart n).pc + 12))) (hvl : h.vl = (s.hart n).vl) (hs : (s.hart n).Same h [] [] bs) :
    s.Frame t x n [] [] bs := by
  obtain ⟨hart, -, -⟩ := ht
  have hreleased : h.Same (h.goesOn x f ((s.hart n).pc + 12)) [] [] (markedBits x) :=
    (h.same_goesOn x f _).mono fun _ => mem_markedBits_of_mem_releasedBits
  unfold State.Frame
  rw [hart]
  exact ⟨rfl, rfl, rfl, by simp [Hart.goesOn, hvl], hs.trans hreleased⟩

/-! Directional registers: a d register with its m partner (R47). -/

theorem Hart.dr_setD (h : Hart) (n r : Nat) (v : BitVec 4096) : (h.setD n v).dr r = if r = n then v else h.dr r :=
  Table.get_set 0 h.d n r v

@[simp] theorem Hart.mr_setD (h : Hart) (n r : Nat) (v : BitVec 4096) : (h.setD n v).mr r = h.mr r := rfl

theorem Hart.mr_setM (h : Hart) (n r : Nat) (v : BitVec 32) : (h.setM n v).mr r = if r = n then v else h.mr r :=
  Table.get_set normZero h.m n r v

@[simp] theorem Hart.dr_setM (h : Hart) (n r : Nat) (v : BitVec 32) : (h.setM n v).dr r = h.dr r := rfl

@[simp] theorem Hart.isLive_setM (h : Hart) (n b : Nat) (v : BitVec 32) : (h.setM n v).isLive b = h.isLive b := rfl

theorem Hart.isLive_setD (h : Hart) (n : Nat) (v : BitVec 4096) {b : Nat} (hb : b < 64) :
    (h.setD n v).isLive b = (h.isLive b || decide (32 + n = b)) :=
  Hart.isLive_live _ _ hb

theorem Hart.same_setD (h : Hart) (n : Nat) (v : BitVec 4096) : h.Same (h.setD n v) [] [] [32 + n] :=
  { Hart.Same.refl h [] [] [32 + n] with
    d := fun r _ hr => by
      have hne : r ≠ n := by simpa using hr
      simp [Hart.dr_setD, hne]
    live := fun b hb hn => by
      have hne : 32 + n ≠ b := fun e => hn (by simp [e])
      simp [Hart.isLive_setD h n v (show b < 64 by omega), hne] }

theorem Hart.same_setM (h : Hart) (n : Nat) (v : BitVec 32) : h.Same (h.setM n v) [] [] [32 + n] :=
  { Hart.Same.refl h [] [] [32 + n] with
    m := fun r _ hr => by
      have hne : r ≠ n := by simpa using hr
      simp [Hart.mr_setM, hne] }

/-- The checks of R72, R69 and R70 on one field of a well-formed instruction. -/
theorem Desc.field_ok_of_okOps {d : Desc} {x : Ops} (hx : d.okOps x = true) {f : Nat} (hf : f ∈ [2, 3, 4]) :
    d.classOk x f = true ∧ (x.field f).placed f = true := by
  simp only [Desc.okOps, Bool.and_eq_true, List.all_eq_true] at hx
  obtain ⟨⟨⟨⟨-, hclass⟩, hplaced⟩, -⟩, -⟩ := hx
  exact ⟨hclass f hf, (hplaced f hf).1⟩

/-- A field that may be a d group alone is one (Table 4-2). -/
theorem Desc.eq_d_of_classOk {d : Desc} {x : Ops} {f : Nat} (hcls : d.classes f = 0x8) (hi32 : d.hasI32 = false)
    (hx : d.classOk x f = true) : ∃ first grp mark, x.field f = .d first grp mark := by
  cases hfield : x.field f with
  | d first grp mark => exact ⟨first, grp, mark, rfl⟩
  | _ => simp [Desc.classOk, hcls, hi32, hfield, Operand.cls, Nat.testBit] at hx

/-- An aligned d group ends within the 16 registers (R70). -/
theorem dGroup_le (first : Fin 16) (grp : Fin 5) (h : first.val % 2 ^ grp.val = 0) : first.val + 2 ^ grp.val ≤ 16 := by
  revert first grp; decide

/-! DMOV (R210). -/

/-- The core after the first `n` registers of the group from `a` are copied to the group from `d`: the loop of DMOV. -/
def Hart.copyDirs (h : Hart) (d a n : Nat) : Hart :=
  (List.range n).foldl (fun g i => (g.setD (d + i) (h.dr (a + i))).setM (d + i) (h.mr (a + i))) h

theorem Hart.copyDirs_succ (h : Hart) (d a n : Nat) :
    h.copyDirs d a (n + 1) = ((h.copyDirs d a n).setD (d + n) (h.dr (a + n))).setM (d + n) (h.mr (a + n)) := by
  simp [Hart.copyDirs, List.range_succ]

/-- The copy leaves a field that is neither the d or m registers nor the liveness. -/
theorem Hart.copyDirs_keeps {α : Type} (p : Hart → α)
    (hp : ∀ (h : Hart) d m l, p { h with d := d, m := m, livemask := l } = p h) (h : Hart) (d a n : Nat) :
    p (h.copyDirs d a n) = p h :=
  foldl_keeps p _ (fun g _ => hp g _ _ _) _ _

theorem Hart.dr_mr_copyDirs (h : Hart) (d a : Nat) {n k : Nat} (hk : k < n) :
    (h.copyDirs d a n).dr (d + k) = h.dr (a + k) ∧ (h.copyDirs d a n).mr (d + k) = h.mr (a + k) := by
  induction n with
  | zero => omega
  | succ n ih =>
    simp only [Hart.copyDirs_succ, Hart.dr_setM, Hart.dr_setD, Hart.mr_setM, Hart.mr_setD]
    obtain rfl | hlt := Nat.eq_or_lt_of_le (Nat.le_of_lt_succ hk)
    · simp
    · have hne : d + k ≠ d + n := by omega
      simpa only [hne, if_false] using ih hlt

theorem Hart.isLive_copyDirs (h : Hart) (d a : Nat) {n k : Nat} (hk : k < n) (hd : d + k < 32) :
    (h.copyDirs d a n).isLive (32 + (d + k)) = true := by
  induction n with
  | zero => omega
  | succ n ih =>
    rw [Hart.copyDirs_succ, Hart.isLive_setM, Hart.isLive_setD _ _ _ (by omega), Bool.or_eq_true, decide_eq_true_eq]
    obtain rfl | hlt := Nat.eq_or_lt_of_le (Nat.le_of_lt_succ hk)
    · exact .inr rfl
    · exact .inl (ih hlt)

theorem Hart.same_copyDirs (h : Hart) (d a n : Nat) :
    h.Same (h.copyDirs d a n) [] [] ((List.range n).map fun i => 32 + (d + i)) := by
  have hstep (g : Hart) (i : Nat) :
      g.Same ((g.setD (d + i) (h.dr (a + i))).setM (d + i) (h.mr (a + i))) [] [] [32 + (d + i)] :=
    ((g.same_setD _ _).trans (Hart.same_setM _ _ _)).mono (by simp)
  simpa only [Hart.copyDirs, List.map_eq_flatMap] using Hart.same_foldl hstep (List.range n) h

/-- The destination of a well-formed DMOV is a group of d registers that exist. -/
theorem dmov_dest {x : Ops} (hx : Desc.dmov.okOps x = true) : firstReg x.d + grpSize x.d ≤ 16 ∧
    liveBits x.d = (List.range (grpSize x.d)).map fun i => 32 + (firstReg x.d + i) := by
  obtain ⟨hclass, hplaced⟩ := Desc.field_ok_of_okOps hx (f := 2) (by decide)
  obtain ⟨first, grp, mark, hd⟩ := Desc.eq_d_of_classOk rfl rfl hclass
  rw [hd] at hplaced
  simp only [Operand.placed, Bool.and_eq_true, decide_eq_true_eq] at hplaced
  have hd : x.d = .d first grp mark := hd
  rw [hd]
  exact ⟨dGroup_le first grp hplaced.1, by simp [liveBits, firstReg, grpSize, Operand.grp, Nat.add_assoc]⟩

/-- A ready DMOV of a live group copies it and retires without a flag. -/
theorem retires_dmov {s : State} {n : Nat} {x : Ops} (hready : s.Ready n .dmov x) (hlive : (s.hart n).deadStop x [3] = none) :
    Retires (.dmov x) x s n ((s.hart n).copyDirs (firstReg x.d) (firstReg x.a) (grpSize x.d)) 0 := by
  obtain ⟨⟨hbegins, hcalm⟩, hguard⟩ := hready
  have hkeeps {α : Type} (p : Hart → α) (hp : ∀ (h : Hart) d m l, p { h with d := d, m := m, livemask := l } = p h) :=
    Hart.copyDirs_keeps p hp (s.hart n) (firstReg x.d) (firstReg x.a) (grpSize x.d)
  unfold Retires Completes exec execDmov
  refine runReg_ok hbegins (fun _ => hguard) hcalm ?_
    ⟨hkeeps (·.task) fun _ _ _ _ => rfl, hkeeps (·.victim) fun _ _ _ _ => rfl, hkeeps (·.stepArmed) fun _ _ _ _ => rfl,
      hkeeps (·.watchHit) fun _ _ _ _ => rfl, hkeeps (·.pc) fun _ _ _ _ => rfl⟩
  rw [hlive]
  rfl

/-- Settles O27: the loop of DMOV reads the registers as they were and writes the group of D alone, and the retirement
makes no register of that group dead, so the group is read as the loop left it. -/
theorem dmovCopies : Obligations.DmovCopies := by
  unfold Obligations.DmovCopies
  intro s n x h hready hx hlive
  obtain ⟨hend, hbits⟩ := dmov_dest hx
  obtain ⟨t, hrun, hturns⟩ := retires_dmov hready hlive
  have hart := hturns.1
  have hretired := (h.copyDirs (firstReg x.d) (firstReg x.a) (grpSize x.d)).same_goesOn x 0 (h.pc + 12)
  have hwritten (k : Nat) (hk : k < grpSize x.d) : 32 + (firstReg x.d + k) ∉ releasedBits x :=
    not_mem_releasedBits (hbits ▸ List.mem_map_of_mem (List.mem_range.2 hk))
  refine ⟨t, hrun, hturns.onlyHart, hturns.frame ?_ ?_, ?_, ?_, fun k hk => ?_⟩
  · exact Hart.copyDirs_keeps (·.vl) (fun _ _ _ _ => rfl) _ _ _ _
  · exact hbits ▸ h.same_copyDirs _ _ _
  · rw [hart]
    simpa [Hart.goesOn, Hart.addFlags] using Hart.copyDirs_keeps (·.fflags) (fun _ _ _ _ => rfl) h _ _ _
  · rw [hbits, List.forall_mem_map]
    intro k hk
    have hk : k < grpSize x.d := List.mem_range.1 hk
    rw [hart, hretired.live _ (by omega) (hwritten k hk)]
    exact h.isLive_copyDirs _ _ hk (by omega)
  · rw [hart, hretired.d _ (by omega) (hwritten k hk), hretired.m _ (by omega) (hwritten k hk)]
    exact h.dr_mr_copyDirs _ _ hk

end Sys2Proof.Machine

namespace Sys2Proof.Machine
open Sys2Proof

/-! The programs of a sequencer: what a post's list holds after a program of it is replaced. -/

/-- Replacing a program changes that program of that post and no other. -/
theorem State.prog_setProg (s : State) (post r k : Nat) (q : RowProg) :
    (s.setProg post q).prog r k = if r = post ∧ k = q.pid then (s.prog post k).map fun _ => q else s.prog r k := by
  unfold State.setProg State.setProgs State.prog State.progsAt
  rw [Table.get_set]
  by_cases hr : r = post
  · subst hr
    have hpid : (fun p : RowProg => decide (p.pid = k)) ∘ (fun p => if p.pid = q.pid then q else p) = fun p => decide (p.pid = k) := by
      funext p
      by_cases hp : p.pid = q.pid <;> simp [hp]
    simp only [if_true, List.find?_map, hpid, true_and]
    cases hfind : (Table.get [] s.progs r).find? (fun p => p.pid = k) with
    | none => simp
    | some p =>
      have hk : p.pid = k := by simpa using List.find?_some hfind
      by_cases hkq : k = q.pid <;> simp [hk, hkq]
  · simp [hr]

/-- A program that goes on as `q`, after no change but that of its dies' waves. -/
theorem State.rowGoes_setProg {s : State} {post : Nat} {p q : RowProg} (w : Table Nat) (hprog : s.prog post p.pid = some p)
    (hpid : q.pid = p.pid) : s.RowGoes ({ s with waves := w }.setProg post q) post p q := by
  have hold (r k : Nat) : ({ s with waves := w } : State).prog r k = s.prog r k := rfl
  refine ⟨?_, fun k hk => ?_, fun r k hr => ?_, rfl, rfl, rfl, rfl, rfl⟩
  · simp [State.prog_setProg, hold, hpid, hprog]
  · simp [State.prog_setProg, hold, hpid, hk]
  · simp [State.prog_setProg, hold, hr]

/-! A row instruction that may run (R252, R260). -/

/-- The waves left once each die of a program's region has used `cost` of its own (R260). -/
def State.wavesAfter (s : State) (post : Nat) (p : RowProg) (cost : Nat) : Table Nat :=
  ((List.range 16).filter fun d => s.dieShare p d ≠ 0).foldl
    (fun w d => Table.set 0 w (waveKey post d) (Table.get 0 w (waveKey post d) - cost)) s.waves

theorem runRow_goes {cost post : Nat} {s t : State} {p q : RowProg} {body : Nat → RowProg → RowDone}
    (hready : s.RowReady post p cost) (hbody : body post p = .goes t q) :
    runRow cost s body = .next ({ t with waves := s.wavesAfter post p cost }.setProg post { q with ops := p.ops + cost }) := by
  obtain ⟨hturn, hprog, hruns, hstep, hwaves, hbehind⟩ := hready
  have hadmitted : ((List.range 16).filter fun d => s.dieShare p d ≠ 0).all
      (fun d => cost ≤ Table.get 0 s.waves (waveKey post d)) = true := by
    simpa [or_iff_not_imp_left] using hwaves
  have hfirst : (cost = 0 || !s.behind post p) = true := by simpa using hbehind
  simp only [runRow, hturn, hprog, hruns, hbody, hadmitted, hfirst, Nat.not_lt.2 hstep]
  rfl

theorem runRow_stops {cost post : Nat} {s : State} {p : RowProg} {c : Cause} {body : Nat → RowProg → RowDone}
    (hready : s.RowReady post p cost) (hbody : body post p = .stop c) :
    runRow cost s body = .next (s.stopProg post p c 0) := by
  obtain ⟨hturn, hprog, hruns, hstep, -, -⟩ := hready
  simp [runRow, hturn, hprog, hruns, hbody, Nat.not_lt.2 hstep]

/-! Plane bases and plane indices (R250). -/

/-- The result of R250, in unbounded integers. -/
def planeResult (old : Nat) (add : Bool) (imm : Nat) : Int :=
  if add then old + (BitVec.ofNat 16 imm).toInt else (BitVec.ofNat 16 imm).toInt

theorem planeValue_eq (old : Nat) (add : Bool) (imm top : Nat) : planeValue old add imm top =
    if 0 ≤ planeResult old add imm ∧ planeResult old add imm ≤ top then some (planeResult old add imm).toNat else none := by
  cases add <;> simp [planeValue, planeResult, sextN_eq_toInt_ofNat]

/-- What RBASE and RPLANE share: `reg` reads the registers of their kind, `put` writes one. -/
def planeRow (reg : RowProg → Nat → Nat) (put : RowProg → Nat → Nat → RowProg) (add : Bool) (top : Nat) (x : Ops) (s : State)
    (p : RowProg) : RowDone :=
  match planeValue (reg p x.d.imm) add x.a.imm top with
  | some v => .goes s { put p x.d.imm v with idx := p.idx + 1 }
  | none => .stop .addrRange

section
variable {reg : RowProg → Nat → Nat} {put : RowProg → Nat → Nat → RowProg} {add : Bool} {top : Nat} {x : Ops} {s : State} {p : RowProg}

theorem planeRow_goes (hlow : 0 ≤ planeResult (reg p x.d.imm) add x.a.imm) (hhigh : planeResult (reg p x.d.imm) add x.a.imm ≤ top) :
    planeRow reg put add top x s p =
      .goes s { put p x.d.imm (planeResult (reg p x.d.imm) add x.a.imm).toNat with idx := p.idx + 1 } := by
  simp only [planeRow, planeValue_eq, hlow, hhigh, and_self, if_true]

theorem planeRow_stops (hout : planeResult (reg p x.d.imm) add x.a.imm < 0 ∨ top < planeResult (reg p x.d.imm) add x.a.imm) :
    planeRow reg put add top x s p = .stop .addrRange := by
  have hnot : ¬ (0 ≤ planeResult (reg p x.d.imm) add x.a.imm ∧ planeResult (reg p x.d.imm) add x.a.imm ≤ top) := by omega
  simp only [planeRow, planeValue_eq, if_neg hnot]

end

def RowProg.base (p : RowProg) (n : Nat) : Nat := p.pb.getD n 0
def RowProg.setBase (p : RowProg) (n v : Nat) : RowProg := { p with pb := p.pb.set n v }
def RowProg.index (p : RowProg) (n : Nat) : Nat := p.px.getD n 0
def RowProg.setIndex (p : RowProg) (n v : Nat) : RowProg := { p with px := p.px.set n v }

theorem runBase_eq (x : Ops) (s : State) (add : Bool) :
    runBase x s add = runRow 0 s fun _ => planeRow RowProg.base RowProg.setBase add 511 x s := rfl

theorem runPlane_eq (x : Ops) (s : State) (add : Bool) :
    runPlane x s add = runRow 0 s fun _ => planeRow RowProg.index RowProg.setIndex add 63 x s := rfl

/-- R250 of one instruction: within 0 to `top` the register takes the result, and outside the program stops. -/
def SetsPlane (i : Ops → Instr) (reg : RowProg → Nat → Nat) (put : RowProg → Nat → Nat → RowProg) (add : Bool) (top : Nat) : Prop :=
  ∀ s post p x, s.RowReady post p 0 →
    let v := planeResult (reg p x.d.imm) add x.a.imm
    (0 ≤ v → v ≤ top → ∃ t, exec (i x) s = .next t ∧ s.RowGoes t post p { put p x.d.imm v.toNat with idx := p.idx + 1 } ∧
      t.rows = s.rows) ∧
    (v < 0 ∨ top < v → exec (i x) s = .next (s.stopProg post p .addrRange 0))

/-- An instruction that runs `planeRow` does as R250 says, where `put` writes no field that the sequencer keeps for itself. -/
theorem SetsPlane.of_planeRow {i : Ops → Instr} {reg : RowProg → Nat → Nat} {put : RowProg → Nat → Nat → RowProg} {add : Bool}
    {top : Nat} (hexec : ∀ x s, exec (i x) s = runRow 0 s fun _ => planeRow reg put add top x s)
    (hpid : ∀ p n v, (put p n v).pid = p.pid) (hops : ∀ p n v, (put p n v).ops = p.ops) : SetsPlane i reg put add top := by
  refine fun s post p x hready => ⟨fun hlow hhigh => ?_, fun hout => (hexec x s).trans (runRow_stops hready (planeRow_stops hout))⟩
  have ⟨_, hprog, _⟩ := hready
  have hrun := runRow_goes (body := fun _ => planeRow reg put add top x s) hready (planeRow_goes hlow hhigh)
  rw [Nat.add_zero, ← hops p x.d.imm] at hrun
  exact ⟨_, (hexec x s).trans hrun, State.rowGoes_setProg _ hprog (hpid p _ _), rfl⟩

/-- Settles O45: RBASE and RPLANE run the same body over their registers, which goes on just where `planeValue` holds a
result, the sign-extended `e` of the spec. -/
theorem planeRegisters : Obligations.PlaneRegisters := by
  unfold Obligations.PlaneRegisters
  have hbase (i : Ops → Instr) (add : Bool) (hexec : ∀ x s, exec (i x) s = runBase x s add) :
      SetsPlane i RowProg.base RowProg.setBase add 511 :=
    .of_planeRow (fun x s => (hexec x s).trans (runBase_eq x s add)) (fun _ _ _ => rfl) fun _ _ _ => rfl
  have hplane (i : Ops → Instr) (add : Bool) (hexec : ∀ x s, exec (i x) s = runPlane x s add) :
      SetsPlane i RowProg.index RowProg.setIndex add 63 :=
    .of_planeRow (fun x s => (hexec x s).trans (runPlane_eq x s add)) (fun _ _ _ => rfl) fun _ _ _ => rfl
  exact ⟨hbase .rbaseSet false fun _ _ => rfl, hbase .rbaseAdd true fun _ _ => rfl,
    hplane .rplaneSet false fun _ _ => rfl, hplane .rplaneAdd true fun _ _ => rfl⟩

end Sys2Proof.Machine

namespace Sys2Proof.Machine
open Sys2Proof

/-! The end of a task (R292, R328). -/

/-- A core instruction whose meaning stops before it changes the state stops with no other effect. -/
theorem stops_of_coreBody {d : Desc} {x : Ops} {s : State} {n : Nat} {e : Stop} {body : Nat → Hart → Done}
    (hexec : exec (d.ctor x) s = runCore d x s true none body) (hready : s.Ready n d x)
    (hbody : body n (s.hart n) = .stop s e) : Stops (d.ctor x) s n e := by
  obtain ⟨⟨hbegins, -⟩, hguard⟩ := hready
  have hrun := runCore_begins (whole := true) (long := none) (body := body) hbegins fun _ => hguard
  rw [hbody] at hrun
  exact ⟨s, ⟨rfl, fun _ _ => rfl, rfl⟩, hexec.trans hrun⟩

/-- PEG_BUSY is the first check of what DONE and END share, before the outstanding counts and the successors. -/
theorem stops_pegBusy_of_runEnd {d : Desc} {x : Ops} {s : State} {n : Nat} {done : Bool}
    (hexec : exec (d.ctor x) s = runEnd d x s done) (hready : s.Ready n d x) (hpegs : (s.hart n).pegmask ≠ 0) :
    Stops (d.ctor x) s n ⟨.pegBusy, (s.hart n).pegmask, 0, 0, 0, 0⟩ :=
  stops_of_coreBody hexec hready (if_pos hpegs)

/-- Settles O34: DONE and END share one meaning, whose first check is PEGMASK. -/
theorem pegBusy : Obligations.PegBusy := by
  unfold Obligations.PegBusy
  intro s n x hpegs
  exact ⟨fun hready => stops_pegBusy_of_runEnd (d := .done) (done := true) rfl hready hpegs,
    fun hready => stops_pegBusy_of_runEnd (d := .endTask) (done := false) rfl hready hpegs⟩

end Sys2Proof.Machine
